-- ==== Sys2Proof/Word.lean ====
section
/-! DEFINITION. The word types of HUFFCORE: every width the spec gives a name to (00_scope.md R4, R5, R9). -/

namespace Sys2Proof

/-- A list of bits in stream order, first bit leftmost (R9). -/
abbrev Bits := List Bool
/-- One byte of a stream (BYTE_W = 8, R4). -/
abbrev Byte := BitVec 8
/-- A word of the host window, and the command word (R61, R100). -/
abbrev Word := BitVec 32
/-- A word index of the host window (R61). -/
abbrev WinIdx := BitVec 14
/-- A leaf's symbol field (SYM_W = 9, R4). -/
abbrev Sym := BitVec 9
/-- A node index (IDX_W = 10, R5). -/
abbrev NodeIdx := BitVec 10
/-- The OP field of a command word (R100). -/
abbrev Opcode := BitVec 4

end Sys2Proof
end

