-- ==== Sys2Proof/Syntax.lean ====
section
/-! DEFINITION. The instructions of HUFFCORE: the fourteen commands (30_encoding.md R101) and the two header tokens
(30_encoding.md R110), one constructor per row of spec/opcode_table.json. -/

namespace Sys2Proof

/-- One row of the opcode table each. Every operand of a command is implicit (R100); a LEAF token carries
its symbol. -/
inductive Instr where
  /-- CLEAR, R224. -/
  | clear
  /-- COUNT, R131. -/
  | count
  /-- BUILD, R140. -/
  | build
  /-- GENCODES, R155. -/
  | gencodes
  /-- WRMAGIC, R165. -/
  | wrmagic
  /-- WRHDR, R168. -/
  | wrhdr
  /-- REWIND, R185. -/
  | rewind
  /-- ENCODE, R188. -/
  | encode
  /-- CLOSE, R194. -/
  | close
  /-- RDMAGIC, R172. -/
  | rdmagic
  /-- RDHDR, R175. -/
  | rdhdr
  /-- DECODE, R200. -/
  | decode
  /-- COMPRESS, R218. -/
  | compress
  /-- DECOMPRESS, R221. -/
  | decompress
  /-- HDR.INTERNAL, R110. -/
  | hdrInternal
  /-- HDR.LEAF with its symbol, R110. -/
  | hdrLeaf (sym : Nat)
  deriving DecidableEq, Repr

end Sys2Proof
end

