-- ==== Sys2Proof/WellFormed.lean ====
section
/-! DEFINITION. Which instructions can be encoded: a LEAF token's symbol fits its 9-bit field (R4, R110). -/

namespace Sys2Proof

/-- Is this one of the fourteen command words (R101)? -/
def Instr.isCommand : Instr → Bool
  | .hdrInternal | .hdrLeaf _ => false
  | .clear | .count | .build | .gencodes | .wrmagic | .wrhdr | .rewind | .encode | .close | .rdmagic | .rdhdr
  | .decode | .compress | .decompress => true

/-- A command has no operand to check (R100); a LEAF token's symbol is below `2^SYM_W` (R110). -/
def Instr.wf : Instr → Bool
  | .hdrLeaf sym => decide (sym < 2 ^ 9)
  | .hdrInternal => true
  | .clear | .count | .build | .gencodes | .wrmagic | .wrhdr | .rewind | .encode | .close | .rdmagic | .rdhdr
  | .decode | .compress | .decompress => true

end Sys2Proof
end

