-- ==== Sys2Proof/Decode.lean ====
section
/-! DEFINITION. Integers and bit lists (00_scope.md R9), the decoder of command words and header tokens
(30_encoding.md R100 to R103, R110), and after it the encoder. -/

namespace Sys2Proof

/-! ## Integers as bit lists, most significant bit first (R9, 20_memory.md R67) -/

/-- `bits(w, v)`: the `w` low bits of `v`, most significant first (R9). -/
def bits : Nat → Nat → Bits
  | 0, _ => []
  | w + 1, v => v.testBit w :: bits w v

/-- `val(c)`: the integer a bit list reads as, most significant bit first; `val(ε) = 0` (R9). -/
def val : Bits → Nat
  | [] => 0
  | b :: c => (if b then 2 ^ c.length else 0) + val c

/-! ## Decoding -/

/-- Why a word or a bit list is no instruction. -/
inductive Reject where
  /-- OP is 0x0 or 0xF (R102). -/
  | reservedOpcode
  /-- A bit of 31:4 is set (R102). -/
  | upperBitsSet
  /-- No bit is left for a token's tag (43_header_codec.md R180). -/
  | tagMissing
  /-- Fewer than 9 bits are left for a LEAF token's symbol (43_header_codec.md R180). -/
  | symbolCut
  /-- Bits follow a token that should stand alone. -/
  | trailingBits
  deriving DecidableEq, Repr

/-- The command an opcode selects; 0x0 and 0xF are reserved (R101, R102). -/
def commandOf (op : Opcode) : Option Instr :=
  match op.toNat with
  | 1 => some .clear
  | 2 => some .count
  | 3 => some .build
  | 4 => some .gencodes
  | 5 => some .wrmagic
  | 6 => some .wrhdr
  | 7 => some .rewind
  | 8 => some .encode
  | 9 => some .close
  | 10 => some .rdmagic
  | 11 => some .rdhdr
  | 12 => some .decode
  | 13 => some .compress
  | 14 => some .decompress
  | _ => none

/-- The OP field, bits 3:0 of a command word (R100). -/
def opField (w : Word) : Opcode := w.extractLsb' 0 4

/-- Decode a command word: bits 31:4 must be zero, OP must be defined (R100 to R102). -/
def decodeCommand (w : Word) : Except Reject Instr :=
  if w.extractLsb' 4 28 = 0 then
    match commandOf (opField w) with
    | some i => .ok i
    | none => .error .reservedOpcode
  else .error .upperBitsSet

/-- Decode one header token at the head of a bit list and give the rest: `0` is INTERNAL, `1` then
`bits(9, sym)` is LEAF (R110). -/
def decodeToken : Bits → Except Reject (Instr × Bits)
  | [] => .error .tagMissing
  | false :: rest => .ok (.hdrInternal, rest)
  | true :: rest =>
    if rest.length < 9 then .error .symbolCut else .ok (.hdrLeaf (val (rest.take 9)), rest.drop 9)

/-- The stream bits of a token that spec/opcode_table.json numbers: stream bit `k` is bit `k` of `w`
("stream bit 0 of the token" is its tag), and every stream bit above `nbits` is 0. Log entry 15. -/
def tokenBits (nbits w : Nat) : Bits :=
  (List.range 16).map (fun k => decide (k < nbits) && w.testBit k)

/-- The instruction the decoder reads from the bits of an opcode-table row: 32 bits are a command word,
any other number of bits is a header token in stream order. Log entry 15. -/
def decodeTableWord (nbits w : Nat) : Option Instr :=
  if nbits = 32 then
    match decodeCommand (BitVec.ofNat 32 w) with
    | .ok i => some i
    | .error _ => none
  else
    match decodeToken (tokenBits nbits w) with
    | .ok (i, _) => some i
    | .error _ => none

/-! ## Encoding -/

/-- A command's opcode (R101); a header token has none and answers the reserved 0x0. -/
def opcodeOf : Instr → Opcode
  | .clear => 0x1
  | .count => 0x2
  | .build => 0x3
  | .gencodes => 0x4
  | .wrmagic => 0x5
  | .wrhdr => 0x6
  | .rewind => 0x7
  | .encode => 0x8
  | .close => 0x9
  | .rdmagic => 0xA
  | .rdhdr => 0xB
  | .decode => 0xC
  | .compress => 0xD
  | .decompress => 0xE
  | .hdrInternal => 0x0
  | .hdrLeaf _ => 0x0

/-- A command's word: its opcode with zeros above (R100, R101). -/
def encodeCommand (i : Instr) : Word := (opcodeOf i).zeroExtend 32

/-- A header token's bits (R110); a command has none. -/
def encodeToken : Instr → Bits
  | .hdrInternal => [false]
  | .hdrLeaf sym => true :: bits 9 sym
  | .clear | .count | .build | .gencodes | .wrmagic | .wrhdr | .rewind | .encode | .close | .rdmagic | .rdhdr
  | .decode | .compress | .decompress => []

/-- The two shapes an encoded instruction has: a 32-bit word (R103) or a token's bits (R110). -/
inductive Encoding where
  | word (w : Word)
  | token (c : Bits)
  deriving DecidableEq, Repr

/-- The encoding of an instruction (R101, R110). -/
def encode (i : Instr) : Encoding :=
  if i.isCommand then .word (encodeCommand i) else .token (encodeToken i)

/-- Decode either shape; a token must use up its bits. -/
def decode : Encoding → Except Reject Instr
  | .word w => decodeCommand w
  | .token c =>
    match decodeToken c with
    | .ok (i, []) => .ok i
    | .ok (_, _ :: _) => .error .trailingBits
    | .error r => .error r

end Sys2Proof
end

