-- ==== Sys2Proof/Config.lean ====
section
/-! DEFINITION. What an implementation of HUFFCORE fixes (00_scope.md R4, R5) and the free values (10_state.md R37). -/

namespace Sys2Proof

/-- `EOS = 256`, the end-of-stream symbol (R4). -/
def Config.eos : Nat := 256
/-- `NSYM = 257`, the size of the symbol space (R4). -/
def Config.nsym : Nat := 257
/-- `NODE_CAP = 513`, the entries of the node table (R5). -/
def Config.nodeCap : Nat := 513
/-- `NIL = 0x3FF`, the node index that means "no node" (R5). -/
def Config.nil : NodeIdx := 0x3FF
/-- The greatest number of nodes on a path from the root to a leaf of a complete tree in NT: a leaf lies
at depth at most `CODE_MAX = 256` (R5, 42_code_table.md R160, 70_reset_and_hazards.md R270). -/
def Config.maxLevels : Nat := 257

/-- The two OPEN parameters of R5 (R21: parameters of every step, not state). `countWLess1` is COUNT_W - 1,
so that every value of the type is a legal COUNT_W, 1 to 32. Log entry 1. -/
structure Config.Params where
  magic       : Word
  countWLess1 : Fin 32
  deriving DecidableEq, Repr

/-- COUNT_W, the bits of a count and of a weight (R5). -/
def Config.countW (p : Config.Params) : Nat := p.countWLess1.val + 1

/-- `2^COUNT_W`: the first count or weight that does not fit (40_frequency_count.md R133, 41_tree_build.md R147). -/
def Config.countLimit (p : Config.Params) : Nat := 2 ^ Config.countW p

/-- The values the spec suggests: MAGIC 0xFACE8201, COUNT_W 32 (R5). DESIGN CHOICE, log entry 1. -/
def Config.defaultParams : Config.Params := { magic := 0xFACE8201, countWLess1 := 31 }

/-- FREE VALUE (log entry 5): the word a host read draws where R37 leaves the content unspecified
("each read is a free draw", 93_implementation_defined.md U9); the argument counts the draws. -/
opaque Config.freeWord : Nat → Word

end Sys2Proof
end

