-- ==== Sys2Proof/Machine/State.lean ====
section
/-! DEFINITION. The state of HUFFCORE (10_state.md R20 to R38) as plain data, the reasons a step can stop, and the
state after reset. -/

namespace Sys2Proof.Machine

/-- STATUS.STATE (R23); the value 3 never occurs. -/
inductive RunState where
  | idle
  | busy
  | fault
  deriving DecidableEq, Repr

/-- STATUS.DST, the payload decoder's state (R23, R26); the value 3 never occurs. -/
inductive DecState where
  | walking
  | atLeafSym
  | atLeafEof
  deriving DecidableEq, Repr

/-- STATUS.ERR (R23, 60_exceptions.md R230); codes 9 to 15 never occur. -/
inductive FaultCode where
  | none
  | formatError
  | streamCorrupt
  | badInput
  | decodeCorrupt
  | capacityExceeded
  | treeOverflow
  | codeMissing
  | illegalCommand
  deriving DecidableEq, Repr

/-- An entry of the node table NT (R30): a Leaf has no children (NIL), an Internal entry no symbol (0). -/
inductive Node where
  | leaf (sym : Sym) (weight : Nat)
  | internal (left right : NodeIdx) (weight : Nat)
  deriving DecidableEq, Repr

/-- A table as the list of its entries, indices strictly rising; an unlisted index reads as the table's
default (FREQ: 0; CT: valid = 0; NT: unspecified, R37). Log entry 6. -/
abbrev Table (α : Type) := List (Nat × α)

/-- SRC, the state of the bit source (R33). -/
structure Src where
  data : List Byte
  pos  : Nat
  exh  : Bool
  rew  : Bool
  deriving DecidableEq, Repr

/-- SNK, the state of the bit sink (R34). -/
structure Snk where
  bits   : Bits
  closed : Bool
  deriving DecidableEq, Repr

/-- An INTERNAL token whose node is still open: its index, and its left child's index once that subtree is
complete. The stack of open `parse` calls (43_header_codec.md R175, R179) is a list of these, innermost
first. Log entry 4. -/
structure HdrFrame where
  node : NodeIdx
  left : Option NodeIdx
  deriving DecidableEq, Repr

/-- What the host can do (60_exceptions.md R250). -/
inductive HostAction where
  | reset
  | attachSrc (data : List Byte)
  | attachSnk
  | hwrite (idx : WinIdx) (word : Word)
  | hread (idx : WinIdx)
  | collect
  /-- A write of `word` to CMD, and a reset asserted once the command it issues has made `calls` port calls
  (70_reset_and_hazards.md R260, R261). Log entry 10. -/
  | cmdReset (word : Word) (calls : Nat)
  deriving DecidableEq, Repr

/-- What a host read or a collect returns. -/
inductive Reply where
  | word (w : Word)
  | bytes (b : List Byte)
  deriving DecidableEq, Repr

/-- Why the machine stops with a fault of the MODEL. No run from reset reaches one (log entry 8); the faults of
60_exceptions.md R230 are next states, not these. -/
inductive Fault where
  /-- A walk of NT read an index that holds no entry. Raised by GENCODES, WRHDR, DECODE in a state in which the
  invariant of R30 fails. Safe: the hardware has no such state. -/
  | badNode (idx : Nat)
  /-- A walk of NT went deeper than 257 levels (42_code_table.md R160). Raised by GENCODES and WRHDR in a state in
  which the invariant of R30 fails. Safe: the hardware has no such state. -/
  | walkTooDeep
  /-- A command's loop used up its bound. Raised by no state: every loop's bound is above its number of rounds
  (70_reset_and_hazards.md R271). Safe. -/
  | loopBound
  deriving DecidableEq, Repr

/-- Why a step is given no meaning. -/
inductive Refusal where
  /-- An instruction without a meaning. Raised by exec's arm of it. Safe. -/
  | notModelled (mnemonic : String)
  /-- A command calls the source and none was ever attached (70_reset_and_hazards.md R262, U11). Raised by the
  port operations. Safe. -/
  | sourceNotAttached
  /-- A command or a fault entry calls the sink and none was ever attached (R262, U11). Raised by the port
  operations and by takeFault. Safe. -/
  | sinkNotAttached
  /-- A write on a closed sink (20_memory.md R73, U12). Raised by withSink; the prerequisites of R216 keep it
  from happening. Safe. -/
  | sinkClosed
  /-- A host read of CMD or of an unmapped index (20_memory.md R65, U10). Raised by hostRead. Safe. -/
  | windowRead (idx : WinIdx)
  /-- A host write to an index other than CMD and the FREQ window (R65, U10). Raised by hostWrite. Safe. -/
  | windowWrite (idx : WinIdx)
  /-- The host collects the bytes of a sink that is not closed (R250 allows it "after SNK.closed = true").
  Raised by hostCollect. Safe. -/
  | collectBeforeClose
  deriving DecidableEq, Repr

/-- The whole state (R20), with the model's own fields `hdr`, `params`, `host`, `replies` and `draws` after it. -/
structure State where
  /-- STATUS.STATE (R23). -/
  runState : RunState
  /-- STATUS.ERR (R23). -/
  err      : FaultCode
  /-- STATUS.TV (R23, R28). -/
  tv       : Bool
  /-- STATUS.CV (R23, R28). -/
  cv       : Bool
  /-- STATUS.TSRC (R23, R28): false built, true decoded. -/
  tsrc     : Bool
  /-- STATUS.DST (R23). -/
  dst      : DecState
  /-- STATUS.FOP (R23). -/
  fop      : Opcode
  /-- ROOT (R24). -/
  root     : NodeIdx
  /-- NCNT (R25). -/
  ncnt     : NodeIdx
  /-- CUR (R26). -/
  cur      : NodeIdx
  /-- FREQ (R29): the nonzero counts by symbol. -/
  freq     : Table Nat
  /-- NT (R30): the entries written since NCNT was last zeroed, by node index. -/
  nt       : Table Node
  /-- CT (R32): the code of each symbol whose valid bit is 1; len is its length. -/
  ct       : Table Bits
  /-- SRC (R33); none before the first attach (R38). -/
  src      : Option Src
  /-- SNK (R34); none before the first attach (R38). -/
  snk      : Option Snk
  /-- RDHDR's stack of open nodes; empty between commands (R20). Log entry 4. -/
  hdr      : List HdrFrame
  /-- MAGIC and COUNT_W (R5, R21). Log entry 1. -/
  params   : Config.Params
  /-- The host's pending actions, oldest first (R250). Log entry 2. -/
  host     : List HostAction
  /-- What host reads and collects returned, oldest first. Log entry 2. -/
  replies  : List Reply
  /-- How many free words have been drawn (R37). Log entry 5. -/
  draws    : Nat
  deriving DecidableEq, Repr

/-- The state after reset (R36, R37): IDLE, no flag set, ROOT = CUR = NIL, NCNT = 0, every count 0, no valid
code, no specified node; the ports not yet attached (R38); no host action pending. -/
def State.reset : State where
  runState := .idle
  err      := .none
  tv       := false
  cv       := false
  tsrc     := false
  dst      := .walking
  fop      := 0
  root     := Config.nil
  ncnt     := 0
  cur      := Config.nil
  freq     := []
  nt       := []
  ct       := []
  src      := none
  snk      := none
  hdr      := []
  params   := Config.defaultParams
  host     := []
  replies  := []
  draws    := 0

end Sys2Proof.Machine
end

