-- ==== Sys2Proof/Machine/Ops.lean ====
section
/-! DEFINITION. The named operations over tables and ports (20_memory.md R67 to R76), the outcome of a command's
body, fault entry (60_exceptions.md R236) and the way out of FAULT (46_orchestration.md R224). -/

namespace Sys2Proof.Machine

/-! ## Tables: sorted lists of entries (log entry 6) -/

/-- `T[i]`, or none where no entry is listed. -/
def tableGet {α : Type} : Table α → Nat → Option α
  | [], _ => none
  | (k, v) :: t, i => if k = i then some v else tableGet t i

/-- `T[i] <- v`: replace or insert, keeping the indices strictly rising. -/
def tablePut {α : Type} : Table α → Nat → α → Table α
  | [], i, v => [(i, v)]
  | (k, u) :: t, i, v =>
    if k < i then (k, u) :: tablePut t i v
    else if k = i then (i, v) :: t
    else (i, v) :: (k, u) :: t

/-- Make index `i` read as the table's default. -/
def tableErase {α : Type} : Table α → Nat → Table α
  | [], _ => []
  | (k, u) :: t, i => if k = i then t else (k, u) :: tableErase t i

/-- `FREQ[s]` (R29). -/
def freqAt (freq : Table Nat) (s : Nat) : Nat := (tableGet freq s).getD 0

/-- `FREQ[s] <- n` (R29); a count of zero is not listed. -/
def freqPut (freq : Table Nat) (s n : Nat) : Table Nat :=
  if n = 0 then tableErase freq s else tablePut freq s n

/-- `NT[i]` (R30), none where the entry is unspecified (R37). -/
def nodeAt (nt : Table Node) (i : NodeIdx) : Option Node := tableGet nt i.toNat

/-- `NT[i].weight` (R30). -/
def nodeWeight : Node → Nat
  | .leaf _ w => w
  | .internal _ _ w => w

/-! ## The bit source and the bit sink (R67 to R76) -/

/-- The source's bit list: each byte most significant bit first (R68). -/
def sourceBits (data : List Byte) : Bits := data.flatMap (fun b => bits 8 b.toNat)

/-- `SrcRead(w)` (R70): `none` is EXH (R71); a short read moves to the end and is sticky. -/
def srcRead (w : Nat) (p : Src) : Option Nat × Src :=
  if p.exh = true ∨ 8 * p.data.length < p.pos + w then
    (none, { p with pos := 8 * p.data.length, exh := true })
  else
    (some (val (((sourceBits p.data).drop p.pos).take w)), { p with pos := p.pos + w })

/-- `SrcRewind()` (R75). -/
def srcRewind (p : Src) : Src := { p with pos := 0, exh := false, rew := true }

/-- `SnkWrite(w, v)` on an open sink (R73). -/
def snkWrite (w v : Nat) (k : Snk) : Snk := { k with bits := k.bits ++ bits w v }

/-- `SnkClose()` (R74): zero bits up to a byte boundary. -/
def snkClose (k : Snk) : Snk :=
  { bits := k.bits ++ List.replicate ((8 - k.bits.length % 8) % 8) false, closed := true }

/-- The bytes a bit list holds, byte `k` being `val(bits[8k .. 8k+7])` (R69). -/
def bytesOf (c : Bits) : List Byte :=
  (List.range (c.length / 8)).map (fun k => BitVec.ofNat 8 (val ((c.drop (8 * k)).take 8)))

/-- One port call (20_memory.md R70 to R76), the unit a reset can fall between: each call is indivisible (R76).
`snkClose` is also fault entry's close (60_exceptions.md R236 step 3). -/
inductive PortCall where
  | srcRead (w : Nat)
  | srcRewind
  | snkWrite (w v : Nat)
  | snkClose
  deriving DecidableEq, Repr

/-- What a call leaves in the ports. A call no command makes (a port never attached, a write or close of a closed sink
(R73), a second rewind (R75)) leaves them as they are. -/
def playCall (s : State) : PortCall → State
  | .srcRead w => { s with src := s.src.map fun p => (srcRead w p).2 }
  | .srcRewind => { s with src := s.src.map fun p => if p.rew then p else srcRewind p }
  | .snkWrite w v => { s with snk := s.snk.map fun k => if k.closed then k else snkWrite w v k }
  | .snkClose => { s with snk := s.snk.map fun k => if k.closed then k else snkClose k }

/-- The ports after a list of calls, in order (R76). -/
def playCalls (calls : List PortCall) (s : State) : State := calls.foldl playCall s

/-! ## What a command's body can end in -/

/-- The end of a primitive's pseudocode. -/
inductive Run where
  /-- It ran to its end. -/
  | done (s : State)
  /-- It raised a fault; the state is that after fault entry (R236). -/
  | faulted (s : State)
  /-- The model stops (log entry 8). -/
  | stopped (f : Fault)
  /-- The spec gives no meaning (U10 to U12). -/
  | refused (r : Refusal)
  deriving DecidableEq, Repr

/-- Statement after statement, primitive after primitive: a raise ends the command at once (R236 step 1). -/
def Run.andThen : Run → (State → Run) → Run
  | .done s, k => k s
  | .faulted s, _ => .faulted s
  | .stopped f, _ => .stopped f
  | .refused r, _ => .refused r

/-- A fault of R230 is a next state. -/
def Run.outcome : Run → Host.Outcome State Fault Refusal
  | .done s => .next s
  | .faulted s => .next s
  | .stopped f => .fault f
  | .refused r => .refused r

/-- The body calls the source (R262: refused when none was attached). -/
def withSource (s : State) (k : Src → Run) : Run :=
  match s.src with
  | none => .refused .sourceNotAttached
  | some p => k p

/-- The body writes the sink (R262, R73: refused when none was attached or it is closed). -/
def withSink (s : State) (k : Snk → Run) : Run :=
  match s.snk with
  | none => .refused .sinkNotAttached
  | some k' => if k'.closed then .refused .sinkClosed else k k'

/-! ## Fault entry and the way out (R236, R224, R260) -/

/-- The sink fault entry leaves: closed, with a pad only if it was open (R236 step 3). -/
def closeIfOpen (k : Snk) : Snk := if k.closed then k else snkClose k

/-- `raise F` in the phase with opcode `op` (R236): record the first fault, close the sink, STATE <- FAULT. The
running command stops, so its stack is dropped (R20). -/
def takeFault (c : FaultCode) (op : Opcode) (s : State) : Run :=
  match s.snk with
  | none => .refused .sinkNotAttached
  | some k =>
    .faulted { s with
      err := if s.err = .none then c else s.err
      fop := if s.err = .none then op else s.fop
      snk := some (closeIfOpen k)
      runState := .fault
      hdr := [] }

/-- The reset state of the registers and tables (R36, R37), reached by CLEAR (R224) and by reset (R260); the ports
are not touched (R225, R261). -/
def clearCore (s : State) : State :=
  { s with
    runState := .idle
    err := .none
    tv := false
    cv := false
    tsrc := false
    dst := .walking
    fop := 0
    root := Config.nil
    ncnt := 0
    cur := Config.nil
    freq := []
    nt := []
    ct := []
    hdr := [] }

end Sys2Proof.Machine
end

