-- ==== Sys2Proof/Machine/Flags.lean ====
section
/-! DEFINITION. STATUS as the host reads it (10_state.md R23), the prerequisites of the commands and their acceptance
(46_orchestration.md R215, R216). -/

namespace Sys2Proof.Machine

/-! ## STATUS (R23) -/

/-- STATUS.STATE's code (R23). -/
def runStateCode : RunState → Nat
  | .idle => 0
  | .busy => 1
  | .fault => 2

/-- STATUS.DST's code (R23). -/
def decStateCode : DecState → Nat
  | .walking => 0
  | .atLeafSym => 1
  | .atLeafEof => 2

/-- STATUS.ERR's code (60_exceptions.md R230). -/
def faultCodeNumber : FaultCode → Nat
  | .none => 0
  | .formatError => 1
  | .streamCorrupt => 2
  | .badInput => 3
  | .decodeCorrupt => 4
  | .capacityExceeded => 5
  | .treeOverflow => 6
  | .codeMissing => 7
  | .illegalCommand => 8

/-- SNKC mirrors SNK.closed; 0 with no sink (R23, log entry 7). -/
def mirrorSnkc (s : State) : Bool := (s.snk.map (·.closed)).getD false
/-- RWD mirrors SRC.rew; 0 with no source (R23, log entry 7). -/
def mirrorRwd (s : State) : Bool := (s.src.map (·.rew)).getD false
/-- SRCX mirrors SRC.exh; 0 with no source (R23, log entry 7). -/
def mirrorSrcx (s : State) : Bool := (s.src.map (·.exh)).getD false

/-- STATUS, field by field (R23); reserved bits 3:2 and 31:20 read 0. -/
def statusWord (s : State) : Word :=
  BitVec.ofNat 32 (runStateCode s.runState
    + faultCodeNumber s.err * 2 ^ 4
    + s.tv.toNat * 2 ^ 8
    + s.cv.toNat * 2 ^ 9
    + s.tsrc.toNat * 2 ^ 10
    + (mirrorSnkc s).toNat * 2 ^ 11
    + (mirrorRwd s).toNat * 2 ^ 12
    + (mirrorSrcx s).toNat * 2 ^ 13
    + decStateCode s.dst * 2 ^ 14
    + s.fop.toNat * 2 ^ 16)

/-! ## Prerequisites (R216) -/

/-- The four columns of R216's table. -/
structure Prereq where
  treeValid  : Bool
  codesValid : Bool
  sinkOpen   : Bool
  notRewound : Bool
  deriving DecidableEq, Repr

/-- R216's table, row by row; a header token is no command and has no row. -/
def prereqOf : Instr → Prereq
  | .clear      => ⟨false, false, false, false⟩
  | .count      => ⟨false, false, false, false⟩
  | .build      => ⟨false, false, false, false⟩
  | .gencodes   => ⟨true,  false, false, false⟩
  | .wrmagic    => ⟨false, false, true,  false⟩
  | .wrhdr      => ⟨true,  false, true,  false⟩
  | .rewind     => ⟨false, false, false, true⟩
  | .encode     => ⟨false, true,  true,  false⟩
  | .close      => ⟨false, false, true,  false⟩
  | .rdmagic    => ⟨false, false, false, false⟩
  | .rdhdr      => ⟨false, false, false, false⟩
  | .decode     => ⟨true,  false, true,  false⟩
  | .compress   => ⟨false, false, true,  true⟩
  | .decompress => ⟨false, false, true,  false⟩
  | .hdrInternal => ⟨false, false, false, false⟩
  | .hdrLeaf _   => ⟨false, false, false, false⟩

/-- A required prerequisite is known not to hold in this state (R216). -/
def prereqBroken (q : Prereq) (s : State) : Bool :=
  (q.treeValid && !s.tv)
  || (q.codesValid && !s.cv)
  || (q.sinkOpen && mirrorSnkc s)
  || (q.notRewound && mirrorRwd s)

/-- The port whose flag a prerequisite asks for was never attached (R262, log entry 9). -/
def prereqPortAbsent (q : Prereq) (s : State) : Option Refusal :=
  if q.sinkOpen && s.snk.isNone then some .sinkNotAttached
  else if q.notRewound && s.src.isNone then some .sourceNotAttached
  else none

/-- What a write of a defined command does (R215): in FAULT nothing (CLEAR has its own rule, R224), in IDLE an
IllegalCommand if a prerequisite fails, and otherwise the command runs. While BUSY the host port accepts no
command (R61), so nothing happens. -/
def accept (i : Instr) (body : State → Run) (s : State) : Run :=
  match s.runState with
  | .fault => .done s
  | .busy => .done s
  | .idle =>
    if prereqBroken (prereqOf i) s then takeFault .illegalCommand (opcodeOf i) s
    else
      match prereqPortAbsent (prereqOf i) s with
      | some r => .refused r
      | none => body s

/-- A write of a word that is no command (R215 (1) and (2), 30_encoding.md R102): in IDLE an IllegalCommand with
FOP <- word[3:0], otherwise nothing. -/
def illegalWord (w : Word) (s : State) : Run :=
  match s.runState with
  | .fault => .done s
  | .busy => .done s
  | .idle => takeFault .illegalCommand (opField w) s

end Sys2Proof.Machine
end

