-- ==== Sys2Proof/Machine/Codes.lean ====
section
/-! DEFINITION. GENCODES, the code table generator (42_code_table.md R155 to R163). -/

namespace Sys2Proof.Machine

/-- How a walk of GENCODES ends: with the table so far, at a leaf it must reject (R158), or off the tree. -/
inductive WalkEnd where
  | done (ct : Table Bits)
  | corrupt (ct : Table Bits)
  | stopped (f : Fault)
  deriving DecidableEq, Repr

/-- `walk(n, p)` (R155): depth first, left subtree first with a `0`, right with a `1`; a leaf records the path (R157)
unless its symbol is above 256 or already has a code (R158). The first argument bounds the levels (R160). -/
def walkCodes (nt : Table Node) : Nat → NodeIdx → Bits → Table Bits → WalkEnd
  | 0, _, _, _ => .stopped .walkTooDeep
  | levels + 1, n, p, ct =>
    match nodeAt nt n with
    | none => .stopped (.badNode n.toNat)
    | some (.leaf sym _) =>
      if Config.eos < sym.toNat ∨ (tableGet ct sym.toNat).isSome then .corrupt ct
      else .done (tablePut ct sym.toNat p)
    | some (.internal l r _) =>
      match walkCodes nt levels l (p ++ [false]) ct with
      | .done ct' => walkCodes nt levels r (p ++ [true]) ct'
      | other => other

/-- GENCODES's pseudocode (R155): every valid bit cleared first (R156); a root that is a leaf is rejected before
the walk (R159). -/
def runGencodes (s : State) : Run :=
  match nodeAt s.nt s.root with
  | none => .stopped (.badNode s.root.toNat)
  | some (.leaf _ _) => takeFault .decodeCorrupt (opcodeOf .gencodes) { s with cv := false, ct := [] }
  | some (.internal _ _ _) =>
    match walkCodes s.nt Config.maxLevels s.root [] [] with
    | .done ct => .done { s with cv := true, ct := ct }
    | .corrupt ct => takeFault .decodeCorrupt (opcodeOf .gencodes) { s with cv := false, ct := ct }
    | .stopped f => .stopped f

/-- GENCODES (R155): needs TV = 1 (R216). -/
def execGencodes (s : State) : Host.Outcome State Fault Refusal :=
  (accept .gencodes runGencodes s).outcome

end Sys2Proof.Machine
end

