-- ==== Sys2Proof/Machine/Count.lean ====
section
/-! DEFINITION. COUNT, the frequency table pass (40_frequency_count.md R130 to R136). -/

namespace Sys2Proof.Machine

/-- How COUNT's loop ends: the source and the counts reached so far. -/
inductive CountEnd where
  | exhausted (p : Src) (freq : Table Nat)
  | full (p : Src) (freq : Table Nat)
  | bound
  deriving DecidableEq, Repr

/-- COUNT's loop (R131): read 8 bits; EXH ends it; a count of `2^COUNT_W - 1` is not passed (R133), tested after
exhaustion (60_exceptions.md R239). The first argument bounds the rounds. -/
def countLoop (limit : Nat) : Nat → Src → Table Nat → CountEnd
  | 0, _, _ => .bound
  | fuel + 1, p, freq =>
    match srcRead 8 p with
    | (none, p') => .exhausted p' freq
    | (some v, p') =>
      if limit ≤ freqAt freq v + 1 then .full p' freq
      else countLoop limit fuel p' (freqPut freq v (freqAt freq v + 1))

/-- COUNT's pseudocode (R131): zero FREQ, the loop, FREQ[256] <- 1 (R132). -/
def runCount (s : State) : Run :=
  withSource s fun p =>
    match countLoop (Config.countLimit s.params) (p.data.length + 1) p [] with
    | .exhausted p' freq => .done { s with src := some p', freq := freqPut freq Config.eos 1 }
    | .full p' freq => takeFault .capacityExceeded (opcodeOf .count) { s with src := some p', freq := freq }
    | .bound => .stopped .loopBound

/-- COUNT (R131): no prerequisite but STATE = IDLE. -/
def execCount (s : State) : Host.Outcome State Fault Refusal :=
  (accept .count runCount s).outcome

end Sys2Proof.Machine
end

