-- ==== Sys2Proof/Machine/Encode.lean ====
section
/-! DEFINITION. REWIND, ENCODE, CLOSE, the payload encoder (44_payload_encode.md R185 to R195). -/

namespace Sys2Proof.Machine

/-- REWIND's pseudocode (R185). -/
def runRewind (s : State) : Run :=
  withSource s fun p => .done { s with src := some (srcRewind p) }

/-- REWIND (R185): needs SRC.rew = 0 (R216). -/
def execRewind (s : State) : Host.Outcome State Fault Refusal :=
  (accept .rewind runRewind s).outcome

/-- A code's bits, one `SnkWrite(1, ·)` each, first bit first (R190). -/
def putCode : Bits → Snk → Snk
  | [], k => k
  | b :: c, k => putCode c (snkWrite 1 b.toNat k)

/-- How ENCODE's loop ends: the source exhausted, or a byte without a code (R191). -/
inductive EncodeEnd where
  | exhausted (p : Src) (k : Snk)
  | missing (p : Src) (k : Snk)
  | bound
  deriving DecidableEq, Repr

/-- ENCODE's loop (R188): read 8 bits, put that byte's code; EXH ends it. The first argument bounds the rounds. -/
def encodeLoop (ct : Table Bits) : Nat → Src → Snk → EncodeEnd
  | 0, _, _ => .bound
  | fuel + 1, p, k =>
    match srcRead 8 p with
    | (none, p') => .exhausted p' k
    | (some v, p') =>
      match tableGet ct v with
      | none => .missing p' k
      | some c => encodeLoop ct fuel p' (putCode c k)

/-- ENCODE's pseudocode (R188): the bytes' codes, then the EOS code (R189); CodeMissing before any bit of a symbol
without a code (R191). -/
def runEncode (s : State) : Run :=
  withSink s fun k =>
    withSource s fun p =>
      match encodeLoop s.ct (p.data.length + 1) p k with
      | .missing p' k' =>
        takeFault .codeMissing (opcodeOf .encode) { s with src := some p', snk := some k' }
      | .bound => .stopped .loopBound
      | .exhausted p' k' =>
        match tableGet s.ct Config.eos with
        | none => takeFault .codeMissing (opcodeOf .encode) { s with src := some p', snk := some k' }
        | some c => .done { s with src := some p', snk := some (putCode c k') }

/-- ENCODE (R188): needs CV = 1 and an open sink (R216). -/
def execEncode (s : State) : Host.Outcome State Fault Refusal :=
  (accept .encode runEncode s).outcome

/-- CLOSE's pseudocode (R194). -/
def runClose (s : State) : Run :=
  withSink s fun k => .done { s with snk := some (snkClose k) }

/-- CLOSE (R194): needs an open sink (R216). -/
def execClose (s : State) : Host.Outcome State Fault Refusal :=
  (accept .close runClose s).outcome

end Sys2Proof.Machine
end

