-- ==== Sys2Proof/Machine/Build.lean ====
section
/-! DEFINITION. BUILD, the Huffman tree builder (41_tree_build.md R140 to R151). -/

namespace Sys2Proof.Machine

/-- The leaf set S (R141): the byte symbols with a nonzero count, ascending, then EOS always; the pad leaf for
symbol 0 when EOS would stand alone (R142). -/
def leafSymbols (freq : Table Nat) : List Nat :=
  match (List.range 256).filter (fun s => decide (0 < freqAt freq s)) with
  | [] => [0, Config.eos]
  | s :: rest => (s :: rest) ++ [Config.eos]

/-- Write the leaves from index `n` on, in the order of S (R141); the table and the next free index. -/
def putLeaves (freq : Table Nat) : List Nat → Table Node → Nat → Table Node × Nat
  | [], nt, n => (nt, n)
  | s :: rest, nt, n =>
    putLeaves freq rest (tablePut nt n (.leaf (BitVec.ofNat 9 s) (freqAt freq s))) (n + 1)

/-- `NT[i].weight` for an index the builder wrote. -/
def weightAt (nt : Table Node) (i : Nat) : Nat := ((tableGet nt i).map nodeWeight).getD 0

/-- The order of extraction (R144): by weight, then by index. -/
def keyLess (nt : Table Node) (i j : Nat) : Bool :=
  decide (weightAt nt i < weightAt nt j) || (decide (weightAt nt i = weightAt nt j) && decide (i < j))

/-- The active index with the least key (R144). -/
def leastKey (nt : Table Node) : List Nat → Option Nat
  | [] => none
  | i :: rest =>
    match leastKey nt rest with
    | none => some i
    | some j => if keyLess nt j i then some j else some i

/-- How BUILD's loop ends: with one active tree, or at a weight that does not fit (R147). -/
inductive BuildEnd where
  | built (nt : Table Node) (n : Nat) (root : Nat)
  | overflow (nt : Table Node) (n : Nat)
  | bound
  deriving DecidableEq, Repr

/-- BUILD's loop (R140, R143): remove the least key `a`, then the least key `b`; the new node has `a` left and `b`
right and the exact sum of their weights, and joins the active set. The first argument bounds the rounds. -/
def mergeLoop (limit : Nat) : Nat → Table Node → Nat → List Nat → BuildEnd
  | 0, _, _, _ => .bound
  | fuel + 1, nt, n, active =>
    match leastKey nt active with
    | none => .bound
    | some a =>
      match leastKey nt (active.erase a) with
      | none => .built nt n a
      | some b =>
        let w := weightAt nt a + weightAt nt b
        if limit ≤ w then .overflow nt n
        else
          mergeLoop limit fuel (tablePut nt n (.internal (BitVec.ofNat 10 a) (BitVec.ofNat 10 b) w)) (n + 1)
            ((active.erase a).erase b ++ [n])

/-- BUILD's first line (R140): no tree, no code table. -/
def startTree (s : State) : State :=
  { s with tv := false, cv := false, ncnt := 0, root := Config.nil, nt := [] }

/-- BUILD's pseudocode (R140), its result registers (R145) and its fault (R147). -/
def runBuild (s : State) : Run :=
  let syms := leafSymbols s.freq
  let leaves := putLeaves s.freq syms [] 0
  match mergeLoop (Config.countLimit s.params) (syms.length + 1) leaves.1 leaves.2 (List.range syms.length) with
  | .built nt n root =>
    .done { startTree s with
      nt := nt, ncnt := BitVec.ofNat 10 n, root := BitVec.ofNat 10 root, tv := true, tsrc := false }
  | .overflow nt n =>
    takeFault .capacityExceeded (opcodeOf .build) { startTree s with nt := nt, ncnt := BitVec.ofNat 10 n }
  | .bound => .stopped .loopBound

/-- BUILD (R140): no prerequisite but STATE = IDLE. -/
def execBuild (s : State) : Host.Outcome State Fault Refusal :=
  (accept .build runBuild s).outcome

end Sys2Proof.Machine
end

