-- ==== Sys2Proof/Machine/Header.lean ====
section
/-! DEFINITION. WRMAGIC, WRHDR, RDMAGIC, RDHDR and the two header tokens (43_header_codec.md R165 to R184). -/

namespace Sys2Proof.Machine

/-! ## Write side -/

/-- WRMAGIC's pseudocode (R165). -/
def runWrmagic (s : State) : Run :=
  withSink s fun k => .done { s with snk := some (snkWrite 32 s.params.magic.toNat k) }

/-- WRMAGIC (R165): needs an open sink (R216). -/
def execWrmagic (s : State) : Host.Outcome State Fault Refusal :=
  (accept .wrmagic runWrmagic s).outcome

/-- `emit(n)` (R168): pre-order; a leaf is a `1` and its 9 symbol bits, an internal node a `0` and its subtrees, left
first. The first argument bounds the levels (R160). -/
def emitHeader (nt : Table Node) : Nat → NodeIdx → Snk → Except Fault Snk
  | 0, _, _ => .error .walkTooDeep
  | levels + 1, n, k =>
    match nodeAt nt n with
    | none => .error (.badNode n.toNat)
    | some (.leaf sym _) => .ok (snkWrite 9 sym.toNat (snkWrite 1 1 k))
    | some (.internal l r _) =>
      match emitHeader nt levels l (snkWrite 1 0 k) with
      | .ok k' => emitHeader nt levels r k'
      | .error f => .error f

/-- WRHDR's pseudocode (R168). -/
def runWrhdr (s : State) : Run :=
  withSink s fun k =>
    match emitHeader s.nt Config.maxLevels s.root k with
    | .ok k' => .done { s with snk := some k' }
    | .error f => .stopped f

/-- WRHDR (R168): needs TV = 1 and an open sink (R216). -/
def execWrhdr (s : State) : Host.Outcome State Fault Refusal :=
  (accept .wrhdr runWrhdr s).outcome

/-! ## Read side: the marker -/

/-- RDMAGIC's pseudocode (R172): EXH is a mismatch (R173) and is no integer (R174 (b)). -/
def runRdmagic (s : State) : Run :=
  withSource s fun p =>
    match srcRead 32 p with
    | (none, p') => takeFault .formatError (opcodeOf .rdmagic) { s with src := some p' }
    | (some v, p') =>
      if v = s.params.magic.toNat then .done { s with src := some p' }
      else takeFault .formatError (opcodeOf .rdmagic) { s with src := some p' }

/-- RDMAGIC (R172): no prerequisite but STATE = IDLE. -/
def execRdmagic (s : State) : Host.Outcome State Fault Refusal :=
  (accept .rdmagic runRdmagic s).outcome

/-! ## Read side: the header tokens (R175, R176) -/

/-- What a complete subtree at `i` does to the open nodes (R175): it becomes the left child of the innermost open
node, or, as its right child, completes that node, which is written then and is complete in turn. The answer is
the table, the nodes still open, and the root if none is. -/
def closeNodes : NodeIdx → List HdrFrame → Table Node → Table Node × List HdrFrame × Option NodeIdx
  | i, [], nt => (nt, [], some i)
  | i, ⟨j, none⟩ :: opn, nt => (nt, ⟨j, some i⟩ :: opn, none)
  | i, ⟨j, some l⟩ :: opn, nt => closeNodes j opn (tablePut nt j.toNat (.internal l i 0))

/-- An INTERNAL token while a header is being read (R175, R176): the next free index, its node open; TreeOverflow
when NT is full (R179). With no header being read no token is read and nothing happens (log entry 18). -/
def runHdrInternal (s : State) : Run :=
  match s.runState with
  | .idle => .done s
  | .fault => .done s
  | .busy =>
    if s.ncnt.toNat = Config.nodeCap then takeFault .treeOverflow (opcodeOf .rdhdr) s
    else .done { s with ncnt := s.ncnt + 1, hdr := ⟨s.ncnt, none⟩ :: s.hdr }

/-- A LEAF token while a header is being read (R175, R176): the next free index, the leaf written with weight 0
(R178), open nodes completed; when none is left open the header ends: ROOT, TV, TSRC, STATE = IDLE (R178). -/
def runHdrLeaf (sym : Nat) (s : State) : Run :=
  match s.runState with
  | .idle => .done s
  | .fault => .done s
  | .busy =>
    if s.ncnt.toNat = Config.nodeCap then takeFault .treeOverflow (opcodeOf .rdhdr) s
    else
      match closeNodes s.ncnt s.hdr (tablePut s.nt s.ncnt.toNat (.leaf (BitVec.ofNat 9 sym) 0)) with
      | (nt, opn, none) => .done { s with ncnt := s.ncnt + 1, nt := nt, hdr := opn }
      | (nt, _, some r) =>
        .done { s with
          ncnt := s.ncnt + 1, nt := nt, hdr := [], root := r, tv := true, tsrc := true, runState := .idle }

/-- HDR.INTERNAL (R110). -/
def execHdrInternal (s : State) : Host.Outcome State Fault Refusal := (runHdrInternal s).outcome

/-- HDR.LEAF (R110). -/
def execHdrLeaf (sym : Nat) (s : State) : Host.Outcome State Fault Refusal := (runHdrLeaf sym s).outcome

/-- The next token of the header being read, or how reading it ended. -/
inductive Fetched where
  | internal (s : State)
  | leaf (sym : Nat) (s : State)
  | settled (r : Run)
  deriving DecidableEq, Repr

/-- The reads of one `parse` call (R175) in R181's order: the tag; exhaustion before capacity; the index is taken
before the symbol is read, so a header cut inside a symbol counts that node (R180). -/
def fetchToken (s : State) : Fetched :=
  match s.src with
  | none => .settled (.refused .sourceNotAttached)
  | some p =>
    match srcRead 1 p with
    | (none, p') => .settled (takeFault .streamCorrupt (opcodeOf .rdhdr) { s with src := some p' })
    | (some t, p') =>
      if s.ncnt.toNat = Config.nodeCap then
        .settled (takeFault .treeOverflow (opcodeOf .rdhdr) { s with src := some p' })
      else if t = 1 then
        match srcRead 9 p' with
        | (none, p'') =>
          .settled (takeFault .streamCorrupt (opcodeOf .rdhdr) { s with src := some p'', ncnt := s.ncnt + 1 })
        | (some v, p'') => .leaf v { s with src := some p'' }
      else .internal { s with src := some p' }

/-- Read tokens and run each until the header is complete or a fault is raised. The first argument bounds the
tokens: at most 513 allocate a node and one more meets the full table (R182 (d)). -/
def headerLoop : Nat → State → Run
  | 0, _ => .stopped .loopBound
  | fuel + 1, s =>
    match fetchToken s with
    | .settled r => r
    | .internal s' =>
      (runHdrInternal s').andThen fun t => if t.runState = .busy then headerLoop fuel t else .done t
    | .leaf v s' =>
      (runHdrLeaf v s').andThen fun t => if t.runState = .busy then headerLoop fuel t else .done t

/-- RDHDR's first line (R175), with the header open: STATE is BUSY until its last token (log entry 3). -/
def openHeader (s : State) : State := { startTree s with runState := .busy, hdr := [] }

/-- RDHDR's pseudocode (R175). -/
def runRdhdr (s : State) : Run := headerLoop (Config.nodeCap + 1) (openHeader s)

/-- RDHDR (R175): no prerequisite but STATE = IDLE. -/
def execRdhdr (s : State) : Host.Outcome State Fault Refusal :=
  (accept .rdhdr runRdhdr s).outcome

end Sys2Proof.Machine
end

