-- ==== Sys2Proof/Machine/PayloadDecode.lean ====
section
/-! DEFINITION. DECODE, the payload decoder (45_payload_decode.md R200 to R211). -/

namespace Sys2Proof.Machine

/-- How DECODE's loop ends: at the EOS leaf (R204), out of bits (R202), at a move or a leaf it must reject (R203,
R205), or off the tree. -/
inductive DecodeEnd where
  | eof (p : Src) (k : Snk) (cur : NodeIdx)
  | badInput (p : Src) (k : Snk) (cur : NodeIdx)
  | corrupt (p : Src) (k : Snk) (cur : NodeIdx) (dst : DecState)
  | stopped (f : Fault)
  deriving DecidableEq, Repr

/-- DECODE's loop (R200, the table of R206), in R207's order: the bit is read; CUR must have children; the move;
the EOS test before the range test. The first argument bounds the rounds: each consumes a bit (R209). -/
def decodeLoop (nt : Table Node) (root : NodeIdx) : Nat → Src → Snk → NodeIdx → DecodeEnd
  | 0, _, _, _ => .stopped .loopBound
  | fuel + 1, p, k, cur =>
    match srcRead 1 p with
    | (none, p') => .badInput p' k cur
    | (some b, p') =>
      match nodeAt nt cur with
      | none => .stopped (.badNode cur.toNat)
      | some (.leaf _ _) => .corrupt p' k cur .walking
      | some (.internal l r _) =>
        let c := if b = 0 then l else r
        match nodeAt nt c with
        | none => .stopped (.badNode c.toNat)
        | some (.internal _ _ _) => decodeLoop nt root fuel p' k c
        | some (.leaf sym _) =>
          if sym.toNat = Config.eos then .eof p' k c
          else if Config.eos < sym.toNat then .corrupt p' k c .atLeafSym
          else decodeLoop nt root fuel p' (snkWrite 8 sym.toNat k) root

/-- DECODE's pseudocode (R200): CUR <- ROOT, DST <- WALKING (R201), the loop, and the state each end leaves
(R202 to R205). -/
def runDecode (s : State) : Run :=
  withSink s fun k =>
    withSource s fun p =>
      match decodeLoop s.nt s.root (8 * p.data.length + 1) p k s.root with
      | .eof p' k' c => .done { s with src := some p', snk := some k', cur := c, dst := .atLeafEof }
      | .badInput p' k' c =>
        takeFault .badInput (opcodeOf .decode)
          { s with src := some p', snk := some k', cur := c, dst := .walking }
      | .corrupt p' k' c d =>
        takeFault .decodeCorrupt (opcodeOf .decode)
          { s with src := some p', snk := some k', cur := c, dst := d }
      | .stopped f => .stopped f

/-- DECODE (R200): needs TV = 1 and an open sink (R216). -/
def execDecode (s : State) : Host.Outcome State Fault Refusal :=
  (accept .decode runDecode s).outcome

end Sys2Proof.Machine
end

