-- ==== Sys2Proof/Machine/Orchestrate.lean ====
section
/-! DEFINITION. COMPRESS, DECOMPRESS and CLEAR (46_orchestration.md R218 to R225). -/

namespace Sys2Proof.Machine

/-- COMPRESS's pseudocode (R218): eight primitives in order; a fault in one is raised with its own opcode and ends
COMPRESS. -/
def runCompress (s : State) : Run :=
  (((((((runCount s).andThen runBuild).andThen runGencodes).andThen runWrmagic).andThen runWrhdr).andThen
    runRewind).andThen runEncode).andThen runClose

/-- COMPRESS (R218): needs an open sink and SRC.rew = 0 (R216). -/
def execCompress (s : State) : Host.Outcome State Fault Refusal :=
  (accept .compress runCompress s).outcome

/-- DECOMPRESS's pseudocode (R221): four primitives in order. -/
def runDecompress (s : State) : Run :=
  (((runRdmagic s).andThen runRdhdr).andThen runDecode).andThen runClose

/-- DECOMPRESS (R221): needs an open sink (R216). -/
def execDecompress (s : State) : Host.Outcome State Fault Refusal :=
  (accept .decompress runDecompress s).outcome

/-- CLEAR (R224): from IDLE or FAULT to the reset state of R36; while BUSY the host port accepts no command
(R61). -/
def execClear (s : State) : Host.Outcome State Fault Refusal :=
  match s.runState with
  | .idle => .next (clearCore s)
  | .fault => .next (clearCore s)
  | .busy => .next s

end Sys2Proof.Machine
end

