-- ==== Sys2Proof/Machine/Dispatch.lean ====
section
/-! DEFINITION. One arm per instruction. -/

namespace Sys2Proof.Machine

def exec (i : Instr) (s : State) : Host.Outcome State Fault Refusal :=
  match i with
  | .clear => Sys2Proof.Machine.execClear s
  | .count => Sys2Proof.Machine.execCount s
  | .build => Sys2Proof.Machine.execBuild s
  | .gencodes => Sys2Proof.Machine.execGencodes s
  | .wrmagic => Sys2Proof.Machine.execWrmagic s
  | .wrhdr => Sys2Proof.Machine.execWrhdr s
  | .rewind => Sys2Proof.Machine.execRewind s
  | .encode => Sys2Proof.Machine.execEncode s
  | .close => Sys2Proof.Machine.execClose s
  | .rdmagic => Sys2Proof.Machine.execRdmagic s
  | .rdhdr => Sys2Proof.Machine.execRdhdr s
  | .decode => Sys2Proof.Machine.execDecode s
  | .compress => Sys2Proof.Machine.execCompress s
  | .decompress => Sys2Proof.Machine.execDecompress s
  | .hdrInternal => Sys2Proof.Machine.execHdrInternal s
  | .hdrLeaf sym => Sys2Proof.Machine.execHdrLeaf sym s

end Sys2Proof.Machine
end

