-- ==== Sys2Proof/Machine/Abandon.lean ====
section
/-! DEFINITION. A reset during a command (60_exceptions.md R250, 70_reset_and_hazards.md R260, R261): the port calls each
command makes, in the order of its pseudocode, and the state a reset between two of them leaves. -/

namespace Sys2Proof.Machine

/-! ## The port calls of each primitive's body (20_memory.md R76) -/

/-- COUNT's calls (40_frequency_count.md R131). -/
def countCalls (limit : Nat) : Nat → Src → Table Nat → List PortCall
  | 0, _, _ => []
  | fuel + 1, p, freq =>
    .srcRead 8 ::
      match srcRead 8 p with
      | (none, _) => []
      | (some v, p') =>
        if limit ≤ freqAt freq v + 1 then [] else countCalls limit fuel p' (freqPut freq v (freqAt freq v + 1))

/-- WRHDR's calls (43_header_codec.md R168, R169). -/
def emitCalls (nt : Table Node) : Nat → NodeIdx → List PortCall
  | 0, _ => []
  | levels + 1, n =>
    match nodeAt nt n with
    | none => []
    | some (.leaf sym _) => [.snkWrite 1 1, .snkWrite 9 sym.toNat]
    | some (.internal l r _) => .snkWrite 1 0 :: (emitCalls nt levels l ++ emitCalls nt levels r)

/-- A code's calls, one bit each (44_payload_encode.md R190). -/
def codeCalls (c : Bits) : List PortCall := c.map fun b => .snkWrite 1 b.toNat

/-- ENCODE's calls (44_payload_encode.md R188). -/
def encodeCalls (ct : Table Bits) : Nat → Src → List PortCall
  | 0, _ => []
  | fuel + 1, p =>
    .srcRead 8 ::
      match srcRead 8 p with
      | (none, _) => codeCalls ((tableGet ct Config.eos).getD [])
      | (some v, p') =>
        match tableGet ct v with
        | none => []
        | some c => codeCalls c ++ encodeCalls ct fuel p'

/-- DECODE's calls (45_payload_decode.md R200, R206). -/
def decodeCalls (nt : Table Node) (root : NodeIdx) : Nat → Src → NodeIdx → List PortCall
  | 0, _, _ => []
  | fuel + 1, p, cur =>
    .srcRead 1 ::
      match srcRead 1 p with
      | (none, _) => []
      | (some b, p') =>
        match nodeAt nt cur with
        | none => []
        | some (.leaf _ _) => []
        | some (.internal l r _) =>
          let c := if b = 0 then l else r
          match nodeAt nt c with
          | none => []
          | some (.internal _ _ _) => decodeCalls nt root fuel p' c
          | some (.leaf sym _) =>
            if sym.toNat = Config.eos then []
            else if Config.eos < sym.toNat then []
            else .snkWrite 8 sym.toNat :: decodeCalls nt root fuel p' root

/-- The calls of one `parse` (43_header_codec.md R175, R181): the tag, and the symbol where it is read. -/
def tokenCalls (s : State) : List PortCall :=
  match s.src with
  | none => []
  | some p =>
    .srcRead 1 ::
      match srcRead 1 p with
      | (none, _) => []
      | (some t, _) => if s.ncnt.toNat = Config.nodeCap then [] else if t = 1 then [.srcRead 9] else []

/-- RDHDR's calls, token after token (43_header_codec.md R175). -/
def headerCalls : Nat → State → List PortCall
  | 0, _ => []
  | fuel + 1, s =>
    tokenCalls s ++
      match fetchToken s with
      | .settled _ => []
      | .internal s' =>
        match runHdrInternal s' with
        | .done t => if t.runState = .busy then headerCalls fuel t else []
        | .faulted _ | .stopped _ | .refused _ => []
      | .leaf v s' =>
        match runHdrLeaf v s' with
        | .done t => if t.runState = .busy then headerCalls fuel t else []
        | .faulted _ | .stopped _ | .refused _ => []

/-- The port calls of a primitive's body, fault entry's close not among them. -/
def bodyCalls (i : Instr) (s : State) : List PortCall :=
  match i, s.src with
  | .count, some p => countCalls (Config.countLimit s.params) (p.data.length + 1) p []
  | .count, none => []
  | .wrmagic, _ => [.snkWrite 32 s.params.magic.toNat]
  | .wrhdr, _ => emitCalls s.nt Config.maxLevels s.root
  | .rewind, _ => [.srcRewind]
  | .encode, some p => encodeCalls s.ct (p.data.length + 1) p
  | .encode, none => []
  | .close, _ => [.snkClose]
  | .rdmagic, _ => [.srcRead 32]
  | .rdhdr, _ => headerCalls (Config.nodeCap + 1) (openHeader s)
  | .decode, some p => decodeCalls s.nt s.root (8 * p.data.length + 1) p s.root
  | .decode, none => []
  | .clear, _ | .build, _ | .gencodes, _ | .compress, _ | .decompress, _ | .hdrInternal, _ | .hdrLeaf _, _ => []

/-! ## The port calls of a command -/

/-- The primitives a command runs, in order (46_orchestration.md R218, R221). -/
def primitivesOf : Instr → List Instr
  | .compress => [.count, .build, .gencodes, .wrmagic, .wrhdr, .rewind, .encode, .close]
  | .decompress => [.rdmagic, .rdhdr, .decode, .close]
  | .clear => [.clear]
  | .count => [.count]
  | .build => [.build]
  | .gencodes => [.gencodes]
  | .wrmagic => [.wrmagic]
  | .wrhdr => [.wrhdr]
  | .rewind => [.rewind]
  | .encode => [.encode]
  | .close => [.close]
  | .rdmagic => [.rdmagic]
  | .rdhdr => [.rdhdr]
  | .decode => [.decode]
  | .hdrInternal => []
  | .hdrLeaf _ => []

/-- The calls of primitives one after the other, each from the state the one before left; a fault closes the sink and
ends them (60_exceptions.md R236). -/
def callsInOrder : List Instr → State → List PortCall
  | [], _ => []
  | i :: rest, s =>
    bodyCalls i s ++
      match exec i s with
      | .next t => if t.runState = .fault then [.snkClose] else callsInOrder rest t
      | .fault _ => []
      | .refused _ => []

/-- The port calls a command issued in this state makes up to its end (46_orchestration.md R215, R216). -/
def portCalls (i : Instr) (s : State) : List PortCall :=
  match s.runState with
  | .idle => if prereqBroken (prereqOf i) s then [.snkClose] else callsInOrder (primitivesOf i) s
  | .busy => []
  | .fault => []

/-- A command that a reset abandons once it has made `calls` port calls (R260): the ports are as those calls left them,
open and not padded (R261), all else is at its reset value. A command the model gives no meaning has none here
either. -/
def abandonCommand (i : Instr) (calls : Nat) (s : State) : Host.Outcome State Fault Refusal :=
  match exec i s with
  | .next _ => .next (clearCore (playCalls ((portCalls i s).take calls) s))
  | .fault f => .fault f
  | .refused r => .refused r

end Sys2Proof.Machine
end

