-- ==== Sys2Proof/Machine/Operands.lean ====
section
/-! DEFINITION. The operand forms of HUFFCORE are implicit (30_encoding.md R100); what is addressed is the host window
(20_memory.md R62) and the table entries' formats in it (30_encoding.md R116, R117). -/

namespace Sys2Proof.Machine

/-- What a window index names (R62). -/
inductive WindowCell where
  | cmd
  | status
  | root
  | ncnt
  | cur
  | freq (s : Nat)
  | nodeFields (i : Nat)
  | nodeWeight (i : Nat)
  | codeHead (s : Nat)
  | codeWord (s k : Nat)
  | unmapped
  deriving DecidableEq, Repr

/-- The window map (R62): 0x0100 + s, 0x0400 + 2i and 0x0401 + 2i, 0x1000 + 16s + k with k = 0 and 1..8. -/
def windowCell (idx : WinIdx) : WindowCell :=
  let n := idx.toNat
  if n = 0 then .cmd
  else if n = 1 then .status
  else if n = 2 then .root
  else if n = 3 then .ncnt
  else if n = 4 then .cur
  else if 0x0100 ≤ n ∧ n ≤ 0x0200 then .freq (n - 0x0100)
  else if 0x0400 ≤ n ∧ n ≤ 0x0801 then
    if n % 2 = 0 then .nodeFields ((n - 0x0400) / 2) else .nodeWeight ((n - 0x0400) / 2)
  else if 0x1000 ≤ n ∧ n ≤ 0x2008 then
    if n % 16 = 0 then .codeHead ((n - 0x1000) / 16)
    else if n % 16 ≤ 8 then .codeWord ((n - 0x1000) / 16) (n % 16)
    else .unmapped
  else .unmapped

/-- A count or a weight in a window word: bits COUNT_W-1:0, higher bits zero (R62, R116). -/
def countWord (p : Config.Params) (n : Nat) : Word := BitVec.ofNat 32 (n % Config.countLimit p)

/-- NT word 0 (R116): SYM 8:0, LEFT 19:10, RIGHT 29:20, LEAF 31; NIL children in a Leaf, SYM 0 in an Internal
entry. -/
def nodeWord : Node → Word
  | .leaf sym _ =>
    BitVec.ofNat 32 (sym.toNat + Config.nil.toNat * 2 ^ 10 + Config.nil.toNat * 2 ^ 20 + 2 ^ 31)
  | .internal l r _ => BitVec.ofNat 32 (l.toNat * 2 ^ 10 + r.toNat * 2 ^ 20)

/-- CT word 0 of a valid entry (R117): VALID 31, LEN 8:0, bits 30:9 zero. -/
def codeHeadWord (c : Bits) : Word := BitVec.ofNat 32 (2 ^ 31 + c.length % 2 ^ 9)

/-- CT code word `k` in 1..8 (R117): code bit `j` is bit `31 - (j mod 32)` of word `1 + (j div 32)`, zeros at
positions past LEN. -/
def codeBodyWord (c : Bits) (k : Nat) : Word :=
  BitVec.ofNat 32 (val (((c ++ List.replicate 256 false).drop (32 * (k - 1))).take 32))

end Sys2Proof.Machine
end

