-- ==== Sys2Proof/Machine/HostPort.lean ====
section
/-! DEFINITION. The host's transactions (20_memory.md R61 to R65, 60_exceptions.md R250), reset (70_reset_and_hazards.md
R260, R261), and what the next step does: the next host action, or the next token of a header being read. -/

namespace Sys2Proof.Machine

/-! ## Reads of the window (R62, R63) -/

/-- A host transaction that returns `r` and changes nothing else. -/
def answer (r : Reply) (s : State) : Run := .done { s with replies := s.replies ++ [r] }

/-- A host read of content R37 leaves unspecified: a fresh free word, of which the bits in `mask` are free and the
others zero (U9, log entry 5). -/
def answerFree (mask : Word) (s : State) : Run :=
  .done { s with
    replies := s.replies ++ [.word (Config.freeWord s.draws &&& mask)]
    draws := s.draws + 1 }

/-- The NT entry a host read sees: none where R37 leaves it unspecified (index >= NCNT, or TV = 0). -/
def visibleNode (s : State) (i : Nat) : Option Node :=
  if s.tv ∧ i < s.ncnt.toNat then tableGet s.nt i else none

/-- `hread(idx)` while STATE is not BUSY (R62, R63); CMD and unmapped indices are refused (R65). -/
def hostRead (idx : WinIdx) (s : State) : Run :=
  match windowCell idx with
  | .cmd => .refused (.windowRead idx)
  | .status => answer (.word (statusWord s)) s
  | .root => answer (.word (s.root.zeroExtend 32)) s
  | .ncnt => answer (.word (s.ncnt.zeroExtend 32)) s
  | .cur => answer (.word (s.cur.zeroExtend 32)) s
  | .freq sym => answer (.word (countWord s.params (freqAt s.freq sym))) s
  | .nodeFields i =>
    match visibleNode s i with
    | some n => answer (.word (nodeWord n)) s
    | none => answerFree 0xFFFFFFFF s
  | .nodeWeight i =>
    match visibleNode s i with
    | some n => answer (.word (countWord s.params (nodeWeight n))) s
    | none => answerFree 0xFFFFFFFF s
  | .codeHead sym =>
    match tableGet s.ct sym with
    | some c => answer (.word (codeHeadWord c)) s
    | none => answerFree 0x1FF s
  | .codeWord sym k =>
    match tableGet s.ct sym with
    | some c => answer (.word (codeBodyWord c k)) s
    | none => answerFree 0xFFFFFFFF s
  | .unmapped => .refused (.windowRead idx)

/-- `hread` of STATUS while BUSY, the one read accepted then (R61): STATE is 1, the other fields are not modelled
(U18) and are free bits (log entry 21). -/
def hostReadBusy (s : State) : Run :=
  .done { s with
    replies := s.replies ++ [.word ((Config.freeWord s.draws &&& 0xFFFFFFFC) ||| 1)]
    draws := s.draws + 1 }

/-! ## Writes of the window, and the other interactions of R250 -/

/-- `hwrite` of FREQ[s] (R64): in IDLE the low COUNT_W bits of the word; in FAULT nothing. -/
def hostWriteFreq (sym : Nat) (w : Word) (s : State) : Run :=
  match s.runState with
  | .idle => .done { s with freq := freqPut s.freq sym (w.toNat % Config.countLimit s.params) }
  | .busy => .done s
  | .fault => .done s

/-- Collect the closed sink's bytes (R250, R69). -/
def hostCollect (s : State) : Run :=
  match s.snk with
  | none => .refused .sinkNotAttached
  | some k => if k.closed then answer (.bytes (bytesOf k.bits)) s else .refused .collectBeforeClose

/-- Attach a source with content `d` (R250). -/
def attachSource (d : List Byte) (s : State) : State :=
  { s with src := some { data := d, pos := 0, exh := false, rew := false } }

/-- Attach an empty open sink (R250). -/
def attachSink (s : State) : State := { s with snk := some { bits := [], closed := false } }

/-! ## What the next step does -/

/-- A step runs an instruction, runs one that a reset abandons after some port calls, or is settled by the host port
alone. -/
inductive Event where
  | run (i : Instr) (s : State)
  | abandoned (i : Instr) (calls : Nat) (s : State)
  | settled (r : Run)
  deriving DecidableEq, Repr

/-- `hwrite(idx, w)` (R61): CMD issues a command (R22, R215), FREQ is stored (R64), anything else is refused
(R65). -/
def hostWrite (idx : WinIdx) (w : Word) (s : State) : Event :=
  match windowCell idx with
  | .cmd =>
    match decodeCommand w with
    | .ok i => .run i s
    | .error _ => .settled (illegalWord w s)
  | .freq sym => .settled (hostWriteFreq sym w s)
  | .status | .root | .ncnt | .cur | .nodeFields _ | .nodeWeight _ | .codeHead _ | .codeWord _ _ | .unmapped =>
    .settled (.refused (.windowWrite idx))

/-- A write of a word that is no command, and a reset once `calls` port calls were made: fault entry's close is the one
call there can be (R102, R236, R260, R261). -/
def abandonIllegal (w : Word) (calls : Nat) (s : State) : Run :=
  match illegalWord w s with
  | .done t => .done (clearCore t)
  | .faulted _ => .done (clearCore (playCalls ([PortCall.snkClose].take calls) s))
  | .stopped f => .stopped f
  | .refused r => .refused r

/-- A write of a word to CMD whose command a reset abandons (R250, R260). -/
def hostCmdReset (w : Word) (calls : Nat) (s : State) : Event :=
  match decodeCommand w with
  | .ok i => .abandoned i calls s
  | .error _ => .settled (abandonIllegal w calls s)

/-- A host action accepted while STATE is not BUSY (R61, R250). -/
def hostEvent (a : HostAction) (s : State) : Event :=
  match a with
  | .reset => .settled (.done (clearCore s))
  | .attachSrc d => .settled (.done (attachSource d s))
  | .attachSnk => .settled (.done (attachSink s))
  | .hwrite idx w => hostWrite idx w s
  | .hread idx => .settled (hostRead idx s)
  | .collect => .settled (hostCollect s)
  | .cmdReset w calls => hostCmdReset w calls s

/-- The next token of the header being read, as an instruction. -/
def tokenEvent (s : State) : Event :=
  match fetchToken s with
  | .internal s' => .run .hdrInternal s'
  | .leaf v s' => .run (.hdrLeaf v) s'
  | .settled r => .settled r

/-- What the next step does. While a header is being read (BUSY, log entry 3): a pending reset (R250: any time) or
read of STATUS (R61: always), else the next token, any other action waiting. Otherwise the oldest pending action,
or nothing when there is none: HUFFCORE waits for a command (R260). -/
def nextEvent (s : State) : Event :=
  match s.runState, s.host with
  | .busy, .reset :: rest => .settled (.done (clearCore { s with host := rest }))
  | .busy, .hread idx :: rest =>
    if windowCell idx = .status then .settled (hostReadBusy { s with host := rest }) else tokenEvent s
  | .busy, _ => tokenEvent s
  | .idle, [] => .settled (.done s)
  | .fault, [] => .settled (.done s)
  | .idle, a :: rest => hostEvent a { s with host := rest }
  | .fault, a :: rest => hostEvent a { s with host := rest }

/-! ## Placing an instruction where the next step takes it (log entries 2, 14 and 15) -/

/-- The ports R262 asks the host to attach first, where none is attached. -/
def attachMissing (s : State) : State :=
  let s1 := if s.src.isNone then attachSource [] s else s
  if s1.snk.isNone then attachSink s1 else s1

/-- A write of `w` to CMD as the host's next action; a header that was being read is abandoned. -/
def placeCommand (s : State) (w : Nat) : State :=
  let s1 := attachMissing s
  let s2 := if s1.runState = .busy then { s1 with runState := .idle, hdr := [] } else s1
  { s2 with host := .hwrite 0 (BitVec.ofNat 32 w) :: s2.host }

/-- A header being read whose next token's bits are those of `w`: the source holds them from its start on. -/
def placeToken (s : State) (nbits w : Nat) : State :=
  let s1 := attachSource (bytesOf (tokenBits nbits w)) (attachMissing s)
  let s2 := if s1.runState = .busy then s1 else openHeader s1
  { s2 with host := [] }

end Sys2Proof.Machine
end

