-- ==== Sys2Proof/Machine/Step.lean ====
section
/-! DEFINITION. One step: the next host action, or the next token of a header being read (46_orchestration.md R215,
60_exceptions.md R250). -/

namespace Sys2Proof.Machine

/-- One step of the machine. -/
def step (s : State) : Host.Outcome State Fault Refusal :=
  match nextEvent s with
  | .run i s' => exec i s'
  | .abandoned i calls s' => abandonCommand i calls s'
  | .settled r => r.outcome

/-- `s` with the instruction whose bits are `w` where the next step takes it: a command word (32 bits) as the
host's next write of CMD, a header token at the start of the source of a header being read. Log entries 2, 14, 15. -/
def State.withFetchWord (s : State) (nbits w : Nat) : State :=
  if nbits = 32 then placeCommand s w else placeToken s nbits w

end Sys2Proof.Machine
end

