-- ==== Sys2Proof/Safety.lean ====
section
/-! DEFINITION. The notions claims about HUFFCORE are stated in: the abstract tree and what the spec derives from it
(00_scope.md R11, 30_encoding.md R110, R113), what a port holds, the invariants of the state, and a safe run. -/

namespace Sys2Proof

/-! ## The abstract tree (R11) -/

/-- `Leaf(s)` or `Node(l, r)`; weights are no part of it (R11). -/
inductive HuffTree where
  | leaf (sym : Sym)
  | node (l r : HuffTree)
  deriving DecidableEq, Repr

/-- The number of leaves (R111). -/
def HuffTree.leaves : HuffTree → Nat
  | .leaf _ => 1
  | .node l r => l.leaves + r.leaves

/-- The number of nodes (43_header_codec.md R178: the number of tokens). -/
def HuffTree.size : HuffTree → Nat
  | .leaf _ => 1
  | .node l r => 1 + l.size + r.size

/-- The greatest depth of a leaf, the root's depth being 0 (41_tree_build.md R146). -/
def HuffTree.depth : HuffTree → Nat
  | .leaf _ => 0
  | .node l r => 1 + max l.depth r.depth

/-- The leaf symbols in pre-order. -/
def HuffTree.symbols : HuffTree → List Nat
  | .leaf s => [s.toNat]
  | .node l r => l.symbols ++ r.symbols

/-- `hdr(T)` (R110). -/
def HuffTree.header : HuffTree → Bits
  | .leaf s => true :: bits 9 s.toNat
  | .node l r => false :: (l.header ++ r.header)

/-- The tokens of `hdr(T)` in order, each a tag and, for a leaf, its symbol (R110). -/
def HuffTree.tokens : HuffTree → List Bits
  | .leaf s => [true :: bits 9 s.toNat]
  | .node l r => [false] :: (l.tokens ++ r.tokens)

/-- The bits of the first `n` tokens of `hdr(T)`. -/
def HuffTree.firstTokens (t : HuffTree) (n : Nat) : Bits := (t.tokens.take n).flatten

/-- The leaves in pre-order, each with its path below a node reached by `p` (42_code_table.md R157). -/
def HuffTree.codesFrom : HuffTree → Bits → List (Nat × Bits)
  | .leaf s, p => [(s.toNat, p)]
  | .node l r, p => l.codesFrom (p ++ [false]) ++ r.codesFrom (p ++ [true])

/-- The leaf a path from the root ends on, if it ends on one (R11, 45_payload_decode.md R203: `0` left, `1` right). -/
def HuffTree.leafAt : HuffTree → Bits → Option Sym
  | .leaf s, [] => some s
  | .leaf _, _ :: _ => none
  | .node _ _, [] => none
  | .node l _, false :: c => l.leafAt c
  | .node _ r, true :: c => r.leafAt c

/-- Does a path from the root end on an internal node? -/
def HuffTree.innerAt : HuffTree → Bits → Bool
  | .leaf _, _ => false
  | .node _ _, [] => true
  | .node l _, false :: c => l.innerAt c
  | .node _ r, true :: c => r.innerAt c

/-- `path(T, s)` (R11): the path of the first leaf with symbol `s`, in pre-order. -/
def HuffTree.codeOf (t : HuffTree) (s : Nat) : Option Bits := Machine.tableGet (t.codesFrom []) s

/-- The codes of a list of input bytes one after the other, by a code table (R113); none where a byte has no
code. -/
def codesOfBytes (ct : Machine.Table Bits) : List Byte → Option Bits
  | [] => some []
  | b :: rest =>
    match Machine.tableGet ct b.toNat, codesOfBytes ct rest with
    | some c, some cs => some (c ++ cs)
    | _, _ => none

namespace Machine

/-! ## The tree in NT (R11, R30) -/

/-- `tree(i)` (R11), looked for down to the given number of levels; none where NT holds no complete tree there. -/
def treeAt (nt : Table Node) : Nat → NodeIdx → Option HuffTree
  | 0, _ => none
  | levels + 1, i =>
    match nodeAt nt i with
    | none => none
    | some (.leaf sym _) => some (.leaf sym)
    | some (.internal l r _) =>
      match treeAt nt levels l, treeAt nt levels r with
      | some a, some b => some (.node a b)
      | _, _ => none

/-- The node indices that following children from `i` reaches, in pre-order (R30). -/
def nodesAt (nt : Table Node) : Nat → NodeIdx → Option (List Nat)
  | 0, _ => none
  | levels + 1, i =>
    match nodeAt nt i with
    | none => none
    | some (.leaf _ _) => some [i.toNat]
    | some (.internal l r _) =>
      match nodesAt nt levels l, nodesAt nt levels r with
      | some a, some b => some (i.toNat :: (a ++ b))
      | _, _ => none

/-- The tree in NT under ROOT. -/
def rootTree (s : State) : Option HuffTree := treeAt s.nt Config.maxLevels s.root

/-- The node index a path leads to from `i` (45_payload_decode.md R203: `0` left, `1` right). -/
def follow (nt : Table Node) : NodeIdx → Bits → Option NodeIdx
  | i, [] => some i
  | i, b :: c =>
    match nodeAt nt i with
    | some (.internal l r _) => follow nt (if b then r else l) c
    | some (.leaf _ _) => none
    | none => none

/-- Is `i` a child of an Internal entry below index `n`? -/
def ChildBelow (nt : Table Node) (n i : Nat) : Prop :=
  ∃ m l r w, m < n ∧ tableGet nt m = some (.internal l r w) ∧ (l.toNat = i ∨ r.toNat = i)

/-- `i` roots a tree of the active set when entry `n` is made (41_tree_build.md R140, R143). -/
def ActiveAt (nt : Table Node) (n i : Nat) : Prop := i < n ∧ ¬ ChildBelow nt n i

/-- `i` is extracted before `j` (41_tree_build.md R144): pairs (weight, index), weight first. -/
def Before (nt : Table Node) (i j : Nat) : Prop :=
  weightAt nt i < weightAt nt j ∨ (weightAt nt i = weightAt nt j ∧ i < j)

/-! ## Sequences of commands -/

/-- The commands of a list one after the other (20_memory.md R78); a stop ends it. -/
def runInOrder : List Instr → State → Host.Outcome State Fault Refusal
  | [], s => .next s
  | i :: rest, s =>
    match exec i s with
    | .next t => runInOrder rest t
    | .fault f => .fault f
    | .refused r => .refused r

/-! ## What a port holds -/

/-- The source bits not yet consumed; none once exhaustion has been reported (20_memory.md R70: sticky). -/
def bitsLeft (p : Src) : Bits := if p.exh then [] else (sourceBits p.data).drop p.pos

/-- The bytes 8-bit reads return from here on, until exhaustion (R70, 40_frequency_count.md R134). -/
def bytesLeft (p : Src) : List Byte := bytesOf (bitsLeft p)

/-- The source after an exhausted read (R70). -/
def srcAtEnd (p : Src) : Src := { p with pos := 8 * p.data.length, exh := true }

/-- The source after `n` more bits were consumed (R70). -/
def srcAdvance (n : Nat) (p : Src) : Src := { p with pos := p.pos + n }

/-- The state fault entry leaves when the sink is `k` and no fault was recorded before (60_exceptions.md R236). -/
def faultState (c : FaultCode) (op : Opcode) (k : Snk) (s : State) : State :=
  { s with err := c, fop := op, snk := some (closeIfOpen k), runState := .fault, hdr := [] }

/-! ## Invariants -/

/-- The indices of a table rise strictly: the canonical form (log entry 6). -/
def tableSorted {α : Type} : Table α → Bool
  | [] => true
  | (k, _) :: t => t.all (fun e => decide (k < e.1)) && tableSorted t

/-- The three tables are canonical: strictly rising, and FREQ lists no count that an unlisted symbol reads as. -/
def tablesCanonical (s : State) : Bool :=
  tableSorted s.freq && tableSorted s.nt && tableSorted s.ct && s.freq.all (fun e => decide (e.2 ≠ 0))

/-- Every entry lies in its table and fits its fields (R29, R30, R32): symbols to 256, node indices to 512, counts
and weights in COUNT_W bits, code lengths 1 to 256; NCNT is at most 513 (R25). -/
def tablesFit (s : State) : Bool :=
  s.freq.all (fun e => decide (e.1 < Config.nsym ∧ e.2 < Config.countLimit s.params))
  && s.nt.all (fun e => decide (e.1 < Config.nodeCap ∧ nodeWeight e.2 < Config.countLimit s.params))
  && s.ct.all (fun e => decide (e.1 < Config.nsym ∧ 0 < e.2.length ∧ e.2.length ≤ 256))
  && decide (s.ncnt.toNat ≤ Config.nodeCap)

/-- No command is half done: STATE is not BUSY and no header node is open (R7, R20, R23). -/
def betweenCommands (s : State) : Bool := decide (s.runState ≠ .busy) && s.hdr.isEmpty

/-- STATUS, ROOT and the flags agree (R23, R24, R28, R236): STATE is FAULT exactly when ERR is not 0; FOP is 0 when
ERR is 0; DST is ATLEAF_SYM only in FAULT (R206); CV implies TV; ROOT is NIL while TV = 0. -/
def statusLegal (s : State) : Bool :=
  (decide (s.runState = .fault) == decide (s.err ≠ .none))
  && (decide (s.err ≠ .none) || decide (s.fop = 0))
  && (decide (s.dst ≠ .atLeafSym) || decide (s.runState = .fault))
  && (!s.cv || s.tv)
  && (s.tv || decide (s.root = Config.nil))

/-- The invariant of R30: while TV = 1, following children from ROOT reaches every index in 0..NCNT-1 exactly
once. -/
def TreeOwned (s : State) : Prop :=
  s.tv = true →
    ∃ idx, nodesAt s.nt Config.maxLevels s.root = some idx ∧ idx.Perm (List.range s.ncnt.toNat)

/-- While CV = 1 the code table holds, for each symbol, the path to its leaf in the tree now in NT (R23, R32, R114):
every symbol stands on one leaf, every code has a bit. -/
def CodesOfTree (s : State) : Prop :=
  s.cv = true →
    ∃ t, rootTree s = some t ∧ t.symbols.Nodup ∧
      ∀ sym, tableGet s.ct sym = t.codeOf sym ∧ t.codeOf sym ≠ some []

/-- The ports' invariant (R33, R34): the position lies in the source, an exhausted source is at its end, a closed
sink holds whole bytes. -/
def portsLegal (s : State) : Bool :=
  (match s.src with
    | none => true
    | some p => decide (p.pos ≤ 8 * p.data.length) && (!p.exh || decide (p.pos = 8 * p.data.length)))
  && (match s.snk with
    | none => true
    | some k => !k.closed || decide (k.bits.length % 8 = 0))

/-- A safe step does not stop with a fault of the model (log entry 8). -/
def SafeStep (s : State) : Prop := ∀ f : Fault, step s ≠ .fault f

end Machine

end Sys2Proof
end

