-- ==== Sys2Proof/Certificates/Slice0/Obligations.lean ====
section
/-! DEFINITION. The statements for the provers, rule by rule of spec/. Each docstring says which rule it formalises; a
clause that rests on a log entry of notes/assumptions says so. -/

open Sys2Proof Sys2Proof.Machine

/-! ## Encodings (30_encoding.md) -/

/-- R101, R103, R110: every instruction that can be encoded is what its own encoding decodes to. -/
def Obligations.DecodeOfEncode : Prop :=
  ∀ i : Instr, i.wf = true → decode (encode i) = .ok i

/-- R101: each command has one word, and no other word selects it. -/
def Obligations.CommandWordMap : Prop :=
  ∀ w : Word,
    (decodeCommand w = .ok .clear ↔ w = 0x00000001) ∧ (decodeCommand w = .ok .count ↔ w = 0x00000002) ∧
    (decodeCommand w = .ok .build ↔ w = 0x00000003) ∧ (decodeCommand w = .ok .gencodes ↔ w = 0x00000004) ∧
    (decodeCommand w = .ok .wrmagic ↔ w = 0x00000005) ∧ (decodeCommand w = .ok .wrhdr ↔ w = 0x00000006) ∧
    (decodeCommand w = .ok .rewind ↔ w = 0x00000007) ∧ (decodeCommand w = .ok .encode ↔ w = 0x00000008) ∧
    (decodeCommand w = .ok .close ↔ w = 0x00000009) ∧ (decodeCommand w = .ok .rdmagic ↔ w = 0x0000000A) ∧
    (decodeCommand w = .ok .rdhdr ↔ w = 0x0000000B) ∧ (decodeCommand w = .ok .decode ↔ w = 0x0000000C) ∧
    (decodeCommand w = .ok .compress ↔ w = 0x0000000D) ∧ (decodeCommand w = .ok .decompress ↔ w = 0x0000000E)

/-- R101, R102, R110: a few words and tokens written out. -/
def Obligations.SampleWordsDecode : Prop :=
  decodeCommand 0x00000001 = .ok .clear ∧ decodeCommand 0x00000007 = .ok .rewind ∧
  decodeCommand 0x0000000E = .ok .decompress ∧ decodeCommand 0x00000000 = .error .reservedOpcode ∧
  decodeCommand 0x0000000F = .error .reservedOpcode ∧ decodeCommand 0x00000012 = .error .upperBitsSet ∧
  decodeToken [false, true] = .ok (.hdrInternal, [true]) ∧
  decodeToken [true, false, false, true, true, false, false, false, false, true] = .ok (.hdrLeaf 97, []) ∧
  decodeToken [true, true, false, false, false, false, false, false, false, false] = .ok (.hdrLeaf 256, []) ∧
  decodeToken [true, true, false, false, false, false, false, false, false] = .error .symbolCut

/-- R110 to R112: a header has `11 L - 1` bits and parses one way only. -/
def Obligations.HeaderParsesOneWay : Prop :=
  (∀ t : HuffTree, t.header.length + 1 = 11 * t.leaves ∧ t.size + 1 = 2 * t.leaves) ∧
  (∀ (t u : HuffTree) (c d : Bits), t.header ++ c = u.header ++ d → t = u ∧ c = d)

/-- R116, R117: the fields of an NT entry's word 0, of a valid CT entry's word 0, and the place of each code bit in words
1 to 8. -/
def Obligations.TableWordFields : Prop :=
  (∀ (sym : Sym) (w : Nat),
    (nodeWord (.leaf sym w)).extractLsb' 0 9 = sym ∧ (nodeWord (.leaf sym w)).getLsbD 9 = false ∧
    (nodeWord (.leaf sym w)).extractLsb' 10 10 = (0x3FF : NodeIdx) ∧
    (nodeWord (.leaf sym w)).extractLsb' 20 10 = (0x3FF : NodeIdx) ∧
    (nodeWord (.leaf sym w)).getLsbD 30 = false ∧ (nodeWord (.leaf sym w)).getLsbD 31 = true) ∧
  (∀ (l r : NodeIdx) (w : Nat),
    (nodeWord (.internal l r w)).extractLsb' 0 9 = (0 : Sym) ∧ (nodeWord (.internal l r w)).getLsbD 9 = false ∧
    (nodeWord (.internal l r w)).extractLsb' 10 10 = l ∧ (nodeWord (.internal l r w)).extractLsb' 20 10 = r ∧
    (nodeWord (.internal l r w)).getLsbD 30 = false ∧ (nodeWord (.internal l r w)).getLsbD 31 = false) ∧
  (∀ code : Bits, code.length ≤ 256 →
    (codeHeadWord code).getLsbD 31 = true ∧ (codeHeadWord code).extractLsb' 9 22 = (0 : BitVec 22) ∧
    ((codeHeadWord code).extractLsb' 0 9).toNat = code.length ∧
    ∀ k, k < 256 → (codeBodyWord code (1 + k / 32)).getLsbD (31 - k % 32) = code.getD k false)

/-! ## Acceptance of a command word (46_orchestration.md R215, R216; 30_encoding.md R102) -/

/-- R215, R22: a write of a command's word to CMD runs that command. -/
def Obligations.StepRunsTheCommand : Prop :=
  ∀ (s : State) (i : Instr) (w : Word) (rest : List HostAction),
    s.runState ≠ .busy → s.host = .hwrite 0 w :: rest → decodeCommand w = .ok i →
    step s = exec i { s with host := rest }

/-- Log entry 3 (DESIGN CHOICE: a header open token by token) over R175: the next step runs the token that stands at the
source's position, its bits consumed; no reset and no read of STATUS is pending. -/
def Obligations.StepRunsTheToken : Prop :=
  ∀ (s : State) (p : Src) (i : Instr) (rest : Bits),
    s.runState = .busy → s.src = some p → s.ncnt.toNat ≠ 513 → decodeToken (bitsLeft p) = .ok (i, rest) →
    (∀ h, s.host ≠ .reset :: h) → (∀ h, s.host ≠ .hread 1 :: h) →
    step s = exec i { s with src := some (srcAdvance (encodeToken i).length p) }

/-- R102: in IDLE a word with a reserved OP or an upper bit set is the fault IllegalCommand, FOP its low four bits. -/
def Obligations.IllegalWordFaults : Prop :=
  ∀ (s : State) (w : Word) (rest : List HostAction) (k : Snk),
    s.runState = .idle → s.err = .none → s.snk = some k → s.host = .hwrite 0 w :: rest →
    (w.extractLsb' 0 4 = (0x0 : Opcode) ∨ w.extractLsb' 0 4 = (0xF : Opcode) ∨ w.extractLsb' 4 28 ≠ (0 : BitVec 28)) →
    step s = .next (faultState .illegalCommand (w.extractLsb' 0 4) k { s with host := rest })

/-- R215 (3), R216, R235, R236: a command with a prerequisite that fails is an IllegalCommand and nothing else happens;
with none that fails, it is not one. (With a source never attached, that a failed prerequisite comes first is log
entry 9, DESIGN CHOICE.) -/
def Obligations.PrerequisitesAreTested : Prop :=
  ∀ (s : State) (i : Instr) (k : Snk),
    s.runState = .idle → s.err = .none → s.snk = some k → i.isCommand = true →
    ((i ∈ [Instr.gencodes, .wrhdr, .decode] ∧ s.tv = false) ∨ (i = .encode ∧ s.cv = false) ∨
      (i ∈ [Instr.wrmagic, .wrhdr, .encode, .close, .decode, .compress, .decompress] ∧ k.closed = true) ∨
      (i ∈ [Instr.rewind, .compress] ∧ ∃ p, s.src = some p ∧ p.rew = true) →
      exec i s = .next (faultState .illegalCommand (opcodeOf i) k s)) ∧
    (¬ ((i ∈ [Instr.gencodes, .wrhdr, .decode] ∧ s.tv = false) ∨ (i = .encode ∧ s.cv = false) ∨
        (i ∈ [Instr.wrmagic, .wrhdr, .encode, .close, .decode, .compress, .decompress] ∧ k.closed = true) ∨
        (i ∈ [Instr.rewind, .compress] ∧ ∃ p, s.src = some p ∧ p.rew = true)) →
      ∀ t, exec i s = .next t → t.err ≠ .illegalCommand)

/-- R240: in FAULT every command but CLEAR and every write of FREQ is ignored, registers and tables stay readable, and
CLEAR or reset ends it. -/
def Obligations.FaultIsLeftByClearOrReset : Prop :=
  ∀ (s : State) (rest : List HostAction), s.runState = .fault →
    (∀ w : Word, w ≠ 0x00000001 → s.host = .hwrite 0 w :: rest → step s = .next { s with host := rest }) ∧
    (∀ (idx : WinIdx) (w : Word), 0x0100 ≤ idx.toNat → idx.toNat ≤ 0x0200 → s.host = .hwrite idx w :: rest →
      step s = .next { s with host := rest }) ∧
    (∀ idx : WinIdx, windowCell idx ≠ .cmd → windowCell idx ≠ .unmapped → s.host = .hread idx :: rest →
      ∃ v d, step s = .next { s with host := rest, replies := s.replies ++ [.word v], draws := d }) ∧
    (s.host = .hwrite 0 0x00000001 :: rest ∨ s.host = .reset :: rest →
      ∃ t, step s = .next t ∧ t.runState = .idle ∧ t.err = .none)

/-! ## CLEAR and reset -/

/-- R224: CLEAR, from IDLE or FAULT, puts HUFFCORE into the reset state and touches no port; it is the only command
accepted in FAULT. -/
def Obligations.ClearGivesTheResetState : Prop :=
  decodeCommand 0x00000001 = .ok .clear ∧
  (∀ s : State, s.runState = .idle ∨ s.runState = .fault →
    exec .clear s = .next { s with
      runState := .idle, err := .none, fop := 0, tv := false, cv := false, tsrc := false, dst := .walking,
      root := 0x3FF, ncnt := 0, cur := 0x3FF, freq := [], ct := [], nt := [], hdr := [] }) ∧
  (∀ (s : State) (i : Instr), s.runState = .fault → i.isCommand = true → i ≠ .clear → exec i s = .next s)

/-- R36: the state after reset (also one that abandons a command) and after CLEAR; reset and CLEAR leave the ports, so
that the mirrors show them. -/
def Obligations.ResetValues : Prop :=
  (∀ t : State, t = State.reset ∨ (∃ s, s.runState ≠ .busy ∧ exec .clear s = .next t) ∨
      (∃ s rest, s.host = .reset :: rest ∧ step s = .next t) ∨
      (∃ s w n rest, s.runState ≠ .busy ∧ s.host = .cmdReset w n :: rest ∧ step s = .next t) →
    t.runState = .idle ∧ t.err = .none ∧ t.fop = 0 ∧ t.tv = false ∧ t.cv = false ∧ t.tsrc = false ∧
    t.dst = .walking ∧ t.root = 0x3FF ∧ t.ncnt = 0 ∧ t.cur = 0x3FF ∧ (∀ j, freqAt t.freq j = 0) ∧
    (∀ j, tableGet t.ct j = none) ∧ statusWord t &&& 0xFFFFC7FF = 0) ∧
  (∀ s t : State, exec .clear s = .next t ∨ (∃ rest, s.host = .reset :: rest ∧ step s = .next t) →
    t.src = s.src ∧ t.snk = s.snk ∧
    (∀ k, s.snk = some k → (statusWord t).getLsbD 11 = k.closed) ∧
    (∀ p, s.src = some p → (statusWord t).getLsbD 12 = p.rew ∧ (statusWord t).getLsbD 13 = p.exh))

/-- R260, R261, R250, R76: reset, at any time, gives the reset values of registers and tables and touches no port. A reset
during a command abandons it between two of its port calls: the ports are as the calls made so far left them, the sink
not closed by the reset; after all of its calls they are as the whole command leaves them. A word that is no command
makes at most fault entry's close. With nothing to do the machine waits (log entry 11). The host names the point with the
action cmdReset (log entry 10). -/
def Obligations.ResetAtAnyTime : Prop :=
  (∀ (s : State) (rest : List HostAction), s.host = .reset :: rest →
    step s = .next { s with
      runState := .idle, err := .none, fop := 0, tv := false, cv := false, tsrc := false, dst := .walking,
      root := 0x3FF, ncnt := 0, cur := 0x3FF, freq := [], ct := [], nt := [], hdr := [], host := rest }) ∧
  (∀ (s u : State) (i : Instr) (w : Word) (n : Nat) (rest : List HostAction), s.runState ≠ .busy →
    s.host = .cmdReset w n :: rest → decodeCommand w = .ok i → (∃ t, exec i { s with host := rest } = .next t) →
    u = playCalls ((portCalls i { s with host := rest }).take n) { s with host := rest } →
    step s = .next { s with
      runState := .idle, err := .none, fop := 0, tv := false, cv := false, tsrc := false, dst := .walking,
      root := 0x3FF, ncnt := 0, cur := 0x3FF, freq := [], ct := [], nt := [], hdr := [], host := rest,
      src := u.src, snk := u.snk }) ∧
  (∀ (i : Instr) (s t : State), i.isCommand = true → exec i s = .next t →
    (playCalls (portCalls i s) s).src = t.src ∧ (playCalls (portCalls i s) s).snk = t.snk) ∧
  (∀ (s : State) (k : Snk) (w : Word) (r : Reject) (n : Nat) (rest : List HostAction), s.runState = .idle →
    s.snk = some k → s.host = .cmdReset w n :: rest → decodeCommand w = .error r →
    step s = .next { s with
      runState := .idle, err := .none, fop := 0, tv := false, cv := false, tsrc := false, dst := .walking,
      root := 0x3FF, ncnt := 0, cur := 0x3FF, freq := [], ct := [], nt := [], hdr := [], host := rest,
      snk := some (if n = 0 then k else closeIfOpen k) }) ∧
  (∀ s : State, s.runState ≠ .busy → s.host = [] → step s = .next s)

/-! ## Fault entry and the host port -/

/-- R236: what `raise F` does, to every state with a sink: nothing after it runs, the first fault is recorded, an open
sink is padded and closed, a closed one is left alone, STATE becomes FAULT, nothing else changes but the running
command's stack, empty after every command (R20). -/
def Obligations.FaultEntry : Prop :=
  ∀ (c : FaultCode) (op : Opcode) (s : State) (k : Snk), s.snk = some k →
    ∃ t, (takeFault c op s).outcome = .next t ∧
      t = { s with err := t.err, fop := t.fop, snk := t.snk, runState := .fault, hdr := [] } ∧
      (s.err = .none → t.err = c ∧ t.fop = op) ∧ (s.err ≠ .none → t.err = s.err ∧ t.fop = s.fop) ∧
      (k.closed = true → t.snk = some k) ∧
      (k.closed = false → t.snk = some
        { bits := k.bits ++ List.replicate ((8 - k.bits.length % 8) % 8) false, closed := true }) ∧
      ∀ later : State → Run, ((takeFault c op s).andThen later).outcome = .next t

/-- R230: an instruction that leaves an error where there was none leaves one of the table's, in a phase of its own:
IllegalCommand under its own opcode, or a fault of one of the primitives it runs under that primitive's. -/
def Obligations.FaultsByPhase : Prop :=
  ∀ (i : Instr) (s t : State), exec i s = .next t → s.err = .none → t.err ≠ .none →
    (t.err = .illegalCommand ∧ t.fop = opcodeOf i ∧ i.isCommand = true) ∨
    (t.err = .formatError ∧ t.fop = 0xA ∧ i ∈ [Instr.rdmagic, .decompress]) ∨
    (t.err = .streamCorrupt ∧ t.fop = 0xB ∧ i ∈ [Instr.rdhdr, .decompress]) ∨
    (t.err = .badInput ∧ t.fop = 0xC ∧ i ∈ [Instr.decode, .decompress]) ∨
    (t.err = .decodeCorrupt ∧ ((t.fop = 0xC ∧ i ∈ [Instr.decode, .decompress]) ∨
      (t.fop = 0x4 ∧ i ∈ [Instr.gencodes, .compress]))) ∨
    (t.err = .capacityExceeded ∧ ((t.fop = 0x2 ∧ i ∈ [Instr.count, .compress]) ∨
      (t.fop = 0x3 ∧ i ∈ [Instr.build, .compress]))) ∨
    (t.err = .treeOverflow ∧ t.fop = 0xB ∧ (i ∈ [Instr.rdhdr, .decompress] ∨ i.isCommand = false)) ∨
    (t.err = .codeMissing ∧ t.fop = 0x8 ∧ i ∈ [Instr.encode, .compress])

/-- R23: the fields of STATUS. -/
def Obligations.StatusFields : Prop :=
  ∀ s : State,
    (statusWord s).extractLsb' 0 2 =
      (match s.runState with | .idle => (0 : BitVec 2) | .busy => 1 | .fault => 2) ∧
    (statusWord s).extractLsb' 2 2 = (0 : BitVec 2) ∧
    (statusWord s).extractLsb' 4 4 =
      (match s.err with
        | .none => (0 : BitVec 4) | .formatError => 1 | .streamCorrupt => 2 | .badInput => 3 | .decodeCorrupt => 4
        | .capacityExceeded => 5 | .treeOverflow => 6 | .codeMissing => 7 | .illegalCommand => 8) ∧
    (statusWord s).getLsbD 8 = s.tv ∧ (statusWord s).getLsbD 9 = s.cv ∧ (statusWord s).getLsbD 10 = s.tsrc ∧
    (∀ k, s.snk = some k → (statusWord s).getLsbD 11 = k.closed) ∧
    (∀ p, s.src = some p → (statusWord s).getLsbD 12 = p.rew ∧ (statusWord s).getLsbD 13 = p.exh) ∧
    (statusWord s).extractLsb' 14 2 =
      (match s.dst with | .walking => (0 : BitVec 2) | .atLeafSym => 1 | .atLeafEof => 2) ∧
    (statusWord s).extractLsb' 16 4 = s.fop ∧ (statusWord s).extractLsb' 20 12 = (0 : BitVec 12)

/-- R62, R63: a host read of a mapped readable index answers what the map says and changes nothing but the list of
answers. -/
def Obligations.HostReadsTheWindow : Prop :=
  ∀ (s : State) (idx : WinIdx) (rest : List HostAction), s.runState ≠ .busy → s.host = .hread idx :: rest →
    (idx = 1 → step s = .next { s with host := rest, replies := s.replies ++ [.word (statusWord s)] }) ∧
    (idx = 2 → step s = .next { s with host := rest, replies := s.replies ++ [.word (s.root.zeroExtend 32)] }) ∧
    (idx = 3 → step s = .next { s with host := rest, replies := s.replies ++ [.word (s.ncnt.zeroExtend 32)] }) ∧
    (idx = 4 → step s = .next { s with host := rest, replies := s.replies ++ [.word (s.cur.zeroExtend 32)] }) ∧
    (∀ sym, sym ≤ 256 → idx.toNat = 0x0100 + sym → freqAt s.freq sym < Config.countLimit s.params →
      step s = .next { s with
        host := rest, replies := s.replies ++ [.word (BitVec.ofNat 32 (freqAt s.freq sym))] }) ∧
    (∀ i n, s.tv = true → i < s.ncnt.toNat → i ≤ 512 → tableGet s.nt i = some n →
      nodeWeight n < Config.countLimit s.params →
      (idx.toNat = 0x0400 + 2 * i →
        step s = .next { s with host := rest, replies := s.replies ++ [.word (nodeWord n)] }) ∧
      (idx.toNat = 0x0401 + 2 * i →
        step s = .next { s with host := rest, replies := s.replies ++ [.word (BitVec.ofNat 32 (nodeWeight n))] })) ∧
    (∀ sym c, sym ≤ 256 → tableGet s.ct sym = some c →
      (idx.toNat = 0x1000 + 16 * sym →
        step s = .next { s with host := rest, replies := s.replies ++ [.word (codeHeadWord c)] }) ∧
      (∀ k, 1 ≤ k → k ≤ 8 → idx.toNat = 0x1000 + 16 * sym + k →
        step s = .next { s with host := rest, replies := s.replies ++ [.word (codeBodyWord c k)] }))

/-- R37 (log entry 5): a host read of a word R37 leaves unspecified answers the next free word, of which nothing is known,
and changes nothing else; a CT entry that is not valid shows VALID = 0 and bits 30:9 zero. -/
def Obligations.UnspecifiedReadsAnswerAnyWord : Prop :=
  ∀ (s : State) (idx : WinIdx) (rest : List HostAction), s.runState ≠ .busy → s.host = .hread idx :: rest →
    (∀ i k, i ≤ 512 → k ≤ 1 → s.tv = false ∨ s.ncnt.toNat ≤ i → idx.toNat = 0x0400 + 2 * i + k →
      step s = .next { s with
        host := rest, replies := s.replies ++ [.word (Config.freeWord s.draws)], draws := s.draws + 1 }) ∧
    (∀ sym k, sym ≤ 256 → k ≤ 8 → tableGet s.ct sym = none → idx.toNat = 0x1000 + 16 * sym + k →
      step s = .next { s with
        host := rest, draws := s.draws + 1,
        replies := s.replies ++
          [.word (if k = 0 then Config.freeWord s.draws &&& 0x1FF else Config.freeWord s.draws)] })

/-- R64: a host write of FREQ[s] in IDLE stores the low COUNT_W bits and changes nothing else; in FAULT it has no
effect. -/
def Obligations.HostWritesFreq : Prop :=
  ∀ (s : State) (idx : WinIdx) (w : Word) (rest : List HostAction) (sym : Nat),
    tablesCanonical s = true → sym ≤ 256 → idx.toNat = 0x0100 + sym → s.host = .hwrite idx w :: rest →
    (s.runState = .idle → ∃ f, step s = .next { s with host := rest, freq := f } ∧
      freqAt f sym = w.toNat % 2 ^ Config.countW s.params ∧ ∀ j, j ≠ sym → freqAt f j = freqAt s.freq j) ∧
    (s.runState = .fault → step s = .next { s with host := rest })

/-- R65: the transactions the model gives no meaning. -/
def Obligations.RefusedTransactions : Prop :=
  ∀ (s : State) (idx : WinIdx) (rest : List HostAction), s.runState ≠ .busy →
    (s.host = .hread idx :: rest →
      (idx = 0 ∨ (5 ≤ idx.toNat ∧ idx.toNat < 0x0100) ∨ (0x0200 < idx.toNat ∧ idx.toNat < 0x0400) ∨
        (0x0801 < idx.toNat ∧ idx.toNat < 0x1000) ∨ 0x2008 < idx.toNat ∨
        (0x1000 ≤ idx.toNat ∧ 9 ≤ idx.toNat % 16)) →
      step s = .refused (.windowRead idx)) ∧
    (∀ w, s.host = .hwrite idx w :: rest → idx ≠ 0 → idx.toNat < 0x0100 ∨ 0x0200 < idx.toNat →
      step s = .refused (.windowWrite idx))

/-- R250, R38, R69: attaching a source or a sink starts it; collecting a closed sink answers its bytes. -/
def Obligations.HostAttachesAndCollects : Prop :=
  ∀ (s : State) (rest : List HostAction), s.runState ≠ .busy →
    (∀ d, s.host = .attachSrc d :: rest →
      step s = .next { s with host := rest, src := some { data := d, pos := 0, exh := false, rew := false } }) ∧
    (s.host = .attachSnk :: rest →
      step s = .next { s with host := rest, snk := some { bits := [], closed := false } }) ∧
    (∀ k, s.snk = some k → k.closed = true → s.host = .collect :: rest →
      ∃ d : List Byte, step s = .next { s with host := rest, replies := s.replies ++ [.bytes d] } ∧
        d.length = k.bits.length / 8 ∧
        ∀ n (h : n < d.length), (d[n]).toNat = val ((k.bits.drop (8 * n)).take 8))

/-! ## COUNT and BUILD -/

/-- R131, R132: COUNT counts the bytes that are left, the source being read to exhaustion, and sets FREQ[256] to 1. -/
def Obligations.CountCountsTheBytesLeft : Prop :=
  decodeCommand 0x00000002 = .ok .count ∧
  ∀ (s : State) (p : Src), s.runState = .idle → s.src = some p →
    (∀ b : Byte, (bytesLeft p).count b < Config.countLimit s.params) →
    ∃ f, exec .count s = .next { s with src := some (srcAtEnd p), freq := f } ∧
      (∀ b : Byte, freqAt f b.toNat = (bytesLeft p).count b) ∧ freqAt f 256 = 1 ∧ ∀ j, 256 < j → freqAt f j = 0

/-- R133: a byte whose count is full raises CapacityExceeded before that count changes. -/
def Obligations.CountNeverWraps : Prop :=
  ∀ (s : State) (p : Src) (k : Snk) (before rest : List Byte) (b : Byte),
    s.runState = .idle → s.err = .none → s.src = some p → s.snk = some k → bytesLeft p = before ++ b :: rest →
    before.count b = Config.countLimit s.params - 1 → (∀ c, before.count c < Config.countLimit s.params) →
    ∃ f, exec .count s = .next (faultState .capacityExceeded 0x2 k
        { s with src := some (srcAdvance (8 * (before.length + 1)) p), freq := f }) ∧
      (∀ c : Byte, freqAt f c.toNat = before.count c) ∧ ∀ j, 256 ≤ j → freqAt f j = 0

/-- R141, R142, R145, R146: BUILD's leaves, its result registers and the weight of its root; NT's first entries are the
leaves in ascending symbol order, and the tree at ROOT has exactly those. -/
def Obligations.BuildResult : Prop :=
  ∀ s : State, s.runState = .idle → ((List.range 257).map (freqAt s.freq)).sum < Config.countLimit s.params →
    ∃ (syms : List Nat) (nt : Table Node) (t : HuffTree),
      exec .build s = .next { s with
        nt := nt, ncnt := BitVec.ofNat 10 (2 * syms.length - 1), root := BitVec.ofNat 10 (2 * syms.length - 2),
        tv := true, cv := false, tsrc := false } ∧
      syms.Pairwise (· < ·) ∧
      (∀ x, x ∈ syms ↔
        x = 256 ∨ (x < 256 ∧ 0 < freqAt s.freq x) ∨ (x = 0 ∧ ∀ y, y < 256 → freqAt s.freq y = 0)) ∧
      (∀ k (h : k < syms.length), tableGet nt k = some (.leaf (BitVec.ofNat 9 syms[k]) (freqAt s.freq syms[k]))) ∧
      treeAt nt Config.maxLevels (BitVec.ofNat 10 (2 * syms.length - 2)) = some t ∧ t.symbols.Perm syms ∧
      weightAt nt (2 * syms.length - 2) = ((List.range 257).map (freqAt s.freq)).sum

/-- R143, R144: entry `n` of a built tree is made from the two active trees with the least (weight, index), the lower one
left, and weighs their sum. -/
def Obligations.BuildMergesTheTwoLeast : Prop :=
  ∀ s : State, s.runState = .idle → ((List.range 257).map (freqAt s.freq)).sum < Config.countLimit s.params →
    ∃ t, exec .build s = .next t ∧
      ∀ n, t.ncnt.toNat < 2 * n + 1 → n < t.ncnt.toNat →
        ∃ a b : Nat,
          tableGet t.nt n = some (.internal (BitVec.ofNat 10 a) (BitVec.ofNat 10 b)
            (weightAt t.nt a + weightAt t.nt b)) ∧
          a ≠ b ∧ ActiveAt t.nt n a ∧ ActiveAt t.nt n b ∧
          (∀ i, ActiveAt t.nt n i → i ≠ a → Before t.nt a i) ∧
          (∀ i, ActiveAt t.nt n i → i ≠ a → i ≠ b → Before t.nt b i)

/-- R147: a weight sum that does not fit raises CapacityExceeded; TV stays 0, ROOT stays NIL, NCNT counts the entries
written. -/
def Obligations.BuildOverflows : Prop :=
  ∀ (s : State) (k : Snk), s.runState = .idle → s.err = .none → s.snk = some k →
    Config.countLimit s.params ≤ ((List.range 257).map (freqAt s.freq)).sum →
    ∃ (nt : Table Node) (n : Nat),
      exec .build s = .next (faultState .capacityExceeded 0x3 k
        { s with tv := false, cv := false, root := 0x3FF, ncnt := BitVec.ofNat 10 n, nt := nt }) ∧
      n ≤ 512 ∧ ∀ j, (tableGet nt j).isSome = true ↔ j < n

/-- R149 (a): in a built tree a heavier leaf lies no deeper than a lighter one. -/
def Obligations.BuiltTreeIsMinimal : Prop :=
  ∀ s : State, s.runState = .idle → ((List.range 257).map (freqAt s.freq)).sum < Config.countLimit s.params →
    ∃ t tree, exec .build s = .next t ∧ rootTree t = some tree ∧
      ∀ x y cx cy, (x, cx) ∈ tree.codesFrom [] → (y, cy) ∈ tree.codesFrom [] →
        freqAt s.freq y < freqAt s.freq x → cx.length ≤ cy.length

/-! ## GENCODES -/

/-- R155 to R157: over a tree with an internal root and distinct symbols up to 256, GENCODES gives every symbol the path
to its leaf, every other symbol none, and sets CV. -/
def Obligations.GencodesRecordsThePaths : Prop :=
  ∀ (s : State) (l r : HuffTree), s.runState = .idle → s.tv = true → rootTree s = some (.node l r) →
    (HuffTree.node l r).symbols.Nodup → (∀ x ∈ (HuffTree.node l r).symbols, x ≤ 256) →
    ∃ ct, exec .gencodes s = .next { s with cv := true, ct := ct } ∧
      ∀ sym, tableGet ct sym = (HuffTree.node l r).codeOf sym

/-- R158, R159: a root that is a leaf is rejected before the walk, every valid bit clear; below an internal root the first
leaf visited whose symbol is above 256 or already has a code raises DecodeCorrupt, and the entries written before it keep
their codes. -/
def Obligations.GencodesRejectsBadTrees : Prop :=
  ∀ (s : State) (k : Snk) (t : HuffTree), s.runState = .idle → s.err = .none → s.tv = true → s.snk = some k →
    rootTree s = some t →
    (∀ sym, t = .leaf sym →
      exec .gencodes s = .next (faultState .decodeCorrupt 0x4 k { s with cv := false, ct := [] })) ∧
    (∀ l r before rest x c, t = .node l r → t.codesFrom [] = before ++ (x, c) :: rest →
      (before.map Prod.fst).Nodup → (∀ e ∈ before, e.1 ≤ 256) → 256 < x ∨ x ∈ before.map Prod.fst →
      ∃ ct, exec .gencodes s = .next (faultState .decodeCorrupt 0x4 k { s with cv := false, ct := ct }) ∧
        ∀ sym, tableGet ct sym = tableGet before sym)

/-- R160, R161: while the code table is valid no code is a prefix of another's, and every code has 1 to 256 bits. -/
def Obligations.CodesFormAPrefixCode : Prop :=
  ∀ s : State, CodesOfTree s → s.cv = true → ∀ x y c d, tableGet s.ct x = some c → tableGet s.ct y = some d →
    (c <+: d → x = y) ∧ 1 ≤ c.length ∧ c.length ≤ 256

/-! ## The header codec -/

/-- R165: WRMAGIC appends the 32 bits of MAGIC to an open sink; on a closed one it is an IllegalCommand. -/
def Obligations.WrmagicAppendsTheMarker : Prop :=
  decodeCommand 0x00000005 = .ok .wrmagic ∧
  ∀ (s : State) (k : Snk), s.runState = .idle → s.snk = some k →
    (k.closed = false →
      exec .wrmagic s = .next { s with snk := some { k with bits := k.bits ++ bits 32 s.params.magic.toNat } }) ∧
    (k.closed = true → s.err = .none → exec .wrmagic s = .next (faultState .illegalCommand 0x5 k s))

/-- R168: WRHDR appends exactly the header of the tree; without a tree or with a closed sink it is an
IllegalCommand. -/
def Obligations.WrhdrAppendsTheHeader : Prop :=
  decodeCommand 0x00000006 = .ok .wrhdr ∧
  ∀ (s : State) (k : Snk), s.runState = .idle → s.snk = some k →
    (∀ t, s.tv = true → k.closed = false → rootTree s = some t →
      exec .wrhdr s = .next { s with snk := some { k with bits := k.bits ++ t.header } }) ∧
    (s.tv = false ∨ k.closed = true → s.err = .none →
      exec .wrhdr s = .next (faultState .illegalCommand 0x6 k s))

/-- R172, R173: RDMAGIC consumes the marker; any other 32 bits, or fewer, are a FormatError. -/
def Obligations.RdmagicChecksTheMarker : Prop :=
  decodeCommand 0x0000000A = .ok .rdmagic ∧
  ∀ (s : State) (p : Src), s.runState = .idle → s.src = some p →
    (∀ rest, bitsLeft p = bits 32 s.params.magic.toNat ++ rest →
      exec .rdmagic s = .next { s with src := some (srcAdvance 32 p) }) ∧
    (∀ k c rest, s.err = .none → s.snk = some k → bitsLeft p = c ++ rest → c.length = 32 →
      c ≠ bits 32 s.params.magic.toNat →
      exec .rdmagic s = .next (faultState .formatError 0xA k { s with src := some (srcAdvance 32 p) })) ∧
    (∀ k, s.err = .none → s.snk = some k → (bitsLeft p).length < 32 →
      exec .rdmagic s = .next (faultState .formatError 0xA k { s with src := some (srcAtEnd p) }))

/-- R175 to R178, R184: where the bits left begin with the header of a tree of at most 513 nodes, RDHDR rebuilds that tree,
its indices in pre-order and its weights 0, and consumes exactly that header. -/
def Obligations.RdhdrRebuildsTheTree : Prop :=
  ∀ (s : State) (p : Src) (t : HuffTree) (rest : Bits), s.runState = .idle → s.src = some p →
    bitsLeft p = t.header ++ rest → t.size ≤ 513 →
    ∃ nt, exec .rdhdr s = .next { s with
        src := some (srcAdvance t.header.length p), nt := nt, ncnt := BitVec.ofNat 10 t.size, root := 0,
        tv := true, cv := false, tsrc := true, hdr := [] } ∧
      treeAt nt Config.maxLevels 0 = some t ∧ nodesAt nt Config.maxLevels 0 = some (List.range t.size) ∧
      ∀ e ∈ nt, nodeWeight e.2 = 0

/-- R179, R180, R181, for a header of any size. Bits left that are a proper beginning of it and end no later than where
its 514th token would begin are StreamCorrupt (also with NCNT = 513 and no bit left), NCNT being the tokens begun: the
fewest whose bits cover the bits left. Bits left that go on by one bit or more after the first 513 of more tokens are
TreeOverflow, that one bit consumed, whatever follows it: the rest of the header, a part of it, or other bits. -/
def Obligations.RdhdrFaults : Prop :=
  ∀ (s : State) (p : Src) (k : Snk) (t : HuffTree), s.runState = .idle → s.err = .none → s.src = some p →
    s.snk = some k →
    (∀ more, t.header = bitsLeft p ++ more → more ≠ [] → (bitsLeft p).length ≤ (t.firstTokens 513).length →
      ∃ (nt : Table Node) (n : NodeIdx),
        exec .rdhdr s = .next (faultState .streamCorrupt 0xB k
          { s with src := some (srcAtEnd p), nt := nt, ncnt := n, root := 0x3FF, tv := false, cv := false }) ∧
        n.toNat ≤ 513 ∧ n.toNat ≤ t.size ∧ (bitsLeft p).length ≤ (t.firstTokens n.toNat).length ∧
        ∀ m < n.toNat, (t.firstTokens m).length < (bitsLeft p).length) ∧
    (∀ b rest, 513 < t.size → bitsLeft p = t.firstTokens 513 ++ b :: rest →
      ∃ nt : Table Node,
        exec .rdhdr s = .next (faultState .treeOverflow 0xB k
          { s with src := some (srcAdvance ((t.firstTokens 513).length + 1) p), nt := nt, ncnt := 513, root := 0x3FF,
                   tv := false, cv := false }))

/-- R182 (d), R181: RDHDR ends on every source: with the tree whose header stands there, or with one of its two faults,
TV = 0 and ROOT = NIL. -/
def Obligations.RdhdrAlwaysEnds : Prop :=
  ∀ (s : State) (p : Src) (k : Snk), s.runState = .idle → s.err = .none → s.src = some p → s.snk = some k →
    ∃ u, exec .rdhdr s = .next u ∧
      ((u.runState = .idle ∧ u.tv = true ∧
          ∃ t rest, bitsLeft p = HuffTree.header t ++ rest ∧ t.size ≤ 513 ∧ rootTree u = some t) ∨
       (u.runState = .fault ∧ u.tv = false ∧ u.root = 0x3FF ∧ u.fop = 0xB ∧ u.ncnt.toNat ≤ 513 ∧
          (u.err = .streamCorrupt ∨ u.err = .treeOverflow)))

/-- R175, R176, R178, R179 for one token while a header is open (log entries 3 and 4, DESIGN CHOICE: tokens as
instructions). An INTERNAL token takes the next free index and opens a node. A LEAF token takes the next free index; every
node whose right subtree it ends is written; the next node outward gets its left child, or, with none open, the header is
complete. Either is TreeOverflow with a full table. -/
def Obligations.HeaderTokensBuildTheTree : Prop :=
  ∀ (s : State) (sym : Nat), s.runState = .busy → sym < 512 →
    (s.ncnt.toNat ≠ 513 →
      exec .hdrInternal s = .next { s with ncnt := s.ncnt + 1, hdr := { node := s.ncnt, left := none } :: s.hdr }) ∧
    (∀ (ended : List (NodeIdx × NodeIdx)) (w : Table Node × NodeIdx), s.ncnt.toNat ≠ 513 →
      w = ended.foldl (fun a e => (tablePut a.1 e.1.toNat (.internal e.2 a.2 0), e.1))
        (tablePut s.nt s.ncnt.toNat (.leaf (BitVec.ofNat 9 sym) 0), s.ncnt) →
      (s.hdr = ended.map (fun e => { node := e.1, left := some e.2 }) →
        exec (.hdrLeaf sym) s = .next { s with
          ncnt := s.ncnt + 1, nt := w.1, hdr := [], root := w.2, tv := true, tsrc := true, runState := .idle }) ∧
      (∀ j outer, s.hdr = ended.map (fun e => { node := e.1, left := some e.2 }) ++ { node := j, left := none } :: outer →
        exec (.hdrLeaf sym) s = .next { s with
          ncnt := s.ncnt + 1, nt := w.1, hdr := { node := j, left := some w.2 } :: outer })) ∧
    (∀ k, s.ncnt.toNat = 513 → s.err = .none → s.snk = some k →
      exec .hdrInternal s = .next (faultState .treeOverflow 0xB k s) ∧
      exec (.hdrLeaf sym) s = .next (faultState .treeOverflow 0xB k s))

/-- Log entry 4: reading a header token by token, one step each, ends in the state RDHDR gives. -/
def Obligations.TokensStepByStepAreRdhdr : Prop :=
  ∀ (s : State) (p : Src) (t : HuffTree) (rest : Bits), s.runState = .idle → s.src = some p → s.host = [] →
    bitsLeft p = t.header ++ rest → t.size ≤ 513 →
    Host.Core.run Sys2Proof.core t.size
      { s with tv := false, cv := false, ncnt := 0, root := 0x3FF, nt := [], runState := .busy, hdr := [] } =
      exec .rdhdr s

/-! ## The payload codec -/

/-- R185: REWIND returns the source to its start, once; a second one is an IllegalCommand. -/
def Obligations.RewindReturnsToTheStart : Prop :=
  decodeCommand 0x00000007 = .ok .rewind ∧
  ∀ (s : State) (p : Src), s.runState = .idle → s.src = some p →
    (p.rew = false →
      exec .rewind s = .next { s with src := some { data := p.data, pos := 0, exh := false, rew := true } }) ∧
    (∀ k, p.rew = true → s.err = .none → s.snk = some k →
      exec .rewind s = .next (faultState .illegalCommand 0x7 k s))

/-- R188, R189: ENCODE appends the codes of the bytes left and then the code of EOS; the source ends exhausted. -/
def Obligations.EncodeAppendsThePayload : Prop :=
  ∀ (s : State) (p : Src) (k : Snk) (cs e : Bits), s.runState = .idle → s.cv = true → s.src = some p →
    s.snk = some k → k.closed = false → codesOfBytes s.ct (bytesLeft p) = some cs → tableGet s.ct 256 = some e →
    exec .encode s = .next { s with
      src := some (srcAtEnd p), snk := some { k with bits := k.bits ++ (cs ++ e) } }

/-- R191: a byte without a code, or EOS without one, is CodeMissing before any bit of it; the codes before it are in the
sink. -/
def Obligations.EncodeMissingCode : Prop :=
  ∀ (s : State) (p : Src) (k : Snk) (cs : Bits), s.runState = .idle → s.err = .none → s.cv = true →
    s.src = some p → s.snk = some k → k.closed = false →
    (∀ before b rest, bytesLeft p = before ++ b :: rest → codesOfBytes s.ct before = some cs →
      tableGet s.ct b.toNat = none →
      exec .encode s = .next (faultState .codeMissing 0x8 { k with bits := k.bits ++ cs }
        { s with src := some (srcAdvance (8 * (before.length + 1)) p) })) ∧
    (codesOfBytes s.ct (bytesLeft p) = some cs → tableGet s.ct 256 = none →
      exec .encode s = .next (faultState .codeMissing 0x8 { k with bits := k.bits ++ cs }
        { s with src := some (srcAtEnd p) }))

/-- R194: CLOSE pads an open sink with zeros to whole bytes and closes it; a closed one is an IllegalCommand. -/
def Obligations.ClosePadsAndCloses : Prop :=
  decodeCommand 0x00000009 = .ok .close ∧
  ∀ (s : State) (k : Snk), s.runState = .idle → s.snk = some k →
    (k.closed = false →
      exec .close s = .next { s with
        snk := some { bits := k.bits ++ List.replicate ((8 - k.bits.length % 8) % 8) false, closed := true } }) ∧
    (k.closed = true → s.err = .none → exec .close s = .next (faultState .illegalCommand 0x9 k s))

/-- R200, R204, R205: where the bits left begin with codes of byte symbols and then the EOS code, DECODE writes those bytes,
consumes exactly those bits and stands on the EOS leaf. -/
def Obligations.DecodeWritesTheBytes : Prop :=
  ∀ (s : State) (p : Src) (k : Snk) (l r : HuffTree) (cs : List (Bits × Byte)) (ce rest : Bits),
    s.runState = .idle → s.tv = true → s.src = some p → s.snk = some k → k.closed = false →
    rootTree s = some (.node l r) → bitsLeft p = cs.flatMap Prod.fst ++ (ce ++ rest) →
    (∀ e ∈ cs, (HuffTree.node l r).leafAt e.1 = some (e.2.zeroExtend 9)) →
    (HuffTree.node l r).leafAt ce = some 256 →
    ∃ c, follow s.nt s.root ce = some c ∧
      exec .decode s = .next { s with
        src := some (srcAdvance ((cs.flatMap Prod.fst).length + ce.length) p),
        snk := some { k with bits := k.bits ++ sourceBits (cs.map Prod.snd) },
        cur := c, dst := .atLeafEof }

/-- R202: a payload cut before the EOS leaf is BadInput; the bytes before it are in the sink, CUR is the node reached. -/
def Obligations.DecodeCutPayload : Prop :=
  ∀ (s : State) (p : Src) (k : Snk) (l r : HuffTree) (cs : List (Bits × Byte)) (c : Bits),
    s.runState = .idle → s.err = .none → s.tv = true → s.src = some p → s.snk = some k → k.closed = false →
    rootTree s = some (.node l r) → bitsLeft p = cs.flatMap Prod.fst ++ c →
    (∀ e ∈ cs, (HuffTree.node l r).leafAt e.1 = some (e.2.zeroExtend 9)) →
    (HuffTree.node l r).innerAt c = true →
    ∃ n, follow s.nt s.root c = some n ∧
      exec .decode s = .next (faultState .badInput 0xC { k with bits := k.bits ++ sourceBits (cs.map Prod.snd) }
        { s with src := some (srcAtEnd p), cur := n, dst := .walking })

/-- R203, R205, R207: with a root that is a leaf, an empty payload is BadInput and any bit is DecodeCorrupt, that bit
consumed; arrival at a leaf with a symbol above 256 is DecodeCorrupt, nothing written for it. -/
def Obligations.DecodeRejectsBadTrees : Prop :=
  ∀ (s : State) (p : Src) (k : Snk) (t : HuffTree), s.runState = .idle → s.err = .none → s.tv = true →
    s.src = some p → s.snk = some k → k.closed = false → rootTree s = some t →
    (∀ sym, t = .leaf sym → bitsLeft p = [] →
      exec .decode s = .next (faultState .badInput 0xC k
        { s with src := some (srcAtEnd p), cur := s.root, dst := .walking })) ∧
    (∀ sym, t = .leaf sym → bitsLeft p ≠ [] →
      exec .decode s = .next (faultState .decodeCorrupt 0xC k
        { s with src := some (srcAdvance 1 p), cur := s.root, dst := .walking })) ∧
    (∀ (l r : HuffTree) (cs : List (Bits × Byte)) (c rest : Bits) (x : Sym), t = .node l r →
      bitsLeft p = cs.flatMap Prod.fst ++ (c ++ rest) → (∀ e ∈ cs, t.leafAt e.1 = some (e.2.zeroExtend 9)) →
      t.leafAt c = some x → 256 < x.toNat →
      ∃ n, follow s.nt s.root c = some n ∧
        exec .decode s = .next (faultState .decodeCorrupt 0xC
          { k with bits := k.bits ++ sourceBits (cs.map Prod.snd) }
          { s with
            src := some (srcAdvance ((cs.flatMap Prod.fst).length + c.length) p), cur := n, dst := .atLeafSym }))

/-- R209: DECODE always ends, and with success exactly when the bits left begin with codes of byte symbols followed by the
EOS code. -/
def Obligations.DecodeAlwaysEnds : Prop :=
  ∀ (s : State) (p : Src) (k : Snk) (t : HuffTree), s.runState = .idle → s.err = .none → s.tv = true →
    s.src = some p → s.snk = some k → k.closed = false → rootTree s = some t →
    ∃ u, exec .decode s = .next u ∧
      (u.runState = .idle ↔
        ∃ (l r : HuffTree) (cs : List (Bits × Byte)) (ce rest : Bits), t = .node l r ∧
          bitsLeft p = cs.flatMap Prod.fst ++ (ce ++ rest) ∧
          (∀ e ∈ cs, t.leafAt e.1 = some (e.2.zeroExtend 9)) ∧ t.leafAt ce = some 256) ∧
      (u.runState = .idle ∨ (u.runState = .fault ∧ u.fop = 0xC ∧ (u.err = .badInput ∨ u.err = .decodeCorrupt)))

/-! ## The orchestrations -/

/-- R218, R221: COMPRESS is its eight primitives and DECOMPRESS its four, in order and each exactly as its own rule says; a
fault in one ends the composite, since the commands after it have no effect in FAULT. -/
def Obligations.CompositesAreTheirPrimitives : Prop :=
  ∀ (s : State) (k : Snk), s.runState = .idle → s.snk = some k → k.closed = false →
    (∀ p, s.src = some p → p.rew = false →
      exec .compress s = runInOrder [.count, .build, .gencodes, .wrmagic, .wrhdr, .rewind, .encode, .close] s) ∧
    exec .decompress s = runInOrder [.rdmagic, .rdhdr, .decode, .close] s

/-- R219 (a): COMPRESS on a fresh source of bytes `d` that COUNT_W can count appends the wire format and closes the
sink. -/
def Obligations.CompressWritesTheWireFormat : Prop :=
  ∀ (s : State) (d : List Byte) (k : Snk), s.runState = .idle →
    s.src = some { data := d, pos := 0, exh := false, rew := false } → s.snk = some k → k.closed = false →
    d.length + 1 < Config.countLimit s.params →
    ∃ (t : HuffTree) (freq : Table Nat) (nt : Table Node) (ct : Table Bits) (cs e w : Bits),
      exec .compress s = .next { s with
        freq := freq, nt := nt, ct := ct, ncnt := BitVec.ofNat 10 t.size, root := BitVec.ofNat 10 (t.size - 1),
        tv := true, cv := true, tsrc := false,
        src := some { data := d, pos := 8 * d.length, exh := true, rew := true },
        snk := some { bits := w ++ List.replicate ((8 - w.length % 8) % 8) false, closed := true } } ∧
      w = k.bits ++ (bits 32 s.params.magic.toNat ++ (t.header ++ (cs ++ e))) ∧
      treeAt nt Config.maxLevels (BitVec.ofNat 10 (t.size - 1)) = some t ∧
      codesOfBytes (t.codesFrom []) d = some cs ∧ t.codeOf 256 = some e ∧
      (∀ b : Byte, freqAt freq b.toNat = d.count b) ∧ freqAt freq 256 = 1 ∧ ∀ sym, tableGet ct sym = t.codeOf sym

/-- R222 (b): DECOMPRESS on the marker, a header, codes and the EOS code writes the decoded bytes and closes the
sink. -/
def Obligations.DecompressWritesTheBytes : Prop :=
  ∀ (s : State) (p : Src) (k : Snk) (l r : HuffTree) (cs : List (Bits × Byte)) (ce rest w : Bits),
    s.runState = .idle → s.src = some p → s.snk = some k → k.closed = false →
    bitsLeft p = bits 32 s.params.magic.toNat ++
      ((HuffTree.node l r).header ++ (cs.flatMap Prod.fst ++ (ce ++ rest))) →
    (HuffTree.node l r).size ≤ 513 →
    (∀ e ∈ cs, (HuffTree.node l r).leafAt e.1 = some (e.2.zeroExtend 9)) →
    (HuffTree.node l r).leafAt ce = some 256 → w = k.bits ++ sourceBits (cs.map Prod.snd) →
    ∃ (nt : Table Node) (c : NodeIdx),
      exec .decompress s = .next { s with
        src := some (srcAdvance
          (32 + ((HuffTree.node l r).header.length + ((cs.flatMap Prod.fst).length + ce.length))) p),
        nt := nt, ncnt := BitVec.ofNat 10 (HuffTree.node l r).size, root := 0, tv := true, cv := false, tsrc := true,
        cur := c, dst := .atLeafEof, hdr := [],
        snk := some { bits := w ++ List.replicate ((8 - w.length % 8) % 8) false, closed := true } } ∧
      treeAt nt Config.maxLevels 0 = some (.node l r) ∧ follow nt 0 ce = some c

/-- R223: decompressing what COMPRESS made of `d` gives back `d`. -/
def Obligations.RoundTrip : Prop :=
  ∀ (s : State) (d : List Byte), s.runState = .idle →
    s.src = some { data := d, pos := 0, exh := false, rew := false } → s.snk = some { bits := [], closed := false } →
    d.length + 1 < Config.countLimit s.params →
    ∃ t z, exec .compress s = .next t ∧ t.runState = .idle ∧
      t.snk = some { bits := sourceBits z, closed := true } ∧
      ∀ u : State, u.runState = .idle → u.params = s.params →
        u.src = some { data := z, pos := 0, exh := false, rew := false } →
        u.snk = some { bits := [], closed := false } →
        ∃ v, exec .decompress u = .next v ∧ v.runState = .idle ∧
          v.snk = some { bits := sourceBits d, closed := true }

/-! ## The whole machine -/

/-- R20, R24 to R32, R225, R241: which instruction writes which register, table and port, on every path: a normal end, a
fault or no effect. -/
def Obligations.WhoWritesWhat : Prop :=
  ∀ (i : Instr) (s t : State), exec i s = .next t →
    t.params = s.params ∧ t.host = s.host ∧ t.replies = s.replies ∧ t.draws = s.draws ∧
    (t.freq = s.freq ∨ i ∈ [Instr.clear, .count, .compress]) ∧
    ((t.nt = s.nt ∧ t.ncnt = s.ncnt ∧ t.root = s.root ∧ t.tv = s.tv ∧ t.tsrc = s.tsrc) ∨
      i ∈ [Instr.clear, .build, .rdhdr, .compress, .decompress] ∨ i.isCommand = false) ∧
    (t.ct = s.ct ∨ i ∈ [Instr.clear, .gencodes, .compress]) ∧
    (t.cv = s.cv ∨ i ∈ [Instr.clear, .build, .gencodes, .rdhdr, .compress, .decompress]) ∧
    ((t.cur = s.cur ∧ t.dst = s.dst) ∨ i ∈ [Instr.clear, .decode, .decompress]) ∧
    (t.src = s.src ∨ i ∈ [Instr.count, .rewind, .encode, .rdmagic, .rdhdr, .decode, .compress, .decompress]) ∧
    (t.snk = s.snk ∨ t.runState = .fault ∨
      i ∈ [Instr.wrmagic, .wrhdr, .encode, .close, .decode, .compress, .decompress]) ∧
    ((t.err = s.err ∧ t.fop = s.fop) ∨ i = .clear ∨ (s.runState ≠ .fault ∧ t.runState = .fault)) ∧
    (t.hdr = s.hdr ∨ t.hdr = [] ∨ s.runState = .busy)

/-- R33, R34, R60 (5) and (6), R75: but for an attach, a step only appends to the sink and leaves a closed one alone, never
changes the source's content, and moves its position backward only by the one rewind. -/
def Obligations.StreamsOnlyMoveForward : Prop :=
  ∀ s t : State, portsLegal s = true → step s = .next t →
    (∀ k, s.snk = some k → (∀ rest, s.host ≠ .attachSnk :: rest) →
      ∃ k', t.snk = some k' ∧ k.bits <+: k'.bits ∧ (k.closed = true → k' = k)) ∧
    (∀ p, s.src = some p → (∀ d rest, s.host ≠ .attachSrc d :: rest) →
      ∃ p', t.src = some p' ∧ p'.data = p.data ∧
        ((p'.rew = p.rew ∧ p.pos ≤ p'.pos ∧ (p.exh = true → p' = p)) ∨ (p.rew = false ∧ p'.rew = true)))

/-- Log entry 6: every step keeps the tables in their canonical form. -/
def Obligations.TablesStayCanonical : Prop :=
  ∀ s t : State, tablesCanonical s = true → step s = .next t → tablesCanonical t = true

/-- R21, R25, R29, R30, R32: every step keeps every table entry within its table and its fields, and no step changes MAGIC or
COUNT_W. -/
def Obligations.TablesStayInTheirFields : Prop :=
  ∀ s t : State, step s = .next t →
    t.params = s.params ∧ (betweenCommands s = true → tablesFit s = true → tablesFit t = true)

/-- R23, R24, R28, R206, R236 (and R7, log entry 3): every step keeps STATUS legal: FAULT exactly with an error, FOP 0
without one, ATLEAF_SYM only in FAULT, CV only with TV, ROOT = NIL without a tree; and a step from between commands ends
between commands, so that BUSY is never seen. -/
def Obligations.StatusStaysLegal : Prop :=
  ∀ s t : State, step s = .next t →
    (statusLegal s = true → statusLegal t = true) ∧ (betweenCommands s = true → betweenCommands t = true)

/-- R30: every step keeps the tree owned: while TV = 1, following children from ROOT reaches each index below NCNT exactly
once. -/
def Obligations.TreeStaysOwned : Prop :=
  ∀ s t : State, betweenCommands s = true → TreeOwned s → step s = .next t → TreeOwned t

/-- R23, R28, R157, R268: every step keeps the code table true to the tree now in NT while CV = 1. -/
def Obligations.CodesStayOfTheTree : Prop :=
  ∀ s t : State, betweenCommands s = true → CodesOfTree s → step s = .next t → CodesOfTree t

/-- R33, R34: every step keeps the ports legal: the position inside the source, an exhausted source at its end, a closed
sink of whole bytes. -/
def Obligations.PortsStayLegal : Prop :=
  ∀ s t : State, portsLegal s = true → step s = .next t → portsLegal t = true

/-- R271, log entry 8: while the tree is owned no step stops with a fault of the model: every command ends. -/
def Obligations.NoModelFault : Prop :=
  ∀ s : State, betweenCommands s = true → TreeOwned s → SafeStep s

/-- The invariants of the statements above hold after reset. -/
def Obligations.InvariantsAtReset : Prop :=
  tablesCanonical State.reset = true ∧ tablesFit State.reset = true ∧ betweenCommands State.reset = true ∧ statusLegal State.reset = true ∧
  TreeOwned State.reset ∧ CodesOfTree State.reset ∧ portsLegal State.reset = true
end

