-- ==== Sys2Proof/Laws/BitList.lean ====
section
/-! SUPPORT. Laws of bit lists: `bits` and `val` are inverse (00_scope.md R9), bytes and bit lists convert both ways
(20_memory.md R68, R69). -/

namespace Sys2Proof

@[simp] theorem bits_length (w v : Nat) : (bits w v).length = w := by
  induction w with
  | zero => rfl
  | succ w ih => simp [bits, ih]

@[simp] theorem val_nil : val [] = 0 := rfl

theorem val_cons (b : Bool) (c : Bits) : val (b :: c) = b.toNat * 2 ^ c.length + val c := by
  cases b <;> simp [val]

theorem val_append (a c : Bits) : val (a ++ c) = val a * 2 ^ c.length + val c := by
  induction a with
  | nil => simp
  | cons b a ih =>
    rw [List.cons_append, val_cons, ih, val_cons, List.length_append, pow_add]
    ring

theorem val_lt (c : Bits) : val c < 2 ^ c.length := by
  induction c with
  | nil => simp
  | cons b c ih =>
    rw [val_cons, List.length_cons, pow_succ]
    cases b <;> simp <;> omega

theorem testBit_succ_split (v w : Nat) : v % 2 ^ (w + 1) = (v.testBit w).toNat * 2 ^ w + v % 2 ^ w := by
  rw [Nat.testBit_eq_decide_div_mod_eq, Nat.pow_succ, Nat.mod_mul]
  rcases Nat.mod_two_eq_zero_or_one (v / 2 ^ w) with h | h <;> simp [h]
  omega

theorem val_bits_mod (w v : Nat) : val (bits w v) = v % 2 ^ w := by
  induction w with
  | zero => simp [bits, Nat.mod_one]
  | succ w ih => rw [bits, val_cons, bits_length, ih, testBit_succ_split]

theorem val_bits {w v : Nat} (h : v < 2 ^ w) : val (bits w v) = v := by
  rw [val_bits_mod, Nat.mod_eq_of_lt h]

theorem val_injective : ∀ {a c : Bits}, a.length = c.length → val a = val c → a = c
  | [], [], _, _ => rfl
  | b :: a, d :: c, hl, hv => by
    have hl' : a.length = c.length := by simpa using hl
    rw [val_cons, val_cons, hl'] at hv
    have ha := val_lt a
    have hc := val_lt c
    rw [hl'] at ha
    have hbd : b = d := by cases b <;> cases d <;> simp at hv ⊢ <;> omega
    subst hbd
    rw [val_injective hl' (by omega)]

theorem bits_val (c : Bits) : bits c.length (val c) = c :=
  val_injective (by simp) (val_bits (val_lt c))

theorem bits_val_of_length {c : Bits} {w : Nat} (h : c.length = w) : bits w (val c) = c := by
  subst h; exact bits_val c

theorem bits_one_one : bits 1 1 = [true] := by decide
theorem bits_one_zero : bits 1 0 = [false] := by decide
theorem bits_one_toNat (b : Bool) : bits 1 b.toNat = [b] := by cases b <;> decide

namespace Machine

@[simp] theorem sourceBits_nil : sourceBits [] = [] := rfl

theorem sourceBits_cons (b : Byte) (d : List Byte) : sourceBits (b :: d) = bits 8 b.toNat ++ sourceBits d := rfl

@[simp] theorem sourceBits_length (d : List Byte) : (sourceBits d).length = 8 * d.length := by
  induction d with
  | nil => rfl
  | cons b d ih => rw [sourceBits_cons, List.length_append, bits_length, ih, List.length_cons]; ring

theorem sourceBits_append (a d : List Byte) : sourceBits (a ++ d) = sourceBits a ++ sourceBits d :=
  List.flatMap_append

@[simp] theorem bytesOf_length (c : Bits) : (bytesOf c).length = c.length / 8 := by simp [bytesOf]

/-- Byte `n` is the value of its 8 bits (20_memory.md R69). -/
theorem bytesOf_getElem (c : Bits) (n : Nat) (h : n < (bytesOf c).length) :
    ((bytesOf c)[n]).toNat = val ((c.drop (8 * n)).take 8) := by
  have h1 := val_lt ((c.drop (8 * n)).take 8)
  have h2 : ((c.drop (8 * n)).take 8).length ≤ 8 := by simp
  have h3 := Nat.pow_le_pow_right (n := 2) (by omega) h2
  simp only [bytesOf, List.getElem_map, List.getElem_range, BitVec.toNat_ofNat]
  rw [Nat.mod_eq_of_lt (by omega)]

theorem bytesOf_short {c : Bits} (h : c.length < 8) : bytesOf c = [] :=
  List.eq_nil_of_length_eq_zero (by rw [bytesOf_length]; omega)

/-- The first 8 bits are the first byte. -/
theorem bytesOf_append {a : Bits} (c : Bits) (h : a.length = 8) :
    bytesOf (a ++ c) = BitVec.ofNat 8 (val a) :: bytesOf c := by
  unfold bytesOf
  have hl : (a ++ c).length / 8 = c.length / 8 + 1 := by rw [List.length_append, h]; omega
  rw [hl, List.range_succ_eq_map, List.map_cons, List.map_map]
  congr 1
  · rw [Nat.mul_zero, List.drop_zero, List.take_left' h]
  · apply List.map_congr_left
    intro k _
    simp only [Function.comp]
    have ha : a.drop (8 * (k + 1)) = [] := List.drop_eq_nil_of_le (by omega)
    rw [List.drop_append, ha, List.nil_append, h, show 8 * (k + 1) - 8 = 8 * k by omega]

theorem bytesOf_step {c : Bits} (h : 8 ≤ c.length) :
    bytesOf c = BitVec.ofNat 8 (val (c.take 8)) :: bytesOf (c.drop 8) := by
  conv_lhs => rw [← List.take_append_drop 8 c]
  exact bytesOf_append _ (by simp; omega)

theorem bytesOf_sourceBits (d : List Byte) : bytesOf (sourceBits d) = d := by
  induction d with
  | nil => rfl
  | cons b d ih =>
    rw [sourceBits_cons, bytesOf_append _ (bits_length 8 _), ih, val_bits b.isLt, BitVec.ofNat_toNat]
    simp

/-- Whole bytes convert back to the bits they were made of. -/
theorem sourceBits_bytesOf : ∀ (n : Nat) (c : Bits), c.length = 8 * n → sourceBits (bytesOf c) = c
  | 0, c, h => by
    have : c = [] := List.eq_nil_of_length_eq_zero (by omega)
    subst this; rfl
  | n + 1, c, h => by
    have hl : (c.take 8).length = 8 := by simp; omega
    have hv : val (c.take 8) < 2 ^ 8 := by simpa [hl] using val_lt (c.take 8)
    rw [bytesOf_step (by omega), sourceBits_cons, sourceBits_bytesOf n (c.drop 8) (by simp; omega),
      BitVec.toNat_ofNat, Nat.mod_eq_of_lt hv, bits_val_of_length hl, List.take_append_drop]

theorem sourceBits_injective {a d : List Byte} (h : sourceBits a = sourceBits d) : a = d := by
  rw [← bytesOf_sourceBits a, h, bytesOf_sourceBits]

end Machine

end Sys2Proof
end

