-- ==== Sys2Proof/Laws/Port.lean ====
section
/-! SUPPORT. Laws of the port primitives (20_memory.md R70 to R75): what a source read can answer, in terms of the bits
that are left, and what a sink holds after a write or a close. -/

namespace Sys2Proof.Machine

/-! ## The source -/

theorem bitsLeft_of_exh {p : Src} (h : p.exh = true) : bitsLeft p = [] := by simp [bitsLeft, h]

theorem bitsLeft_of_not_exh {p : Src} (h : p.exh = false) : bitsLeft p = (sourceBits p.data).drop p.pos := by
  simp [bitsLeft, h]

theorem bitsLeft_length_le (p : Src) : (bitsLeft p).length ≤ 8 * p.data.length := by
  unfold bitsLeft; split <;> simp

/-- A read that finds its bits returns them and advances (R70). -/
theorem srcRead_some {w : Nat} {p : Src} (hw : 0 < w) (h : w ≤ (bitsLeft p).length) :
    srcRead w p = (some (val ((bitsLeft p).take w)), srcAdvance w p) := by
  have he : p.exh = false := by
    cases hx : p.exh with
    | false => rfl
    | true => rw [bitsLeft_of_exh hx] at h; simp at h; omega
  rw [bitsLeft_of_not_exh he] at h ⊢
  rw [List.length_drop, sourceBits_length] at h
  unfold srcRead
  rw [if_neg (by rw [he]; simp; omega)]
  rfl

/-- A read that does not find its bits answers EXH, and the source is at its end (R70). -/
theorem srcRead_none {w : Nat} {p : Src} (h : (bitsLeft p).length < w) :
    srcRead w p = (none, srcAtEnd p) := by
  unfold srcRead
  rw [if_pos]
  · rfl
  · cases he : p.exh with
    | true => exact .inl rfl
    | false =>
      right
      rw [bitsLeft_of_not_exh he, List.length_drop, sourceBits_length] at h
      omega

/-- What a read can do: either it answers EXH with too few bits left, or it returns the next `w` bits. -/
theorem srcRead_cases {w : Nat} (hw : 0 < w) (p : Src) :
    ((bitsLeft p).length < w ∧ srcRead w p = (none, srcAtEnd p)) ∨
    (w ≤ (bitsLeft p).length ∧ srcRead w p = (some (val ((bitsLeft p).take w)), srcAdvance w p)) := by
  rcases Nat.lt_or_ge (bitsLeft p).length w with h | h
  · exact .inl ⟨h, srcRead_none h⟩
  · exact .inr ⟨h, srcRead_some hw h⟩

@[simp] theorem srcAdvance_data (n : Nat) (p : Src) : (srcAdvance n p).data = p.data := rfl
@[simp] theorem srcAdvance_pos (n : Nat) (p : Src) : (srcAdvance n p).pos = p.pos + n := rfl
@[simp] theorem srcAdvance_exh (n : Nat) (p : Src) : (srcAdvance n p).exh = p.exh := rfl
@[simp] theorem srcAdvance_rew (n : Nat) (p : Src) : (srcAdvance n p).rew = p.rew := rfl
@[simp] theorem srcAtEnd_data (p : Src) : (srcAtEnd p).data = p.data := rfl
@[simp] theorem srcAtEnd_pos (p : Src) : (srcAtEnd p).pos = 8 * p.data.length := rfl
@[simp] theorem srcAtEnd_exh (p : Src) : (srcAtEnd p).exh = true := rfl
@[simp] theorem srcAtEnd_rew (p : Src) : (srcAtEnd p).rew = p.rew := rfl

@[simp] theorem bitsLeft_atEnd (p : Src) : bitsLeft (srcAtEnd p) = [] := bitsLeft_of_exh rfl

@[simp] theorem bitsLeft_advance (n : Nat) (p : Src) : bitsLeft (srcAdvance n p) = (bitsLeft p).drop n := by
  unfold bitsLeft
  simp only [srcAdvance_exh, srcAdvance_data, srcAdvance_pos]
  by_cases h : p.exh = true <;> simp [h, List.drop_drop]

@[simp] theorem srcAdvance_zero (p : Src) : srcAdvance 0 p = p := rfl

theorem srcAdvance_advance (m n : Nat) (p : Src) : srcAdvance n (srcAdvance m p) = srcAdvance (m + n) p := by
  simp [srcAdvance, Nat.add_assoc]

@[simp] theorem srcAtEnd_advance (n : Nat) (p : Src) : srcAtEnd (srcAdvance n p) = srcAtEnd p := rfl

/-- A source at its start and not exhausted has all its bits left. -/
theorem bitsLeft_start {p : Src} (he : p.exh = false) (hp : p.pos = 0) : bitsLeft p = sourceBits p.data := by
  rw [bitsLeft_of_not_exh he, hp, List.drop_zero]

theorem bytesLeft_start {p : Src} (he : p.exh = false) (hp : p.pos = 0) : bytesLeft p = p.data := by
  rw [bytesLeft, bitsLeft_start he hp, bytesOf_sourceBits]

theorem bytesLeft_length_le (p : Src) : (bytesLeft p).length ≤ p.data.length := by
  have := bitsLeft_length_le p
  rw [bytesLeft, bytesOf_length]; omega

/-- A byte read while bytes are left. -/
theorem srcRead_byte {p : Src} {b : Byte} {rest : List Byte} (h : bytesLeft p = b :: rest) :
    srcRead 8 p = (some b.toNat, srcAdvance 8 p) ∧ bytesLeft (srcAdvance 8 p) = rest := by
  have hl : 8 ≤ (bitsLeft p).length := by
    have := congrArg List.length h
    rw [bytesLeft, bytesOf_length, List.length_cons] at this
    omega
  rw [bytesLeft, bytesOf_step hl] at h
  injection h with hb hr
  have hv : val ((bitsLeft p).take 8) < 2 ^ 8 := by
    have := val_lt ((bitsLeft p).take 8)
    rwa [List.length_take_of_le hl] at this
  refine ⟨?_, ?_⟩
  · rw [srcRead_some (by omega) hl, ← hb, BitVec.toNat_ofNat, Nat.mod_eq_of_lt hv]
  · rw [bytesLeft, bitsLeft_advance, hr]

/-- A byte read with no byte left. -/
theorem srcRead_byte_none {p : Src} (h : bytesLeft p = []) : srcRead 8 p = (none, srcAtEnd p) := by
  apply srcRead_none
  have := congrArg List.length h
  rw [bytesLeft, bytesOf_length] at this
  simp at this
  omega

/-- A bit read while bits are left. -/
theorem srcRead_bit {p : Src} {b : Bool} {rest : Bits} (h : bitsLeft p = b :: rest) :
    srcRead 1 p = (some b.toNat, srcAdvance 1 p) ∧ bitsLeft (srcAdvance 1 p) = rest := by
  refine ⟨?_, by rw [bitsLeft_advance, h]; rfl⟩
  rw [srcRead_some (by omega) (by rw [h]; simp), h]
  cases b <;> rfl

/-- A bit read with no bit left. -/
theorem srcRead_bit_none {p : Src} (h : bitsLeft p = []) : srcRead 1 p = (none, srcAtEnd p) :=
  srcRead_none (by rw [h]; simp)

/-! ## The sink -/

@[simp] theorem snkWrite_bits (w v : Nat) (k : Snk) : (snkWrite w v k).bits = k.bits ++ bits w v := rfl
@[simp] theorem snkWrite_closed (w v : Nat) (k : Snk) : (snkWrite w v k).closed = k.closed := rfl
@[simp] theorem snkClose_closed (k : Snk) : (snkClose k).closed = true := rfl
@[simp] theorem snkClose_bits (k : Snk) :
    (snkClose k).bits = k.bits ++ List.replicate ((8 - k.bits.length % 8) % 8) false := rfl

theorem snkClose_whole_bytes (k : Snk) : (snkClose k).bits.length % 8 = 0 := by
  simp; omega

@[simp] theorem closeIfOpen_closed (k : Snk) : (closeIfOpen k).closed = true := by
  unfold closeIfOpen; split <;> simp_all

/-- The sink with bits appended (R73). -/
theorem snk_append_append (k : Snk) (a c : Bits) :
    ({ ({ k with bits := k.bits ++ a } : Snk) with bits := ({ k with bits := k.bits ++ a } : Snk).bits ++ c } : Snk) =
      { k with bits := k.bits ++ (a ++ c) } := by
  simp

end Sys2Proof.Machine
end

