-- ==== Sys2Proof/Laws/State.lean ====
section
/-! SUPPORT. One lemma per field per named update of State, each true by rfl. -/

namespace Sys2Proof.Machine

@[simp] theorem clearCore_runState (s : State) : (clearCore s).runState = .idle := rfl
@[simp] theorem clearCore_err (s : State) : (clearCore s).err = .none := rfl
@[simp] theorem clearCore_tv (s : State) : (clearCore s).tv = false := rfl
@[simp] theorem clearCore_cv (s : State) : (clearCore s).cv = false := rfl
@[simp] theorem clearCore_tsrc (s : State) : (clearCore s).tsrc = false := rfl
@[simp] theorem clearCore_dst (s : State) : (clearCore s).dst = .walking := rfl
@[simp] theorem clearCore_fop (s : State) : (clearCore s).fop = 0 := rfl
@[simp] theorem clearCore_root (s : State) : (clearCore s).root = Config.nil := rfl
@[simp] theorem clearCore_ncnt (s : State) : (clearCore s).ncnt = 0 := rfl
@[simp] theorem clearCore_cur (s : State) : (clearCore s).cur = Config.nil := rfl
@[simp] theorem clearCore_freq (s : State) : (clearCore s).freq = [] := rfl
@[simp] theorem clearCore_nt (s : State) : (clearCore s).nt = [] := rfl
@[simp] theorem clearCore_ct (s : State) : (clearCore s).ct = [] := rfl
@[simp] theorem clearCore_src (s : State) : (clearCore s).src = s.src := rfl
@[simp] theorem clearCore_snk (s : State) : (clearCore s).snk = s.snk := rfl
@[simp] theorem clearCore_hdr (s : State) : (clearCore s).hdr = [] := rfl
@[simp] theorem clearCore_params (s : State) : (clearCore s).params = s.params := rfl
@[simp] theorem clearCore_host (s : State) : (clearCore s).host = s.host := rfl
@[simp] theorem clearCore_replies (s : State) : (clearCore s).replies = s.replies := rfl
@[simp] theorem clearCore_draws (s : State) : (clearCore s).draws = s.draws := rfl

@[simp] theorem startTree_runState (s : State) : (startTree s).runState = s.runState := rfl
@[simp] theorem startTree_err (s : State) : (startTree s).err = s.err := rfl
@[simp] theorem startTree_tv (s : State) : (startTree s).tv = false := rfl
@[simp] theorem startTree_cv (s : State) : (startTree s).cv = false := rfl
@[simp] theorem startTree_tsrc (s : State) : (startTree s).tsrc = s.tsrc := rfl
@[simp] theorem startTree_dst (s : State) : (startTree s).dst = s.dst := rfl
@[simp] theorem startTree_fop (s : State) : (startTree s).fop = s.fop := rfl
@[simp] theorem startTree_root (s : State) : (startTree s).root = Config.nil := rfl
@[simp] theorem startTree_ncnt (s : State) : (startTree s).ncnt = 0 := rfl
@[simp] theorem startTree_cur (s : State) : (startTree s).cur = s.cur := rfl
@[simp] theorem startTree_freq (s : State) : (startTree s).freq = s.freq := rfl
@[simp] theorem startTree_nt (s : State) : (startTree s).nt = [] := rfl
@[simp] theorem startTree_ct (s : State) : (startTree s).ct = s.ct := rfl
@[simp] theorem startTree_src (s : State) : (startTree s).src = s.src := rfl
@[simp] theorem startTree_snk (s : State) : (startTree s).snk = s.snk := rfl
@[simp] theorem startTree_hdr (s : State) : (startTree s).hdr = s.hdr := rfl
@[simp] theorem startTree_params (s : State) : (startTree s).params = s.params := rfl
@[simp] theorem startTree_host (s : State) : (startTree s).host = s.host := rfl
@[simp] theorem startTree_replies (s : State) : (startTree s).replies = s.replies := rfl
@[simp] theorem startTree_draws (s : State) : (startTree s).draws = s.draws := rfl

@[simp] theorem openHeader_runState (s : State) : (openHeader s).runState = .busy := rfl
@[simp] theorem openHeader_err (s : State) : (openHeader s).err = s.err := rfl
@[simp] theorem openHeader_tv (s : State) : (openHeader s).tv = false := rfl
@[simp] theorem openHeader_cv (s : State) : (openHeader s).cv = false := rfl
@[simp] theorem openHeader_tsrc (s : State) : (openHeader s).tsrc = s.tsrc := rfl
@[simp] theorem openHeader_dst (s : State) : (openHeader s).dst = s.dst := rfl
@[simp] theorem openHeader_fop (s : State) : (openHeader s).fop = s.fop := rfl
@[simp] theorem openHeader_root (s : State) : (openHeader s).root = Config.nil := rfl
@[simp] theorem openHeader_ncnt (s : State) : (openHeader s).ncnt = 0 := rfl
@[simp] theorem openHeader_cur (s : State) : (openHeader s).cur = s.cur := rfl
@[simp] theorem openHeader_freq (s : State) : (openHeader s).freq = s.freq := rfl
@[simp] theorem openHeader_nt (s : State) : (openHeader s).nt = [] := rfl
@[simp] theorem openHeader_ct (s : State) : (openHeader s).ct = s.ct := rfl
@[simp] theorem openHeader_src (s : State) : (openHeader s).src = s.src := rfl
@[simp] theorem openHeader_snk (s : State) : (openHeader s).snk = s.snk := rfl
@[simp] theorem openHeader_hdr (s : State) : (openHeader s).hdr = [] := rfl
@[simp] theorem openHeader_params (s : State) : (openHeader s).params = s.params := rfl
@[simp] theorem openHeader_host (s : State) : (openHeader s).host = s.host := rfl
@[simp] theorem openHeader_replies (s : State) : (openHeader s).replies = s.replies := rfl
@[simp] theorem openHeader_draws (s : State) : (openHeader s).draws = s.draws := rfl

@[simp] theorem faultState_runState (c : FaultCode) (op : Opcode) (k : Snk) (s : State) : (faultState c op k s).runState = .fault := rfl
@[simp] theorem faultState_err (c : FaultCode) (op : Opcode) (k : Snk) (s : State) : (faultState c op k s).err = c := rfl
@[simp] theorem faultState_tv (c : FaultCode) (op : Opcode) (k : Snk) (s : State) : (faultState c op k s).tv = s.tv := rfl
@[simp] theorem faultState_cv (c : FaultCode) (op : Opcode) (k : Snk) (s : State) : (faultState c op k s).cv = s.cv := rfl
@[simp] theorem faultState_tsrc (c : FaultCode) (op : Opcode) (k : Snk) (s : State) : (faultState c op k s).tsrc = s.tsrc := rfl
@[simp] theorem faultState_dst (c : FaultCode) (op : Opcode) (k : Snk) (s : State) : (faultState c op k s).dst = s.dst := rfl
@[simp] theorem faultState_fop (c : FaultCode) (op : Opcode) (k : Snk) (s : State) : (faultState c op k s).fop = op := rfl
@[simp] theorem faultState_root (c : FaultCode) (op : Opcode) (k : Snk) (s : State) : (faultState c op k s).root = s.root := rfl
@[simp] theorem faultState_ncnt (c : FaultCode) (op : Opcode) (k : Snk) (s : State) : (faultState c op k s).ncnt = s.ncnt := rfl
@[simp] theorem faultState_cur (c : FaultCode) (op : Opcode) (k : Snk) (s : State) : (faultState c op k s).cur = s.cur := rfl
@[simp] theorem faultState_freq (c : FaultCode) (op : Opcode) (k : Snk) (s : State) : (faultState c op k s).freq = s.freq := rfl
@[simp] theorem faultState_nt (c : FaultCode) (op : Opcode) (k : Snk) (s : State) : (faultState c op k s).nt = s.nt := rfl
@[simp] theorem faultState_ct (c : FaultCode) (op : Opcode) (k : Snk) (s : State) : (faultState c op k s).ct = s.ct := rfl
@[simp] theorem faultState_src (c : FaultCode) (op : Opcode) (k : Snk) (s : State) : (faultState c op k s).src = s.src := rfl
@[simp] theorem faultState_snk (c : FaultCode) (op : Opcode) (k : Snk) (s : State) : (faultState c op k s).snk = some (closeIfOpen k) := rfl
@[simp] theorem faultState_hdr (c : FaultCode) (op : Opcode) (k : Snk) (s : State) : (faultState c op k s).hdr = [] := rfl
@[simp] theorem faultState_params (c : FaultCode) (op : Opcode) (k : Snk) (s : State) : (faultState c op k s).params = s.params := rfl
@[simp] theorem faultState_host (c : FaultCode) (op : Opcode) (k : Snk) (s : State) : (faultState c op k s).host = s.host := rfl
@[simp] theorem faultState_replies (c : FaultCode) (op : Opcode) (k : Snk) (s : State) : (faultState c op k s).replies = s.replies := rfl
@[simp] theorem faultState_draws (c : FaultCode) (op : Opcode) (k : Snk) (s : State) : (faultState c op k s).draws = s.draws := rfl

@[simp] theorem attachSource_runState (d : List Byte) (s : State) : (attachSource d s).runState = s.runState := rfl
@[simp] theorem attachSource_err (d : List Byte) (s : State) : (attachSource d s).err = s.err := rfl
@[simp] theorem attachSource_tv (d : List Byte) (s : State) : (attachSource d s).tv = s.tv := rfl
@[simp] theorem attachSource_cv (d : List Byte) (s : State) : (attachSource d s).cv = s.cv := rfl
@[simp] theorem attachSource_tsrc (d : List Byte) (s : State) : (attachSource d s).tsrc = s.tsrc := rfl
@[simp] theorem attachSource_dst (d : List Byte) (s : State) : (attachSource d s).dst = s.dst := rfl
@[simp] theorem attachSource_fop (d : List Byte) (s : State) : (attachSource d s).fop = s.fop := rfl
@[simp] theorem attachSource_root (d : List Byte) (s : State) : (attachSource d s).root = s.root := rfl
@[simp] theorem attachSource_ncnt (d : List Byte) (s : State) : (attachSource d s).ncnt = s.ncnt := rfl
@[simp] theorem attachSource_cur (d : List Byte) (s : State) : (attachSource d s).cur = s.cur := rfl
@[simp] theorem attachSource_freq (d : List Byte) (s : State) : (attachSource d s).freq = s.freq := rfl
@[simp] theorem attachSource_nt (d : List Byte) (s : State) : (attachSource d s).nt = s.nt := rfl
@[simp] theorem attachSource_ct (d : List Byte) (s : State) : (attachSource d s).ct = s.ct := rfl
@[simp] theorem attachSource_src (d : List Byte) (s : State) : (attachSource d s).src = some { data := d, pos := 0, exh := false, rew := false } := rfl
@[simp] theorem attachSource_snk (d : List Byte) (s : State) : (attachSource d s).snk = s.snk := rfl
@[simp] theorem attachSource_hdr (d : List Byte) (s : State) : (attachSource d s).hdr = s.hdr := rfl
@[simp] theorem attachSource_params (d : List Byte) (s : State) : (attachSource d s).params = s.params := rfl
@[simp] theorem attachSource_host (d : List Byte) (s : State) : (attachSource d s).host = s.host := rfl
@[simp] theorem attachSource_replies (d : List Byte) (s : State) : (attachSource d s).replies = s.replies := rfl
@[simp] theorem attachSource_draws (d : List Byte) (s : State) : (attachSource d s).draws = s.draws := rfl

@[simp] theorem attachSink_runState (s : State) : (attachSink s).runState = s.runState := rfl
@[simp] theorem attachSink_err (s : State) : (attachSink s).err = s.err := rfl
@[simp] theorem attachSink_tv (s : State) : (attachSink s).tv = s.tv := rfl
@[simp] theorem attachSink_cv (s : State) : (attachSink s).cv = s.cv := rfl
@[simp] theorem attachSink_tsrc (s : State) : (attachSink s).tsrc = s.tsrc := rfl
@[simp] theorem attachSink_dst (s : State) : (attachSink s).dst = s.dst := rfl
@[simp] theorem attachSink_fop (s : State) : (attachSink s).fop = s.fop := rfl
@[simp] theorem attachSink_root (s : State) : (attachSink s).root = s.root := rfl
@[simp] theorem attachSink_ncnt (s : State) : (attachSink s).ncnt = s.ncnt := rfl
@[simp] theorem attachSink_cur (s : State) : (attachSink s).cur = s.cur := rfl
@[simp] theorem attachSink_freq (s : State) : (attachSink s).freq = s.freq := rfl
@[simp] theorem attachSink_nt (s : State) : (attachSink s).nt = s.nt := rfl
@[simp] theorem attachSink_ct (s : State) : (attachSink s).ct = s.ct := rfl
@[simp] theorem attachSink_src (s : State) : (attachSink s).src = s.src := rfl
@[simp] theorem attachSink_snk (s : State) : (attachSink s).snk = some { bits := [], closed := false } := rfl
@[simp] theorem attachSink_hdr (s : State) : (attachSink s).hdr = s.hdr := rfl
@[simp] theorem attachSink_params (s : State) : (attachSink s).params = s.params := rfl
@[simp] theorem attachSink_host (s : State) : (attachSink s).host = s.host := rfl
@[simp] theorem attachSink_replies (s : State) : (attachSink s).replies = s.replies := rfl
@[simp] theorem attachSink_draws (s : State) : (attachSink s).draws = s.draws := rfl

end Sys2Proof.Machine
end

