-- ==== Sys2Proof/Laws/Run.lean ====
section
/-! SUPPORT. What the shared operations of a command can do: fault entry, acceptance, port access, sequencing, and the
step. -/

namespace Sys2Proof.Machine

/-! ## Outcomes -/

@[simp] theorem outcome_done (s : State) : (Run.done s).outcome = .next s := rfl
@[simp] theorem outcome_faulted (s : State) : (Run.faulted s).outcome = .next s := rfl
@[simp] theorem outcome_stopped (f : Fault) : (Run.stopped f).outcome = .fault f := rfl
@[simp] theorem outcome_refused (r : Refusal) : (Run.refused r).outcome = .refused r := rfl

/-- A body that gives a next state ran to its end or raised a fault. -/
theorem outcome_next_iff {r : Run} {t : State} : r.outcome = .next t ↔ r = .done t ∨ r = .faulted t := by
  cases r <;> simp [Run.outcome]

theorem outcome_fault_iff {r : Run} {f : Fault} : r.outcome = .fault f ↔ r = .stopped f := by
  cases r <;> simp [Run.outcome]

@[simp] theorem andThen_done (s : State) (k : State → Run) : (Run.done s).andThen k = k s := rfl
@[simp] theorem andThen_faulted (s : State) (k : State → Run) : (Run.faulted s).andThen k = .faulted s := rfl
@[simp] theorem andThen_stopped (f : Fault) (k : State → Run) : (Run.stopped f).andThen k = .stopped f := rfl
@[simp] theorem andThen_refused (r : Refusal) (k : State → Run) : (Run.refused r).andThen k = .refused r := rfl

theorem andThen_done_iff {r : Run} {k : State → Run} {t : State} :
    r.andThen k = .done t ↔ ∃ u, r = .done u ∧ k u = .done t := by
  cases r <;> simp

theorem andThen_faulted_iff {r : Run} {k : State → Run} {t : State} :
    r.andThen k = .faulted t ↔ r = .faulted t ∨ ∃ u, r = .done u ∧ k u = .faulted t := by
  cases r <;> simp

theorem andThen_stopped_iff {r : Run} {k : State → Run} {f : Fault} :
    r.andThen k = .stopped f ↔ r = .stopped f ∨ ∃ u, r = .done u ∧ k u = .stopped f := by
  cases r <;> simp

/-! ## Fault entry (R236) -/

theorem takeFault_of_sink {s : State} {k : Snk} (hk : s.snk = some k) (he : s.err = .none) (c : FaultCode)
    (op : Opcode) : takeFault c op s = .faulted (faultState c op k s) := by
  unfold takeFault; simp [hk, he, faultState]

/-- Fault entry's outcome where a sink stands and no error was recorded. -/
theorem takeFault_outcome {s : State} {k : Snk} (hk : s.snk = some k) (he : s.err = .none) (c : FaultCode)
    (op : Opcode) : (takeFault c op s).outcome = .next (faultState c op k s) := by
  rw [takeFault_of_sink hk he, outcome_faulted]

theorem takeFault_no_sink {s : State} (hk : s.snk = none) (c : FaultCode) (op : Opcode) :
    takeFault c op s = .refused .sinkNotAttached := by
  unfold takeFault; simp [hk]

/-- Everything fault entry can do. -/
theorem takeFault_cases (c : FaultCode) (op : Opcode) (s : State) :
    (s.snk = none ∧ takeFault c op s = .refused .sinkNotAttached) ∨
    (∃ k, s.snk = some k ∧ takeFault c op s = .faulted { s with
      err := if s.err = .none then c else s.err
      fop := if s.err = .none then op else s.fop
      snk := some (closeIfOpen k), runState := .fault, hdr := [] }) := by
  unfold takeFault
  cases hk : s.snk with
  | none => simp
  | some k => simp

theorem takeFault_ne_done (c : FaultCode) (op : Opcode) (s t : State) : takeFault c op s ≠ .done t := by
  unfold takeFault; split <;> simp

theorem takeFault_ne_stopped (c : FaultCode) (op : Opcode) (s : State) (f : Fault) :
    takeFault c op s ≠ .stopped f := by
  unfold takeFault; split <;> simp

theorem takeFault_faulted {c : FaultCode} {op : Opcode} {s t : State} (h : takeFault c op s = .faulted t) :
    ∃ k, s.snk = some k ∧ t = { s with
      err := if s.err = .none then c else s.err
      fop := if s.err = .none then op else s.fop
      snk := some (closeIfOpen k), runState := .fault, hdr := [] } := by
  rcases takeFault_cases c op s with ⟨_, h'⟩ | ⟨k, hk, h'⟩
  · rw [h'] at h; cases h
  · rw [h'] at h; exact ⟨k, hk, by injection h with h; exact h.symm⟩

/-! ## Ports -/

theorem withSource_some {s : State} {p : Src} (h : s.src = some p) (k : Src → Run) : withSource s k = k p := by
  simp [withSource, h]

theorem withSink_open {s : State} {k : Snk} (h : s.snk = some k) (hc : k.closed = false) (f : Snk → Run) :
    withSink s f = f k := by
  simp [withSink, h, hc]

/-- Everything a call of the source can do. -/
theorem withSource_cases (s : State) (k : Src → Run) :
    (s.src = none ∧ withSource s k = .refused .sourceNotAttached) ∨
    (∃ p, s.src = some p ∧ withSource s k = k p) := by
  unfold withSource; cases s.src <;> simp

/-- Everything a call of the sink can do. -/
theorem withSink_cases (s : State) (f : Snk → Run) :
    (∃ r, withSink s f = .refused r) ∨
    (∃ k, s.snk = some k ∧ k.closed = false ∧ withSink s f = f k) := by
  unfold withSink
  cases s.snk with
  | none => exact .inl ⟨_, rfl⟩
  | some k =>
    cases hc : k.closed with
    | true => exact .inl ⟨.sinkClosed, by simp [hc]⟩
    | false => exact .inr ⟨k, rfl, hc, by simp [hc]⟩

/-! ## Acceptance (R215, R216) -/

/-- A command whose prerequisites hold runs its body. -/
theorem accept_runs {i : Instr} {body : State → Run} {s : State} (hi : s.runState = .idle)
    (hb : prereqBroken (prereqOf i) s = false) (hp : prereqPortAbsent (prereqOf i) s = none) :
    accept i body s = body s := by
  simp [accept, hi, hb, hp]

/-- A command with a broken prerequisite is an IllegalCommand. -/
theorem accept_illegal {i : Instr} {body : State → Run} {s : State} (hi : s.runState = .idle)
    (hb : prereqBroken (prereqOf i) s = true) :
    accept i body s = takeFault .illegalCommand (opcodeOf i) s := by
  simp [accept, hi, hb]

theorem accept_not_idle {i : Instr} {body : State → Run} {s : State} (hi : s.runState ≠ .idle) :
    accept i body s = .done s := by
  unfold accept; cases h : s.runState <;> simp_all

/-- Everything acceptance can do. -/
theorem accept_cases (i : Instr) (body : State → Run) (s : State) :
    (s.runState ≠ .idle ∧ accept i body s = .done s) ∨
    (s.runState = .idle ∧ prereqBroken (prereqOf i) s = true ∧
      accept i body s = takeFault .illegalCommand (opcodeOf i) s) ∨
    (∃ r, accept i body s = .refused r) ∨
    (s.runState = .idle ∧ prereqBroken (prereqOf i) s = false ∧ accept i body s = body s) := by
  by_cases hi : s.runState = .idle
  · cases hb : prereqBroken (prereqOf i) s with
    | true => exact .inr (.inl ⟨hi, rfl, accept_illegal hi hb⟩)
    | false =>
      cases hp : prereqPortAbsent (prereqOf i) s with
      | some r => exact .inr (.inr (.inl ⟨r, by simp [accept, hi, hb, hp]⟩))
      | none => exact .inr (.inr (.inr ⟨hi, rfl, accept_runs hi hb hp⟩))
  · exact .inl ⟨hi, accept_not_idle hi⟩

end Sys2Proof.Machine
end

