-- ==== Sys2Proof/Laws/Table.lean ====
section
/-! SUPPORT. Laws of the tables: a read after a write, a write leaves every other index alone, and every operation
keeps the canonical form (log entry 6). -/

namespace Sys2Proof.Machine

variable {α : Type}

@[simp] theorem tableGet_nil (i : Nat) : tableGet ([] : Table α) i = none := rfl

theorem tableGet_cons (k : Nat) (v : α) (t : Table α) (i : Nat) :
    tableGet ((k, v) :: t) i = if k = i then some v else tableGet t i := rfl

@[simp] theorem tableGet_put_same (t : Table α) (i : Nat) (v : α) : tableGet (tablePut t i v) i = some v := by
  induction t with
  | nil => simp [tablePut, tableGet]
  | cons e t ih =>
    obtain ⟨k, u⟩ := e
    simp only [tablePut]
    split
    · rw [tableGet_cons, if_neg (by omega), ih]
    · split <;> simp [tableGet]

theorem tableGet_put_ne (t : Table α) {i j : Nat} (v : α) (h : j ≠ i) :
    tableGet (tablePut t i v) j = tableGet t j := by
  induction t with
  | nil => simp [tablePut, tableGet, Ne.symm h]
  | cons e t ih =>
    obtain ⟨k, u⟩ := e
    simp only [tablePut]
    split
    · rw [tableGet_cons, tableGet_cons, ih]
    · split
      · rename_i hk; subst hk; simp [tableGet, Ne.symm h]
      · simp [tableGet, Ne.symm h]

theorem tableGet_put (t : Table α) (i j : Nat) (v : α) :
    tableGet (tablePut t i v) j = if j = i then some v else tableGet t j := by
  split
  · rename_i h; subst h; simp
  · rename_i h; exact tableGet_put_ne t v h

theorem mem_of_tableGet {t : Table α} {i : Nat} {v : α} (h : tableGet t i = some v) : (i, v) ∈ t := by
  induction t with
  | nil => simp at h
  | cons e t ih =>
    obtain ⟨k, u⟩ := e
    rw [tableGet_cons] at h
    split at h
    · rename_i hk; cases h; subst hk; simp
    · exact List.mem_cons_of_mem _ (ih h)

theorem tableGet_none_of_not_mem {t : Table α} {i : Nat} (h : ∀ e ∈ t, e.1 ≠ i) : tableGet t i = none := by
  cases hg : tableGet t i with
  | none => rfl
  | some v => exact absurd rfl (h _ (mem_of_tableGet hg))

theorem tableGet_ne_none_of_mem {t : Table α} {e : Nat × α} (h : e ∈ t) : tableGet t e.1 ≠ none := by
  induction t with
  | nil => simp at h
  | cons d t ih =>
    obtain ⟨k, u⟩ := d
    rw [tableGet_cons]
    rcases List.mem_cons.1 h with rfl | h
    · simp
    · split
      · simp
      · exact ih h

/-- In a canonical table a listed entry is the one its index reads as. -/
theorem tableGet_of_mem {t : Table α} (hs : tableSorted t = true) {e : Nat × α} (h : e ∈ t) :
    tableGet t e.1 = some e.2 := by
  induction t with
  | nil => simp at h
  | cons d t ih =>
    obtain ⟨k, u⟩ := d
    rw [tableGet_cons]
    have hs' : (∀ e ∈ t, k < e.1) ∧ tableSorted t = true := by simpa [tableSorted] using hs
    rcases List.mem_cons.1 h with rfl | h
    · simp
    · rw [if_neg (by have := hs'.1 e h; omega), ih hs'.2 h]

theorem mem_tablePut {t : Table α} {i : Nat} {v : α} {e : Nat × α} (h : e ∈ tablePut t i v) :
    e = (i, v) ∨ e ∈ t := by
  induction t with
  | nil => simpa [tablePut] using h
  | cons d t ih =>
    obtain ⟨k, u⟩ := d
    simp only [tablePut] at h
    split at h
    · rcases List.mem_cons.1 h with rfl | h
      · exact .inr (by simp)
      · exact (ih h).imp_right (List.mem_cons_of_mem _)
    · split at h
      · exact (List.mem_cons.1 h).imp_right (List.mem_cons_of_mem _)
      · exact List.mem_cons.1 h

theorem mem_tableErase {t : Table α} {i : Nat} {e : Nat × α} (h : e ∈ tableErase t i) : e ∈ t := by
  induction t with
  | nil => simp [tableErase] at h
  | cons d t ih =>
    obtain ⟨k, u⟩ := d
    simp only [tableErase] at h
    split at h
    · exact List.mem_cons_of_mem _ h
    · rcases List.mem_cons.1 h with rfl | h
      · simp
      · exact List.mem_cons_of_mem _ (ih h)

theorem tableSorted_cons (k : Nat) (v : α) (t : Table α) :
    tableSorted ((k, v) :: t) = true ↔ (∀ e ∈ t, k < e.1) ∧ tableSorted t = true := by
  simp [tableSorted]

theorem tableSorted_put {t : Table α} (h : tableSorted t = true) (i : Nat) (v : α) :
    tableSorted (tablePut t i v) = true := by
  induction t with
  | nil => rfl
  | cons e t ih =>
    obtain ⟨k, u⟩ := e
    obtain ⟨hk, ht⟩ := (tableSorted_cons k u t).1 h
    simp only [tablePut]
    split
    · refine (tableSorted_cons _ _ _).2 ⟨?_, ih ht⟩
      intro e he
      rcases mem_tablePut he with rfl | he
      · assumption
      · exact hk e he
    · split
      · rename_i hki; subst hki
        exact (tableSorted_cons _ _ _).2 ⟨hk, ht⟩
      · refine (tableSorted_cons _ _ _).2 ⟨?_, h⟩
        intro e he
        rcases List.mem_cons.1 he with rfl | he
        · simp only; omega
        · have := hk e he; omega

theorem tableSorted_erase {t : Table α} (h : tableSorted t = true) (i : Nat) :
    tableSorted (tableErase t i) = true := by
  induction t with
  | nil => rfl
  | cons e t ih =>
    obtain ⟨k, u⟩ := e
    obtain ⟨hk, ht⟩ := (tableSorted_cons k u t).1 h
    simp only [tableErase]
    split
    · exact ht
    · exact (tableSorted_cons _ _ _).2 ⟨fun e he => hk e (mem_tableErase he), ih ht⟩

theorem tableGet_erase_same {t : Table α} (h : tableSorted t = true) (i : Nat) :
    tableGet (tableErase t i) i = none := by
  induction t with
  | nil => rfl
  | cons e t ih =>
    obtain ⟨k, u⟩ := e
    obtain ⟨hk, ht⟩ := (tableSorted_cons k u t).1 h
    simp only [tableErase]
    split
    · rename_i hki; subst hki
      exact tableGet_none_of_not_mem fun e he => by have := hk e he; omega
    · rename_i hki; rw [tableGet_cons, if_neg hki, ih ht]

theorem tableGet_erase_ne (t : Table α) {i j : Nat} (h : j ≠ i) : tableGet (tableErase t i) j = tableGet t j := by
  induction t with
  | nil => rfl
  | cons e t ih =>
    obtain ⟨k, u⟩ := e
    simp only [tableErase]
    split
    · rename_i hki; subst hki; rw [tableGet_cons, if_neg (Ne.symm h)]
    · rw [tableGet_cons, tableGet_cons, ih]

/-- Two canonical tables that read alike are equal data. -/
theorem table_ext {t u : Table α} (ht : tableSorted t = true) (hu : tableSorted u = true)
    (h : ∀ i, tableGet t i = tableGet u i) : t = u := by
  induction t generalizing u with
  | nil =>
    cases u with
    | nil => rfl
    | cons e u => obtain ⟨k, v⟩ := e; simpa [tableGet] using h k
  | cons e t ih =>
    obtain ⟨k, v⟩ := e
    cases u with
    | nil => simpa [tableGet] using h k
    | cons d u =>
      obtain ⟨l, w⟩ := d
      obtain ⟨hk, ht'⟩ := (tableSorted_cons k v t).1 ht
      obtain ⟨hl, hu'⟩ := (tableSorted_cons l w u).1 hu
      have gk : ∀ i, i ≤ k → tableGet t i = none := fun i hi =>
        tableGet_none_of_not_mem fun e he => by have := hk e he; omega
      have gl : ∀ i, i ≤ l → tableGet u i = none := fun i hi =>
        tableGet_none_of_not_mem fun e he => by have := hl e he; omega
      have hkl : k = l := by
        rcases Nat.lt_trichotomy k l with hlt | heq | hgt
        · have := h k
          rw [tableGet_cons, if_pos rfl, tableGet_cons, if_neg (by omega), gl k (by omega)] at this
          cases this
        · exact heq
        · have := h l
          rw [tableGet_cons, if_neg (by omega), gk l (by omega), tableGet_cons, if_pos rfl] at this
          cases this
      subst hkl
      have hv : v = w := by simpa [tableGet] using h k
      subst hv
      rw [ih ht' hu' fun i => ?_]
      by_cases hi : k = i
      · subst hi; rw [gk k (Nat.le_refl k), gl k (Nat.le_refl k)]
      · simpa [tableGet_cons, hi] using h i

/-! ## FREQ -/

@[simp] theorem freqAt_nil (i : Nat) : freqAt [] i = 0 := rfl

theorem freqAt_put {t : Table Nat} (h : tableSorted t = true) (i j n : Nat) :
    freqAt (freqPut t i n) j = if j = i then n else freqAt t j := by
  unfold freqAt freqPut
  split
  · rename_i hn; subst hn
    split
    · rename_i hj; subst hj; rw [tableGet_erase_same h]; rfl
    · rename_i hj; rw [tableGet_erase_ne t hj]
  · rw [tableGet_put]
    split <;> simp_all

theorem tableSorted_freqPut {t : Table Nat} (h : tableSorted t = true) (i n : Nat) :
    tableSorted (freqPut t i n) = true := by
  unfold freqPut
  split
  · exact tableSorted_erase h i
  · exact tableSorted_put h i n

theorem mem_freqPut {t : Table Nat} {i n : Nat} {e : Nat × Nat} (h : e ∈ freqPut t i n) :
    (e = (i, n) ∧ n ≠ 0) ∨ e ∈ t := by
  unfold freqPut at h
  split at h
  · exact .inr (mem_tableErase h)
  · rename_i hn; exact (mem_tablePut h).imp_left fun h => ⟨h, hn⟩

end Sys2Proof.Machine
end

