-- ==== Sys2Proof/Laws/Tree.lean ====
section
/-! SUPPORT. Laws of the abstract tree and of the tree in NT (00_scope.md R11, 30_encoding.md R110 to R112,
42_code_table.md R160, R161). -/

namespace Sys2Proof

/-! ## Counts -/

theorem HuffTree.leaves_pos (t : HuffTree) : 0 < t.leaves := by
  induction t with
  | leaf s => simp [leaves]
  | node l r ihl ihr => simp [leaves]; omega

theorem HuffTree.depth_lt_leaves (t : HuffTree) : t.depth < t.leaves := by
  induction t with
  | leaf s => simp [leaves, depth]
  | node l r ihl ihr =>
    have := l.leaves_pos
    have := r.leaves_pos
    simp only [leaves, depth]; omega

theorem HuffTree.size_leaves (t : HuffTree) : t.size + 1 = 2 * t.leaves := by
  induction t with
  | leaf s => rfl
  | node l r ihl ihr => simp only [leaves, size]; omega

theorem HuffTree.symbols_length (t : HuffTree) : t.symbols.length = t.leaves := by
  induction t with
  | leaf s => rfl
  | node l r ihl ihr => simp [symbols, leaves, ihl, ihr]

/-- R111. -/
theorem HuffTree.header_length (t : HuffTree) : t.header.length + 1 = 11 * t.leaves := by
  induction t with
  | leaf s => simp [header, leaves]
  | node l r ihl ihr => simp only [header, leaves, List.length_cons, List.length_append]; omega

/-- Parsing from the front, a header is followed by one rest only (R112). -/
theorem HuffTree.header_append_inj : ∀ {t u : HuffTree} {a c : Bits},
    t.header ++ a = u.header ++ c → t = u ∧ a = c
  | .leaf s, .leaf v, a, c, h => by
    simp only [header, List.cons_append, List.cons.injEq, true_and] at h
    obtain ⟨h1, h2⟩ := List.append_inj h (by simp)
    have := congrArg val h1
    rw [val_bits s.isLt, val_bits v.isLt] at this
    exact ⟨by rw [BitVec.eq_of_toNat_eq this], h2⟩
  | .leaf s, .node l r, a, c, h => by simp [header] at h
  | .node l r, .leaf s, a, c, h => by simp [header] at h
  | .node l r, .node l' r', a, c, h => by
    simp only [header, List.cons_append, List.cons.injEq, true_and, List.append_assoc] at h
    obtain ⟨hl, h⟩ := header_append_inj h
    obtain ⟨hr, h⟩ := header_append_inj h
    exact ⟨by rw [hl, hr], h⟩

/-! ## Tokens -/

theorem HuffTree.tokens_length (t : HuffTree) : t.tokens.length = t.size := by
  induction t with
  | leaf s => rfl
  | node l r ihl ihr => simp only [tokens, size, List.length_cons, List.length_append]; omega

theorem HuffTree.tokens_flatten (t : HuffTree) : t.tokens.flatten = t.header := by
  induction t with
  | leaf s => simp [tokens, header]
  | node l r ihl ihr => simp [tokens, header, ihl, ihr]

/-- A token is an INTERNAL or a LEAF token (R110). -/
theorem HuffTree.token_cases {t : HuffTree} {x : Bits} (h : x ∈ t.tokens) :
    x = [false] ∨ ∃ s : Sym, x = true :: bits 9 s.toNat := by
  induction t with
  | leaf s => exact .inr ⟨s, by simpa [tokens] using h⟩
  | node l r ihl ihr =>
    simp only [tokens, List.mem_cons, List.mem_append] at h
    rcases h with h | h | h
    · exact .inl h
    · exact ihl h
    · exact ihr h

@[simp] theorem HuffTree.firstTokens_zero (t : HuffTree) : t.firstTokens 0 = [] := rfl

/-- Under a node the first tokens are its own, then the left subtree's, then the right one's. -/
theorem HuffTree.firstTokens_node (l r : HuffTree) (n : Nat) :
    (HuffTree.node l r).firstTokens (n + 1) = false :: (l.firstTokens n ++ r.firstTokens (n - l.size)) := by
  simp [firstTokens, tokens, List.take_append, l.tokens_length]

theorem HuffTree.firstTokens_all (t : HuffTree) {n : Nat} (h : t.size ≤ n) : t.firstTokens n = t.header := by
  rw [firstTokens, List.take_of_length_le (by rw [t.tokens_length]; exact h), t.tokens_flatten]

/-- The first tokens and the others make the header. -/
theorem HuffTree.firstTokens_append (t : HuffTree) (n : Nat) :
    t.firstTokens n ++ (t.tokens.drop n).flatten = t.header := by
  rw [firstTokens, ← List.flatten_append, List.take_append_drop, t.tokens_flatten]

theorem HuffTree.firstTokens_succ (t : HuffTree) {n : Nat} (h : n < t.size) :
    ∃ x ∈ t.tokens, t.firstTokens (n + 1) = t.firstTokens n ++ x := by
  have hn : n < t.tokens.length := by rw [t.tokens_length]; exact h
  refine ⟨t.tokens[n], List.getElem_mem hn, ?_⟩
  rw [firstTokens, firstTokens, List.take_succ_eq_append_getElem hn, List.flatten_append, List.flatten_singleton]

/-- Every token has bits, so more tokens are more bits. -/
theorem HuffTree.firstTokens_lt (t : HuffTree) {m n : Nat} (hm : m < n) (hn : n ≤ t.size) :
    (t.firstTokens m).length < (t.firstTokens n).length := by
  induction n, hm using Nat.le_induction with
  | base =>
    obtain ⟨x, hx, he⟩ := t.firstTokens_succ (n := m) hn
    have : x ≠ [] := by rcases token_cases hx with rfl | ⟨s, rfl⟩ <;> simp
    have := List.length_pos_iff.2 this
    rw [he, List.length_append]; omega
  | succ k hk ih =>
    obtain ⟨x, -, he⟩ := t.firstTokens_succ (n := k) hn
    have := ih (by omega)
    rw [he, List.length_append]; omega

/-- A header cut short ends in some token: after its whole tokens comes a part of the next one (R180). -/
theorem HuffTree.header_cut {t : HuffTree} {c more : Bits} (h : t.header = c ++ more) (hm : more ≠ []) :
    ∃ n part tail, n < t.size ∧ c = t.firstTokens n ++ part ∧ t.firstTokens (n + 1) = t.firstTokens n ++ (part ++ tail) ∧
      part ++ tail ∈ t.tokens ∧ tail ≠ [] := by
  suffices H : ∀ n, n ≤ t.size → c.length < (t.firstTokens n).length →
      ∃ n part tail, n < t.size ∧ c = t.firstTokens n ++ part ∧
        t.firstTokens (n + 1) = t.firstTokens n ++ (part ++ tail) ∧ part ++ tail ∈ t.tokens ∧ tail ≠ [] by
    refine H t.size (Nat.le_refl _) ?_
    have := List.length_pos_iff.2 hm
    rw [t.firstTokens_all (Nat.le_refl _), h, List.length_append]; omega
  intro n
  induction n with
  | zero => intro _ hc; simp at hc
  | succ n ih =>
    intro hn hc
    rcases Nat.lt_or_ge c.length (t.firstTokens n).length with hlt | hge
    · exact ih (by omega) hlt
    obtain ⟨x, hx, he⟩ := t.firstTokens_succ (n := n) hn
    have hall := t.firstTokens_append (n + 1)
    rw [h, he, List.append_assoc] at hall
    obtain ⟨part, rfl⟩ : ∃ part, c = t.firstTokens n ++ part := by
      rcases List.append_eq_append_iff.1 hall with ⟨a, ha, -⟩ | ⟨a, ha, -⟩
      · exact ⟨a, ha⟩
      · have hl := congrArg List.length ha
        rw [List.length_append] at hl
        have : a = [] := List.eq_nil_of_length_eq_zero (by omega)
        subst this
        exact ⟨[], by simpa using ha.symm⟩
    rw [List.append_assoc, List.append_cancel_left_eq] at hall
    rcases List.append_eq_append_iff.1 hall with ⟨a, ha, -⟩ | ⟨a, ha, -⟩
    · rw [he, ha] at hc; simp at hc
    · subst ha
      refine ⟨n, part, a, hn, rfl, he, hx, ?_⟩
      rintro rfl
      rw [he] at hc; simp at hc

/-! ## Codes -/

theorem HuffTree.codesFrom_append (t : HuffTree) (p q : Bits) :
    t.codesFrom (p ++ q) = (t.codesFrom q).map fun e => (e.1, p ++ e.2) := by
  induction t generalizing q with
  | leaf s => rfl
  | node l r ihl ihr =>
    simp only [codesFrom, List.append_assoc, ihl, ihr, List.map_append]

theorem HuffTree.codesFrom_eq (t : HuffTree) (p : Bits) :
    t.codesFrom p = (t.codesFrom []).map fun e => (e.1, p ++ e.2) := by
  simpa using t.codesFrom_append p []

theorem HuffTree.codesFrom_symbols (t : HuffTree) (p : Bits) : (t.codesFrom p).map Prod.fst = t.symbols := by
  induction t generalizing p with
  | leaf s => rfl
  | node l r ihl ihr => simp [codesFrom, symbols, ihl, ihr]

/-- A path that ends on a leaf ends on it alone: no longer path does (R161). -/
theorem HuffTree.leafAt_append {t : HuffTree} {c : Bits} {s : Sym} (h : t.leafAt c = some s) (d : Bits)
    (hd : d ≠ []) : t.leafAt (c ++ d) = none := by
  induction t generalizing c with
  | leaf v =>
    cases c with
    | nil =>
      cases d with
      | nil => exact absurd rfl hd
      | cons b d => rfl
    | cons b c => simp [leafAt] at h
  | node l r ihl ihr =>
    cases c with
    | nil => simp [leafAt] at h
    | cons b c =>
      cases b with
      | false => exact ihl h
      | true => exact ihr h

/-- Every listed code is the path to a leaf with its symbol (R157). -/
theorem HuffTree.leafAt_of_mem {t : HuffTree} {e : Nat × Bits} (h : e ∈ t.codesFrom []) :
    ∃ s : Sym, t.leafAt e.2 = some s ∧ s.toNat = e.1 := by
  induction t generalizing e with
  | leaf s =>
    simp only [codesFrom, List.mem_singleton] at h
    subst h
    exact ⟨s, rfl, rfl⟩
  | node l r ihl ihr =>
    simp only [codesFrom, List.nil_append, List.mem_append] at h
    rw [l.codesFrom_eq, r.codesFrom_eq] at h
    rcases h with h | h
    · obtain ⟨e', he, rfl⟩ := List.mem_map.1 h
      exact ihl he
    · obtain ⟨e', he, rfl⟩ := List.mem_map.1 h
      exact ihr he

theorem HuffTree.codesFrom_length_le {t : HuffTree} {e : Nat × Bits} (h : e ∈ t.codesFrom []) :
    e.2.length ≤ t.depth := by
  induction t generalizing e with
  | leaf s =>
    simp only [codesFrom, List.mem_singleton] at h
    subst h
    simp [depth]
  | node l r ihl ihr =>
    simp only [codesFrom, List.nil_append, List.mem_append] at h
    rw [l.codesFrom_eq, r.codesFrom_eq] at h
    simp only [depth]
    rcases h with h | h
    · obtain ⟨e', he, rfl⟩ := List.mem_map.1 h
      have := ihl he
      simp only [List.singleton_append, List.length_cons]; omega
    · obtain ⟨e', he, rfl⟩ := List.mem_map.1 h
      have := ihr he
      simp only [List.singleton_append, List.length_cons]; omega

/-- A code of a tree whose root is internal has at least one bit (R160). -/
theorem HuffTree.codesFrom_node_pos {l r : HuffTree} {e : Nat × Bits} (h : e ∈ (HuffTree.node l r).codesFrom []) :
    0 < e.2.length := by
  simp only [codesFrom, List.nil_append, List.mem_append] at h
  rw [l.codesFrom_eq, r.codesFrom_eq] at h
  rcases h with h | h <;> · obtain ⟨e', _, rfl⟩ := List.mem_map.1 h; simp

theorem HuffTree.innerAt_append_of_leafAt {t : HuffTree} {c : Bits} {s : Sym} (h : t.leafAt c = some s) (d : Bits) :
    t.innerAt (c ++ d) = false := by
  induction t generalizing c with
  | leaf v => cases hc : c ++ d <;> rfl
  | node l r ihl ihr =>
    cases c with
    | nil => simp [leafAt] at h
    | cons b c =>
      cases b with
      | false => exact ihl h
      | true => exact ihr h

namespace Machine

/-! ## The tree in NT -/

theorem treeAt_zero (nt : Table Node) (i : NodeIdx) : treeAt nt 0 i = none := rfl

theorem treeAt_leaf {nt : Table Node} {i : NodeIdx} {s : Sym} {w : Nat} (h : nodeAt nt i = some (.leaf s w)) (n : Nat) :
    treeAt nt (n + 1) i = some (.leaf s) := by
  simp [treeAt, h]

theorem treeAt_internal {nt : Table Node} {i l r : NodeIdx} {w n : Nat} {a b : HuffTree}
    (h : nodeAt nt i = some (.internal l r w)) (hl : treeAt nt n l = some a) (hr : treeAt nt n r = some b) :
    treeAt nt (n + 1) i = some (.node a b) := by
  simp [treeAt, h, hl, hr]

/-- What NT must hold where a tree stands. -/
theorem treeAt_cases {nt : Table Node} {n : Nat} {i : NodeIdx} {t : HuffTree} (h : treeAt nt n i = some t) :
    ∃ m, n = m + 1 ∧
      ((∃ s w, nodeAt nt i = some (.leaf s w) ∧ t = .leaf s) ∨
       (∃ l r w a b, nodeAt nt i = some (.internal l r w) ∧ treeAt nt m l = some a ∧ treeAt nt m r = some b ∧
          t = .node a b)) := by
  cases n with
  | zero => simp [treeAt] at h
  | succ m =>
    refine ⟨m, rfl, ?_⟩
    rw [treeAt] at h
    split at h
    · cases h
    · rename_i s w hn; injection h with h; exact .inl ⟨s, w, hn, h.symm⟩
    · rename_i l r w hn
      split at h
      · rename_i a b ha hb; injection h with h; exact .inr ⟨l, r, w, a, b, hn, ha, hb, h.symm⟩
      · cases h

theorem treeAt_depth {nt : Table Node} {n : Nat} {i : NodeIdx} {t : HuffTree} (h : treeAt nt n i = some t) :
    t.depth < n := by
  induction n generalizing i t with
  | zero => simp [treeAt] at h
  | succ n ih =>
    obtain ⟨m, hm, h⟩ := treeAt_cases h
    cases hm
    rcases h with ⟨s, w, _, rfl⟩ | ⟨l, r, w, a, b, _, ha, hb, rfl⟩
    · simp [HuffTree.depth]
    · have := ih ha
      have := ih hb
      simp only [HuffTree.depth]; omega

/-- A tree found looking down `n` levels is found looking down any number of levels above its depth. -/
theorem treeAt_of_depth {nt : Table Node} {n m : Nat} {i : NodeIdx} {t : HuffTree} (h : treeAt nt n i = some t)
    (hm : t.depth < m) : treeAt nt m i = some t := by
  induction t generalizing n m i with
  | leaf s =>
    obtain ⟨n', rfl, h | h⟩ := treeAt_cases h
    · obtain ⟨s', w, hn, hs⟩ := h
      obtain ⟨m', rfl⟩ : ∃ m', m = m' + 1 := ⟨m - 1, by omega⟩
      rw [treeAt_leaf hn m', hs]
    · obtain ⟨_, _, _, _, _, _, _, _, h⟩ := h; cases h
  | node a b iha ihb =>
    obtain ⟨n', rfl, h | h⟩ := treeAt_cases h
    · obtain ⟨_, _, _, h⟩ := h; cases h
    · obtain ⟨l, r, w, a', b', hn, ha, hb, h⟩ := h
      injection h with h1 h2
      subst h1; subst h2
      simp only [HuffTree.depth] at hm
      obtain ⟨m', rfl⟩ : ∃ m', m = m' + 1 := ⟨m - 1, by omega⟩
      exact treeAt_internal hn (iha ha (by omega)) (ihb hb (by omega))

theorem treeAt_unique {nt : Table Node} {n m : Nat} {i : NodeIdx} {t u : HuffTree} (ht : treeAt nt n i = some t)
    (hu : treeAt nt m i = some u) : t = u := by
  have h := treeAt_of_depth ht (Nat.lt_of_lt_of_le (treeAt_depth ht) (Nat.le_max_left n m))
  rw [treeAt_of_depth hu (Nat.lt_of_lt_of_le (treeAt_depth hu) (Nat.le_max_right n m))] at h
  injection h with h
  exact h.symm

/-- Writing an entry that NT did not hold leaves every tree where it was. -/
theorem treeAt_put_fresh {nt : Table Node} {j : Nat} (hj : tableGet nt j = none) (x : Node) {n : Nat} {i : NodeIdx}
    {t : HuffTree} (h : treeAt nt n i = some t) : treeAt (tablePut nt j x) n i = some t := by
  have keep : ∀ {i : NodeIdx} {y : Node}, nodeAt nt i = some y → nodeAt (tablePut nt j x) i = some y := by
    intro i y hy
    unfold nodeAt at hy ⊢
    rw [tableGet_put_ne]
    · exact hy
    · intro hij; rw [hij, hj] at hy; cases hy
  induction n generalizing i t with
  | zero => simp [treeAt] at h
  | succ n ih =>
    obtain ⟨m, hm, h⟩ := treeAt_cases h
    cases hm
    rcases h with ⟨s, w, hn, rfl⟩ | ⟨l, r, w, a, b, hn, ha, hb, rfl⟩
    · exact treeAt_leaf (keep hn) n
    · exact treeAt_internal (keep hn) (ih ha) (ih hb)

/-! ## The indices of the tree in NT -/

theorem nodesAt_cases {nt : Table Node} {n : Nat} {i : NodeIdx} {x : List Nat} (h : nodesAt nt n i = some x) :
    ∃ m, n = m + 1 ∧
      ((∃ s w, nodeAt nt i = some (.leaf s w) ∧ x = [i.toNat]) ∨
       (∃ l r w a b, nodeAt nt i = some (.internal l r w) ∧ nodesAt nt m l = some a ∧ nodesAt nt m r = some b ∧
          x = i.toNat :: (a ++ b))) := by
  cases n with
  | zero => simp [nodesAt] at h
  | succ m =>
    refine ⟨m, rfl, ?_⟩
    rw [nodesAt] at h
    split at h
    · cases h
    · rename_i s w hn; injection h with h; exact .inl ⟨s, w, hn, h.symm⟩
    · rename_i l r w hn
      split at h
      · rename_i a b ha hb; injection h with h; exact .inr ⟨l, r, w, a, b, hn, ha, hb, h.symm⟩
      · cases h

/-- The indices exist exactly where the tree does, one for each of its nodes. -/
theorem treeAt_of_nodesAt {nt : Table Node} {n : Nat} {i : NodeIdx} {x : List Nat} (h : nodesAt nt n i = some x) :
    ∃ t, treeAt nt n i = some t ∧ x.length = t.size := by
  induction n generalizing i x with
  | zero => simp [nodesAt] at h
  | succ n ih =>
    obtain ⟨m, hm, h⟩ := nodesAt_cases h
    cases hm
    rcases h with ⟨s, w, hn, rfl⟩ | ⟨l, r, w, a, b, hn, ha, hb, rfl⟩
    · exact ⟨_, treeAt_leaf hn n, rfl⟩
    · obtain ⟨ta, hta, hla⟩ := ih ha
      obtain ⟨tb, htb, hlb⟩ := ih hb
      refine ⟨_, treeAt_internal hn hta htb, ?_⟩
      simp [HuffTree.size, hla, hlb]; omega

theorem nodesAt_of_treeAt {nt : Table Node} {n : Nat} {i : NodeIdx} {t : HuffTree} (h : treeAt nt n i = some t) :
    ∃ x, nodesAt nt n i = some x ∧ x.length = t.size := by
  induction n generalizing i t with
  | zero => simp [treeAt] at h
  | succ n ih =>
    obtain ⟨m, hm, h⟩ := treeAt_cases h
    cases hm
    rcases h with ⟨s, w, hn, rfl⟩ | ⟨l, r, w, a, b, hn, ha, hb, rfl⟩
    · exact ⟨[i.toNat], by simp [nodesAt, hn], rfl⟩
    · obtain ⟨xa, hxa, hla⟩ := ih ha
      obtain ⟨xb, hxb, hlb⟩ := ih hb
      refine ⟨i.toNat :: (xa ++ xb), by simp [nodesAt, hn, hxa, hxb], ?_⟩
      simp [HuffTree.size, hla, hlb]; omega

theorem nodesAt_put_fresh {nt : Table Node} {j : Nat} (hj : tableGet nt j = none) (x : Node) {n : Nat} {i : NodeIdx}
    {idx : List Nat} (h : nodesAt nt n i = some idx) : nodesAt (tablePut nt j x) n i = some idx := by
  have keep : ∀ {i : NodeIdx} {y : Node}, nodeAt nt i = some y → nodeAt (tablePut nt j x) i = some y := by
    intro i y hy
    unfold nodeAt at hy ⊢
    rw [tableGet_put_ne]
    · exact hy
    · intro hij; rw [hij, hj] at hy; cases hy
  induction n generalizing i idx with
  | zero => simp [nodesAt] at h
  | succ n ih =>
    obtain ⟨m, hm, h⟩ := nodesAt_cases h
    cases hm
    rcases h with ⟨s, w, hn, rfl⟩ | ⟨l, r, w, a, b, hn, ha, hb, rfl⟩
    · simp [nodesAt, keep hn]
    · simp [nodesAt, keep hn, ih ha, ih hb]

theorem nodesAt_of_depth {nt : Table Node} {n m : Nat} {i : NodeIdx} {t : HuffTree} {x : List Nat}
    (ht : treeAt nt n i = some t) (hx : nodesAt nt n i = some x) (hm : t.depth < m) : nodesAt nt m i = some x := by
  induction t generalizing n m i x with
  | leaf s =>
    obtain ⟨m', rfl⟩ : ∃ m', m = m' + 1 := ⟨m - 1, by omega⟩
    obtain ⟨n', hn', h⟩ := nodesAt_cases hx
    subst hn'
    obtain ⟨n'', hn'', h' | h'⟩ := treeAt_cases ht
    · obtain ⟨s', w, hn, _⟩ := h'
      rcases h with ⟨_, _, hn2, rfl⟩ | ⟨_, _, _, _, _, hn2, _⟩
      · simp [nodesAt, hn2]
      · rw [hn] at hn2; cases hn2
    · obtain ⟨_, _, _, _, _, _, _, _, h'⟩ := h'; cases h'
  | node a b iha ihb =>
    simp only [HuffTree.depth] at hm
    obtain ⟨m', rfl⟩ : ∃ m', m = m' + 1 := ⟨m - 1, by omega⟩
    obtain ⟨n', hn', h⟩ := nodesAt_cases hx
    subst hn'
    obtain ⟨n'', hn'', h' | h'⟩ := treeAt_cases ht
    · obtain ⟨_, _, _, h'⟩ := h'; cases h'
    · obtain ⟨l, r, w, a', b', hn, hta, htb, h'⟩ := h'
      injection h' with h1 h2
      subst h1; subst h2
      have : n'' = n' := by omega
      subst this
      rcases h with ⟨_, _, hn2, rfl⟩ | ⟨l2, r2, w2, xa, xb, hn2, hxa, hxb, rfl⟩
      · rw [hn] at hn2; cases hn2
      · rw [hn] at hn2
        injection hn2 with hn2
        injection hn2 with e1 e2 e3
        subst e1; subst e2
        simp [nodesAt, hn, iha hta hxa (m := m') (by omega), ihb htb hxb (m := m') (by omega)]

end Machine

end Sys2Proof
end

