-- ==== Sys2Proof/Laws/Build.lean ====
section
/-! SUPPORT. What BUILD does (41_tree_build.md R140 to R147): the leaf set, the order of extraction, and the forest its
loop merges into one tree. -/

namespace Sys2Proof.Machine

/-! ## The leaf set (R141, R142) -/

theorem leafSymbols_cases (freq : Table Nat) :
    (((List.range 256).filter (fun s => decide (0 < freqAt freq s)) = [] ∧ leafSymbols freq = [0, Config.eos]) ∨
    ((List.range 256).filter (fun s => decide (0 < freqAt freq s)) ≠ [] ∧
      leafSymbols freq = (List.range 256).filter (fun s => decide (0 < freqAt freq s)) ++ [Config.eos])) := by
  unfold leafSymbols
  split
  · rename_i h; exact .inl ⟨h, rfl⟩
  · rename_i s rest h; rw [h]; exact .inr ⟨by simp, rfl⟩

theorem eos_mem_leafSymbols (freq : Table Nat) : Config.eos ∈ leafSymbols freq := by
  rcases leafSymbols_cases freq with ⟨_, h⟩ | ⟨_, h⟩ <;> simp [h]

theorem leafSymbols_le (freq : Table Nat) : ∀ s ∈ leafSymbols freq, s ≤ Config.eos := by
  intro s hs
  rcases leafSymbols_cases freq with ⟨_, h⟩ | ⟨_, h⟩
  · rw [h] at hs; simp [Config.eos] at hs ⊢; omega
  · rw [h] at hs; simp [Config.eos] at hs ⊢; omega

theorem leafSymbols_nodup (freq : Table Nat) : (leafSymbols freq).Nodup := by
  rcases leafSymbols_cases freq with ⟨_, h⟩ | ⟨_, h⟩
  · rw [h]; decide
  · rw [h, List.nodup_append]
    refine ⟨List.nodup_range.filter _, by simp, ?_⟩
    intro a ha b hb
    simp [Config.eos] at ha hb
    omega

theorem leafSymbols_length (freq : Table Nat) : 2 ≤ (leafSymbols freq).length ∧ (leafSymbols freq).length ≤ 257 := by
  rcases leafSymbols_cases freq with ⟨_, h⟩ | ⟨hne, h⟩
  · rw [h]; decide
  · rw [h, List.length_append]
    have h1 := List.length_filter_le (fun s => decide (0 < freqAt freq s)) (List.range 256)
    have h2 := List.length_pos_iff.2 hne
    rw [List.length_range] at h1
    simp only [List.length_singleton]
    omega

/-- A byte symbol with a nonzero count is a leaf (R141). -/
theorem mem_leafSymbols_of_pos {freq : Table Nat} {s : Nat} (hs : s < 256) (h : 0 < freqAt freq s) :
    s ∈ leafSymbols freq := by
  have hm : s ∈ (List.range 256).filter (fun s => decide (0 < freqAt freq s)) := by simp [hs, h]
  rcases leafSymbols_cases freq with ⟨he, _⟩ | ⟨_, hl⟩
  · rw [he] at hm; simp at hm
  · rw [hl]; exact List.mem_append_left _ hm

/-! ## Writing the leaves -/

theorem putLeaves_spec (freq : Table Nat) (l : List Nat) : ∀ (nt : Table Node) (n : Nat),
    (putLeaves freq l nt n).2 = n + l.length ∧
    (∀ j, j < n ∨ n + l.length ≤ j → tableGet (putLeaves freq l nt n).1 j = tableGet nt j) ∧
    (∀ k (hk : k < l.length), tableGet (putLeaves freq l nt n).1 (n + k) =
      some (.leaf (BitVec.ofNat 9 l[k]) (freqAt freq l[k]))) ∧
    (tableSorted nt = true → tableSorted (putLeaves freq l nt n).1 = true) ∧
    (∀ e ∈ (putLeaves freq l nt n).1, e ∈ nt ∨
      ∃ s ∈ l, n ≤ e.1 ∧ e.1 < n + l.length ∧ e.2 = .leaf (BitVec.ofNat 9 s) (freqAt freq s)) := by
  induction l with
  | nil => intro nt n; simp [putLeaves]
  | cons s l ih =>
    intro nt n
    obtain ⟨h1, h2, h3, h4, h5⟩ := ih (tablePut nt n (.leaf (BitVec.ofNat 9 s) (freqAt freq s))) (n + 1)
    simp only [putLeaves, List.length_cons]
    refine ⟨by rw [h1]; omega, ?_, ?_, ?_, ?_⟩
    · intro j hj
      rw [h2 j (by omega), tableGet_put_ne _ _ (by omega)]
    · intro k hk
      cases k with
      | zero => rw [h2 _ (by omega), Nat.add_zero, tableGet_put_same]; rfl
      | succ k =>
        have := h3 k (by omega)
        rw [show n + (k + 1) = n + 1 + k by omega, this]; rfl
    · exact fun hs => h4 (tableSorted_put hs _ _)
    · intro e he
      rcases h5 e he with he | ⟨t, ht, ha, hb, hc⟩
      · rcases mem_tablePut he with rfl | he
        · exact .inr ⟨s, by simp, by simp, by simp, rfl⟩
        · exact .inl he
      · exact .inr ⟨t, List.mem_cons_of_mem _ ht, by omega, by omega, hc⟩

/-! ## The order of extraction (R144) -/

theorem leastKey_none {nt : Table Node} {l : List Nat} : leastKey nt l = none ↔ l = [] := by
  cases l with
  | nil => simp [leastKey]
  | cons i l =>
    simp only [leastKey]
    split
    · simp
    · split <;> simp

theorem leastKey_mem {nt : Table Node} {l : List Nat} {a : Nat} (h : leastKey nt l = some a) : a ∈ l := by
  induction l generalizing a with
  | nil => simp [leastKey] at h
  | cons i l ih =>
    simp only [leastKey] at h
    split at h
    · injection h with h; simp [h]
    · rename_i j hj
      split at h <;> injection h with h
      · exact List.mem_cons_of_mem _ (ih (h ▸ hj))
      · simp [h]

/-! ## The forest -/

/-- The active trees cover the leaves and the entries: every active index holds a tree of at most 257 leaves, the trees'
symbols together are the leaf set, their indices are the entries in use, and their weights add up to `total`. -/
structure Forest (nt : Table Node) (n : Nat) (active syms : List Nat) (total : Nat) (tree : Nat → HuffTree)
    (nodes : Nat → List Nat) : Prop where
  nodup   : active.Nodup
  bound   : ∀ i ∈ active, i < n
  fresh   : ∀ j, n ≤ j → tableGet nt j = none
  sorted  : tableSorted nt = true
  room    : n + active.length ≤ 514
  few     : syms.length ≤ 257
  trees   : ∀ i ∈ active, treeAt nt Config.maxLevels (BitVec.ofNat 10 i) = some (tree i)
  idx     : ∀ i ∈ active, nodesAt nt Config.maxLevels (BitVec.ofNat 10 i) = some (nodes i)
  symbols : (active.flatMap fun i => (tree i).symbols).Perm syms
  entries : (active.flatMap nodes).Perm (List.range n)
  weights : (active.map (weightAt nt)).sum = total

theorem length_flatMap_symbols (l : List Nat) (tree : Nat → HuffTree) :
    (l.flatMap fun i => (tree i).symbols).length = (l.map fun i => (tree i).leaves).sum := by
  simp [List.length_flatMap, HuffTree.symbols_length]

/-- One merge keeps the forest (R143). -/
theorem Forest.merge {nt : Table Node} {n : Nat} {active syms : List Nat} {total : Nat} {tree : Nat → HuffTree}
    {nodes : Nat → List Nat} (F : Forest nt n active syms total tree nodes) {a b : Nat} (ha : a ∈ active)
    (hb : b ∈ active.erase a) :
    Forest (tablePut nt n (.internal (BitVec.ofNat 10 a) (BitVec.ofNat 10 b) (weightAt nt a + weightAt nt b))) (n + 1)
      ((active.erase a).erase b ++ [n]) syms total
      (fun i => if i = n then .node (tree a) (tree b) else tree i)
      (fun i => if i = n then n :: (nodes a ++ nodes b) else nodes i) := by
  have hbA : b ∈ active := List.mem_of_mem_erase hb
  have p1 : active.Perm (a :: active.erase a) := List.perm_cons_erase ha
  have p2 : (active.erase a).Perm (b :: (active.erase a).erase b) := List.perm_cons_erase hb
  have p : active.Perm (a :: b :: (active.erase a).erase b) := p1.trans (p2.cons a)
  generalize hrest : (active.erase a).erase b = rest at *
  have hsub : ∀ i ∈ rest, i ∈ active := fun i hi => p.mem_iff.2 (by simp [hi])
  have hrn : ∀ i ∈ rest, i ≠ n := fun i hi he => by have := F.bound i (hsub i hi); omega
  have q : (rest ++ [n]).Perm (n :: rest) := List.perm_append_singleton n rest
  have hlen : active.length = rest.length + 2 := by rw [p.length_eq]; simp
  have hn512 : n ≤ 512 := by have := F.room; omega
  have hfr : tableGet nt n = none := F.fresh n (Nat.le_refl n)
  have hndp : (a :: b :: rest).Nodup := p.nodup_iff.1 F.nodup
  -- sizes of the two trees
  have hsum : ((a :: b :: rest).map fun i => (tree i).leaves).sum = syms.length := by
    rw [← (p.map fun i => (tree i).leaves).sum_eq, ← length_flatMap_symbols, F.symbols.length_eq]
  have hfew := F.few
  simp only [List.map_cons, List.sum_cons] at hsum
  have hleaves : (HuffTree.node (tree a) (tree b)).leaves ≤ 257 := by simp only [HuffTree.leaves]; omega
  have hdep : (HuffTree.node (tree a) (tree b)).depth < Config.maxLevels := by
    have := (HuffTree.node (tree a) (tree b)).depth_lt_leaves
    simp only [Config.maxLevels]; omega
  have hda : (tree a).depth < (HuffTree.node (tree a) (tree b)).depth := by simp only [HuffTree.depth]; omega
  have hdb : (tree b).depth < (HuffTree.node (tree a) (tree b)).depth := by simp only [HuffTree.depth]; omega
  -- the new node
  have hnode : nodeAt (tablePut nt n (.internal (BitVec.ofNat 10 a) (BitVec.ofNat 10 b)
      (weightAt nt a + weightAt nt b))) (BitVec.ofNat 10 n) =
      some (.internal (BitVec.ofNat 10 a) (BitVec.ofNat 10 b) (weightAt nt a + weightAt nt b)) := by
    unfold nodeAt
    rw [BitVec.toNat_ofNat, Nat.mod_eq_of_lt (by omega), tableGet_put_same]
  generalize hx : Node.internal (BitVec.ofNat 10 a) (BitVec.ofNat 10 b) (weightAt nt a + weightAt nt b) = x at *
  have keepT : ∀ i ∈ active, treeAt (tablePut nt n x) Config.maxLevels (BitVec.ofNat 10 i) = some (tree i) :=
    fun i hi => treeAt_put_fresh hfr x (F.trees i hi)
  have keepX : ∀ i ∈ active, nodesAt (tablePut nt n x) Config.maxLevels (BitVec.ofNat 10 i) = some (nodes i) :=
    fun i hi => nodesAt_put_fresh hfr x (F.idx i hi)
  have hTa := treeAt_of_depth (keepT a ha) hda
  have hTb := treeAt_of_depth (keepT b hbA) hdb
  have hnewT : treeAt (tablePut nt n x) ((HuffTree.node (tree a) (tree b)).depth + 1) (BitVec.ofNat 10 n) =
      some (.node (tree a) (tree b)) := by
    subst hx; exact treeAt_internal hnode hTa hTb
  have hXa := nodesAt_of_depth (keepT a ha) (keepX a ha) hda
  have hXb := nodesAt_of_depth (keepT b hbA) (keepX b hbA) hdb
  have hnewX : nodesAt (tablePut nt n x) ((HuffTree.node (tree a) (tree b)).depth + 1) (BitVec.ofNat 10 n) =
      some (n :: (nodes a ++ nodes b)) := by
    subst hx
    rw [nodesAt, hnode]
    simp only [hXa, hXb, BitVec.toNat_ofNat]
    rw [Nat.mod_eq_of_lt (by omega)]
  have hw : ∀ i ∈ active, weightAt (tablePut nt n x) i = weightAt nt i := by
    intro i hi
    unfold weightAt
    rw [tableGet_put_ne _ _ (by have := F.bound i hi; omega)]
  have hwn : weightAt (tablePut nt n x) n = weightAt nt a + weightAt nt b := by
    unfold weightAt
    rw [tableGet_put_same, ← hx]; rfl
  refine
    { nodup := q.nodup_iff.2 (List.nodup_cons.2 ⟨fun h => hrn n h rfl, ?_⟩)
      bound := ?_
      fresh := ?_
      sorted := tableSorted_put F.sorted _ _
      room := by have := F.room; simp only [List.length_append, List.length_singleton]; omega
      few := F.few
      trees := ?_
      idx := ?_
      symbols := ?_
      entries := ?_
      weights := ?_ }
  · exact (List.nodup_cons.1 (List.nodup_cons.1 hndp).2).2
  · intro i hi
    rcases List.mem_append.1 hi with hi | hi
    · have := F.bound i (hsub i hi); omega
    · simp at hi; omega
  · intro j hj
    rw [tableGet_put_ne _ _ (by omega)]; exact F.fresh j (by omega)
  · intro i hi
    rcases List.mem_append.1 hi with hi | hi
    · rw [if_neg (hrn i hi)]; exact keepT i (hsub i hi)
    · simp at hi; subst hi; rw [if_pos rfl]
      exact treeAt_of_depth hnewT hdep
  · intro i hi
    rcases List.mem_append.1 hi with hi | hi
    · rw [if_neg (hrn i hi)]; exact keepX i (hsub i hi)
    · simp at hi; subst hi; rw [if_pos rfl]
      exact nodesAt_of_depth hnewT hnewX hdep
  · refine (q.flatMap_right _).trans (List.Perm.trans ?_ ((p.flatMap_right _).symm.trans F.symbols))
    simp only [List.flatMap_cons, if_pos, HuffTree.symbols, List.append_assoc]
    refine List.Perm.append_left _ (List.Perm.append_left _ ?_)
    rw [List.flatMap_congr fun i hi => by rw [if_neg (hrn i hi)]]
  · refine (q.flatMap_right _).trans ?_
    rw [List.range_succ]
    refine List.Perm.trans ?_ (List.perm_append_singleton n (List.range n)).symm
    refine List.Perm.trans ?_ (((p.flatMap_right nodes).symm.trans F.entries).cons n)
    simp only [List.flatMap_cons, if_pos, List.append_assoc, List.cons_append]
    refine List.Perm.cons n (List.Perm.append_left _ (List.Perm.append_left _ ?_))
    rw [List.flatMap_congr fun i hi => by rw [if_neg (hrn i hi)]]
  · rw [(q.map _).sum_eq, List.map_cons, List.sum_cons, hwn, ← F.weights, (p.map _).sum_eq]
    simp only [List.map_cons, List.sum_cons]
    rw [List.map_congr_left fun i hi => hw i (hsub i hi)]
    omega

/-- A forest of one tree. -/
def OneTree (nt : Table Node) (n root : Nat) (syms : List Nat) (total : Nat) : Prop :=
  ∃ tree nodes, Forest nt n [root] syms total tree nodes

/-- From a forest of two trees or more, the loop ends in one tree if the weights' sum fits, and in an overflow
otherwise (R146, R147). -/
theorem mergeLoop_cases (limit : Nat) : ∀ (fuel : Nat) {nt : Table Node} {n : Nat} {active syms : List Nat} {total : Nat}
    {tree : Nat → HuffTree} {nodes : Nat → List Nat}, Forest nt n active syms total tree nodes → 2 ≤ active.length →
    active.length ≤ fuel →
    (total < limit ∧ ∃ nt' root, mergeLoop limit fuel nt n active = .built nt' (n + active.length - 1) root ∧
      root + 2 = n + active.length ∧ OneTree nt' (n + active.length - 1) root syms total) ∨
    (limit ≤ total ∧ ∃ nt' n' act' tree' nodes', mergeLoop limit fuel nt n active = .overflow nt' n' ∧
      n ≤ n' ∧ n' + 2 ≤ n + active.length ∧ Forest nt' n' act' syms total tree' nodes')
  | 0, _, _, _, _, _, _, _, _, h2, hf => by omega
  | fuel + 1, nt, n, active, syms, total, tree, nodes, F, h2, hf => by
    have hne : active ≠ [] := by intro h; rw [h] at h2; simp at h2
    obtain ⟨a, ha⟩ : ∃ a, leastKey nt active = some a := by
      cases h : leastKey nt active with
      | none => exact absurd (leastKey_none.1 h) hne
      | some a => exact ⟨a, rfl⟩
    have haA := leastKey_mem ha
    have hlen1 : (active.erase a).length = active.length - 1 := List.length_erase_of_mem haA
    obtain ⟨b, hb⟩ : ∃ b, leastKey nt (active.erase a) = some b := by
      cases h : leastKey nt (active.erase a) with
      | none => have := leastKey_none.1 h; rw [this] at hlen1; simp at hlen1; omega
      | some b => exact ⟨b, rfl⟩
    have hbA := leastKey_mem hb
    have hlen2 : ((active.erase a).erase b).length = active.length - 2 := by
      rw [List.length_erase_of_mem hbA, hlen1]; omega
    have F' := F.merge haA hbA
    have hp : active.Perm (a :: b :: (active.erase a).erase b) :=
      (List.perm_cons_erase haA).trans ((List.perm_cons_erase hbA).cons a)
    have hsum : weightAt nt a + weightAt nt b + (((active.erase a).erase b).map (weightAt nt)).sum = total := by
      rw [← F.weights, (hp.map _).sum_eq]; simp only [List.map_cons, List.sum_cons]; omega
    rw [mergeLoop, ha]
    simp only [hb]
    by_cases hov : limit ≤ weightAt nt a + weightAt nt b
    · rw [if_pos hov]
      exact .inr ⟨by omega, nt, n, active, tree, nodes, rfl, Nat.le_refl n, by omega, F⟩
    · rw [if_neg hov]
      have hlenA : ((active.erase a).erase b ++ [n]).length = active.length - 1 := by
        rw [List.length_append, hlen2, List.length_singleton]; omega
      by_cases hlast : active.length = 2
      · -- the new node is the only tree left
        have hrest : (active.erase a).erase b = [] := List.eq_nil_of_length_eq_zero (by omega)
        rw [hrest] at F' hsum ⊢
        simp at hsum
        obtain ⟨f, rfl⟩ : ∃ f, fuel = f + 1 := ⟨fuel - 1, by omega⟩
        left
        refine ⟨by omega, tablePut nt n (.internal (BitVec.ofNat 10 a) (BitVec.ofNat 10 b) (weightAt nt a + weightAt nt b)),
          n, ?_, by omega, ?_⟩
        · rw [mergeLoop]
          simp only [List.nil_append, leastKey, List.erase_cons_head]
          rw [show n + active.length - 1 = n + 1 by omega]
        · rw [show n + active.length - 1 = n + 1 by omega]; exact ⟨_, _, F'⟩
      · rcases mergeLoop_cases limit fuel F' (by omega) (by omega) with
          ⟨hlt, nt', root, he, hroot, hone⟩ | ⟨hge, nt', n', act', tree', nodes', he, h1, h3, hF⟩
        · rw [hlenA] at he hroot hone
          rw [show n + 1 + (active.length - 1) = n + active.length by omega] at he hone hroot
          exact .inl ⟨hlt, nt', root, he, hroot, hone⟩
        · rw [hlenA] at h3
          exact .inr ⟨hge, nt', n', act', tree', nodes', he, by omega, by omega, hF⟩

/-- Entries that satisfy a weight bound keep satisfying it. -/
theorem mergeLoop_light (limit : Nat) : ∀ (fuel : Nat) {nt : Table Node} {n : Nat} {active : List Nat},
    (∀ e ∈ nt, nodeWeight e.2 < limit) →
    (∀ nt' n' r, mergeLoop limit fuel nt n active = .built nt' n' r → ∀ e ∈ nt', nodeWeight e.2 < limit) ∧
    (∀ nt' n', mergeLoop limit fuel nt n active = .overflow nt' n' → ∀ e ∈ nt', nodeWeight e.2 < limit)
  | 0, _, _, _, _ => ⟨fun _ _ _ h => (by cases h), fun _ _ h => (by cases h)⟩
  | fuel + 1, nt, n, active, hl => by
    rw [mergeLoop]
    split
    · exact ⟨fun _ _ _ h => (by cases h), fun _ _ h => (by cases h)⟩
    · split
      · refine ⟨fun _ _ _ h => ?_, fun _ _ h => (by cases h)⟩
        injection h with h; subst h; exact hl
      · simp only
        split
        · refine ⟨fun _ _ _ h => (by cases h), fun _ _ h => ?_⟩
          injection h with h; subst h; exact hl
        · refine mergeLoop_light limit fuel ?_
          intro e he
          rcases mem_tablePut he with rfl | he
          · simp only [nodeWeight]; omega
          · exact hl e he

/-! ## The start of the loop -/

/-- The leaves BUILD writes are a forest (R141). -/
theorem forest_leaves (freq : Table Nat) (syms : List Nat) (hle : ∀ s ∈ syms, s ≤ Config.eos)
    (hlen : syms.length ≤ 257) :
    Forest (putLeaves freq syms [] 0).1 syms.length (List.range syms.length) syms ((syms.map (freqAt freq)).sum)
      (fun i => .leaf (BitVec.ofNat 9 (syms.getD i 0))) (fun i => [i]) := by
  obtain ⟨h1, h2, h3, h4, h5⟩ := putLeaves_spec freq syms [] 0
  have hget : ∀ i (hi : i < syms.length), nodeAt (putLeaves freq syms [] 0).1 (BitVec.ofNat 10 i) =
      some (.leaf (BitVec.ofNat 9 syms[i]) (freqAt freq syms[i])) := by
    intro i hi
    unfold nodeAt
    rw [BitVec.toNat_ofNat, Nat.mod_eq_of_lt (by omega), ← h3 i hi, Nat.zero_add]
  have hmap : (List.range syms.length).map (fun i => syms.getD i 0) = syms := by
    apply List.ext_getElem
    · simp
    · intro i h1 h2; simp [h2]
  refine
    { nodup := List.nodup_range
      bound := fun i hi => List.mem_range.1 hi
      fresh := fun j hj => by rw [h2 j (by omega)]; rfl
      sorted := h4 rfl
      room := by rw [List.length_range]; omega
      few := hlen
      trees := ?_
      idx := ?_
      symbols := ?_
      entries := ?_
      weights := ?_ }
  · intro i hi
    have hi := List.mem_range.1 hi
    rw [List.getD_eq_getElem _ _ hi]
    exact treeAt_leaf (hget i hi) 256
  · intro i hi
    have hi := List.mem_range.1 hi
    rw [show Config.maxLevels = 256 + 1 from rfl, nodesAt, hget i hi]
    simp only [BitVec.toNat_ofNat]
    rw [Nat.mod_eq_of_lt (by omega)]
  · have : ((List.range syms.length).flatMap fun i =>
        (HuffTree.leaf (BitVec.ofNat 9 (syms.getD i 0))).symbols) = syms := by
      conv_rhs => rw [← hmap]
      rw [← List.flatMap_singleton' ((List.range syms.length).map _), List.flatMap_map]
      apply List.flatMap_congr
      intro i hi
      have hi := List.mem_range.1 hi
      have hb := hle syms[i] (List.getElem_mem hi)
      simp only [Config.eos] at hb
      simp only [HuffTree.symbols, BitVec.toNat_ofNat, List.getD_eq_getElem _ _ hi]
      rw [Nat.mod_eq_of_lt (by omega)]
    rw [this]
  · rw [List.flatMap_singleton' (List.range syms.length)]
  · have : (List.range syms.length).map (weightAt (putLeaves freq syms [] 0).1) = syms.map (freqAt freq) := by
      conv_rhs => rw [← hmap, List.map_map]
      apply List.map_congr_left
      intro i hi
      have hi := List.mem_range.1 hi
      have := h3 i hi
      rw [Nat.zero_add] at this
      unfold weightAt
      simp only [this, Function.comp, List.getD_eq_getElem _ _ hi]
      rfl
    rw [this]

theorem putLeaves_light {limit : Nat} {freq : Table Nat} (hl : 0 < limit) (hf : ∀ e ∈ freq, e.2 < limit)
    (l : List Nat) : ∀ e ∈ (putLeaves freq l [] 0).1, nodeWeight e.2 < limit := by
  intro e he
  rcases (putLeaves_spec freq l [] 0).2.2.2.2 e he with he | ⟨s, _, _, _, hw⟩
  · simp at he
  · rw [hw, nodeWeight, freqAt]
    cases hg : tableGet freq s with
    | none => exact hl
    | some v => exact hf _ (mem_of_tableGet hg)

theorem countLimit_ge (p : Config.Params) : 2 ≤ Config.countLimit p := by
  unfold Config.countLimit Config.countW
  calc 2 = 2 ^ 1 := rfl
    _ ≤ 2 ^ (p.countWLess1.val + 1) := Nat.pow_le_pow_right (by omega) (by omega)

/-- The sum of the leaves' weights (R146). -/
def leafTotal (freq : Table Nat) : Nat := ((leafSymbols freq).map (freqAt freq)).sum

/-- The leaves' weights add up to all the counts (R141, R146). -/
theorem leafTotal_eq (freq : Table Nat) : leafTotal freq = ((List.range 257).map (freqAt freq)).sum := by
  have hr : List.range 257 = List.range 256 ++ [256] := List.range_succ
  have filt : ∀ l : List Nat, ((l.filter fun s => decide (0 < freqAt freq s)).map (freqAt freq)).sum =
      (l.map (freqAt freq)).sum := by
    intro l
    induction l with
    | nil => rfl
    | cons a l ih =>
      rw [List.filter_cons]
      split
      · simp only [List.map_cons, List.sum_cons, ih]
      · rename_i h; simp at h; simp only [List.map_cons, List.sum_cons, ih, h]; omega
  have hf := filt (List.range 256)
  rw [leafTotal, hr, List.map_append, List.sum_append]
  rcases leafSymbols_cases freq with ⟨he, h⟩ | ⟨_, h⟩
  · rw [he] at hf
    rw [h, ← hf]
    have h0 : freqAt freq 0 = 0 := by
      by_contra hne
      have : 0 ∈ (List.range 256).filter (fun s => decide (0 < freqAt freq s)) := by simp; omega
      rw [he] at this; simp at this
    simp [Config.eos, h0]
  · rw [h, List.map_append, List.sum_append, hf]; rfl

/-! ## What BUILD's loop makes (R143, R144) -/


/-- The least key comes before every other active index (R144). -/
theorem leastKey_before {nt : Table Node} {l : List Nat} {a : Nat} (h : leastKey nt l = some a) :
    ∀ i ∈ l, i ≠ a → Before nt a i := by
  induction l generalizing a with
  | nil => simp
  | cons j l ih =>
    simp only [leastKey] at h
    split at h
    · rename_i hn
      injection h with h; subst h
      rw [leastKey_none.1 hn]
      intro i hi hne
      simp at hi; exact absurd hi hne
    · rename_i m hm
      have hb := ih hm
      have hlt : ∀ x y, keyLess nt x y = true ↔ Before nt x y := by
        intro x y; simp [keyLess, Before]
      split at h
      · rename_i hk
        injection h with h; subst h
        intro i hi hne
        rcases List.mem_cons.1 hi with rfl | hi
        · exact (hlt _ _).1 hk
        · exact hb i hi hne
      · rename_i hk
        injection h with h; subst h
        rw [hlt] at hk
        intro i hi hne
        rcases List.mem_cons.1 hi with rfl | hi
        · exact absurd rfl hne
        · by_cases him : i = m
          · subst him
            unfold Before at hk ⊢; omega
          · have := hb i hi him
            unfold Before at hk this ⊢; omega

/-- The active list of BUILD's loop holds the indices that are nobody's child (R140, R143). -/
structure ActiveList (nt : Table Node) (n : Nat) (active : List Nat) : Prop where
  nodup  : active.Nodup
  mem    : ∀ i, i ∈ active ↔ ActiveAt nt n i
  below  : ∀ m l r w, tableGet nt m = some (.internal l r w) → l.toNat < m ∧ r.toNat < m
  listed : ∀ j, (tableGet nt j).isSome = true ↔ j < n
  room   : n + active.length ≤ 514

theorem ActiveList.merge {nt : Table Node} {n : Nat} {active : List Nat} (A : ActiveList nt n active) {a b : Nat}
    (ha : a ∈ active) (hb : b ∈ active.erase a) (w : Nat) :
    ActiveList (tablePut nt n (.internal (BitVec.ofNat 10 a) (BitVec.ofNat 10 b) w)) (n + 1)
      ((active.erase a).erase b ++ [n]) := by
  have hbA := List.mem_of_mem_erase hb
  have han := ((A.mem a).1 ha).1
  have hbn := ((A.mem b).1 hbA).1
  have hnd := A.nodup.erase a
  have hl1 := List.length_erase_of_mem ha
  have hl2 := List.length_erase_of_mem hb
  have hroom := A.room
  have hpos := List.length_pos_of_mem ha
  have hpos2 := List.length_pos_of_mem hb
  have ta : (BitVec.ofNat 10 a).toNat = a := by rw [BitVec.toNat_ofNat, Nat.mod_eq_of_lt (by omega)]
  have tb : (BitVec.ofNat 10 b).toNat = b := by rw [BitVec.toNat_ofNat, Nat.mod_eq_of_lt (by omega)]
  have hmem : ∀ i, i ∈ (active.erase a).erase b ↔ i ≠ b ∧ i ≠ a ∧ ActiveAt nt n i := by
    intro i
    rw [hnd.mem_erase_iff, A.nodup.mem_erase_iff, A.mem]
  have hget : ∀ m, m < n → tableGet (tablePut nt n (.internal (BitVec.ofNat 10 a) (BitVec.ofNat 10 b) w)) m =
      tableGet nt m := fun m hm => tableGet_put_ne _ _ (by omega)
  have hchild : ∀ i, ChildBelow (tablePut nt n (.internal (BitVec.ofNat 10 a) (BitVec.ofNat 10 b) w)) (n + 1) i ↔
      ChildBelow nt n i ∨ i = a ∨ i = b := by
    intro i
    constructor
    · rintro ⟨m, l, r, v, hm, hg, h⟩
      by_cases hmn : m = n
      · subst hmn
        rw [tableGet_put_same] at hg
        injection hg with hg
        injection hg with h1 h2 h3
        subst h1; subst h2
        rw [ta, tb] at h
        rcases h with h | h
        · exact .inr (.inl h.symm)
        · exact .inr (.inr h.symm)
      · rw [hget m (by omega)] at hg
        exact .inl ⟨m, l, r, v, by omega, hg, h⟩
    · rintro (⟨m, l, r, v, hm, hg, h⟩ | h)
      · exact ⟨m, l, r, v, by omega, by rw [hget m hm]; exact hg, h⟩
      · refine ⟨n, _, _, w, by omega, tableGet_put_same _ _ _, ?_⟩
        rw [ta, tb]; rcases h with rfl | rfl <;> simp
  refine ⟨?_, ?_, ?_, ?_, ?_⟩
  · rw [List.nodup_append]
    refine ⟨hnd.erase b, by simp, ?_⟩
    intro x hx y hy
    simp at hy; subst hy
    have := ((hmem x).1 hx).2.2.1
    omega
  · intro i
    rw [List.mem_append, hmem, List.mem_singleton, ActiveAt, ActiveAt, hchild]
    constructor
    · rintro (⟨h1, h2, h3, h4⟩ | rfl)
      · refine ⟨by omega, ?_⟩
        rintro (h | h | h)
        · exact h4 h
        · exact h2 h
        · exact h1 h
      · refine ⟨by omega, ?_⟩
        rintro (⟨m, l, r, v, hm, hg, h⟩ | h | h)
        · have := A.below m l r v hg; omega
        · omega
        · omega
    · rintro ⟨h1, h2⟩
      simp only [not_or] at h2
      by_cases hin : i = n
      · exact .inr hin
      · exact .inl ⟨h2.2.2, h2.2.1, by omega, h2.1⟩
  · intro m l r v hg
    rw [tableGet_put] at hg
    split at hg
    · rename_i hm; subst hm
      injection hg with hg
      injection hg with h1 h2 h3
      subst h1; subst h2
      rw [ta, tb]; exact ⟨han, hbn⟩
    · exact A.below m l r v hg
  · intro j
    rw [tableGet_put]
    split
    · simp; omega
    · rw [A.listed]; omega
  · rw [List.length_append, hl2, hl1]; simp; omega

/-- Entry `m` was made from the two least of the trees active then (R143, R144). -/
def MadeOfLeast (nt : Table Node) (m : Nat) : Prop :=
  ∃ a b : Nat,
    tableGet nt m = some (.internal (BitVec.ofNat 10 a) (BitVec.ofNat 10 b) (weightAt nt a + weightAt nt b)) ∧
    a ≠ b ∧ ActiveAt nt m a ∧ ActiveAt nt m b ∧ (∀ i, ActiveAt nt m i → i ≠ a → Before nt a i) ∧
    (∀ i, ActiveAt nt m i → i ≠ a → i ≠ b → Before nt b i)

theorem MadeOfLeast.congr {nt nt' : Table Node} {m : Nat} (h : ∀ j, j ≤ m → tableGet nt' j = tableGet nt j)
    (hm : MadeOfLeast nt m) : MadeOfLeast nt' m := by
  obtain ⟨a, b, hg, hab, ha, hb, h1, h2⟩ := hm
  have hw : ∀ j, j ≤ m → weightAt nt' j = weightAt nt j := fun j hj => by simp [weightAt, h j hj]
  have hact : ∀ i, ActiveAt nt' m i ↔ ActiveAt nt m i := by
    intro i
    have : ChildBelow nt' m i ↔ ChildBelow nt m i := by
      constructor
      · rintro ⟨k, l, r, w, hk, hg, h'⟩; exact ⟨k, l, r, w, hk, by rw [← h k (by omega)]; exact hg, h'⟩
      · rintro ⟨k, l, r, w, hk, hg, h'⟩; exact ⟨k, l, r, w, hk, by rw [h k (by omega)]; exact hg, h'⟩
    rw [ActiveAt, ActiveAt, this]
  have hbef : ∀ i j, i ≤ m → j ≤ m → (Before nt' i j ↔ Before nt i j) := by
    intro i j hi hj; unfold Before; rw [hw i hi, hw j hj]
  have ham := ha.1
  have hbm := hb.1
  refine ⟨a, b, ?_, hab, (hact a).2 ha, (hact b).2 hb, ?_, ?_⟩
  · rw [h m (Nat.le_refl m), hg, hw a (by omega), hw b (by omega)]
  · intro i hi hne
    have hi' := (hact i).1 hi
    exact (hbef a i (by omega) (by have := hi'.1; omega)).2 (h1 i hi' hne)
  · intro i hi hne hne2
    have hi' := (hact i).1 hi
    exact (hbef b i (by omega) (by have := hi'.1; omega)).2 (h2 i hi' hne hne2)

/-- What BUILD's loop leaves of the table it started with, and how it made each entry since. -/
structure Merged (nt : Table Node) (n : Nat) (nt' : Table Node) (n' : Nat) : Prop where
  le     : n ≤ n'
  keeps  : ∀ j, j < n → tableGet nt' j = tableGet nt j
  made   : ∀ m, n ≤ m → m < n' → MadeOfLeast nt' m
  listed : ∀ j, (tableGet nt' j).isSome = true ↔ j < n'

theorem mergeLoop_merged (limit : Nat) : ∀ (fuel : Nat) {nt : Table Node} {n : Nat} {active : List Nat},
    ActiveList nt n active →
    (∀ nt' n' r, mergeLoop limit fuel nt n active = .built nt' n' r → Merged nt n nt' n') ∧
    (∀ nt' n', mergeLoop limit fuel nt n active = .overflow nt' n' → Merged nt n nt' n')
  | 0, _, _, _, _ => ⟨fun _ _ _ h => (by cases h), fun _ _ h => (by cases h)⟩
  | fuel + 1, nt, n, active, A => by
    have here : Merged nt n nt n := ⟨Nat.le_refl _, fun _ _ => rfl, fun m h1 h2 => by omega, A.listed⟩
    rw [mergeLoop]
    split
    · exact ⟨fun _ _ _ h => (by cases h), fun _ _ h => (by cases h)⟩
    · rename_i a ha
      split
      · refine ⟨fun _ _ _ h => ?_, fun _ _ h => (by cases h)⟩
        injection h with h1 h2; subst h1; subst h2; exact here
      · rename_i b hb
        simp only
        split
        · refine ⟨fun _ _ _ h => (by cases h), fun _ _ h => ?_⟩
          injection h with h1 h2; subst h1; subst h2; exact here
        · have haA := leastKey_mem ha
          have hbA := leastKey_mem hb
          have hbA' := List.mem_of_mem_erase hbA
          have A' := A.merge haA hbA (weightAt nt a + weightAt nt b)
          have han := ((A.mem a).1 haA).1
          have hbn := ((A.mem b).1 hbA').1
          generalize hx : Node.internal (BitVec.ofNat 10 a) (BitVec.ofNat 10 b) (weightAt nt a + weightAt nt b) = x at *
          have hget : ∀ j, j < n → tableGet (tablePut nt n x) j = tableGet nt j := fun j hj =>
            tableGet_put_ne _ _ (by omega)
          have hmade : MadeOfLeast (tablePut nt n x) n := by
            have hw : ∀ j, j < n → weightAt (tablePut nt n x) j = weightAt nt j := fun j hj => by
              simp [weightAt, hget j hj]
            have hact : ∀ i, ActiveAt (tablePut nt n x) n i ↔ i ∈ active := by
              intro i
              rw [A.mem]
              have : ChildBelow (tablePut nt n x) n i ↔ ChildBelow nt n i := by
                constructor
                · rintro ⟨k, l, r, w, hk, hg, h'⟩; exact ⟨k, l, r, w, hk, by rw [← hget k hk]; exact hg, h'⟩
                · rintro ⟨k, l, r, w, hk, hg, h'⟩; exact ⟨k, l, r, w, hk, by rw [hget k hk]; exact hg, h'⟩
              rw [ActiveAt, ActiveAt, this]
            refine ⟨a, b, ?_, ?_, (hact a).2 haA, (hact b).2 hbA', ?_, ?_⟩
            · rw [tableGet_put_same, hw a han, hw b hbn, hx]
            · rintro rfl; exact (A.nodup.mem_erase_iff.1 hbA).1 rfl
            · intro i hi hne
              have := leastKey_before ha i ((hact i).1 hi) hne
              unfold Before at this ⊢
              rw [hw a han, hw i hi.1]; exact this
            · intro i hi hne hne2
              have := leastKey_before hb i (A.nodup.mem_erase_iff.2 ⟨hne, (hact i).1 hi⟩) hne2
              unfold Before at this ⊢
              rw [hw b hbn, hw i hi.1]; exact this
          have lift : ∀ {nt' n'}, Merged (tablePut nt n x) (n + 1) nt' n' → Merged nt n nt' n' := by
            intro nt' n' M
            refine ⟨by have := M.le; omega, ?_, ?_, M.listed⟩
            · intro j hj; rw [M.keeps j (by omega), hget j hj]
            · intro m h1 h2
              by_cases hm : m = n
              · subst hm; exact hmade.congr fun j hj => M.keeps j (by omega)
              · exact M.made m (by omega) h2
          obtain ⟨i1, i2⟩ := mergeLoop_merged limit fuel A'
          exact ⟨fun _ _ _ h => lift (i1 _ _ _ h), fun _ _ h => lift (i2 _ _ h)⟩

/-- The leaves BUILD writes are all active (R141). -/
theorem activeList_leaves (freq : Table Nat) (syms : List Nat) (hlen : syms.length ≤ 257) :
    ActiveList (putLeaves freq syms [] 0).1 syms.length (List.range syms.length) := by
  obtain ⟨h1, h2, h3, h4, h5⟩ := putLeaves_spec freq syms [] 0
  simp only [Nat.zero_add] at h2 h3
  have hleaf : ∀ m l r w, tableGet (putLeaves freq syms [] 0).1 m ≠ some (.internal l r w) := by
    intro m l r w h
    by_cases hm : m < syms.length
    · rw [h3 m hm] at h; cases h
    · rw [h2 m (by omega)] at h; cases h
  refine ⟨List.nodup_range, ?_, ?_, ?_, ?_⟩
  · intro i
    rw [List.mem_range, ActiveAt]
    constructor
    · intro h; exact ⟨h, fun ⟨m, l, r, w, _, hg, _⟩ => hleaf m l r w hg⟩
    · exact fun h => h.1
  · intro m l r w h; exact absurd h (hleaf m l r w)
  · intro j
    by_cases hj : j < syms.length
    · rw [h3 j hj]; simp [hj]
    · rw [h2 j (by omega)]; simp [hj]
  · rw [List.length_range]; omega

/-- Every weight of a table fits, if every count of FREQ does. -/
def Light (s : State) (nt : Table Node) : Prop :=
  (∀ e ∈ s.freq, e.2 < Config.countLimit s.params) → ∀ e ∈ nt, nodeWeight e.2 < Config.countLimit s.params

/-- Everything BUILD's body can do (R140, R145, R147): with a weight sum that fits, a tree over the leaf set; otherwise
CapacityExceeded. -/
theorem runBuild_cases (s : State) :
    (leafTotal s.freq < Config.countLimit s.params ∧ ∃ nt,
      runBuild s = .done { startTree s with
        nt := nt, ncnt := BitVec.ofNat 10 (2 * (leafSymbols s.freq).length - 1),
        root := BitVec.ofNat 10 (2 * (leafSymbols s.freq).length - 2), tv := true, tsrc := false } ∧
      OneTree nt (2 * (leafSymbols s.freq).length - 1) (2 * (leafSymbols s.freq).length - 2) (leafSymbols s.freq)
        (leafTotal s.freq) ∧ Light s nt ∧
      Merged (putLeaves s.freq (leafSymbols s.freq) [] 0).1 (leafSymbols s.freq).length nt
        (2 * (leafSymbols s.freq).length - 1)) ∨
    (Config.countLimit s.params ≤ leafTotal s.freq ∧ ∃ nt n act tree nodes,
      runBuild s = takeFault .capacityExceeded (opcodeOf .build)
        { startTree s with nt := nt, ncnt := BitVec.ofNat 10 n } ∧
      (leafSymbols s.freq).length ≤ n ∧ n + 2 ≤ 2 * (leafSymbols s.freq).length ∧
      Forest nt n act (leafSymbols s.freq) (leafTotal s.freq) tree nodes ∧ Light s nt ∧
      Merged (putLeaves s.freq (leafSymbols s.freq) [] 0).1 (leafSymbols s.freq).length nt n) := by
  have hlight := fun (hf : ∀ e ∈ s.freq, e.2 < Config.countLimit s.params) => mergeLoop_light (Config.countLimit s.params) ((leafSymbols s.freq).length + 1)
    (n := (leafSymbols s.freq).length) (active := List.range (leafSymbols s.freq).length)
    (putLeaves_light (by have := countLimit_ge s.params; omega) hf (leafSymbols s.freq))
  obtain ⟨hge, hle⟩ := leafSymbols_length s.freq
  have F := forest_leaves s.freq (leafSymbols s.freq) (leafSymbols_le s.freq) hle
  have hmerged := mergeLoop_merged (Config.countLimit s.params) ((leafSymbols s.freq).length + 1)
    (activeList_leaves s.freq (leafSymbols s.freq) hle)
  have hn := (putLeaves_spec s.freq (leafSymbols s.freq) [] 0).1
  rw [Nat.zero_add] at hn
  unfold runBuild
  simp only [hn]
  rcases mergeLoop_cases (Config.countLimit s.params) ((leafSymbols s.freq).length + 1) F
      (by rw [List.length_range]; exact hge) (by rw [List.length_range]; omega) with
    ⟨hlt, nt, root, he, hroot, hone⟩ | ⟨hov, nt, n, act, tree, nodes, he, h1, h2, hF⟩
  · rw [List.length_range] at he hroot hone
    have hr : root = 2 * (leafSymbols s.freq).length - 2 := by omega
    have hc : (leafSymbols s.freq).length + (leafSymbols s.freq).length - 1 =
        2 * (leafSymbols s.freq).length - 1 := by omega
    rw [hr, hc] at he hone
    exact .inl ⟨hlt, nt, by rw [he], hone, fun hf => (hlight hf).1 _ _ _ he, hmerged.1 _ _ _ he⟩
  · rw [List.length_range] at h2
    exact .inr ⟨hov, nt, n, act, tree, nodes, by rw [he], h1, by omega, hF, fun hf => (hlight hf).2 _ _ he,
      hmerged.2 _ _ he⟩

end Sys2Proof.Machine
end

