-- ==== Sys2Proof/Laws/Codes.lean ====
section
/-! SUPPORT. What GENCODES's walk does (42_code_table.md R155 to R161). -/

namespace Sys2Proof.Machine

/-- Record a list of codes in order, stopping at the first that R158 rejects. -/
def recordCodes : List (Nat × Bits) → Table Bits → WalkEnd
  | [], ct => .done ct
  | (s, c) :: rest, ct =>
    if Config.eos < s ∨ (tableGet ct s).isSome then .corrupt ct else recordCodes rest (tablePut ct s c)

theorem recordCodes_append (a c : List (Nat × Bits)) (ct : Table Bits) :
    recordCodes (a ++ c) ct =
      match recordCodes a ct with
      | .done ct' => recordCodes c ct'
      | other => other := by
  induction a generalizing ct with
  | nil => rfl
  | cons e a ih =>
    obtain ⟨s, p⟩ := e
    simp only [List.cons_append, recordCodes]
    split
    · rfl
    · exact ih _

/-- Over a tree, the walk records the leaves' paths in pre-order. -/
theorem walkCodes_eq {nt : Table Node} {n : Nat} {i : NodeIdx} {t : HuffTree} (h : treeAt nt n i = some t) (p : Bits)
    (ct : Table Bits) : walkCodes nt n i p ct = recordCodes (t.codesFrom p) ct := by
  induction n generalizing i t p ct with
  | zero => simp [treeAt] at h
  | succ n ih =>
    obtain ⟨m, hm, h⟩ := treeAt_cases h
    cases hm
    rcases h with ⟨s, w, hn, rfl⟩ | ⟨l, r, w, a, b, hn, ha, hb, rfl⟩
    · simp only [walkCodes, hn, HuffTree.codesFrom, recordCodes]
    · simp only [walkCodes, hn, HuffTree.codesFrom, ih ha, recordCodes_append]
      cases recordCodes (a.codesFrom (p ++ [false])) ct with
      | done ct' => simp only [ih hb]
      | corrupt ct' => rfl
      | stopped f => rfl

theorem recordCodes_ne_stopped (l : List (Nat × Bits)) (ct : Table Bits) (f : Fault) :
    recordCodes l ct ≠ .stopped f := by
  induction l generalizing ct with
  | nil => simp [recordCodes]
  | cons e l ih =>
    obtain ⟨s, p⟩ := e
    simp only [recordCodes]
    split
    · simp
    · exact ih _

/-- Distinct symbols up to 256 that have no code yet are all recorded. -/
theorem recordCodes_distinct {l : List (Nat × Bits)} {ct : Table Bits} (hd : (l.map Prod.fst).Nodup)
    (hr : ∀ e ∈ l, e.1 ≤ Config.eos) (hn : ∀ e ∈ l, tableGet ct e.1 = none) :
    ∃ ct', recordCodes l ct = .done ct' ∧
      ∀ s, tableGet ct' s = (match tableGet l s with | some c => some c | none => tableGet ct s) := by
  induction l generalizing ct with
  | nil => exact ⟨ct, rfl, fun s => rfl⟩
  | cons e l ih =>
    obtain ⟨s, c⟩ := e
    simp only [List.map_cons, List.nodup_cons] at hd
    have hs := hn (s, c) (by simp)
    have hle := hr (s, c) (by simp)
    have hcond : ¬ (Config.eos < s ∨ (tableGet ct s).isSome = true) := by
      simp only [hs]; simp; omega
    obtain ⟨ct', he, hg⟩ := ih (ct := tablePut ct s c) hd.2 (fun e he => hr e (List.mem_cons_of_mem _ he)) (by
      intro e he
      rw [tableGet_put_ne]
      · exact hn e (List.mem_cons_of_mem _ he)
      · intro heq; exact hd.1 (heq ▸ List.mem_map_of_mem he))
    refine ⟨ct', by simp only [recordCodes, if_neg hcond]; exact he, ?_⟩
    intro j
    rw [hg j, tableGet_cons]
    by_cases hj : s = j
    · subst hj
      rw [if_pos rfl, tableGet_put_same]
      have : tableGet l s = none := tableGet_none_of_not_mem fun e he heq =>
        hd.1 (heq ▸ List.mem_map_of_mem he)
      rw [this]
    · rw [if_neg hj, tableGet_put_ne _ _ (Ne.symm hj)]

/-- If all were recorded, the symbols are distinct, up to 256, and had no code. -/
theorem recordCodes_done {l : List (Nat × Bits)} {ct ct' : Table Bits} (h : recordCodes l ct = .done ct') :
    (l.map Prod.fst).Nodup ∧ (∀ e ∈ l, e.1 ≤ Config.eos) ∧ (∀ e ∈ l, tableGet ct e.1 = none) := by
  induction l generalizing ct with
  | nil => simp
  | cons e l ih =>
    obtain ⟨s, c⟩ := e
    simp only [recordCodes] at h
    split at h
    · cases h
    · rename_i hc
      simp only [not_or, Nat.not_lt, Bool.not_eq_true, Option.isSome_eq_false_iff, Option.isNone_iff_eq_none] at hc
      obtain ⟨h1, h2, h3⟩ := ih h
      have hne : ∀ e ∈ l, e.1 ≠ s := by
        intro e he heq
        have := h3 e he
        rw [heq, tableGet_put_same] at this
        cases this
      refine ⟨?_, ?_, ?_⟩
      · simp only [List.map_cons, List.nodup_cons]
        refine ⟨?_, h1⟩
        intro hm
        obtain ⟨e, he, heq⟩ := List.mem_map.1 hm
        exact hne e he heq
      · intro e he
        rcases List.mem_cons.1 he with rfl | he
        · exact hc.1
        · exact h2 e he
      · intro e he
        rcases List.mem_cons.1 he with rfl | he
        · exact hc.2
        · have := h3 e he
          rwa [tableGet_put_ne _ _ (hne e he)] at this

theorem recordCodes_sorted {l : List (Nat × Bits)} {ct : Table Bits} (hs : tableSorted ct = true) :
    (∀ ct', recordCodes l ct = .done ct' → tableSorted ct' = true) ∧
    (∀ ct', recordCodes l ct = .corrupt ct' → tableSorted ct' = true) := by
  induction l generalizing ct with
  | nil => exact ⟨fun ct' h => (by injection h with h; rwa [← h]), fun ct' h => (by cases h)⟩
  | cons e l ih =>
    obtain ⟨s, c⟩ := e
    simp only [recordCodes]
    split
    · exact ⟨fun ct' h => (by cases h), fun ct' h => (by injection h with h; rwa [← h])⟩
    · exact ih (tableSorted_put hs s c)

/-- Whatever a walk records, or had recorded when it stopped, comes from the list or was there before. -/
theorem recordCodes_mem {l : List (Nat × Bits)} {ct : Table Bits} :
    (∀ ct', recordCodes l ct = .done ct' ∨ recordCodes l ct = .corrupt ct' →
      ∀ e ∈ ct', e ∈ ct ∨ (e ∈ l ∧ e.1 ≤ Config.eos)) := by
  induction l generalizing ct with
  | nil =>
    rintro ct' (h | h)
    · injection h with h; subst h; exact fun e he => .inl he
    · cases h
  | cons d l ih =>
    obtain ⟨s, c⟩ := d
    intro ct' h e he
    simp only [recordCodes] at h
    split at h
    · rcases h with h | h
      · cases h
      · injection h with h; subst h; exact .inl he
    · rename_i hc
      simp only [not_or, Nat.not_lt] at hc
      rcases ih ct' h e he with he | ⟨he, hle⟩
      · rcases mem_tablePut he with rfl | he
        · exact .inr ⟨by simp, hc.1⟩
        · exact .inl he
      · exact .inr ⟨List.mem_cons_of_mem _ he, hle⟩

end Sys2Proof.Machine
end

