-- ==== Sys2Proof/Laws/Count.lean ====
section
/-! SUPPORT. What COUNT's loop does (40_frequency_count.md R131, R133, R135). -/

namespace Sys2Proof.Machine

/-- The number of times symbol `j` stands in a list of bytes. -/
def occurrences (d : List Byte) (j : Nat) : Nat := (d.map BitVec.toNat).count j

@[simp] theorem occurrences_nil (j : Nat) : occurrences [] j = 0 := rfl

theorem occurrences_cons (b : Byte) (d : List Byte) (j : Nat) :
    occurrences (b :: d) j = occurrences d j + if b.toNat = j then 1 else 0 := by
  simp [occurrences, List.count_cons]

theorem occurrences_eq_count (d : List Byte) (b : Byte) : occurrences d b.toNat = d.count b := by
  induction d with
  | nil => rfl
  | cons a d ih =>
    rw [occurrences_cons, ih, List.count_cons]
    by_cases h : a = b
    · simp [h]
    · have h' : a.toNat ≠ b.toNat := fun he => h (BitVec.eq_of_toNat_eq he)
      simp [h, h']

theorem occurrences_eq_zero (d : List Byte) {j : Nat} (h : 256 ≤ j) : occurrences d j = 0 := by
  induction d with
  | nil => rfl
  | cons a d ih =>
    have := a.isLt
    rw [occurrences_cons, ih, if_neg (by omega)]

/-- Everything COUNT's loop can do: it reads every byte that is left and counts each, or it meets a byte whose count
is full, with the bytes before it counted. -/
theorem countLoop_cases (limit : Nat) : ∀ (fuel : Nat) (p : Src) (freq : Table Nat),
    (bytesLeft p).length < fuel → tableSorted freq = true →
    (∃ f, countLoop limit fuel p freq = .exhausted (srcAtEnd p) f ∧ tableSorted f = true ∧
      (∀ j, freqAt f j = freqAt freq j + occurrences (bytesLeft p) j) ∧
      (∀ b ∈ bytesLeft p, freqAt f b.toNat < limit)) ∨
    (∃ f done b rest, bytesLeft p = done ++ b :: rest ∧
      countLoop limit fuel p freq = .full (srcAdvance (8 * (done.length + 1)) p) f ∧ tableSorted f = true ∧
      (∀ j, freqAt f j = freqAt freq j + occurrences done j) ∧ limit ≤ freqAt f b.toNat + 1 ∧
      (∀ c ∈ done, freqAt f c.toNat < limit))
  | 0, p, freq, h, _ => absurd h (Nat.not_lt_zero _)
  | fuel + 1, p, freq, h, hs => by
    cases hb : bytesLeft p with
    | nil =>
      refine .inl ⟨freq, ?_, hs, by simp, by simp⟩
      rw [countLoop, srcRead_byte_none hb]
    | cons b rest =>
      obtain ⟨hr, hleft⟩ := srcRead_byte hb
      rw [countLoop, hr]
      simp only
      by_cases hfull : limit ≤ freqAt freq b.toNat + 1
      · rw [if_pos hfull]
        exact .inr ⟨freq, [], b, rest, rfl, rfl, hs, by simp, hfull, by simp⟩
      · rw [if_neg hfull]
        have hs' := tableSorted_freqPut hs b.toNat (freqAt freq b.toNat + 1)
        have hlen : (bytesLeft (srcAdvance 8 p)).length < fuel := by
          rw [hleft]; rw [hb, List.length_cons] at h; omega
        have step : ∀ d j, freqAt (freqPut freq b.toNat (freqAt freq b.toNat + 1)) j + occurrences d j =
            freqAt freq j + occurrences (b :: d) j := by
          intro d j
          rw [freqAt_put hs, occurrences_cons]
          by_cases hj : j = b.toNat
          · subst hj; simp; omega
          · rw [if_neg hj, if_neg (Ne.symm hj)]; omega
        rcases countLoop_cases limit fuel (srcAdvance 8 p) _ hlen hs' with
          ⟨f, he, hsf, hf, hlt⟩ | ⟨f, done, c, rest', hd, he, hsf, hf, hc, hlt⟩
        · refine .inl ⟨f, by rw [he]; rfl, hsf, ?_, ?_⟩
          · intro j; rw [hf, hleft, step]
          · intro c hc
            rcases List.mem_cons.1 hc with rfl | hc
            · by_cases hin : c ∈ rest
              · exact hlt c (by rw [hleft]; exact hin)
              · rw [hf, step, hleft, occurrences_cons, if_pos rfl, occurrences_eq_count,
                  List.count_eq_zero_of_not_mem hin]
                omega
            · exact hlt c (by rw [hleft]; exact hc)
        · refine .inr ⟨f, b :: done, c, rest', ?_, ?_, hsf, ?_, hc, ?_⟩
          · rw [hleft] at hd; rw [hd]; rfl
          · rw [he, srcAdvance_advance, List.length_cons]
            congr 2; omega
          · intro j; rw [hf, step]
          · intro a ha
            rcases List.mem_cons.1 ha with rfl | ha
            · by_cases hin : a ∈ done
              · exact hlt a hin
              · rw [hf, step, occurrences_cons, if_pos rfl, occurrences_eq_count, List.count_eq_zero_of_not_mem hin]
                omega
            · exact hlt a ha

end Sys2Proof.Machine
end

