-- ==== Sys2Proof/Laws/HeaderRead.lean ====
section
/-! SUPPORT. What RDHDR's loop does (43_header_codec.md R175 to R184): over the header of a tree it places that tree in
pre-order; over anything else it raises StreamCorrupt or TreeOverflow. -/

namespace Sys2Proof.Machine

/-- The table after a tree has been parsed at index `i` (R176: pre-order indices, weights 0). -/
def placeTree : HuffTree → Nat → Table Node → Table Node
  | .leaf s, i, nt => tablePut nt i (.leaf s 0)
  | .node l r, i, nt =>
    tablePut (placeTree r (i + 1 + l.size) (placeTree l (i + 1) nt)) i
      (.internal (BitVec.ofNat 10 (i + 1)) (BitVec.ofNat 10 (i + 1 + l.size)) 0)

/-- The state after a complete subtree at `i`, `cnt` nodes being allocated. -/
def afterSubtree (i : NodeIdx) (nt : Table Node) (cnt : NodeIdx) (s : State) : State :=
  match closeNodes i s.hdr nt with
  | (nt', opn, none) => { s with ncnt := cnt, nt := nt', hdr := opn }
  | (nt', _, some r) =>
    { s with ncnt := cnt, nt := nt', hdr := [], root := r, tv := true, tsrc := true, runState := .idle }

/-- What the loop does with a state a token left. -/
def continueHeader (fuel : Nat) (t : State) : Run := if t.runState = .busy then headerLoop fuel t else .done t

theorem HuffTree.size_pos (t : HuffTree) : 0 < t.size := by
  have := t.size_leaves; have := t.leaves_pos; omega

theorem toNat_add_one {n : NodeIdx} (h : n.toNat < 1023) : (n + 1).toNat = n.toNat + 1 := by
  rw [BitVec.toNat_add]; simp; omega

theorem ofNat_toNat_add (n : NodeIdx) {m : Nat} : BitVec.ofNat 10 (n.toNat + m) = n + BitVec.ofNat 10 m := by
  apply BitVec.eq_of_toNat_eq; simp

/-! ## One token -/

theorem fetchToken_internal {s : State} {p : Src} {rest : Bits} (hp : s.src = some p)
    (hb : bitsLeft p = false :: rest) (hc : s.ncnt.toNat ≠ Config.nodeCap) :
    fetchToken s = .internal { s with src := some (srcAdvance 1 p) } := by
  obtain ⟨hr, _⟩ := srcRead_bit hb
  simp [fetchToken, hp, hr, hc]

theorem fetchToken_leaf {s : State} {p : Src} {v : Nat} {rest : Bits} (hp : s.src = some p) (hv : v < 2 ^ 9)
    (hb : bitsLeft p = true :: (bits 9 v ++ rest)) (hc : s.ncnt.toNat ≠ Config.nodeCap) :
    fetchToken s = .leaf v { s with src := some (srcAdvance 10 p) } := by
  obtain ⟨hr, hl⟩ := srcRead_bit hb
  have h9 : srcRead 9 (srcAdvance 1 p) = (some v, srcAdvance 9 (srcAdvance 1 p)) := by
    rw [srcRead_some (by omega) (by rw [hl]; simp), hl, List.take_left' (bits_length 9 v), val_bits hv]
  simp [fetchToken, hp, hr, hc, h9, srcAdvance_advance]

theorem headerLoop_internal {s : State} {p : Src} {rest : Bits} (hp : s.src = some p) (hs : s.runState = .busy)
    (hb : bitsLeft p = false :: rest) (hc : s.ncnt.toNat ≠ Config.nodeCap) (fuel : Nat) :
    headerLoop (fuel + 1) s =
      headerLoop fuel { s with src := some (srcAdvance 1 p), ncnt := s.ncnt + 1, hdr := ⟨s.ncnt, none⟩ :: s.hdr } := by
  rw [headerLoop, fetchToken_internal hp hb hc]
  simp [runHdrInternal, hs, hc]

theorem headerLoop_leaf {s : State} {p : Src} {v : Sym} {rest : Bits} (hp : s.src = some p) (hs : s.runState = .busy)
    (hb : bitsLeft p = true :: (bits 9 v.toNat ++ rest)) (hc : s.ncnt.toNat ≠ Config.nodeCap) (fuel : Nat) :
    headerLoop (fuel + 1) s =
      continueHeader fuel (afterSubtree s.ncnt (tablePut s.nt s.ncnt.toNat (.leaf v 0)) (s.ncnt + 1)
        { s with src := some (srcAdvance 10 p) }) := by
  rw [headerLoop, fetchToken_leaf hp v.isLt hb hc]
  simp only [runHdrLeaf, hs, if_neg hc, BitVec.ofNat_toNat, BitVec.setWidth_eq]
  unfold afterSubtree continueHeader
  simp only
  split <;> simp_all

/-! ## A whole tree -/

/-- Over the header of a tree, the loop places the tree and goes on with what follows (R175, R176, R184). -/
theorem headerLoop_tree (t : HuffTree) : ∀ {s : State} {p : Src} {rest : Bits}, s.src = some p → s.runState = .busy →
    bitsLeft p = t.header ++ rest → s.ncnt.toNat + t.size ≤ Config.nodeCap → ∀ fuel : Nat,
    headerLoop (fuel + t.size) s =
      continueHeader fuel (afterSubtree s.ncnt (placeTree t s.ncnt.toNat s.nt)
        (BitVec.ofNat 10 (s.ncnt.toNat + t.size)) { s with src := some (srcAdvance t.header.length p) }) := by
  induction t with
  | leaf v =>
    intro s p rest hp hs hb hc fuel
    simp only [HuffTree.size, Config.nodeCap] at hc ⊢
    rw [headerLoop_leaf hp hs (v := v) (rest := rest) (by rw [hb]; rfl) (by simp only [Config.nodeCap]; omega)]
    simp [placeTree, HuffTree.header, ofNat_toNat_add]
  | node l r ihl ihr =>
    intro s p rest hp hs hb hc fuel
    simp only [HuffTree.size, Config.nodeCap] at hc
    have hlp := HuffTree.size_pos l
    have hrp := HuffTree.size_pos r
    have hn1 : (s.ncnt + 1).toNat = s.ncnt.toNat + 1 := toNat_add_one (by omega)
    have hb' : bitsLeft p = false :: (l.header ++ (r.header ++ rest)) := by
      rw [hb]; simp [HuffTree.header]
    rw [show fuel + (HuffTree.node l r).size = (fuel + r.size) + l.size + 1 by simp only [HuffTree.size]; omega,
      headerLoop_internal hp hs hb' (by simp only [Config.nodeCap]; omega)]
    rw [ihl (s := { s with src := some (srcAdvance 1 p), ncnt := s.ncnt + 1, hdr := ⟨s.ncnt, none⟩ :: s.hdr })
      (p := srcAdvance 1 p) (rest := r.header ++ rest) rfl hs (by rw [bitsLeft_advance, hb']; rfl)
      (by simp only [hn1, Config.nodeCap]; omega) (fuel + r.size)]
    have hcnt : (BitVec.ofNat 10 (s.ncnt.toNat + 1 + l.size)).toNat = s.ncnt.toNat + 1 + l.size := by
      rw [BitVec.toNat_ofNat, Nat.mod_eq_of_lt]; omega
    simp only [hn1]
    simp only [afterSubtree, closeNodes]
    unfold continueHeader
    rw [if_pos (by simpa using hs)]
    rw [ihr (p := srcAdvance l.header.length (srcAdvance 1 p)) (rest := rest) rfl (by simpa using hs)
      (by rw [bitsLeft_advance, bitsLeft_advance, hb']; simp) (by simp only [hcnt, Config.nodeCap]; omega) fuel]
    have hplus1 : BitVec.ofNat 10 (s.ncnt.toNat + 1) = s.ncnt + 1 := ofNat_toNat_add s.ncnt
    unfold continueHeader
    simp only [afterSubtree, closeNodes, hcnt, placeTree, HuffTree.size, HuffTree.header, srcAdvance_advance,
      List.length_cons, List.length_append, hplus1]
    rw [show s.ncnt.toNat + 1 + l.size + r.size = s.ncnt.toNat + (1 + l.size + r.size) by omega,
      show 1 + l.header.length + r.header.length = l.header.length + r.header.length + 1 by omega]

/-! ## Any source -/

/-- How reading a header ends in a fault (R179 to R181): StreamCorrupt at the end of the source, or TreeOverflow with a
full table and bits consumed. -/
def HeaderFault (r : Run) (s : State) (p : Src) : Prop :=
  ∃ c s', r = takeFault c (opcodeOf .rdhdr) s' ∧
    s' = { s with src := s'.src, ncnt := s'.ncnt, nt := s'.nt, hdr := s'.hdr } ∧
    s.ncnt.toNat ≤ s'.ncnt.toNat ∧ s'.ncnt.toNat ≤ Config.nodeCap ∧
    ((c = .streamCorrupt ∧ s'.src = some (srcAtEnd p)) ∨
     (c = .treeOverflow ∧ s'.ncnt.toNat = Config.nodeCap ∧ ∃ m, 0 < m ∧ m ≤ (bitsLeft p).length ∧
        s'.src = some (srcAdvance m p)))

theorem HeaderFault.of_later {r : Run} {s u : State} {p : Src} {n : Nat}
    (h : HeaderFault r u (srcAdvance n p)) (hn : n ≤ (bitsLeft p).length)
    (hu : u = { s with src := u.src, ncnt := u.ncnt, nt := u.nt, hdr := u.hdr }) (hle : s.ncnt.toNat ≤ u.ncnt.toNat) :
    HeaderFault r s p := by
  obtain ⟨c, s', hr, hs', h1, h2, h3⟩ := h
  refine ⟨c, s', hr, ?_, Nat.le_trans hle h1, h2, ?_⟩
  · rw [hs', hu]
  · rcases h3 with ⟨hc, hsrc⟩ | ⟨hc, hcap, m, hm, hml, hsrc⟩
    · exact .inl ⟨hc, by rw [hsrc, srcAtEnd_advance]⟩
    · rw [bitsLeft_advance, List.length_drop] at hml
      exact .inr ⟨hc, hcap, n + m, by omega, by omega, by rw [hsrc, srcAdvance_advance]⟩

/-- From any source, either the bits left begin with a header that fits, or reading it ends in a fault. -/
theorem headerLoop_cases (budget : Nat) : ∀ {s : State} {p : Src}, s.src = some p → s.runState = .busy →
    s.ncnt.toNat + budget = Config.nodeCap →
    (∃ t rest, bitsLeft p = HuffTree.header t ++ rest ∧ s.ncnt.toNat + t.size ≤ Config.nodeCap) ∨
    (∀ fuel, budget < fuel → HeaderFault (headerLoop fuel s) s p) := by
  induction budget using Nat.strongRecOn with
  | ind budget ih =>
  intro s p hp hs hcap
  simp only [Config.nodeCap] at hcap
  cases hb : bitsLeft p with
  | nil =>
    right
    intro fuel hf
    obtain ⟨fuel, rfl⟩ : ∃ f, fuel = f + 1 := ⟨fuel - 1, by omega⟩
    refine ⟨.streamCorrupt, { s with src := some (srcAtEnd p) }, ?_, rfl, Nat.le_refl _, ?_, .inl ⟨rfl, rfl⟩⟩
    · rw [headerLoop]; simp [fetchToken, hp, srcRead_bit_none hb]
    · simp only [Config.nodeCap]; omega
  | cons b bs =>
    obtain ⟨hr, hl⟩ := srcRead_bit hb
    by_cases hfull : s.ncnt.toNat = Config.nodeCap
    · right
      intro fuel hf
      obtain ⟨fuel, rfl⟩ : ∃ f, fuel = f + 1 := ⟨fuel - 1, by omega⟩
      refine ⟨.treeOverflow, { s with src := some (srcAdvance 1 p) }, ?_, rfl, Nat.le_refl _, ?_,
        .inr ⟨rfl, hfull, 1, by omega, by rw [hb]; simp, rfl⟩⟩
      · rw [headerLoop]; simp [fetchToken, hp, hr, hfull]
      · exact Nat.le_of_eq hfull
    · have hlt : s.ncnt.toNat < 513 := by simp only [Config.nodeCap] at hfull; omega
      have hn1 : (s.ncnt + 1).toNat = s.ncnt.toNat + 1 := toNat_add_one (by omega)
      cases b with
      | true =>
        by_cases h9 : 9 ≤ bs.length
        · left
          refine ⟨.leaf (BitVec.ofNat 9 (val (bs.take 9))), bs.drop 9, ?_, ?_⟩
          · have hl9 : (bs.take 9).length = 9 := by simp; omega
            have hv : val (bs.take 9) < 2 ^ 9 := by simpa [hl9] using val_lt (bs.take 9)
            simp only [HuffTree.header, BitVec.toNat_ofNat, Nat.mod_eq_of_lt hv, bits_val_of_length hl9,
              List.cons_append, List.take_append_drop]
          · simp only [HuffTree.size, Config.nodeCap]; omega
        · right
          intro fuel hf
          obtain ⟨fuel, rfl⟩ : ∃ f, fuel = f + 1 := ⟨fuel - 1, by omega⟩
          have h9' : srcRead 9 (srcAdvance 1 p) = (none, srcAtEnd p) := by
            rw [srcRead_none (by rw [hl]; omega), srcAtEnd_advance]
          refine ⟨.streamCorrupt, { s with src := some (srcAtEnd p), ncnt := s.ncnt + 1 }, ?_, rfl, ?_, ?_,
            .inl ⟨rfl, rfl⟩⟩
          · rw [headerLoop]; simp [fetchToken, hp, hr, hfull, h9']
          · simp only [hn1]; omega
          · simp only [hn1, Config.nodeCap]; omega
      | false =>
        -- the state after the INTERNAL token
        have hs1 := headerLoop_internal hp hs hb hfull
        generalize hu :
          ({ s with src := some (srcAdvance 1 p), ncnt := s.ncnt + 1, hdr := ⟨s.ncnt, none⟩ :: s.hdr } : State) = u at hs1
        have husrc : u.src = some (srcAdvance 1 p) := by rw [← hu]
        have hurun : u.runState = .busy := by rw [← hu]; exact hs
        have huncnt : u.ncnt.toNat = s.ncnt.toNat + 1 := by rw [← hu]; exact hn1
        have hufr : u = { s with src := u.src, ncnt := u.ncnt, nt := u.nt, hdr := u.hdr } := by rw [← hu]
        have huhdr : u.hdr = ⟨s.ncnt, none⟩ :: s.hdr := by rw [← hu]
        rcases ih (budget - 1) (by omega) husrc hurun (by simp only [Config.nodeCap]; omega) with
          ⟨l, rest, hbl, hcl⟩ | hfault
        · -- the left subtree is complete; the state it leaves
          have hbl' : bitsLeft (srcAdvance 1 p) = l.header ++ rest := hbl
          have hlp := HuffTree.size_pos l
          have hloop := headerLoop_tree l husrc hurun hbl' hcl
          generalize hv : afterSubtree u.ncnt (placeTree l u.ncnt.toNat u.nt)
            (BitVec.ofNat 10 (u.ncnt.toNat + l.size))
            { u with src := some (srcAdvance l.header.length (srcAdvance 1 p)) } = v at hloop
          simp only [afterSubtree, huhdr, closeNodes] at hv
          have hvsrc : v.src = some (srcAdvance (1 + l.header.length) p) := by rw [← hv, ← srcAdvance_advance]
          have hvrun : v.runState = .busy := by rw [← hv]; exact hurun
          have hvcnt : v.ncnt.toNat = s.ncnt.toNat + 1 + l.size := by
            simp only [Config.nodeCap] at hcl
            rw [← hv]
            show (BitVec.ofNat 10 (u.ncnt.toNat + l.size)).toNat = _
            rw [BitVec.toNat_ofNat, Nat.mod_eq_of_lt (by omega), huncnt]
          have hvfr : v = { s with src := v.src, ncnt := v.ncnt, nt := v.nt, hdr := v.hdr } := by
            rw [← hv]; simp only; rw [hufr]
          simp only [Config.nodeCap] at hcl
          have hbp : bitsLeft p = false :: (l.header ++ rest) := by
            rw [hb]; rw [bitsLeft_advance, hb] at hbl'; simpa using hbl'
          rcases ih (budget - 1 - l.size) (by omega) hvsrc hvrun (by simp only [Config.nodeCap]; omega) with
            ⟨r, rest', hbr, hcr⟩ | hfault
          · left
            refine ⟨.node l r, rest', ?_, ?_⟩
            · rw [bitsLeft_advance, hbp, Nat.add_comm 1, List.drop_succ_cons, List.drop_left] at hbr
              rw [← hb, hbp, hbr]; simp [HuffTree.header]
            · simp only [HuffTree.size, Config.nodeCap] at hcr ⊢; omega
          · right
            intro fuel hf
            obtain ⟨f, rfl⟩ : ∃ f, fuel = f + l.size + 1 := ⟨fuel - l.size - 1, by omega⟩
            rw [hs1, hloop, continueHeader, if_pos hvrun]
            exact (hfault f (by omega)).of_later (by rw [hbp]; simp; omega) hvfr (by omega)
        · right
          intro fuel hf
          obtain ⟨fuel, rfl⟩ : ∃ f, fuel = f + 1 := ⟨fuel - 1, by omega⟩
          rw [hs1]
          exact (hfault fuel (by omega)).of_later (by rw [hb]; simp) hufr (by omega)

/-! ## The placed tree -/

theorem tableGet_placeTree_out (t : HuffTree) : ∀ (i : Nat) (nt : Table Node) (j : Nat),
    j < i ∨ i + t.size ≤ j → tableGet (placeTree t i nt) j = tableGet nt j := by
  induction t with
  | leaf s =>
    intro i nt j h
    simp only [HuffTree.size] at h
    exact tableGet_put_ne _ _ (by omega)
  | node l r ihl ihr =>
    intro i nt j h
    simp only [HuffTree.size] at h
    rw [placeTree, tableGet_put_ne _ _ (by omega), ihr _ _ _ (by omega), ihl _ _ _ (by omega)]

/-- The placed tree is the tree at its index, over exactly the indices from there on. -/
theorem treeAt_placeTree (t : HuffTree) : ∀ (i : Nat) (nt : Table Node), i + t.size ≤ 1024 →
    (∀ j, i ≤ j → j < i + t.size → tableGet nt j = none) →
    treeAt (placeTree t i nt) (t.depth + 1) (BitVec.ofNat 10 i) = some t ∧
      nodesAt (placeTree t i nt) (t.depth + 1) (BitVec.ofNat 10 i) = some ((List.range t.size).map (i + ·)) := by
  induction t with
  | leaf s =>
    intro i nt hi hfree
    simp only [HuffTree.size] at hi
    have hn : nodeAt (placeTree (.leaf s) i nt) (BitVec.ofNat 10 i) = some (.leaf s 0) := by
      unfold nodeAt
      rw [BitVec.toNat_ofNat, Nat.mod_eq_of_lt (by omega), placeTree, tableGet_put_same]
    refine ⟨treeAt_leaf hn _, ?_⟩
    simp only [nodesAt, hn, BitVec.toNat_ofNat]
    rw [Nat.mod_eq_of_lt (by omega)]; simp [HuffTree.size]
  | node l r ihl ihr =>
    intro i nt hi hfree
    simp only [HuffTree.size] at hi hfree
    have hlp := HuffTree.size_pos l
    have hrp := HuffTree.size_pos r
    obtain ⟨htl, hxl⟩ := ihl (i + 1) nt (by omega) fun j h1 h2 => hfree j (by omega) (by omega)
    obtain ⟨htr, hxr⟩ := ihr (i + 1 + l.size) (placeTree l (i + 1) nt) (by omega) fun j h1 h2 => by
      rw [tableGet_placeTree_out l _ _ _ (by omega)]; exact hfree j (by omega) (by omega)
    -- the tables in between
    have keepT : ∀ (t : HuffTree) (i : Nat) (nt : Table Node) {n : Nat} {k : NodeIdx} {u : HuffTree},
        (∀ j, i ≤ j → j < i + t.size → tableGet nt j = none) → treeAt nt n k = some u →
        treeAt (placeTree t i nt) n k = some u := by
      intro t
      induction t with
      | leaf s => intro i nt n k u hf h; exact treeAt_put_fresh (hf i (by omega) (by simp [HuffTree.size])) _ h
      | node a b iha ihb =>
        intro i nt n k u hf h
        simp only [HuffTree.size] at hf
        refine treeAt_put_fresh ?_ _ (ihb _ _ ?_ (iha _ _ ?_ h))
        · rw [tableGet_placeTree_out b _ _ _ (by omega), tableGet_placeTree_out a _ _ _ (by omega)]
          exact hf i (by omega) (by omega)
        · intro j h1 h2
          rw [tableGet_placeTree_out a _ _ _ (by omega)]; exact hf j (by omega) (by omega)
        · intro j h1 h2; exact hf j (by omega) (by omega)
    have keepX : ∀ (t : HuffTree) (i : Nat) (nt : Table Node) {n : Nat} {k : NodeIdx} {u : List Nat},
        (∀ j, i ≤ j → j < i + t.size → tableGet nt j = none) → nodesAt nt n k = some u →
        nodesAt (placeTree t i nt) n k = some u := by
      intro t
      induction t with
      | leaf s => intro i nt n k u hf h; exact nodesAt_put_fresh (hf i (by omega) (by simp [HuffTree.size])) _ h
      | node a b iha ihb =>
        intro i nt n k u hf h
        simp only [HuffTree.size] at hf
        refine nodesAt_put_fresh ?_ _ (ihb _ _ ?_ (iha _ _ ?_ h))
        · rw [tableGet_placeTree_out b _ _ _ (by omega), tableGet_placeTree_out a _ _ _ (by omega)]
          exact hf i (by omega) (by omega)
        · intro j h1 h2
          rw [tableGet_placeTree_out a _ _ _ (by omega)]; exact hf j (by omega) (by omega)
        · intro j h1 h2; exact hf j (by omega) (by omega)
    have hfreeR : ∀ j, i + 1 + l.size ≤ j → j < i + 1 + l.size + r.size →
        tableGet (placeTree l (i + 1) nt) j = none := by
      intro j h1 h2
      rw [tableGet_placeTree_out l _ _ _ (by omega)]; exact hfree j (by omega) (by omega)
    have hfreeI : tableGet (placeTree r (i + 1 + l.size) (placeTree l (i + 1) nt)) i = none := by
      rw [tableGet_placeTree_out r _ _ _ (by omega), tableGet_placeTree_out l _ _ _ (by omega)]
      exact hfree i (by omega) (by omega)
    have hn : nodeAt (placeTree (.node l r) i nt) (BitVec.ofNat 10 i) =
        some (.internal (BitVec.ofNat 10 (i + 1)) (BitVec.ofNat 10 (i + 1 + l.size)) 0) := by
      unfold nodeAt
      rw [BitVec.toNat_ofNat, Nat.mod_eq_of_lt (by omega), placeTree, tableGet_put_same]
    have hdl : l.depth < (HuffTree.node l r).depth := by simp only [HuffTree.depth]; omega
    have hdr' : r.depth < (HuffTree.node l r).depth := by simp only [HuffTree.depth]; omega
    have htl' := treeAt_put_fresh hfreeI (.internal (BitVec.ofNat 10 (i + 1)) (BitVec.ofNat 10 (i + 1 + l.size)) 0)
      (keepT r _ _ hfreeR htl)
    have htr' := treeAt_put_fresh hfreeI (.internal (BitVec.ofNat 10 (i + 1)) (BitVec.ofNat 10 (i + 1 + l.size)) 0) htr
    have hxl' := nodesAt_put_fresh hfreeI (.internal (BitVec.ofNat 10 (i + 1)) (BitVec.ofNat 10 (i + 1 + l.size)) 0)
      (keepX r _ _ hfreeR hxl)
    have hxr' := nodesAt_put_fresh hfreeI (.internal (BitVec.ofNat 10 (i + 1)) (BitVec.ofNat 10 (i + 1 + l.size)) 0) hxr
    refine ⟨treeAt_internal hn (treeAt_of_depth htl' hdl) (treeAt_of_depth htr' hdr'), ?_⟩
    have hsplit : (List.range (HuffTree.node l r).size).map (i + ·) =
        i :: ((List.range l.size).map (i + 1 + ·) ++ (List.range r.size).map (i + 1 + l.size + ·)) := by
      rw [HuffTree.size, Nat.add_assoc, List.range_add, List.map_append, List.range_add]
      simp only [List.map_append, List.map_map]
      simp [Function.comp_def, Nat.add_assoc]
    rw [nodesAt, hn, hsplit]
    simp only
    have e1 := nodesAt_of_depth htl' hxl' hdl
    have e2 := nodesAt_of_depth htr' hxr' hdr'
    rw [← placeTree] at e1 e2
    rw [e1, e2]
    simp only [BitVec.toNat_ofNat]
    rw [Nat.mod_eq_of_lt (by omega)]

/-! ## A header cut short, and one that does not fit -/

/-- Over the first tokens of a header, the header not ending there, the loop allocates an index for each and goes on. -/
theorem headerLoop_tokens (t : HuffTree) : ∀ {s : State} {p : Src} {rest : Bits} (n : Nat), s.src = some p →
    s.runState = .busy → n < t.size → bitsLeft p = t.firstTokens n ++ rest → s.ncnt.toNat + n ≤ Config.nodeCap →
    ∃ nt opn, ∀ fuel, headerLoop (fuel + n) s = headerLoop fuel { s with
      src := some (srcAdvance (t.firstTokens n).length p), ncnt := BitVec.ofNat 10 (s.ncnt.toNat + n), nt := nt,
      hdr := opn } := by
  have none_read : ∀ {s : State} {p : Src}, s.src = some p → ∃ nt opn, ∀ fuel, headerLoop (fuel + 0) s =
      headerLoop fuel { s with
        src := some (srcAdvance 0 p), ncnt := BitVec.ofNat 10 (s.ncnt.toNat + 0), nt := nt, hdr := opn } := by
    intro s p hp
    exact ⟨s.nt, s.hdr, fun fuel => by simp [← hp]⟩
  induction t with
  | leaf v =>
    intro s p rest n hp hs hn hb hc
    obtain rfl : n = 0 := by simpa [HuffTree.size] using hn
    exact none_read hp
  | node l r ihl ihr =>
    intro s p rest n hp hs hn hb hc
    cases n with
    | zero => exact none_read hp
    | succ n =>
      simp only [HuffTree.size, Config.nodeCap] at hn hc
      have hn1 : (s.ncnt + 1).toNat = s.ncnt.toNat + 1 := toNat_add_one (by omega)
      rw [HuffTree.firstTokens_node, List.cons_append, List.append_assoc] at hb
      have hl1 : bitsLeft (srcAdvance 1 p) = l.firstTokens n ++ (r.firstTokens (n - l.size) ++ rest) := by
        rw [bitsLeft_advance, hb]; rfl
      have hfirst := headerLoop_internal hp hs hb (by simp only [Config.nodeCap]; omega)
      rcases Nat.lt_or_ge n l.size with hlt | hge
      · obtain ⟨nt, opn, h⟩ := ihl (p := srcAdvance 1 p)
          (s := { s with src := some (srcAdvance 1 p), ncnt := s.ncnt + 1, hdr := ⟨s.ncnt, none⟩ :: s.hdr }) n rfl hs hlt
          hl1 (by simp only [hn1, Config.nodeCap]; omega)
        refine ⟨nt, opn, fun fuel => ?_⟩
        rw [show fuel + (n + 1) = fuel + n + 1 by omega, hfirst, h, HuffTree.firstTokens_node,
          show n - l.size = 0 by omega, show s.ncnt.toNat + (n + 1) = s.ncnt.toNat + 1 + n by omega]
        simp only [hn1, srcAdvance_advance, HuffTree.firstTokens_zero, List.append_nil, List.length_cons,
          Nat.add_comm 1]
      · have hloop := headerLoop_tree l (p := srcAdvance 1 p) (rest := r.firstTokens (n - l.size) ++ rest)
          (s := { s with src := some (srcAdvance 1 p), ncnt := s.ncnt + 1, hdr := ⟨s.ncnt, none⟩ :: s.hdr }) rfl hs
          (by rw [hl1, l.firstTokens_all hge]) (by simp only [hn1, Config.nodeCap]; omega)
        simp only [afterSubtree, closeNodes] at hloop
        have hcnt : (BitVec.ofNat 10 ((s.ncnt + 1).toNat + l.size)).toNat = s.ncnt.toNat + 1 + l.size := by
          rw [BitVec.toNat_ofNat, hn1, Nat.mod_eq_of_lt (by omega)]
        have hbr : bitsLeft (srcAdvance l.header.length (srcAdvance 1 p)) = r.firstTokens (n - l.size) ++ rest := by
          rw [bitsLeft_advance, hl1, l.firstTokens_all hge, List.drop_left]
        generalize hv : ({ s with
            src := some (srcAdvance l.header.length (srcAdvance 1 p)),
            ncnt := BitVec.ofNat 10 ((s.ncnt + 1).toNat + l.size), nt := placeTree l (s.ncnt + 1).toNat s.nt,
            hdr := ⟨s.ncnt, some (s.ncnt + 1)⟩ :: s.hdr } : State) = v at hloop
        have hvn : v.ncnt.toNat = s.ncnt.toNat + 1 + l.size := by rw [← hv]; exact hcnt
        obtain ⟨nt, opn, h⟩ := ihr (s := v) (p := srcAdvance l.header.length (srcAdvance 1 p)) (n - l.size)
          (by rw [← hv]) (by rw [← hv]; exact hs) (by omega) hbr (by rw [hvn, Config.nodeCap]; omega)
        refine ⟨nt, opn, fun fuel => ?_⟩
        rw [show fuel + (n + 1) = fuel + (n - l.size) + l.size + 1 by omega, hfirst, hloop, continueHeader,
          if_pos (by rw [← hv]; exact hs), h,
          HuffTree.firstTokens_node, l.firstTokens_all hge, hvn, ← hv,
          show s.ncnt.toNat + 1 + l.size + (n - l.size) = s.ncnt.toNat + (n + 1) by omega]
        simp only [srcAdvance_advance, List.length_cons, List.length_append]
        rw [show 1 + l.header.length + (r.firstTokens (n - l.size)).length =
          l.header.length + (r.firstTokens (n - l.size)).length + 1 by omega]

/-! ## RDHDR -/

/-- The bits left begin with the header of a tree that fits: RDHDR places it (R178). -/
theorem runRdhdr_tree {s : State} {p : Src} {t : HuffTree} {rest : Bits} (hp : s.src = some p)
    (hb : bitsLeft p = t.header ++ rest) (hc : t.size ≤ Config.nodeCap) :
    runRdhdr s = .done { s with
      src := some (srcAdvance t.header.length p), nt := placeTree t 0 [], ncnt := BitVec.ofNat 10 t.size, root := 0,
      tv := true, cv := false, tsrc := true, runState := .idle, hdr := [] } := by
  have hsz := HuffTree.size_pos t
  have h := headerLoop_tree t (s := openHeader s) (p := p) (rest := rest) hp rfl hb (by simpa using hc)
    (Config.nodeCap + 1 - t.size)
  rw [show Config.nodeCap + 1 - t.size + t.size = Config.nodeCap + 1 by omega] at h
  rw [runRdhdr, h]
  simp [afterSubtree, continueHeader, closeNodes, openHeader, startTree]

/-- Otherwise RDHDR ends in a fault (R179, R180). -/
theorem runRdhdr_cases {s : State} {p : Src} (hp : s.src = some p) :
    (∃ t rest, bitsLeft p = HuffTree.header t ++ rest ∧ t.size ≤ Config.nodeCap) ∨
    HeaderFault (runRdhdr s) (openHeader s) p := by
  rcases headerLoop_cases Config.nodeCap (s := openHeader s) hp rfl (by simp) with ⟨t, rest, h1, h2⟩ | h
  · exact .inl ⟨t, rest, h1, by simpa using h2⟩
  · exact .inr (h _ (Nat.lt_succ_self _))

/-- RDHDR after the first tokens of a header that does not end there: as many indices are taken, the header is open. -/
theorem runRdhdr_tokens {s : State} {p : Src} {t : HuffTree} {rest : Bits} {n : Nat} (hp : s.src = some p)
    (hn : n < t.size) (hb : bitsLeft p = t.firstTokens n ++ rest) (hc : n ≤ Config.nodeCap) :
    ∃ nt opn, runRdhdr s = headerLoop (Config.nodeCap - n + 1) { openHeader s with
      src := some (srcAdvance (t.firstTokens n).length p), ncnt := BitVec.ofNat 10 n, nt := nt, hdr := opn } := by
  obtain ⟨nt, opn, h⟩ := headerLoop_tokens t (s := openHeader s) (p := p) n hp rfl hn hb (by simpa using hc)
  refine ⟨nt, opn, ?_⟩
  rw [runRdhdr, show Config.nodeCap + 1 = Config.nodeCap - n + 1 + n by omega, h]
  simp

/-- A header of any size cut no later than where its 514th token would begin: StreamCorrupt at the end of the source, an
index taken for every token begun (R180, R181). -/
theorem runRdhdr_cut {s : State} {p : Src} {t : HuffTree} {more : Bits} (hp : s.src = some p)
    (hh : t.header = bitsLeft p ++ more) (hm : more ≠ [])
    (hl : (bitsLeft p).length ≤ (t.firstTokens Config.nodeCap).length) :
    ∃ (n : Nat) (nt : Table Node) (opn : List HdrFrame), n ≤ Config.nodeCap ∧ n ≤ t.size ∧
      (bitsLeft p).length ≤ (t.firstTokens n).length ∧ (∀ m < n, (t.firstTokens m).length < (bitsLeft p).length) ∧
      runRdhdr s = takeFault .streamCorrupt (opcodeOf .rdhdr) { openHeader s with
        src := some (srcAtEnd p), ncnt := BitVec.ofNat 10 n, nt := nt, hdr := opn } := by
  obtain ⟨n, part, tail, hn, hb, he, hx, ht⟩ := HuffTree.header_cut hh hm
  have hlen := congrArg List.length hb
  rw [List.length_append] at hlen
  have hcap : n ≤ Config.nodeCap := by
    by_contra hlt
    have := t.firstTokens_lt (m := Config.nodeCap) (n := n) (by omega) (by omega)
    omega
  obtain ⟨nt, opn, h⟩ := runRdhdr_tokens hp hn hb hcap
  have hleft : bitsLeft (srcAdvance (t.firstTokens n).length p) = part := by
    rw [bitsLeft_advance, hb, List.drop_left]
  cases part with
  | nil =>
    simp only [List.length_nil, Nat.add_zero] at hlen
    refine ⟨n, nt, opn, hcap, by omega, by omega, fun m hmn => ?_, ?_⟩
    · rw [hlen]; exact t.firstTokens_lt hmn (by omega)
    · rw [h, headerLoop]
      simp [fetchToken, srcRead_bit_none hleft, srcAtEnd_advance]
  | cons b part =>
    have hlt : n < Config.nodeCap := by
      rcases Nat.lt_or_eq_of_le hcap with h | rfl
      · exact h
      · simp only [List.length_cons] at hlen; omega
    refine ⟨n + 1, nt, opn, hlt, hn, ?_, fun m hmn => ?_, ?_⟩
    · rw [he, hlen, List.length_append, List.length_append]; omega
    · have : (t.firstTokens m).length ≤ (t.firstTokens n).length := by
        rcases Nat.lt_or_eq_of_le (Nat.le_of_lt_succ hmn) with h | rfl
        · exact Nat.le_of_lt (t.firstTokens_lt h (by omega))
        · exact Nat.le_refl _
      simp only [List.length_cons] at hlen; omega
    · obtain ⟨v, hv⟩ : ∃ v : Sym, b :: (part ++ tail) = true :: bits 9 v.toNat := by
        rcases HuffTree.token_cases hx with hx | hx
        · have := List.length_pos_iff.2 ht
          have hxl := congrArg List.length hx
          simp only [List.length_append, List.length_cons, List.length_nil] at hxl; omega
        · exact hx
      obtain ⟨rfl, hv⟩ := List.cons.inj hv
      have hvl := congrArg List.length hv
      have := List.length_pos_iff.2 ht
      simp only [List.length_cons, List.length_append, bits_length] at hvl
      obtain ⟨hr, hrest⟩ := srcRead_bit hleft
      have h9 : srcRead 9 (srcAdvance 1 (srcAdvance (t.firstTokens n).length p)) = (none, srcAtEnd p) := by
        rw [srcRead_none (by rw [hrest]; omega), srcAtEnd_advance, srcAtEnd_advance]
      have hne : (BitVec.ofNat 10 n : NodeIdx).toNat ≠ Config.nodeCap := by
        simp only [Config.nodeCap] at hlt ⊢
        rw [BitVec.toNat_ofNat, Nat.mod_eq_of_lt (by omega)]; omega
      rw [h, headerLoop]
      simp only [fetchToken, hr, if_neg hne, Bool.toNat_true, if_true, h9]
      rw [BitVec.ofNat_add]
      rfl

/-- A bit after 513 whole tokens of a longer header: TreeOverflow, that one bit read (R179, R181). -/
theorem runRdhdr_over {s : State} {p : Src} {t : HuffTree} {b : Bool} {rest : Bits} (hp : s.src = some p)
    (ht : Config.nodeCap < t.size) (hb : bitsLeft p = t.firstTokens Config.nodeCap ++ b :: rest) :
    ∃ (nt : Table Node) (opn : List HdrFrame),
      runRdhdr s = takeFault .treeOverflow (opcodeOf .rdhdr) { openHeader s with
        src := some (srcAdvance ((t.firstTokens Config.nodeCap).length + 1) p), ncnt := 513, nt := nt, hdr := opn } := by
  obtain ⟨nt, opn, h⟩ := runRdhdr_tokens hp ht hb (Nat.le_refl _)
  have hleft : bitsLeft (srcAdvance (t.firstTokens Config.nodeCap).length p) = b :: rest := by
    rw [bitsLeft_advance, hb, List.drop_left]
  refine ⟨nt, opn, ?_⟩
  rw [h, headerLoop]
  simp only [fetchToken, (srcRead_bit hleft).1, srcAdvance_advance]
  rfl

end Sys2Proof.Machine
end

