-- ==== Sys2Proof/Laws/Payload.lean ====
section
/-! SUPPORT. What the loops of WRHDR, ENCODE and DECODE do (43_header_codec.md R168, 44_payload_encode.md R188 to R191,
45_payload_decode.md R200 to R209). -/

namespace Sys2Proof.Machine

/-- The sink with bits appended (20_memory.md R73). -/
def snkAppend (c : Bits) (k : Snk) : Snk := { k with bits := k.bits ++ c }

@[simp] theorem snkAppend_bits (c : Bits) (k : Snk) : (snkAppend c k).bits = k.bits ++ c := rfl
@[simp] theorem snkAppend_closed (c : Bits) (k : Snk) : (snkAppend c k).closed = k.closed := rfl
@[simp] theorem snkAppend_nil (k : Snk) : snkAppend [] k = k := by simp [snkAppend]

theorem snkAppend_snkAppend (a c : Bits) (k : Snk) : snkAppend c (snkAppend a k) = snkAppend (a ++ c) k := by
  simp [snkAppend]

theorem snkWrite_eq (w v : Nat) (k : Snk) : snkWrite w v k = snkAppend (bits w v) k := rfl

/-! ## WRHDR -/

/-- Over a tree, `emit` appends the tree's header. -/
theorem emitHeader_eq {nt : Table Node} {n : Nat} {i : NodeIdx} {t : HuffTree} (h : treeAt nt n i = some t) (k : Snk) :
    emitHeader nt n i k = .ok (snkAppend t.header k) := by
  induction n generalizing i t k with
  | zero => simp [treeAt] at h
  | succ n ih =>
    obtain ⟨m, hm, h⟩ := treeAt_cases h
    cases hm
    rcases h with ⟨s, w, hn, rfl⟩ | ⟨l, r, w, a, b, hn, ha, hb, rfl⟩
    · simp only [emitHeader, hn, snkWrite_eq, snkAppend_snkAppend, HuffTree.header, bits_one_one,
        List.singleton_append]
    · simp only [emitHeader, hn, snkWrite_eq, bits_one_zero, ih ha, ih hb, snkAppend_snkAppend, HuffTree.header,
        List.nil_append, List.cons_append]

/-! ## ENCODE -/

/-- A code is appended bit by bit (R190). -/
theorem putCode_eq (c : Bits) (k : Snk) : putCode c k = snkAppend c k := by
  induction c generalizing k with
  | nil => simp [putCode]
  | cons b c ih => rw [putCode, ih, snkWrite_eq, bits_one_toNat, snkAppend_snkAppend, List.singleton_append]

/-- Everything ENCODE's loop can do: it puts the codes of all the bytes that are left, or it meets a byte without a
code, the codes of the bytes before it in the sink. -/
theorem encodeLoop_cases (ct : Table Bits) : ∀ (fuel : Nat) (p : Src) (k : Snk), (bytesLeft p).length < fuel →
    (∃ cs, codesOfBytes ct (bytesLeft p) = some cs ∧
      encodeLoop ct fuel p k = .exhausted (srcAtEnd p) (snkAppend cs k)) ∨
    (∃ done b rest cs, bytesLeft p = done ++ b :: rest ∧ tableGet ct b.toNat = none ∧
      codesOfBytes ct done = some cs ∧
      encodeLoop ct fuel p k = .missing (srcAdvance (8 * (done.length + 1)) p) (snkAppend cs k))
  | 0, p, k, h => absurd h (Nat.not_lt_zero _)
  | fuel + 1, p, k, h => by
    cases hb : bytesLeft p with
    | nil =>
      refine .inl ⟨[], rfl, ?_⟩
      rw [encodeLoop, srcRead_byte_none hb, snkAppend_nil]
    | cons b rest =>
      obtain ⟨hr, hleft⟩ := srcRead_byte hb
      rw [encodeLoop, hr]
      simp only
      cases hc : tableGet ct b.toNat with
      | none => exact .inr ⟨[], b, rest, [], rfl, hc, rfl, by simp⟩
      | some c =>
        simp only [putCode_eq]
        have hlen : (bytesLeft (srcAdvance 8 p)).length < fuel := by
          rw [hleft]; rw [hb, List.length_cons] at h; omega
        rcases encodeLoop_cases ct fuel (srcAdvance 8 p) (snkAppend c k) hlen with
          ⟨cs, hcs, he⟩ | ⟨done, d, rest', cs, hd, hm, hcs, he⟩
        · refine .inl ⟨c ++ cs, ?_, ?_⟩
          · rw [hleft] at hcs; simp [codesOfBytes, hc, hcs]
          · rw [he, snkAppend_snkAppend, srcAtEnd_advance]
        · refine .inr ⟨b :: done, d, rest', c ++ cs, ?_, hm, ?_, ?_⟩
          · rw [hleft] at hd; rw [hd]; rfl
          · simp [codesOfBytes, hc, hcs]
          · rw [he, snkAppend_snkAppend, srcAdvance_advance, List.length_cons]
            congr 2; omega

theorem codesOfBytes_some_of_mem {ct : Table Bits} {d : List Byte} (h : ∀ b ∈ d, (tableGet ct b.toNat).isSome = true) :
    ∃ cs, codesOfBytes ct d = some cs := by
  induction d with
  | nil => exact ⟨[], rfl⟩
  | cons b d ih =>
    obtain ⟨cs, hcs⟩ := ih fun c hc => h c (List.mem_cons_of_mem _ hc)
    obtain ⟨c, hc⟩ := Option.isSome_iff_exists.1 (h b (by simp))
    exact ⟨c ++ cs, by simp [codesOfBytes, hc, hcs]⟩

theorem codesOfBytes_none {ct : Table Bits} {d : List Byte} {b : Byte} (hb : b ∈ d)
    (h : tableGet ct b.toNat = none) : codesOfBytes ct d = none := by
  induction d with
  | nil => simp at hb
  | cons a d ih =>
    rcases List.mem_cons.1 hb with rfl | hb
    · simp [codesOfBytes, h]
    · simp only [codesOfBytes, ih hb]
      split
      · rename_i h1; cases h1
      · rfl

/-! ## DECODE -/

/-- Walking a path that ends on a leaf, from an internal node: the loop stands on that leaf with the path consumed, and
does what the leaf's symbol says (R204, R205). -/
theorem decodeLoop_code {nt : Table Node} {root : NodeIdx} {n : Nat} {cur : NodeIdx} {t : HuffTree}
    (ht : treeAt nt n cur = some t) : ∀ {c : Bits} {s : Sym}, c ≠ [] → t.leafAt c = some s →
    ∀ {p : Src} {rest : Bits} (k : Snk) (fuel : Nat), bitsLeft p = c ++ rest →
    ∃ leafIdx w, follow nt cur c = some leafIdx ∧ nodeAt nt leafIdx = some (.leaf s w) ∧
      decodeLoop nt root (fuel + c.length) p k cur =
        (if s.toNat = Config.eos then .eof (srcAdvance c.length p) k leafIdx
         else if Config.eos < s.toNat then .corrupt (srcAdvance c.length p) k leafIdx .atLeafSym
         else decodeLoop nt root fuel (srcAdvance c.length p) (snkWrite 8 s.toNat k) root) := by
  induction n generalizing cur t with
  | zero => simp [treeAt] at ht
  | succ n ih =>
    intro c s hne hleaf p rest k fuel hbits
    obtain ⟨m, hm, ht⟩ := treeAt_cases ht
    cases hm
    cases c with
    | nil => exact absurd rfl hne
    | cons b c =>
      rcases ht with ⟨v, w, hn, rfl⟩ | ⟨l, r, w, ta, tb, hn, ha, hb, rfl⟩
      · simp [HuffTree.leafAt] at hleaf
      · obtain ⟨hr, hleft⟩ := srcRead_bit (b := b) (rest := c ++ rest) (by rw [hbits]; rfl)
        -- the child the bit selects
        obtain ⟨child, tc, hchild, htc, hlc⟩ :
            ∃ child tc, (if b.toNat = 0 then l else r) = child ∧ treeAt nt n child = some tc ∧
              tc.leafAt c = some s := by
          cases b with
          | false => exact ⟨l, ta, rfl, ha, hleaf⟩
          | true => exact ⟨r, tb, rfl, hb, hleaf⟩
        have hfol : ∀ d, follow nt cur (b :: d) = follow nt child d := by
          intro d; rw [follow, hn, ← hchild]; cases b <;> rfl
        cases hc : c with
        | nil =>
          subst hc
          cases tc with
          | node _ _ => simp [HuffTree.leafAt] at hlc
          | leaf v =>
            simp only [HuffTree.leafAt, Option.some.injEq] at hlc
            subst hlc
            obtain ⟨m', hm', htc⟩ := treeAt_cases htc
            rcases htc with ⟨v', w', hv, hvv⟩ | ⟨_, _, _, _, _, _, _, _, h⟩
            · injection hvv with hvv
              subst hvv
              refine ⟨child, w', by rw [hfol]; rfl, hv, ?_⟩
              rw [List.length_singleton, decodeLoop, hr]
              simp only [hn, hchild, hv]
            · cases h
        | cons b' c' =>
          rw [← hc]
          have hcne : c ≠ [] := by rw [hc]; simp
          obtain ⟨m', hm', htc'⟩ := treeAt_cases htc
          rcases htc' with ⟨v', w', hv, hvv⟩ | ⟨l', r', w', ta', tb', hcn, _, _, _⟩
          · rw [hvv, hc] at hlc; simp [HuffTree.leafAt] at hlc
          · obtain ⟨leafIdx, w'', hf, hli, hloop⟩ := ih htc hcne hlc k fuel hleft
            refine ⟨leafIdx, w'', by rw [hfol]; exact hf, hli, ?_⟩
            rw [List.length_cons, ← Nat.add_assoc, decodeLoop, hr]
            simp only [hn, hchild, hcn]
            rw [hloop]
            simp only [srcAdvance_advance, Nat.add_comm 1]

/-- Running out of bits on a path that ends on an internal node: BadInput there (R202). -/
theorem decodeLoop_cut {nt : Table Node} {root : NodeIdx} {n : Nat} {cur : NodeIdx} {t : HuffTree}
    (ht : treeAt nt n cur = some t) : ∀ {c : Bits}, t.innerAt c = true →
    ∀ {p : Src} (k : Snk) (fuel : Nat), bitsLeft p = c →
    ∃ at', follow nt cur c = some at' ∧
      decodeLoop nt root (fuel + c.length + 1) p k cur = .badInput (srcAtEnd p) k at' := by
  induction n generalizing cur t with
  | zero => simp [treeAt] at ht
  | succ n ih =>
    intro c hin p k fuel hbits
    obtain ⟨m, hm, ht⟩ := treeAt_cases ht
    cases hm
    rcases ht with ⟨v, w, hn, rfl⟩ | ⟨l, r, w, ta, tb, hn, ha, hb, rfl⟩
    · simp [HuffTree.innerAt] at hin
    · cases c with
      | nil =>
        refine ⟨cur, rfl, ?_⟩
        rw [decodeLoop, srcRead_bit_none hbits]
      | cons b c =>
        obtain ⟨hr, hleft⟩ := srcRead_bit hbits
        obtain ⟨child, tc, hchild, htc, hic⟩ :
            ∃ child tc, (if b.toNat = 0 then l else r) = child ∧ treeAt nt n child = some tc ∧
              tc.innerAt c = true := by
          cases b with
          | false => exact ⟨l, ta, rfl, ha, hin⟩
          | true => exact ⟨r, tb, rfl, hb, hin⟩
        have hfol : follow nt cur (b :: c) = follow nt child c := by
          rw [follow, hn, ← hchild]; cases b <;> rfl
        obtain ⟨m', hm', htc'⟩ := treeAt_cases htc
        rcases htc' with ⟨v', w', hv, hvv⟩ | ⟨l', r', w', ta', tb', hcn, _, _, _⟩
        · rw [hvv] at hic; simp [HuffTree.innerAt] at hic
        · obtain ⟨at', hat, hloop⟩ := ih htc hic k fuel hleft
          refine ⟨at', by rw [hfol]; exact hat, ?_⟩
          rw [List.length_cons, ← Nat.add_assoc, decodeLoop, hr]
          simp only [hn, hchild, hcn]
          rw [hloop, srcAtEnd_advance]

/-- Walking codes of byte symbols from the root, one after the other: their bytes are in the sink, their bits consumed, and
the loop stands at the root again (R205). -/
theorem decodeLoop_codes {nt : Table Node} {root : NodeIdx} {n : Nat} {t : HuffTree} (ht : treeAt nt n root = some t) :
    ∀ (cs : List (Bits × Byte)), (∀ e ∈ cs, e.1 ≠ [] ∧ t.leafAt e.1 = some (e.2.zeroExtend 9)) →
    ∀ {p : Src} {rest : Bits} (k : Snk) (fuel : Nat), bitsLeft p = cs.flatMap Prod.fst ++ rest →
      decodeLoop nt root (fuel + (cs.flatMap Prod.fst).length) p k root =
        decodeLoop nt root fuel (srcAdvance (cs.flatMap Prod.fst).length p)
          (snkAppend (sourceBits (cs.map Prod.snd)) k) root
  | [], _, p, rest, k, fuel, hb => by simp
  | (c, b) :: cs, h, p, rest, k, fuel, hb => by
    obtain ⟨hne, hleaf⟩ := h (c, b) (by simp)
    have hb' : bitsLeft p = c ++ (cs.flatMap Prod.fst ++ rest) := by rw [hb]; simp
    have hbt : (b.zeroExtend 9).toNat = b.toNat := by
      rw [BitVec.toNat_setWidth, Nat.mod_eq_of_lt]
      have := b.isLt; omega
    obtain ⟨leafIdx, w, _, _, hloop⟩ := decodeLoop_code (root := root) ht hne hleaf k
      (fuel + (cs.flatMap Prod.fst).length) hb'
    have hlt := b.isLt
    rw [hbt, if_neg (by simp only [Config.eos]; omega), if_neg (by simp only [Config.eos]; omega)] at hloop
    simp only [List.flatMap_cons, List.length_append, List.map_cons] at hloop ⊢
    rw [show fuel + (c.length + (cs.flatMap Prod.fst).length) = fuel + (cs.flatMap Prod.fst).length + c.length by omega,
      hloop, decodeLoop_codes ht cs (fun e he => h e (List.mem_cons_of_mem _ he)) _ fuel (rest := rest)
        (by rw [bitsLeft_advance, hb', List.drop_left]),
      srcAdvance_advance, sourceBits_cons, snkWrite_eq, snkAppend_snkAppend]

/-- From an internal root, bits lead to a leaf by a path of their front, or end inside the tree. -/
theorem HuffTree.walk_cases (t : HuffTree) : ∀ c : Bits,
    (∃ a s b, c = a ++ b ∧ t.leafAt a = some s) ∨ t.innerAt c = true := by
  induction t with
  | leaf s => intro c; exact .inl ⟨[], s, c, rfl, rfl⟩
  | node l r ihl ihr =>
    intro c
    cases c with
    | nil => exact .inr rfl
    | cons b c =>
      cases b with
      | false =>
        rcases ihl c with ⟨a, s, d, rfl, h⟩ | h
        · exact .inl ⟨false :: a, s, d, rfl, h⟩
        · exact .inr h
      | true =>
        rcases ihr c with ⟨a, s, d, rfl, h⟩ | h
        · exact .inl ⟨true :: a, s, d, rfl, h⟩
        · exact .inr h

/-- How DECODE's loop ends from an internal root, by the bits left (R202 to R209). -/
theorem decodeLoop_cases {nt : Table Node} {root : NodeIdx} {n : Nat} {l r : HuffTree}
    (ht : treeAt nt n root = some (.node l r)) : ∀ (m : Nat) {p : Src} (k : Snk) (fuel : Nat),
    (bitsLeft p).length ≤ m → (bitsLeft p).length < fuel →
    ∃ (cs : List (Bits × Byte)) (c rest : Bits) (at' : NodeIdx),
      (∀ e ∈ cs, (HuffTree.node l r).leafAt e.1 = some (e.2.zeroExtend 9)) ∧
      bitsLeft p = cs.flatMap Prod.fst ++ (c ++ rest) ∧ follow nt root c = some at' ∧
      (((HuffTree.node l r).leafAt c = some 256 ∧ decodeLoop nt root fuel p k root =
          .eof (srcAdvance ((cs.flatMap Prod.fst).length + c.length) p)
            (snkAppend (sourceBits (cs.map Prod.snd)) k) at') ∨
       ((∃ x : Sym, (HuffTree.node l r).leafAt c = some x ∧ 256 < x.toNat) ∧ decodeLoop nt root fuel p k root =
          .corrupt (srcAdvance ((cs.flatMap Prod.fst).length + c.length) p)
            (snkAppend (sourceBits (cs.map Prod.snd)) k) at' .atLeafSym) ∨
       ((HuffTree.node l r).innerAt c = true ∧ rest = [] ∧ decodeLoop nt root fuel p k root =
          .badInput (srcAtEnd p) (snkAppend (sourceBits (cs.map Prod.snd)) k) at'))
  | m, p, k, fuel, hm, hf => by
    rcases HuffTree.walk_cases (.node l r) (bitsLeft p) with ⟨a, s, b, hab, hleaf⟩ | hin
    · have hne : a ≠ [] := by rintro rfl; simp [HuffTree.leafAt] at hleaf
      have hlen : (bitsLeft p).length = a.length + b.length := by rw [hab, List.length_append]
      have hpos := List.length_pos_iff.2 hne
      obtain ⟨f, rfl⟩ : ∃ f, fuel = f + a.length := ⟨fuel - a.length, by omega⟩
      obtain ⟨leafIdx, w, hfol, _, hloop⟩ := decodeLoop_code (root := root) ht hne hleaf k f hab
      by_cases h1 : s.toNat = Config.eos
      · rw [if_pos h1] at hloop
        have hs : s = 256 := BitVec.eq_of_toNat_eq h1
        exact ⟨[], a, b, leafIdx, by simp, by simpa using hab, hfol, .inl ⟨hs ▸ hleaf, by simpa using hloop⟩⟩
      · rw [if_neg h1] at hloop
        by_cases h2 : Config.eos < s.toNat
        · rw [if_pos h2] at hloop
          exact ⟨[], a, b, leafIdx, by simp, by simpa using hab, hfol, .inr (.inl ⟨⟨s, hleaf, h2⟩, by simpa using hloop⟩)⟩
        · rw [if_neg h2] at hloop
          obtain ⟨m, rfl⟩ : ∃ m', m = m' + 1 := ⟨m - 1, by omega⟩
          have hleft : bitsLeft (srcAdvance a.length p) = b := by rw [bitsLeft_advance, hab, List.drop_left]
          simp only [Config.eos] at h1 h2
          have hs8 : ((BitVec.ofNat 8 s.toNat : Byte).zeroExtend 9 : Sym) = s := by
            apply BitVec.eq_of_toNat_eq
            rw [BitVec.toNat_setWidth, BitVec.toNat_ofNat]; omega
          have hs8' : (BitVec.ofNat 8 s.toNat : Byte).toNat = s.toNat := by rw [BitVec.toNat_ofNat]; omega
          obtain ⟨cs, c, rest, at', hcs, hbits, hat, hend⟩ := decodeLoop_cases ht m (p := srcAdvance a.length p)
            (snkWrite 8 s.toNat k) f (by rw [hleft]; omega) (by rw [hleft]; omega)
          have hsk : snkAppend (sourceBits (cs.map Prod.snd)) (snkWrite 8 s.toNat k) =
              snkAppend (sourceBits (((a, BitVec.ofNat 8 s.toNat) :: cs).map Prod.snd)) k := by
            rw [List.map_cons, sourceBits_cons, hs8', snkWrite_eq, snkAppend_snkAppend]
          have hl : a.length + ((cs.flatMap Prod.fst).length + c.length) =
              ((((a, BitVec.ofNat 8 s.toNat) : Bits × Byte) :: cs).flatMap Prod.fst).length + c.length := by
            rw [List.flatMap_cons, List.length_append, Nat.add_assoc]
          refine ⟨(a, BitVec.ofNat 8 s.toNat) :: cs, c, rest, at', ?_, ?_, hat, ?_⟩
          · intro e he
            rcases List.mem_cons.1 he with rfl | he
            · simpa only [hs8] using hleaf
            · exact hcs e he
          · rw [hleft] at hbits; rw [hab, hbits]; simp
          · rw [hloop]
            rcases hend with ⟨h, he⟩ | ⟨h, he⟩ | ⟨h, hr, he⟩
            · exact .inl ⟨h, by rw [he, hsk, srcAdvance_advance, hl]⟩
            · exact .inr (.inl ⟨h, by rw [he, hsk, srcAdvance_advance, hl]⟩)
            · exact .inr (.inr ⟨h, hr, by rw [he, hsk, srcAtEnd_advance]⟩)
    · obtain ⟨f, hfu⟩ : ∃ f, fuel = f + (bitsLeft p).length + 1 := ⟨fuel - (bitsLeft p).length - 1, by omega⟩
      obtain ⟨at', hat, hloop⟩ := decodeLoop_cut (root := root) ht hin k f (p := p) rfl
      exact ⟨[], bitsLeft p, [], at', by simp, by simp, hat, .inr (.inr ⟨hin, rfl, by rw [hfu]; simpa using hloop⟩)⟩

end Sys2Proof.Machine
end

