-- ==== Sys2Proof/Laws/Step.lean ====
section
/-! SUPPORT. What acceptance and a step can do (46_orchestration.md R215, R216; 20_memory.md R61, R62; 60_exceptions.md
R250): each instruction as its acceptance of its body, each step as its event. -/

namespace Sys2Proof.Machine

/-! ## Instructions -/

/-- The body of each instruction. -/
def bodyOf : Instr → State → Run
  | .clear => fun s => .done (clearCore s)
  | .count => runCount
  | .build => runBuild
  | .gencodes => runGencodes
  | .wrmagic => runWrmagic
  | .wrhdr => runWrhdr
  | .rewind => runRewind
  | .encode => runEncode
  | .close => runClose
  | .rdmagic => runRdmagic
  | .rdhdr => runRdhdr
  | .decode => runDecode
  | .compress => runCompress
  | .decompress => runDecompress
  | .hdrInternal => runHdrInternal
  | .hdrLeaf sym => runHdrLeaf sym

/-- A command other than CLEAR is the acceptance of its body. -/
theorem exec_command {i : Instr} (hc : i.isCommand = true) (hn : i ≠ .clear) (s : State) :
    exec i s = (accept i (bodyOf i) s).outcome := by
  cases i <;> first | rfl | exact absurd rfl hn | cases hc

/-- A header token is its body. -/
theorem exec_token {i : Instr} (hc : i.isCommand = false) (s : State) : exec i s = (bodyOf i s).outcome := by
  cases i <;> first | rfl | cases hc

theorem exec_clear {s : State} (h : s.runState ≠ .busy) : exec .clear s = .next (clearCore s) := by
  show execClear s = _
  unfold execClear
  cases hr : s.runState <;> simp_all

/-- A command whose prerequisites hold runs its body. -/
theorem exec_runs {i : Instr} {s : State} (hc : i.isCommand = true) (hn : i ≠ .clear) (hi : s.runState = .idle)
    (hb : prereqBroken (prereqOf i) s = false) (hp : prereqPortAbsent (prereqOf i) s = none) :
    exec i s = (bodyOf i s).outcome := by
  rw [exec_command hc hn, accept_runs hi hb hp]

/-- A command with a broken prerequisite is an IllegalCommand (R216, R235). -/
theorem exec_illegal {i : Instr} {s : State} (hc : i.isCommand = true) (hn : i ≠ .clear) (hi : s.runState = .idle)
    (hb : prereqBroken (prereqOf i) s = true) {k : Snk} (hk : s.snk = some k) (he : s.err = .none) :
    exec i s = .next (faultState .illegalCommand (opcodeOf i) k s) := by
  rw [exec_command hc hn, accept_illegal hi hb, takeFault_of_sink hk he, outcome_faulted]

/-- In FAULT every command but CLEAR has no effect (R240). -/
theorem exec_in_fault {i : Instr} {s : State} (hc : i.isCommand = true) (hn : i ≠ .clear) (hs : s.runState = .fault) :
    exec i s = .next s := by
  rw [exec_command hc hn, accept_not_idle (by rw [hs]; decide), outcome_done]

/-! ## Words -/

theorem upper_zero_iff (w : Word) : w.extractLsb' 4 28 = (0 : BitVec 28) ↔ w.toNat < 16 := by
  rw [← BitVec.toNat_inj]
  have := w.isLt
  simp [Nat.shiftRight_eq_div_pow]
  omega

theorem decodeCommand_upper {w : Word} (h : ¬ w.toNat < 16) : decodeCommand w = .error .upperBitsSet := by
  rw [decodeCommand, if_neg (fun h' => h ((upper_zero_iff w).1 h'))]

/-- A decoded word is the command's own word. -/
theorem eq_encode_of_decode {w : Word} {i : Instr} (h : decodeCommand w = .ok i) :
    i.isCommand = true ∧ w = encodeCommand i := by
  by_cases hw : w.toNat < 16
  · have all : ∀ n : Fin 16, ∀ j, decodeCommand (BitVec.ofNat 32 n.val) = .ok j →
        j.isCommand = true ∧ BitVec.ofNat 32 n.val = encodeCommand j := by
      intro n j hj
      fin_cases n <;> first | (cases hj; done) | (cases hj; exact ⟨rfl, rfl⟩)
    have := all ⟨w.toNat, hw⟩ i (by simpa using h)
    simpa using this
  · rw [decodeCommand_upper hw] at h; cases h

/-- What a token at the front of a bit list looks like. -/
theorem decodeToken_cases {c : Bits} {i : Instr} {rest : Bits} (h : decodeToken c = .ok (i, rest)) :
    (i = .hdrInternal ∧ c = false :: rest) ∨
    (∃ v : Sym, i = .hdrLeaf v.toNat ∧ c = true :: (bits 9 v.toNat ++ rest)) := by
  unfold decodeToken at h
  split at h
  · cases h
  · injection h with h; injection h with h1 h2; subst h1; subst h2; exact .inl ⟨rfl, rfl⟩
  · rename_i r
    split at h
    · cases h
    · rename_i hl
      injection h with h; injection h with h1 h2; subst h1; subst h2
      have hl9 : (r.take 9).length = 9 := by simp; omega
      have hv : val (r.take 9) < 2 ^ 9 := by simpa [hl9] using val_lt (r.take 9)
      have hm : val (r.take 9) % 512 = val (r.take 9) := Nat.mod_eq_of_lt hv
      refine .inr ⟨BitVec.ofNat 9 (val (r.take 9)), ?_, ?_⟩
      · simp only [BitVec.toNat_ofNat]; exact congrArg _ hm.symm
      · simp only [BitVec.toNat_ofNat]
        show true :: r = true :: (bits 9 (val (r.take 9) % 512) ++ r.drop 9)
        rw [hm, bits_val_of_length hl9, List.take_append_drop]

/-! ## The window -/

@[simp] theorem windowCell_cmd : windowCell 0 = .cmd := by decide

theorem windowCell_status_iff (idx : WinIdx) : windowCell idx = .status ↔ idx = 1 := by
  constructor
  · intro h
    unfold windowCell at h
    simp only at h
    repeat' split at h
    all_goals first | exact BitVec.eq_of_toNat_eq ‹_› | cases h
  · rintro rfl; decide

theorem windowCell_freq {idx : WinIdx} {sym : Nat} (hs : sym ≤ 256) (h : idx.toNat = 0x0100 + sym) :
    windowCell idx = .freq sym := by
  unfold windowCell
  simp only
  repeat' split
  all_goals first | omega | exact congrArg WindowCell.freq (by omega)

theorem windowCell_freq_iff {idx : WinIdx} {sym : Nat} (h : windowCell idx = .freq sym) :
    sym ≤ 256 ∧ idx.toNat = 0x0100 + sym := by
  unfold windowCell at h
  simp only at h
  repeat' split at h
  all_goals first | (have := WindowCell.freq.inj h; omega) | cases h

theorem windowCell_node {idx : WinIdx} {i : Nat} (hi : i ≤ 512) (h : idx.toNat = 0x0400 + 2 * i) :
    windowCell idx = .nodeFields i := by
  unfold windowCell
  simp only
  repeat' split
  all_goals first | omega | exact congrArg WindowCell.nodeFields (by omega)

theorem windowCell_weight {idx : WinIdx} {i : Nat} (hi : i ≤ 512) (h : idx.toNat = 0x0401 + 2 * i) :
    windowCell idx = .nodeWeight i := by
  unfold windowCell
  simp only
  repeat' split
  all_goals first | omega | exact congrArg WindowCell.nodeWeight (by omega)

theorem windowCell_head {idx : WinIdx} {sym : Nat} (hs : sym ≤ 256) (h : idx.toNat = 0x1000 + 16 * sym) :
    windowCell idx = .codeHead sym := by
  unfold windowCell
  simp only
  repeat' split
  all_goals first | omega | exact congrArg WindowCell.codeHead (by omega)

theorem windowCell_word {idx : WinIdx} {sym k : Nat} (hs : sym ≤ 256) (hk : 1 ≤ k) (hk8 : k ≤ 8)
    (h : idx.toNat = 0x1000 + 16 * sym + k) : windowCell idx = .codeWord sym k := by
  unfold windowCell
  simp only
  repeat' split
  all_goals first | omega | exact congrArg₂ WindowCell.codeWord (by omega) (by omega)

/-- The indices R65 refuses to read. -/
theorem windowCell_unmapped {idx : WinIdx}
    (h : (5 ≤ idx.toNat ∧ idx.toNat < 0x0100) ∨ (0x0200 < idx.toNat ∧ idx.toNat < 0x0400) ∨
      (0x0801 < idx.toNat ∧ idx.toNat < 0x1000) ∨ 0x2008 < idx.toNat ∨
      (0x1000 ≤ idx.toNat ∧ 9 ≤ idx.toNat % 16)) : windowCell idx = .unmapped := by
  unfold windowCell
  simp only
  repeat' split
  all_goals first | omega | rfl

/-! ## Steps -/

/-- What an event amounts to. -/
def Event.outcome : Event → Host.Outcome State Fault Refusal
  | .run i s => exec i s
  | .abandoned i calls s => abandonCommand i calls s
  | .settled r => r.outcome

theorem step_eq (s : State) : step s = (nextEvent s).outcome := by
  unfold step
  cases nextEvent s <;> rfl

/-- Between commands a step performs the oldest host action (R61). -/
theorem step_host {s : State} {a : HostAction} {rest : List HostAction} (hb : s.runState ≠ .busy)
    (hh : s.host = a :: rest) : step s = (hostEvent a { s with host := rest }).outcome := by
  rw [step_eq, nextEvent]
  cases hr : s.runState
  · simp [hh]
  · exact absurd hr hb
  · simp [hh]

/-- Between commands, with nothing pending, a step waits (R260). -/
theorem step_wait {s : State} (hb : s.runState ≠ .busy) (hh : s.host = []) : step s = .next s := by
  rw [step_eq, nextEvent]
  cases hr : s.runState
  · rw [hh]; rfl
  · exact absurd hr hb
  · rw [hh]; rfl

theorem step_reset {s : State} {rest : List HostAction} (hh : s.host = .reset :: rest) :
    step s = .next (clearCore { s with host := rest }) := by
  by_cases hb : s.runState = .busy
  · rw [step_eq, nextEvent, hb, hh]; rfl
  · rw [step_host hb hh]; rfl

/-- A write of a command's word to CMD runs the command (R22, R215). -/
theorem step_command {s : State} {i : Instr} {w : Word} {rest : List HostAction} (hb : s.runState ≠ .busy)
    (hh : s.host = .hwrite 0 w :: rest) (hd : decodeCommand w = .ok i) : step s = exec i { s with host := rest } := by
  rw [step_host hb hh]
  simp only [hostEvent, hostWrite, windowCell_cmd, hd]
  rfl

/-- While a header is open a step answers a reset, a read of STATUS, or runs the next token. -/
theorem step_busy {s : State} (hb : s.runState = .busy) :
    (∃ rest, s.host = .reset :: rest ∧ step s = .next (clearCore { s with host := rest })) ∨
    (∃ rest, s.host = .hread 1 :: rest ∧ step s = (hostReadBusy { s with host := rest }).outcome) ∨
    ((∀ h, s.host ≠ .reset :: h) ∧ (∀ h, s.host ≠ .hread 1 :: h) ∧ step s = (tokenEvent s).outcome) := by
  rw [step_eq, nextEvent, hb]
  cases hh : s.host with
  | nil => exact .inr (.inr ⟨by simp, by simp, rfl⟩)
  | cons a rest =>
    cases a with
    | reset => exact .inl ⟨rest, rfl, rfl⟩
    | hread idx =>
      by_cases hi : idx = 1
      · subst hi; exact .inr (.inl ⟨rest, rfl, by simp only [show windowCell 1 = .status by decide]; rfl⟩)
      · refine .inr (.inr ⟨by simp, ?_, ?_⟩)
        · intro h he; injection he with he; injection he with he; exact hi he
        · simp only [if_neg (fun h => hi ((windowCell_status_iff idx).1 h))]
    | attachSrc d => exact .inr (.inr ⟨by simp, by simp, rfl⟩)
    | attachSnk => exact .inr (.inr ⟨by simp, by simp, rfl⟩)
    | hwrite idx w => exact .inr (.inr ⟨by simp, by simp, rfl⟩)
    | collect => exact .inr (.inr ⟨by simp, by simp, rfl⟩)
    | cmdReset w calls => exact .inr (.inr ⟨by simp, by simp, rfl⟩)

end Sys2Proof.Machine
end

