-- ==== Sys2Proof/Laws/Ends.lean ====
section
/-! SUPPORT. Everything each command's body can end in, from any state: one lemma per body, which says what it may have
written (60_exceptions.md R236, R238), and how such lemmas compose along a composite. -/

namespace Sys2Proof.Machine

/-- How a run can end: done with `P`, a fault raised with `Q`, a stop of the model with `R`, or a refusal. -/
def Ends (P : State → Prop) (Q : FaultCode → Opcode → State → Prop) (R : Fault → Prop) (r : Run) : Prop :=
  (∃ t, r = .done t ∧ P t) ∨ (∃ c op u, r = takeFault c op u ∧ Q c op u) ∨ (∃ f, r = .stopped f ∧ R f) ∨
    ∃ x, r = .refused x

theorem Ends.done {P Q R} {t : State} (h : P t) : Ends P Q R (.done t) := .inl ⟨t, rfl, h⟩
theorem Ends.raised {P : State → Prop} {Q : FaultCode → Opcode → State → Prop} {R : Fault → Prop} {c : FaultCode}
    {op : Opcode} {u : State} (h : Q c op u) : Ends P Q R (takeFault c op u) := .inr (.inl ⟨c, op, u, rfl, h⟩)
theorem Ends.stopped {P : State → Prop} {Q : FaultCode → Opcode → State → Prop} {R : Fault → Prop} {f : Fault}
    (h : R f) : Ends P Q R (.stopped f) := .inr (.inr (.inl ⟨f, rfl, h⟩))
theorem Ends.refused {P : State → Prop} {Q : FaultCode → Opcode → State → Prop} {R : Fault → Prop} {x : Refusal} :
    Ends P Q R (.refused x) := .inr (.inr (.inr ⟨x, rfl⟩))

theorem Ends.imp {P P' : State → Prop} {Q Q' : FaultCode → Opcode → State → Prop} {R R' : Fault → Prop} {r : Run}
    (h : Ends P Q R r) (hP : ∀ t, P t → P' t) (hQ : ∀ c op u, Q c op u → Q' c op u) (hR : ∀ f, R f → R' f) :
    Ends P' Q' R' r := by
  rcases h with ⟨t, he, h⟩ | ⟨c, op, u, he, h⟩ | ⟨f, he, h⟩ | h
  · exact .inl ⟨t, he, hP t h⟩
  · exact .inr (.inl ⟨c, op, u, he, hQ c op u h⟩)
  · exact .inr (.inr (.inl ⟨f, he, hR f h⟩))
  · exact .inr (.inr (.inr h))

theorem takeFault_andThen (c : FaultCode) (op : Opcode) (u : State) (k : State → Run) :
    (takeFault c op u).andThen k = takeFault c op u := by
  unfold takeFault; split <;> rfl

/-- Primitive after primitive. -/
theorem Ends.andThen {P P' : State → Prop} {Q : FaultCode → Opcode → State → Prop} {R : Fault → Prop} {r : Run}
    {k : State → Run} (h : Ends P Q R r) (hk : ∀ t, P t → Ends P' Q R (k t)) : Ends P' Q R (r.andThen k) := by
  rcases h with ⟨t, rfl, h⟩ | ⟨c, op, u, rfl, h⟩ | ⟨f, rfl, h⟩ | ⟨x, rfl⟩
  · exact hk t h
  · rw [takeFault_andThen]; exact .raised h
  · exact .stopped h
  · exact .refused

/-- What a next state of such a run is: its end, or the state fault entry leaves. -/
theorem Ends.next {P : State → Prop} {Q : FaultCode → Opcode → State → Prop} {R : Fault → Prop} {r : Run} {t : State}
    (h : Ends P Q R r) (ht : r.outcome = .next t) :
    P t ∨ ∃ c op u k, Q c op u ∧ u.snk = some k ∧ t = { u with
      err := if u.err = .none then c else u.err
      fop := if u.err = .none then op else u.fop
      snk := some (closeIfOpen k), runState := .fault, hdr := [] } := by
  rcases h with ⟨u, rfl, h⟩ | ⟨c, op, u, rfl, h⟩ | ⟨f, rfl, h⟩ | ⟨x, rfl⟩
  · injection ht with ht; exact .inl (ht ▸ h)
  · rcases outcome_next_iff.1 ht with ht | ht
    · exact absurd ht (takeFault_ne_done c op u t)
    · obtain ⟨k, hk, ht⟩ := takeFault_faulted ht
      exact .inr ⟨c, op, u, k, h, hk, ht⟩
  · cases ht
  · cases ht

/-- What a stop of such a run is. -/
theorem Ends.fault {P : State → Prop} {Q : FaultCode → Opcode → State → Prop} {R : Fault → Prop} {r : Run} {f : Fault}
    (h : Ends P Q R r) (hf : r.outcome = .fault f) : R f := by
  have hf := outcome_fault_iff.1 hf
  rcases h with ⟨u, rfl, h⟩ | ⟨c, op, u, rfl, h⟩ | ⟨g, rfl, h⟩ | ⟨x, rfl⟩
  · cases hf
  · exact absurd hf (takeFault_ne_stopped c op u f)
  · injection hf with hf; exact hf ▸ h
  · cases hf

/-! ## What happens to a source -/

/-- A source after reads: at its end and exhausted, or some of the bits left consumed. -/
def SrcLater (p p' : Src) : Prop := p' = srcAtEnd p ∨ ∃ n, n ≤ (bitsLeft p).length ∧ p' = srcAdvance n p

theorem SrcLater.refl (p : Src) : SrcLater p p := .inr ⟨0, Nat.zero_le _, by simp⟩

theorem SrcLater.trans {p q r : Src} (h : SrcLater p q) (h' : SrcLater q r) : SrcLater p r := by
  rcases h with rfl | ⟨n, hn, rfl⟩
  · rcases h' with rfl | ⟨m, hm, rfl⟩
    · exact .inl rfl
    · rw [bitsLeft_atEnd, List.length_nil, Nat.le_zero] at hm
      subst hm; exact .inl (by simp)
  · rcases h' with rfl | ⟨m, hm, rfl⟩
    · exact .inl (by simp)
    · rw [bitsLeft_advance, List.length_drop] at hm
      exact .inr ⟨n + m, by omega, srcAdvance_advance n m p⟩

theorem srcRead_later {w : Nat} (hw : 0 < w) (p : Src) : SrcLater p (srcRead w p).2 := by
  rcases srcRead_cases hw p with ⟨_, h⟩ | ⟨hl, h⟩ <;> rw [h]
  · exact .inl rfl
  · exact .inr ⟨w, hl, rfl⟩

theorem SrcLater.data {p q : Src} (h : SrcLater p q) : q.data = p.data := by
  rcases h with rfl | ⟨n, _, rfl⟩ <;> rfl

theorem SrcLater.rew {p q : Src} (h : SrcLater p q) : q.rew = p.rew := by
  rcases h with rfl | ⟨n, _, rfl⟩ <;> rfl

/-! ## COUNT -/

/-- A FREQ table as COUNT writes it: canonical, its counts below the limit. -/
structure FreqOk (limit : Nat) (f : Table Nat) : Prop where
  sorted  : tableSorted f = true
  entries : ∀ e ∈ f, e.2 ≠ 0 ∧ e.1 < Config.nsym ∧ e.2 < limit

theorem FreqOk.put {limit : Nat} {f : Table Nat} (h : FreqOk limit f) {j n : Nat} (hj : j < Config.nsym)
    (hn : n < limit) : FreqOk limit (freqPut f j n) := by
  refine ⟨tableSorted_freqPut h.sorted _ _, ?_⟩
  intro e he
  rcases mem_freqPut he with ⟨rfl, h0⟩ | he
  · exact ⟨h0, hj, hn⟩
  · exact h.entries e he

theorem countLoop_ok (limit : Nat) : ∀ (fuel : Nat) (p : Src) (freq : Table Nat), FreqOk limit freq →
    (∀ p' f, countLoop limit fuel p freq = .exhausted p' f → FreqOk limit f) ∧
    (∀ p' f, countLoop limit fuel p freq = .full p' f → FreqOk limit f)
  | 0, _, _, _ => ⟨fun _ _ h => (by cases h), fun _ _ h => (by cases h)⟩
  | fuel + 1, p, freq, h => by
    rw [countLoop]
    split
    · exact ⟨fun _ _ he => (by injection he with _ he; exact he ▸ h), fun _ _ he => (by cases he)⟩
    · rename_i v p' hr
      split
      · exact ⟨fun _ _ he => (by cases he), fun _ _ he => (by injection he with _ he; exact he ▸ h)⟩
      · refine countLoop_ok limit fuel p' _ (h.put ?_ (by omega))
        rcases srcRead_cases (w := 8) (by omega) p with ⟨_, h'⟩ | ⟨hl, h'⟩
        · rw [h'] at hr; cases hr
        · rw [h'] at hr
          injection hr with hr _
          injection hr with hr
          have := val_lt ((bitsLeft p).take 8)
          rw [List.length_take_of_le hl, hr] at this
          simp only [Config.nsym]; omega

theorem runCount_ends (s : State) :
    Ends (fun t => ∃ p p' f, s.src = some p ∧ SrcLater p p' ∧ FreqOk (Config.countLimit s.params) f ∧
        t = { s with src := some p', freq := f })
      (fun c op u => c = .capacityExceeded ∧ op = opcodeOf .count ∧ ∃ p p' f, s.src = some p ∧ SrcLater p p' ∧
        FreqOk (Config.countLimit s.params) f ∧ u = { s with src := some p', freq := f })
      (fun _ => False) (runCount s) := by
  unfold runCount
  rcases withSource_cases s _ with ⟨_, h⟩ | ⟨p, hp, h⟩ <;> rw [h]
  · exact .refused
  · have hok := countLoop_ok (Config.countLimit s.params) (p.data.length + 1) p [] ⟨rfl, by simp⟩
    rcases countLoop_cases (Config.countLimit s.params) (p.data.length + 1) p []
        (by have := bytesLeft_length_le p; omega) rfl with ⟨f, he, _⟩ | ⟨f, d, b, r, hd, he, _⟩
    · rw [he]
      refine .done ⟨p, srcAtEnd p, _, hp, .inl rfl, (hok.1 _ _ he).put (by decide) ?_, rfl⟩
      have := countLimit_ge s.params; omega
    · rw [he]
      refine .raised ⟨rfl, rfl, p, _, f, hp, .inr ⟨_, ?_, rfl⟩, hok.2 _ _ he, rfl⟩
      have hl := congrArg List.length hd
      rw [bytesLeft, bytesOf_length, List.length_append, List.length_cons] at hl
      omega

/-! ## BUILD -/

/-- An NT table as BUILD and RDHDR leave it: canonical, its indices inside NT. -/
structure NodesOk (nt : Table Node) : Prop where
  sorted : tableSorted nt = true
  keys   : ∀ e ∈ nt, e.1 < Config.nodeCap

theorem Forest.ok {nt : Table Node} {n : Nat} {active syms : List Nat} {total : Nat} {tree : Nat → HuffTree}
    {nodes : Nat → List Nat} (F : Forest nt n active syms total tree nodes) (hn : n ≤ 513) : NodesOk nt := by
  refine ⟨F.sorted, fun e he => ?_⟩
  by_contra hlt
  have := F.fresh e.1 (by simp only [Config.nodeCap] at hlt; omega)
  exact absurd this (tableGet_ne_none_of_mem he)

/-- What BUILD leaves on success. -/
structure BuiltTree (s : State) (nt : Table Node) (n root : NodeIdx) : Prop where
  ok     : NodesOk nt
  light  : Light s nt
  count  : n.toNat ≤ Config.nodeCap
  owned  : ∃ idx, nodesAt nt Config.maxLevels root = some idx ∧ idx.Perm (List.range n.toNat)

theorem runBuild_ends (s : State) :
    Ends (fun t => ∃ nt n root, BuiltTree s nt n root ∧ t = { startTree s with
        nt := nt, ncnt := n, root := root, tv := true, tsrc := false })
      (fun c op u => c = .capacityExceeded ∧ op = opcodeOf .build ∧ ∃ nt n, NodesOk nt ∧
        Light s nt ∧ n.toNat ≤ Config.nodeCap ∧ u = { startTree s with nt := nt, ncnt := n })
      (fun _ => False) (runBuild s) := by
  have hlen := leafSymbols_length s.freq
  rcases runBuild_cases s with ⟨_, nt, he, ⟨tree, nodes, F⟩, hl, _⟩ | ⟨_, nt, n, act, tree, nodes, he, h1, h2, F, hl, _⟩
  · have hroom := F.room
    rw [List.length_singleton] at hroom
    have hcnt : (BitVec.ofNat 10 (2 * (leafSymbols s.freq).length - 1)).toNat = 2 * (leafSymbols s.freq).length - 1 := by
      rw [BitVec.toNat_ofNat, Nat.mod_eq_of_lt (by omega)]
    rw [he]
    refine .done ⟨nt, _, _, ⟨F.ok (by omega), hl, ?_, ?_⟩, rfl⟩
    · rw [hcnt]; simp only [Config.nodeCap]; omega
    · refine ⟨_, F.idx _ (by simp), ?_⟩
      have := F.entries
      simp only [List.flatMap_cons, List.flatMap_nil, List.append_nil] at this
      rw [hcnt]; exact this
  · have hmod : (BitVec.ofNat 10 n).toNat = n := by rw [BitVec.toNat_ofNat, Nat.mod_eq_of_lt (by omega)]
    rw [he]
    exact .raised ⟨rfl, rfl, nt, _, F.ok (by omega), hl, by rw [hmod]; simp only [Config.nodeCap]; omega, rfl⟩

/-! ## GENCODES -/

/-- A walk that ends well walked a complete tree. -/
theorem walkCodes_tree {nt : Table Node} {n : Nat} {i : NodeIdx} {p : Bits} {ct ct' : Table Bits}
    (h : walkCodes nt n i p ct = .done ct') : ∃ t, treeAt nt n i = some t := by
  induction n generalizing i p ct ct' with
  | zero => simp [walkCodes] at h
  | succ n ih =>
    rw [walkCodes] at h
    split at h
    · cases h
    · rename_i hn; exact ⟨_, treeAt_leaf hn n⟩
    · rename_i l r w hn
      split at h
      · rename_i ct1 h1
        obtain ⟨a, ha⟩ := ih h1
        obtain ⟨b, hb⟩ := ih h
        exact ⟨_, treeAt_internal hn ha hb⟩
      · rename_i o hno
        exact absurd h (hno ct')

/-- The table of a walk. -/
def WalkEnd.table : WalkEnd → Table Bits
  | .done ct => ct
  | .corrupt ct => ct
  | .stopped _ => []

/-- What a walk records: symbols up to 256, paths below the node it started at. -/
theorem walkCodes_entries {nt : Table Node} {n : Nat} {i : NodeIdx} {p : Bits} {ct : Table Bits} :
    (tableSorted ct = true → tableSorted (walkCodes nt n i p ct).table = true) ∧
    ∀ e ∈ (walkCodes nt n i p ct).table, e ∈ ct ∨
      (e.1 < Config.nsym ∧ p.length ≤ e.2.length ∧ e.2.length < p.length + n) := by
  induction n generalizing i p ct with
  | zero => exact ⟨fun _ => rfl, fun e he => by simp [walkCodes, WalkEnd.table] at he⟩
  | succ n ih =>
    rw [walkCodes]
    split
    · exact ⟨fun _ => rfl, fun e he => by simp [WalkEnd.table] at he⟩
    · rename_i s w hn
      split
      · exact ⟨fun h => h, fun e he => .inl he⟩
      · rename_i hc
        simp only [not_or, Nat.not_lt] at hc
        refine ⟨fun h => tableSorted_put h _ _, fun e he => ?_⟩
        rcases mem_tablePut he with rfl | he
        · refine .inr ⟨?_, Nat.le_refl _, by simp only; omega⟩
          have := hc.1
          simp only [Config.nsym, Config.eos] at this ⊢; omega
        · exact .inl he
    · rename_i l r w hn
      have hl := @ih l (p ++ [false]) ct
      split
      · rename_i ct1 h1
        rw [h1] at hl
        have hr := @ih r (p ++ [true]) ct1
        refine ⟨fun h => hr.1 (hl.1 h), fun e he => ?_⟩
        simp only [List.length_append, List.length_singleton] at hl hr
        rcases hr.2 e he with he | ⟨h1, h2, h3⟩
        · rcases hl.2 e he with he | ⟨h1, h2, h3⟩
          · exact .inl he
          · exact .inr ⟨h1, by omega, by omega⟩
        · exact .inr ⟨h1, by omega, by omega⟩
      · refine ⟨hl.1, fun e he => ?_⟩
        simp only [List.length_append, List.length_singleton] at hl
        rcases hl.2 e he with he | ⟨h1, h2, h3⟩
        · exact .inl he
        · exact .inr ⟨h1, by omega, by omega⟩

/-- A CT table as GENCODES leaves it: canonical, symbols up to 256, codes of 1 to 256 bits. -/
structure CodesOk (ct : Table Bits) : Prop where
  sorted  : tableSorted ct = true
  entries : ∀ e ∈ ct, e.1 < Config.nsym ∧ 0 < e.2.length ∧ e.2.length ≤ 256

theorem CodesOk.nil : CodesOk [] := ⟨rfl, by simp⟩

/-- From an internal node every recorded path has a bit (R160). -/
theorem walkCodes_ok {nt : Table Node} {i l r : NodeIdx} {w : Nat} (hn : nodeAt nt i = some (.internal l r w)) :
    CodesOk (walkCodes nt Config.maxLevels i [] []).table := by
  refine ⟨walkCodes_entries.1 rfl, fun e he => ?_⟩
  rw [show Config.maxLevels = 256 + 1 from rfl, walkCodes, hn] at he
  simp only [List.nil_append] at he
  have hl := @walkCodes_entries nt 256 l [false] []
  split at he
  · rename_i ct1 h1
    rw [h1] at hl
    have hr := @walkCodes_entries nt 256 r [true] ct1
    simp only [List.length_singleton] at hl hr
    rcases hr.2 e he with he | ⟨h1, h2, h3⟩
    · rcases hl.2 e he with he | ⟨h1, h2, h3⟩
      · simp at he
      · exact ⟨h1, by omega, by omega⟩
    · exact ⟨h1, by omega, by omega⟩
  · simp only [List.length_singleton] at hl
    rcases hl.2 e he with he | ⟨h1, h2, h3⟩
    · simp at he
    · exact ⟨h1, by omega, by omega⟩

theorem runGencodes_ends (s : State) :
    Ends (fun t => ∃ ct a b, CodesOk ct ∧ rootTree s = some (.node a b) ∧ (HuffTree.node a b).symbols.Nodup ∧
        (∀ sym, tableGet ct sym = (HuffTree.node a b).codeOf sym) ∧ t = { s with cv := true, ct := ct })
      (fun c op u => c = .decodeCorrupt ∧ op = opcodeOf .gencodes ∧ ∃ ct, CodesOk ct ∧ u = { s with cv := false, ct := ct })
      (fun _ => rootTree s = none) (runGencodes s) := by
  unfold runGencodes
  split
  · rename_i hn
    refine .stopped ?_
    rw [rootTree, show Config.maxLevels = 256 + 1 from rfl, treeAt, hn]
  · exact .raised ⟨rfl, rfl, [], .nil, rfl⟩
  · rename_i l r w hn
    have hok := walkCodes_ok hn
    cases hw : walkCodes s.nt Config.maxLevels s.root [] [] with
    | done ct =>
      rw [hw] at hok
      obtain ⟨t, ht⟩ := walkCodes_tree hw
      rw [walkCodes_eq ht] at hw
      obtain ⟨hd, hle, hnone⟩ := recordCodes_done hw
      obtain ⟨ct', he, hg⟩ := recordCodes_distinct hd hle hnone
      rw [he] at hw
      injection hw with hw
      subst hw
      obtain ⟨m, hm, h | h⟩ := treeAt_cases ht
      · obtain ⟨_, _, hn', _⟩ := h; rw [hn] at hn'; cases hn'
      · obtain ⟨_, _, _, a, b, _, _, _, rfl⟩ := h
        refine .done ⟨ct', a, b, hok, ht, ?_, ?_, rfl⟩
        · rw [← HuffTree.codesFrom_symbols _ []]; exact hd
        · intro sym
          rw [hg sym, HuffTree.codeOf]
          cases tableGet ((HuffTree.node a b).codesFrom []) sym <;> rfl
    | corrupt ct => rw [hw] at hok; exact .raised ⟨rfl, rfl, ct, hok, rfl⟩
    | stopped f =>
      refine .stopped ?_
      cases ht : rootTree s with
      | none => rfl
      | some t =>
        rw [walkCodes_eq ht] at hw
        exact absurd hw (recordCodes_ne_stopped _ _ _)

/-! ## WRMAGIC, WRHDR, REWIND, CLOSE, RDMAGIC -/

theorem runWrmagic_ends (s : State) :
    Ends (fun t => ∃ c k, s.snk = some k ∧ k.closed = false ∧ t = { s with snk := some (snkAppend c k) })
      (fun _ _ _ => False) (fun _ => False) (runWrmagic s) := by
  unfold runWrmagic
  rcases withSink_cases s (fun k => .done { s with snk := some (snkWrite 32 s.params.magic.toNat k) }) with
    ⟨r, h⟩ | ⟨k, hk, hc, h⟩ <;> rw [h]
  · exact .refused
  · exact .done ⟨_, k, hk, hc, by rw [snkWrite_eq]⟩

theorem emitHeader_ends {nt : Table Node} {n : Nat} {i : NodeIdx} {k : Snk} :
    (∃ t, treeAt nt n i = some t ∧ emitHeader nt n i k = .ok (snkAppend t.header k)) ∨
    (treeAt nt n i = none ∧ ∃ f, emitHeader nt n i k = .error f) := by
  cases ht : treeAt nt n i with
  | some t => exact .inl ⟨t, rfl, emitHeader_eq ht k⟩
  | none =>
    refine .inr ⟨rfl, ?_⟩
    induction n generalizing i k with
    | zero => exact ⟨_, rfl⟩
    | succ n ih =>
      rw [emitHeader]
      split
      · exact ⟨_, rfl⟩
      · rename_i hn; rw [treeAt_leaf hn] at ht; cases ht
      · rename_i l r w hn
        cases hl : treeAt nt n l with
        | none =>
          obtain ⟨f, hf⟩ := ih (k := snkWrite 1 0 k) hl
          rw [hf]; exact ⟨_, rfl⟩
        | some a =>
          rw [emitHeader_eq hl]
          cases hr : treeAt nt n r with
          | none => exact ih hr
          | some b => rw [treeAt_internal hn hl hr] at ht; cases ht

theorem runWrhdr_ends (s : State) :
    Ends (fun t => ∃ c k, s.snk = some k ∧ k.closed = false ∧ t = { s with snk := some (snkAppend c k) })
      (fun _ _ _ => False) (fun _ => rootTree s = none) (runWrhdr s) := by
  unfold runWrhdr
  rcases withSink_cases s _ with ⟨r, h⟩ | ⟨k, hk, hc, h⟩ <;> rw [h]
  · exact .refused
  · rcases @emitHeader_ends s.nt Config.maxLevels s.root k with ⟨t, _, he⟩ | ⟨ht, f, he⟩ <;> rw [he]
    · exact .done ⟨_, k, hk, hc, rfl⟩
    · exact .stopped ht

theorem runRewind_ends (s : State) :
    Ends (fun t => ∃ p, s.src = some p ∧ t = { s with src := some (srcRewind p) }) (fun _ _ _ => False)
      (fun _ => False) (runRewind s) := by
  unfold runRewind
  rcases withSource_cases s (fun p => .done { s with src := some (srcRewind p) }) with ⟨_, h⟩ | ⟨p, hp, h⟩ <;> rw [h]
  · exact .refused
  · exact .done ⟨p, hp, rfl⟩

theorem runClose_ends (s : State) :
    Ends (fun t => ∃ k, s.snk = some k ∧ k.closed = false ∧ t = { s with snk := some (snkClose k) }) (fun _ _ _ => False)
      (fun _ => False) (runClose s) := by
  unfold runClose
  rcases withSink_cases s (fun k => .done { s with snk := some (snkClose k) }) with ⟨r, h⟩ | ⟨k, hk, hc, h⟩ <;> rw [h]
  · exact .refused
  · exact .done ⟨k, hk, hc, rfl⟩

theorem runRdmagic_ends (s : State) :
    Ends (fun t => ∃ p p', s.src = some p ∧ SrcLater p p' ∧ t = { s with src := some p' })
      (fun c op u => c = .formatError ∧ op = opcodeOf .rdmagic ∧ ∃ p p', s.src = some p ∧ SrcLater p p' ∧
        u = { s with src := some p' })
      (fun _ => False) (runRdmagic s) := by
  unfold runRdmagic
  rcases withSource_cases s _ with ⟨_, h⟩ | ⟨p, hp, h⟩ <;> rw [h]
  · exact .refused
  · have hl := srcRead_later (w := 32) (by omega) p
    split
    · rename_i p' hr; rw [hr] at hl; exact .raised ⟨rfl, rfl, p, p', hp, hl, rfl⟩
    · rename_i v p' hr
      rw [hr] at hl
      split
      · exact .done ⟨p, p', hp, hl, rfl⟩
      · exact .raised ⟨rfl, rfl, p, p', hp, hl, rfl⟩

/-! ## ENCODE and DECODE -/

theorem bytes_room {p : Src} {d rest : List Byte} {b : Byte} (h : bytesLeft p = d ++ b :: rest) :
    8 * (d.length + 1) ≤ (bitsLeft p).length := by
  have hl := congrArg List.length h
  rw [bytesLeft, bytesOf_length, List.length_append, List.length_cons] at hl
  omega

theorem runEncode_ends (s : State) :
    Ends (fun t => ∃ p p' c k, s.src = some p ∧ SrcLater p p' ∧ s.snk = some k ∧ k.closed = false ∧
        t = { s with src := some p', snk := some (snkAppend c k) })
      (fun c op u => c = .codeMissing ∧ op = opcodeOf .encode ∧ ∃ p p' d k, s.src = some p ∧ SrcLater p p' ∧
        s.snk = some k ∧ k.closed = false ∧ u = { s with src := some p', snk := some (snkAppend d k) })
      (fun _ => False) (runEncode s) := by
  unfold runEncode
  rcases withSink_cases s _ with ⟨r, h⟩ | ⟨k, hk, hc, h⟩ <;> rw [h]
  · exact .refused
  · rcases withSource_cases s _ with ⟨_, h⟩ | ⟨p, hp, h⟩ <;> rw [h]
    · exact .refused
    · rcases encodeLoop_cases s.ct (p.data.length + 1) p k (by have := bytesLeft_length_le p; omega) with
        ⟨cs, _, he⟩ | ⟨d, b, rest, cs, hd, _, _, he⟩
      · rw [he]
        simp only
        split
        · exact .raised ⟨rfl, rfl, p, _, cs, k, hp, .inl rfl, hk, hc, rfl⟩
        · rename_i c hce
          exact .done ⟨p, _, cs ++ c, k, hp, .inl rfl, hk, hc, by rw [putCode_eq, snkAppend_snkAppend]⟩
      · rw [he]
        exact .raised ⟨rfl, rfl, p, _, cs, k, hp, .inr ⟨_, bytes_room hd, rfl⟩, hk, hc, rfl⟩

/-- What DECODE's loop does to the ports, over any table. -/
theorem decodeLoop_ports {nt : Table Node} {root : NodeIdx} : ∀ (fuel : Nat) (p : Src) (k : Snk) (cur : NodeIdx),
    (∃ p' d c, SrcLater p p' ∧ decodeLoop nt root fuel p k cur = .eof p' (snkAppend d k) c) ∨
    (∃ p' d c, SrcLater p p' ∧ decodeLoop nt root fuel p k cur = .badInput p' (snkAppend d k) c) ∨
    (∃ p' d c dst, SrcLater p p' ∧ decodeLoop nt root fuel p k cur = .corrupt p' (snkAppend d k) c dst) ∨
    (∃ f, decodeLoop nt root fuel p k cur = .stopped f)
  | 0, p, k, cur => .inr (.inr (.inr ⟨_, rfl⟩))
  | fuel + 1, p, k, cur => by
    have hl := srcRead_later (w := 1) (by omega) p
    rw [decodeLoop]
    split
    · rename_i p' hr; rw [hr] at hl
      exact .inr (.inl ⟨p', [], cur, hl, by simp⟩)
    · rename_i b p' hr; rw [hr] at hl
      split
      · exact .inr (.inr (.inr ⟨_, rfl⟩))
      · exact .inr (.inr (.inl ⟨p', [], cur, .walking, hl, by rw [snkAppend_nil]⟩))
      · rename_i l r w _
        simp only
        split
        · exact .inr (.inr (.inr ⟨_, rfl⟩))
        · rcases decodeLoop_ports fuel p' k (if b = 0 then l else r) with
            ⟨q, d, c, hq, he⟩ | ⟨q, d, c, hq, he⟩ | ⟨q, d, c, dst, hq, he⟩ | ⟨f, he⟩ <;> rw [he]
          · exact .inl ⟨q, d, c, hl.trans hq, rfl⟩
          · exact .inr (.inl ⟨q, d, c, hl.trans hq, rfl⟩)
          · exact .inr (.inr (.inl ⟨q, d, c, dst, hl.trans hq, rfl⟩))
          · exact .inr (.inr (.inr ⟨f, rfl⟩))
        · rename_i sym w' _
          split
          · exact .inl ⟨p', [], (if b = 0 then l else r), hl, by rw [snkAppend_nil]⟩
          · split
            · exact .inr (.inr (.inl ⟨p', [], (if b = 0 then l else r), .atLeafSym, hl, by rw [snkAppend_nil]⟩))
            · rcases decodeLoop_ports fuel p' (snkWrite 8 sym.toNat k) root with
                ⟨q, d, c, hq, he⟩ | ⟨q, d, c, hq, he⟩ | ⟨q, d, c, dst, hq, he⟩ | ⟨f, he⟩ <;>
                rw [he] <;> (try rw [snkWrite_eq, snkAppend_snkAppend])
              · exact .inl ⟨q, _, c, hl.trans hq, rfl⟩
              · exact .inr (.inl ⟨q, _, c, hl.trans hq, rfl⟩)
              · exact .inr (.inr (.inl ⟨q, _, c, dst, hl.trans hq, rfl⟩))
              · exact .inr (.inr (.inr ⟨f, rfl⟩))

/-- With a root that is a leaf, DECODE's loop ends at its first read or move (R203, R207). -/
theorem decodeLoop_leafRoot {nt : Table Node} {root : NodeIdx} {sym : Sym} {w : Nat}
    (hn : nodeAt nt root = some (.leaf sym w)) (fuel : Nat) (p : Src) (k : Snk) :
    (bitsLeft p = [] ∧ decodeLoop nt root (fuel + 1) p k root = .badInput (srcAtEnd p) k root) ∨
    (bitsLeft p ≠ [] ∧ decodeLoop nt root (fuel + 1) p k root = .corrupt (srcAdvance 1 p) k root .walking) := by
  cases hb : bitsLeft p with
  | nil => exact .inl ⟨rfl, by rw [decodeLoop, srcRead_bit_none hb]⟩
  | cons b c => exact .inr ⟨by simp, by rw [decodeLoop, (srcRead_bit hb).1]; simp only [hn]⟩

/-- Over a complete tree DECODE's loop never stops. -/
theorem decodeLoop_not_stopped {nt : Table Node} {root : NodeIdx} {n : Nat} {t : HuffTree}
    (ht : treeAt nt n root = some t) {fuel : Nat} {p : Src} {k : Snk} (hf : (bitsLeft p).length < fuel) (f : Fault) :
    decodeLoop nt root fuel p k root ≠ .stopped f := by
  obtain ⟨m, rfl, h | h⟩ := treeAt_cases ht
  · obtain ⟨s, w, hn, rfl⟩ := h
    obtain ⟨fu, rfl⟩ : ∃ g, fuel = g + 1 := ⟨fuel - 1, by omega⟩
    rcases decodeLoop_leafRoot hn fu p k with ⟨_, he⟩ | ⟨_, he⟩ <;> rw [he] <;> simp
  · obtain ⟨l, r, w, a, b, _, _, _, rfl⟩ := h
    obtain ⟨cs, c, rest, at', _, _, _, h⟩ := decodeLoop_cases ht _ k fuel (Nat.le_refl _) hf
    rcases h with ⟨_, he⟩ | ⟨_, he⟩ | ⟨_, _, he⟩ <;> rw [he] <;> simp

theorem runDecode_ends (s : State) :
    Ends (fun t => ∃ p p' d k c, s.src = some p ∧ SrcLater p p' ∧ s.snk = some k ∧ k.closed = false ∧
        t = { s with src := some p', snk := some (snkAppend d k), cur := c, dst := .atLeafEof })
      (fun e op u => (e = .badInput ∨ e = .decodeCorrupt) ∧ op = opcodeOf .decode ∧ ∃ p p' d k c dst, s.src = some p ∧
        SrcLater p p' ∧ s.snk = some k ∧ k.closed = false ∧
        u = { s with src := some p', snk := some (snkAppend d k), cur := c, dst := dst })
      (fun _ => rootTree s = none) (runDecode s) := by
  unfold runDecode
  rcases withSink_cases s _ with ⟨r, h⟩ | ⟨k, hk, hc, h⟩ <;> rw [h]
  · exact .refused
  · rcases withSource_cases s _ with ⟨_, h⟩ | ⟨p, hp, h⟩ <;> rw [h]
    · exact .refused
    · rcases decodeLoop_ports (nt := s.nt) (root := s.root) (8 * p.data.length + 1) p k s.root with
        ⟨p', d, c, hl, he⟩ | ⟨p', d, c, hl, he⟩ | ⟨p', d, c, dst, hl, he⟩ | ⟨f, he⟩ <;> rw [he]
      · exact .done ⟨p, p', d, k, c, hp, hl, hk, hc, rfl⟩
      · exact .raised ⟨.inl rfl, rfl, p, p', d, k, c, _, hp, hl, hk, hc, rfl⟩
      · exact .raised ⟨.inr rfl, rfl, p, p', d, k, c, dst, hp, hl, hk, hc, rfl⟩
      · refine .stopped ?_
        cases ht : rootTree s with
        | none => rfl
        | some t =>
          exact absurd he (decodeLoop_not_stopped ht (by have := bitsLeft_length_le p; omega) f)

/-! ## RDHDR and the header tokens -/

/-- The state while a header is being read: NT holds nodes of weight 0 below its capacity, the open nodes too. -/
structure HeaderOk (s : State) : Prop where
  nodes  : NodesOk s.nt
  zero   : ∀ e ∈ s.nt, nodeWeight e.2 = 0
  count  : s.ncnt.toNat ≤ Config.nodeCap
  frames : ∀ f ∈ s.hdr, f.node.toNat < Config.nodeCap

theorem NodesOk.put {nt : Table Node} (h : NodesOk nt) {i : Nat} (hi : i < Config.nodeCap) (x : Node) :
    NodesOk (tablePut nt i x) := by
  refine ⟨tableSorted_put h.sorted _ _, fun e he => ?_⟩
  rcases mem_tablePut he with rfl | he
  · exact hi
  · exact h.keys e he

/-- Completing open nodes writes nodes only, at their own indices. -/
theorem closeNodes_keeps {P : Table Node → Prop} :
    ∀ (opn : List HdrFrame) (i : NodeIdx) (nt : Table Node), P nt →
    (∀ nt j l r, (∃ f ∈ opn, f.node = j) → P nt → P (tablePut nt j.toNat (.internal l r 0))) →
    P (closeNodes i opn nt).1
  | [], _, _, h, _ => h
  | ⟨j, none⟩ :: opn, i, nt, h, _ => h
  | ⟨j, some l⟩ :: opn, i, nt, h, hP => by
    rw [closeNodes]
    exact closeNodes_keeps opn j _ (hP nt j l i ⟨_, List.mem_cons_self, rfl⟩ h)
      fun nt j l r ⟨f, hf, he⟩ => hP nt j l r ⟨f, List.mem_cons_of_mem _ hf, he⟩

/-- The nodes left open were open before. -/
theorem closeNodes_frames : ∀ (opn : List HdrFrame) (i : NodeIdx) (nt : Table Node),
    ∀ f ∈ (closeNodes i opn nt).2.1, ∃ g ∈ opn, g.node = f.node
  | [], _, _, f, hf => by simp [closeNodes] at hf
  | ⟨j, none⟩ :: opn, i, nt, f, hf => by
    rw [closeNodes] at hf
    rcases List.mem_cons.1 hf with rfl | hf
    · exact ⟨_, List.mem_cons_self, rfl⟩
    · exact ⟨f, List.mem_cons_of_mem _ hf, rfl⟩
  | ⟨j, some l⟩ :: opn, i, nt, f, hf => by
    rw [closeNodes] at hf
    obtain ⟨g, hg, he⟩ := closeNodes_frames opn j _ f hf
    exact ⟨g, List.mem_cons_of_mem _ hg, he⟩

theorem runHdrInternal_busy {s : State} (hs : s.runState = .busy) :
    (s.ncnt.toNat = Config.nodeCap ∧ runHdrInternal s = takeFault .treeOverflow (opcodeOf .rdhdr) s) ∨
    (s.ncnt.toNat ≠ Config.nodeCap ∧
      runHdrInternal s = .done { s with ncnt := s.ncnt + 1, hdr := ⟨s.ncnt, none⟩ :: s.hdr }) := by
  unfold runHdrInternal
  rw [hs]
  by_cases h : s.ncnt.toNat = Config.nodeCap
  · exact .inl ⟨h, by simp only [if_pos h]⟩
  · exact .inr ⟨h, by simp only [if_neg h]⟩

/-- Everything a LEAF token can do while a header is open. -/
theorem runHdrLeaf_busy {s : State} (hs : s.runState = .busy) (sym : Nat) :
    (s.ncnt.toNat = Config.nodeCap ∧ runHdrLeaf sym s = takeFault .treeOverflow (opcodeOf .rdhdr) s) ∨
    (s.ncnt.toNat ≠ Config.nodeCap ∧ ∃ w, w =
        closeNodes s.ncnt s.hdr (tablePut s.nt s.ncnt.toNat (.leaf (BitVec.ofNat 9 sym) 0)) ∧
      ((w.2.2 = none ∧ runHdrLeaf sym s = .done { s with ncnt := s.ncnt + 1, nt := w.1, hdr := w.2.1 }) ∨
       (∃ r, w.2.2 = some r ∧ runHdrLeaf sym s = .done { s with
          ncnt := s.ncnt + 1, nt := w.1, hdr := [], root := r, tv := true, tsrc := true, runState := .idle }))) := by
  unfold runHdrLeaf
  rw [hs]
  by_cases h : s.ncnt.toNat = Config.nodeCap
  · exact .inl ⟨h, by simp only [if_pos h]⟩
  · refine .inr ⟨h, _, rfl, ?_⟩
    simp only [if_neg h]
    rcases hw : closeNodes s.ncnt s.hdr (tablePut s.nt s.ncnt.toNat (.leaf (BitVec.ofNat 9 sym) 0)) with ⟨nt, opn, r⟩
    cases r with
    | none => exact .inl ⟨rfl, rfl⟩
    | some r => exact .inr ⟨r, rfl, rfl⟩

theorem HeaderOk.next {s : State} (h : HeaderOk s) (hn : s.ncnt.toNat ≠ Config.nodeCap) :
    (s.ncnt + 1).toNat ≤ Config.nodeCap ∧ s.ncnt.toNat < Config.nodeCap := by
  have := h.count
  have hlt : s.ncnt.toNat < Config.nodeCap := by omega
  refine ⟨?_, hlt⟩
  simp only [Config.nodeCap] at hlt ⊢
  rw [toNat_add_one (by omega)]; omega

theorem HeaderOk.closed {s : State} (h : HeaderOk s) (hn : s.ncnt.toNat ≠ Config.nodeCap) (sym : Nat) :
    NodesOk (closeNodes s.ncnt s.hdr (tablePut s.nt s.ncnt.toNat (.leaf (BitVec.ofNat 9 sym) 0))).1 ∧
    (∀ e ∈ (closeNodes s.ncnt s.hdr (tablePut s.nt s.ncnt.toNat (.leaf (BitVec.ofNat 9 sym) 0))).1,
      nodeWeight e.2 = 0) := by
  have hlt := (h.next hn).2
  refine ⟨closeNodes_keeps (P := NodesOk) _ _ _ (h.nodes.put hlt _) ?_,
    closeNodes_keeps (P := fun nt => ∀ e ∈ nt, nodeWeight e.2 = 0) _ _ _ ?_ ?_⟩
  · rintro nt j l r ⟨f, hf, rfl⟩ hP; exact hP.put (h.frames f hf) _
  · intro e he
    rcases mem_tablePut he with rfl | he
    · rfl
    · exact h.zero e he
  · rintro nt j l r _ hP e he
    rcases mem_tablePut he with rfl | he
    · rfl
    · exact hP e he

theorem fetchToken_src {s : State} :
    (∃ r, fetchToken s = .settled r) ∨ (∃ p', fetchToken s = .internal { s with src := some p' }) ∨
    (∃ v p', fetchToken s = .leaf v { s with src := some p' }) := by
  unfold fetchToken
  split
  · exact .inl ⟨_, rfl⟩
  · split
    · exact .inl ⟨_, rfl⟩
    · split
      · exact .inl ⟨_, rfl⟩
      · split
        · split
          · exact .inl ⟨_, rfl⟩
          · exact .inr (.inr ⟨_, _, rfl⟩)
        · exact .inr (.inl ⟨_, rfl⟩)

theorem fetchToken_settled {s : State} {r : Run} (h : fetchToken s = .settled r) :
    r = .refused .sourceNotAttached ∨
    (∃ p p', s.src = some p ∧ SrcLater p p' ∧
      (r = takeFault .streamCorrupt (opcodeOf .rdhdr) { s with src := some p' } ∨
       (s.ncnt.toNat = Config.nodeCap ∧ r = takeFault .treeOverflow (opcodeOf .rdhdr) { s with src := some p' }) ∨
       (s.ncnt.toNat ≠ Config.nodeCap ∧
        r = takeFault .streamCorrupt (opcodeOf .rdhdr) { s with src := some p', ncnt := s.ncnt + 1 }))) := by
  unfold fetchToken at h
  split at h
  · injection h with h; exact .inl h.symm
  · rename_i p hp
    have hl := srcRead_later (w := 1) (by omega) p
    split at h
    · rename_i p' hr; rw [hr] at hl
      injection h with h; exact .inr ⟨p, p', hp, hl, .inl h.symm⟩
    · rename_i t p' hr; rw [hr] at hl
      split at h
      · rename_i hn; injection h with h; exact .inr ⟨p, p', hp, hl, .inr (.inl ⟨hn, h.symm⟩)⟩
      · rename_i hn
        split at h
        · have hl2 := srcRead_later (w := 9) (by omega) p'
          split at h
          · rename_i p'' hr2; rw [hr2] at hl2
            injection h with h; exact .inr ⟨p, p'', hp, hl.trans hl2, .inr (.inr ⟨hn, h.symm⟩)⟩
          · cases h
        · cases h

/-- A token fetched leaves the source later. -/
theorem fetchToken_later {s : State} {p' : Src} (h : fetchToken s = .internal { s with src := some p' } ∨
    ∃ v, fetchToken s = .leaf v { s with src := some p' }) : ∃ p, s.src = some p ∧ SrcLater p p' := by
  unfold fetchToken at h
  split at h
  · rcases h with h | ⟨_, h⟩ <;> cases h
  · rename_i p hp
    refine ⟨p, hp, ?_⟩
    have hl := srcRead_later (w := 1) (by omega) p
    split at h
    · rcases h with h | ⟨_, h⟩ <;> cases h
    · rename_i t q hr; rw [hr] at hl
      split at h
      · rcases h with h | ⟨_, h⟩ <;> cases h
      · split at h
        · have hl2 := srcRead_later (w := 9) (by omega) q
          split at h
          · rcases h with h | ⟨_, h⟩ <;> cases h
          · rename_i v q' hr2; rw [hr2] at hl2
            rcases h with h | ⟨_, h⟩
            · cases h
            · injection h with _ h
              have := congrArg State.src h
              simp only [Option.some.injEq] at this
              exact this ▸ hl.trans hl2
        · rcases h with h | ⟨_, h⟩
          · injection h with h
            have := congrArg State.src h
            simp only [Option.some.injEq] at this
            exact this ▸ hl
          · cases h

theorem headerLoop_ok : ∀ (fuel : Nat) {s : State}, HeaderOk s → s.runState = .busy →
    Ends (fun t => HeaderOk t) (fun _ _ u => HeaderOk u) (fun _ => True) (headerLoop fuel s)
  | 0, s, _, _ => .stopped trivial
  | fuel + 1, s, h, hs => by
    rw [headerLoop]
    have hsrc : ∀ p', HeaderOk { s with src := some p' } := fun p' => ⟨h.nodes, h.zero, h.count, h.frames⟩
    have go : ∀ r : Run, Ends (fun t => HeaderOk t) (fun _ _ u => HeaderOk u) (fun _ => True) r →
        Ends (fun t => HeaderOk t) (fun _ _ u => HeaderOk u) (fun _ => True)
          (r.andThen fun t => if t.runState = .busy then headerLoop fuel t else .done t) := by
      intro r hr
      refine hr.andThen fun t ht => ?_
      split
      · exact headerLoop_ok fuel ht ‹_›
      · exact .done ht
    rcases fetchToken_src (s := s) with ⟨r, he⟩ | ⟨p', he⟩ | ⟨v, p', he⟩
    · rw [he]
      rcases fetchToken_settled he with rfl | ⟨p, p', _, _, rfl | ⟨_, rfl⟩ | ⟨hn, rfl⟩⟩
      · exact .refused
      · exact .raised (hsrc p')
      · exact .raised (hsrc p')
      · exact .raised ⟨h.nodes, h.zero, (h.next hn).1, h.frames⟩
    · rw [he]
      refine go _ ?_
      rcases runHdrInternal_busy (s := { s with src := some p' }) hs with ⟨_, he⟩ | ⟨hn, he⟩ <;> rw [he]
      · exact .raised (hsrc p')
      · refine .done ⟨h.nodes, h.zero, (h.next hn).1, ?_⟩
        intro f hf
        rcases List.mem_cons.1 hf with rfl | hf
        · exact (h.next hn).2
        · exact h.frames f hf
    · rw [he]
      refine go _ ?_
      rcases runHdrLeaf_busy (s := { s with src := some p' }) hs v with
        ⟨_, he⟩ | ⟨hn, w, hw, ⟨_, he⟩ | ⟨r, _, he⟩⟩ <;> rw [he]
      · exact .raised (hsrc p')
      · obtain ⟨hc1, hc2⟩ := (hsrc p').closed hn v
        rw [← hw] at hc1 hc2
        refine .done ⟨hc1, hc2, (h.next hn).1, ?_⟩
        intro f hf
        rw [hw] at hf
        obtain ⟨g, hg, hgf⟩ := closeNodes_frames _ _ _ f hf
        rw [← hgf]; exact h.frames g hg
      · obtain ⟨hc1, hc2⟩ := (hsrc p').closed hn v
        rw [← hw] at hc1 hc2
        exact .done ⟨hc1, hc2, (h.next hn).1, by simp⟩

theorem placeTree_ok (t : HuffTree) : ∀ (i : Nat) (nt : Table Node), NodesOk nt → (∀ e ∈ nt, nodeWeight e.2 = 0) →
    i + t.size ≤ Config.nodeCap → NodesOk (placeTree t i nt) ∧ ∀ e ∈ placeTree t i nt, nodeWeight e.2 = 0 := by
  have put : ∀ {nt : Table Node} {i : Nat} {x : Node}, NodesOk nt ∧ (∀ e ∈ nt, nodeWeight e.2 = 0) →
      i < Config.nodeCap → nodeWeight x = 0 →
      NodesOk (tablePut nt i x) ∧ ∀ e ∈ tablePut nt i x, nodeWeight e.2 = 0 := by
    intro nt i x h hi hx
    refine ⟨h.1.put hi x, fun e he => ?_⟩
    rcases mem_tablePut he with rfl | he
    · exact hx
    · exact h.2 e he
  induction t with
  | leaf s => intro i nt h1 h2 hi; simp only [HuffTree.size] at hi; exact put ⟨h1, h2⟩ (by omega) rfl
  | node l r ihl ihr =>
    intro i nt h1 h2 hi
    simp only [HuffTree.size] at hi
    obtain ⟨a1, a2⟩ := ihl (i + 1) nt h1 h2 (by omega)
    exact put (ihr (i + 1 + l.size) _ a1 a2 (by omega)) (by omega) rfl

/-- What RDHDR leaves on success: the tree whose header stood there. -/
theorem runRdhdr_ends (s : State) :
    Ends (fun t => ∃ p tree rest, s.src = some p ∧ bitsLeft p = HuffTree.header tree ++ rest ∧
        tree.size ≤ Config.nodeCap ∧ t = { s with
          src := some (srcAdvance tree.header.length p), nt := placeTree tree 0 [],
          ncnt := BitVec.ofNat 10 tree.size, root := 0, tv := true, cv := false, tsrc := true, runState := .idle,
          hdr := [] })
      (fun c op u => (c = .streamCorrupt ∨ c = .treeOverflow) ∧ op = opcodeOf .rdhdr ∧ ∃ p p' nt n hdr, s.src = some p ∧
        SrcLater p p' ∧ NodesOk nt ∧ (∀ e ∈ nt, nodeWeight e.2 = 0) ∧ n.toNat ≤ Config.nodeCap ∧
        u = { openHeader s with src := some p', nt := nt, ncnt := n, hdr := hdr })
      (fun _ => False) (runRdhdr s) := by
  cases hp : s.src with
  | none =>
    have : runRdhdr s = .refused .sourceNotAttached := by
      unfold runRdhdr
      rw [headerLoop]
      simp [fetchToken, openHeader, startTree, hp]
    rw [this]; exact .refused
  | some p =>
    rcases runRdhdr_cases hp with ⟨t, rest, hb, hsz⟩ | ⟨c, u, hr, hu, h1, h2, h3⟩
    · rw [runRdhdr_tree hp hb hsz]
      exact .done ⟨p, t, rest, rfl, hb, hsz, rfl⟩
    · have hok := headerLoop_ok (Config.nodeCap + 1) (s := openHeader s)
        ⟨⟨rfl, by simp⟩, by simp, by simp, by simp⟩ rfl
      change Ends _ _ _ (runRdhdr s) at hok
      have hsnk : u.snk = s.snk := by rw [hu]; rfl
      rcases takeFault_cases c (opcodeOf .rdhdr) u with ⟨_, he⟩ | ⟨k, hk, he⟩
      · rw [hr, he]; exact .refused
      · have hnt : NodesOk u.nt ∧ ∀ e ∈ u.nt, nodeWeight e.2 = 0 := by
          rw [hr] at hok
          rcases hok with ⟨t, ht, _⟩ | ⟨c', op', v, hv, hv2⟩ | ⟨f, hf, _⟩ | ⟨x, hx⟩
          · exact absurd ht (takeFault_ne_done _ _ _ _)
          · rw [he] at hv
            obtain ⟨k', _, hv⟩ := takeFault_faulted hv.symm
            have := congrArg State.nt hv
            exact ⟨this ▸ hv2.nodes, this ▸ hv2.zero⟩
          · exact absurd hf (takeFault_ne_stopped _ _ _ _)
          · rw [he] at hx; cases hx
        rw [hr]
        rcases h3 with ⟨hc, hs⟩ | ⟨hc, _, m, _, hm, hs⟩
        · refine .raised ⟨.inl hc, rfl, p, _, u.nt, u.ncnt, u.hdr, rfl, .inl rfl, hnt.1, hnt.2, h2, ?_⟩
          rw [← hs]; exact hu
        · refine .raised ⟨.inr hc, rfl, p, _, u.nt, u.ncnt, u.hdr, rfl, .inr ⟨m, hm, rfl⟩, hnt.1, hnt.2, h2, ?_⟩
          rw [← hs]; exact hu

end Sys2Proof.Machine
end

