-- ==== Sys2Proof/Laws/Abandon.lean ====
section
/-! SUPPORT. What a list of port calls can do to the ports (20_memory.md R70 to R76), and that the calls of each loop lead
the ports where the loop leads them (60_exceptions.md R250, 70_reset_and_hazards.md R260, R261). -/

namespace Sys2Proof.Machine

/-! ## Lists of calls -/

@[simp] theorem playCalls_nil (s : State) : playCalls [] s = s := rfl

@[simp] theorem playCalls_cons (c : PortCall) (cs : List PortCall) (s : State) :
    playCalls (c :: cs) s = playCalls cs (playCall s c) := rfl

theorem playCalls_append (a b : List PortCall) (s : State) : playCalls (a ++ b) s = playCalls b (playCalls a s) := by
  simp [playCalls, List.foldl_append]

/-- A call changes nothing but the ports. -/
theorem playCall_ports (s : State) (c : PortCall) : ∃ p k, playCall s c = { s with src := p, snk := k } := by
  cases c <;> exact ⟨_, _, rfl⟩

/-- Calls change nothing but the ports. -/
theorem playCalls_ports (cs : List PortCall) (s : State) :
    ∃ p k, playCalls cs s = { s with src := p, snk := k } := by
  induction cs generalizing s with
  | nil => exact ⟨s.src, s.snk, rfl⟩
  | cons c cs ih =>
    obtain ⟨p, k, h⟩ := playCall_ports s c
    obtain ⟨p', k', h'⟩ := ih (playCall s c)
    exact ⟨p', k', by rw [playCalls_cons, h', h]⟩

/-- The ports after calls depend on the ports before alone. -/
theorem playCalls_congr {s u : State} (cs : List PortCall) (hp : s.src = u.src) (hk : s.snk = u.snk) :
    (playCalls cs s).src = (playCalls cs u).src ∧ (playCalls cs s).snk = (playCalls cs u).snk := by
  induction cs generalizing s u with
  | nil => exact ⟨hp, hk⟩
  | cons c cs ih =>
    apply ih
    · cases c <;> simp only [playCall, hp]
    · cases c <;> simp only [playCall, hk]

/-- Calls only append to a sink and leave a closed one alone (R73, R74). -/
theorem playCalls_snk (cs : List PortCall) {s : State} {k : Snk} (hk : s.snk = some k) :
    ∃ k', (playCalls cs s).snk = some k' ∧ k.bits <+: k'.bits ∧ (k.closed = true → k' = k) := by
  induction cs generalizing s k with
  | nil => exact ⟨k, hk, List.prefix_rfl, fun _ => rfl⟩
  | cons c cs ih =>
    have step : ∃ k1, (playCall s c).snk = some k1 ∧ k.bits <+: k1.bits ∧ (k.closed = true → k1 = k) := by
      cases c with
      | srcRead w => exact ⟨k, hk, List.prefix_rfl, fun _ => rfl⟩
      | srcRewind => exact ⟨k, hk, List.prefix_rfl, fun _ => rfl⟩
      | snkWrite w v =>
        cases hc : k.closed with
        | true => exact ⟨k, by simp [playCall, hk, hc], List.prefix_rfl, fun _ => rfl⟩
        | false => exact ⟨snkWrite w v k, by simp [playCall, hk, hc], List.prefix_append _ _, nofun⟩
      | snkClose =>
        cases hc : k.closed with
        | true => exact ⟨k, by simp [playCall, hk, hc], List.prefix_rfl, fun _ => rfl⟩
        | false => exact ⟨snkClose k, by simp [playCall, hk, hc], List.prefix_append _ _, nofun⟩
    obtain ⟨k1, h1, hb1, hc1⟩ := step
    obtain ⟨k2, h2, hb2, hc2⟩ := ih h1
    exact ⟨k2, h2, hb1.trans hb2, fun hc => by rw [hc2 (by rw [hc1 hc]; exact hc), hc1 hc]⟩

/-- A source that keeps its content, in its own round or after its one rewind (R33, R70, R75). -/
structure SrcMoved (p p' : Src) : Prop where
  data  : p'.data = p.data
  legal : p'.pos ≤ 8 * p'.data.length ∧ (p'.exh = true → p'.pos = 8 * p'.data.length)
  round : (p'.rew = p.rew ∧ p.pos ≤ p'.pos ∧ (p.exh = true → p' = p)) ∨ (p.rew = false ∧ p'.rew = true)

theorem SrcMoved.trans {p q r : Src} (h : SrcMoved p q) (h' : SrcMoved q r) : SrcMoved p r where
  data := h'.data.trans h.data
  legal := h'.legal
  round := by
    rcases h.round with ⟨a, b, c⟩ | ⟨a, b⟩ <;> rcases h'.round with ⟨a', b', c'⟩ | ⟨a', b'⟩
    · exact .inl ⟨a'.trans a, b.trans b', fun e => by rw [c' (by rw [c e]; exact e), c e]⟩
    · exact .inr ⟨a ▸ a', b'⟩
    · exact .inr ⟨a, a' ▸ b⟩
    · exact .inr ⟨a, b'⟩

theorem srcRead_moved (w : Nat) {p : Src} (h : p.pos ≤ 8 * p.data.length)
    (he : p.exh = true → p.pos = 8 * p.data.length) : SrcMoved p (srcRead w p).2 := by
  unfold srcRead
  split
  · rename_i hc
    refine ⟨rfl, ⟨le_rfl, fun _ => rfl⟩, .inl ⟨rfl, h, fun e => ?_⟩⟩
    have := he e
    cases p; simp_all
  · rename_i hc
    rw [not_or, not_lt] at hc
    exact ⟨rfl, ⟨hc.2, fun e => absurd e hc.1⟩, .inl ⟨rfl, Nat.le_add_right _ _, fun e => absurd e hc.1⟩⟩

/-- Calls only move a source forward, but for its one rewind (R70, R75). -/
theorem playCalls_src (cs : List PortCall) {s : State} {p : Src} (hp : s.src = some p) (h : p.pos ≤ 8 * p.data.length)
    (he : p.exh = true → p.pos = 8 * p.data.length) : ∃ p', (playCalls cs s).src = some p' ∧ SrcMoved p p' := by
  induction cs generalizing s p with
  | nil => exact ⟨p, hp, rfl, ⟨h, he⟩, .inl ⟨rfl, le_rfl, fun _ => rfl⟩⟩
  | cons c cs ih =>
    have stay : SrcMoved p p := ⟨rfl, ⟨h, he⟩, .inl ⟨rfl, le_rfl, fun _ => rfl⟩⟩
    have step : ∃ q, (playCall s c).src = some q ∧ SrcMoved p q := by
      cases c with
      | srcRead w => exact ⟨_, by simp only [playCall, hp, Option.map_some], srcRead_moved w h he⟩
      | srcRewind =>
        cases hr : p.rew with
        | true => exact ⟨p, by simp [playCall, hp, hr], stay⟩
        | false =>
          exact ⟨srcRewind p, by simp [playCall, hp, hr], rfl, ⟨Nat.zero_le _, nofun⟩, .inr ⟨hr, rfl⟩⟩
      | snkWrite w v => exact ⟨p, hp, stay⟩
      | snkClose => exact ⟨p, hp, stay⟩
    obtain ⟨q, hq, m⟩ := step
    obtain ⟨r, hr, m'⟩ := ih hq m.legal.1 m.legal.2
    exact ⟨r, hr, m.trans m'⟩

/-- Calls keep the ports legal (R33, R34). -/
theorem playCalls_legal (cs : List PortCall) {s : State} (h : portsLegal s = true) :
    portsLegal (playCalls cs s) = true := by
  induction cs generalizing s with
  | nil => exact h
  | cons c cs ih =>
    apply ih
    unfold portsLegal at h ⊢
    rw [Bool.and_eq_true] at h ⊢
    constructor
    · cases hp : s.src with
      | none => cases c <;> simp [playCall, hp]
      | some p =>
        have h1 := h.1
        rw [hp] at h1
        simp only [Bool.and_eq_true, Bool.or_eq_true, Bool.not_eq_true', decide_eq_true_eq] at h1
        have hle : p.pos ≤ 8 * p.data.length := h1.1
        have hex : p.exh = true → p.pos = 8 * p.data.length := fun e => h1.2.resolve_left (by simp [e])
        obtain ⟨q, hq, m⟩ := playCalls_src [c] hp hle hex
        rw [playCalls_cons, playCalls_nil] at hq
        rw [hq]
        simp only [Bool.and_eq_true, Bool.or_eq_true, Bool.not_eq_true', decide_eq_true_eq]
        refine ⟨m.legal.1, ?_⟩
        cases he : q.exh with
        | true => exact .inr (m.legal.2 he)
        | false => exact .inl rfl
    · cases hk : s.snk with
      | none => cases c <;> simp [playCall, hk]
      | some k =>
        have h2 := h.2
        rw [hk] at h2
        cases c with
        | srcRead w => simpa [playCall, hk] using h2
        | srcRewind => simpa [playCall, hk] using h2
        | snkWrite w v =>
          cases hc : k.closed with
          | true => simpa [playCall, hk, hc] using h2
          | false => simp [playCall, hk, hc]
        | snkClose =>
          cases hc : k.closed with
          | true => simpa [playCall, hk, hc] using h2
          | false =>
            have := snkClose_whole_bytes k
            simp only [playCall, hk, Option.map_some, hc, Bool.false_eq_true, if_false]
            simpa using this

/-! ## The calls of the loops -/

/-- The state with these ports. -/
def withPorts (s : State) (p : Src) (k : Snk) : State := { s with src := some p, snk := some k }

theorem playCall_read (s : State) (p : Src) (k : Snk) (w : Nat) :
    playCall (withPorts s p k) (.srcRead w) = withPorts s (srcRead w p).2 k := rfl

theorem playCall_write (s : State) (p : Src) {k : Snk} (hc : k.closed = false) (w v : Nat) :
    playCall (withPorts s p k) (.snkWrite w v) = withPorts s p (snkWrite w v k) := by
  simp [playCall, withPorts, hc]

/-- COUNT's calls lead the source to where its loop ends (40_frequency_count.md R131). -/
theorem countCalls_play (limit : Nat) (s : State) : ∀ (fuel : Nat) (p p' : Src) (freq f : Table Nat),
    countLoop limit fuel p freq = .exhausted p' f ∨ countLoop limit fuel p freq = .full p' f →
    playCalls (countCalls limit fuel p freq) { s with src := some p } = { s with src := some p' }
  | 0, p, p', freq, f, h => by rcases h with h | h <;> cases h
  | fuel + 1, p, p', freq, f, h => by
    rw [countLoop] at h
    rw [countCalls, playCalls_cons]
    rcases hr : srcRead 8 p with ⟨v, q⟩
    rw [hr] at h
    have hplay : playCall { s with src := some p } (.srcRead 8) = { s with src := some q } := by
      simp [playCall, hr]
    rw [hplay]
    cases v with
    | none =>
      rcases h with h | h <;> simp only at h
      · injection h with h; rw [h]; rfl
      · cases h
    | some v =>
      simp only at h ⊢
      by_cases hl : limit ≤ freqAt freq v + 1
      · rw [if_pos hl] at h ⊢
        rcases h with h | h
        · cases h
        · injection h with h; rw [h]; rfl
      · rw [if_neg hl] at h ⊢
        exact countCalls_play limit s fuel q p' _ f h

/-- WRHDR's calls lead the sink to where its walk ends (43_header_codec.md R168). -/
theorem emitCalls_play (nt : Table Node) (s : State) : ∀ (n : Nat) (i : NodeIdx) (k k' : Snk), k.closed = false →
    emitHeader nt n i k = .ok k' →
    playCalls (emitCalls nt n i) { s with snk := some k } = { s with snk := some k' } ∧ k'.closed = false
  | 0, i, k, k', _, h => by cases h
  | n + 1, i, k, k', hc, h => by
    rw [emitHeader] at h
    rw [emitCalls]
    have hw : ∀ (w v : Nat) {k : Snk}, k.closed = false →
        playCall { s with snk := some k } (.snkWrite w v) = { s with snk := some (snkWrite w v k) } := by
      intro w v k hc; simp [playCall, hc]
    cases hn : nodeAt nt i with
    | none => rw [hn] at h; cases h
    | some x =>
      rw [hn] at h
      cases x with
      | leaf sym w =>
        simp only at h ⊢
        injection h with h
        subst h
        rw [playCalls_cons, playCalls_cons, playCalls_nil, hw 1 1 hc, hw 9 _ (by simpa using hc)]
        exact ⟨rfl, by simpa using hc⟩
      | internal l r w =>
        simp only at h ⊢
        cases hl : emitHeader nt n l (snkWrite 1 0 k) with
        | error f => rw [hl] at h; cases h
        | ok k1 =>
          rw [hl] at h
          obtain ⟨h1, hc1⟩ := emitCalls_play nt s n l _ k1 (by simpa using hc) hl
          obtain ⟨h2, hc2⟩ := emitCalls_play nt s n r k1 k' hc1 h
          rw [playCalls_cons, hw 1 0 hc, playCalls_append, h1]
          exact ⟨h2, hc2⟩

/-- A code's calls append it (44_payload_encode.md R190). -/
theorem codeCalls_play (s : State) (p : Src) : ∀ (c : Bits) {k : Snk}, k.closed = false →
    playCalls (codeCalls c) (withPorts s p k) = withPorts s p (putCode c k)
  | [], _, _ => rfl
  | b :: c, k, hc => by
    rw [codeCalls, List.map_cons, playCalls_cons, playCall_write s p hc]
    exact codeCalls_play s p c (by simpa using hc)

/-- ENCODE's calls lead both ports to where its loop ends, the EOS code put where it has one
(44_payload_encode.md R188). -/
theorem encodeCalls_play (ct : Table Bits) (s : State) : ∀ (fuel : Nat) (p p' : Src) (k k' : Snk), k.closed = false →
    (encodeLoop ct fuel p k = .missing p' k' →
      playCalls (encodeCalls ct fuel p) (withPorts s p k) = withPorts s p' k') ∧
    (encodeLoop ct fuel p k = .exhausted p' k' →
      playCalls (encodeCalls ct fuel p) (withPorts s p k) =
        withPorts s p' (putCode ((tableGet ct Config.eos).getD []) k'))
  | 0, p, p', k, k', _ => ⟨nofun, nofun⟩
  | fuel + 1, p, p', k, k', hc => by
    rw [encodeLoop, encodeCalls, playCalls_cons, playCall_read]
    rcases hr : srcRead 8 p with ⟨v, q⟩
    cases v with
    | none =>
      refine ⟨nofun, fun h => ?_⟩
      injection h with h1 h2
      subst h1; subst h2
      exact codeCalls_play s q _ hc
    | some v =>
      simp only
      cases hg : tableGet ct v with
      | none =>
        refine ⟨fun h => ?_, nofun⟩
        injection h with h1 h2
        subst h1; subst h2
        rfl
      | some c =>
        simp only
        rw [playCalls_append, codeCalls_play s q c hc]
        exact encodeCalls_play ct s fuel q p' _ k' (by rw [putCode_eq]; simpa using hc)

/-- DECODE's calls lead both ports to where its loop ends (45_payload_decode.md R200). -/
theorem decodeCalls_play (nt : Table Node) (root : NodeIdx) (s : State) : ∀ (fuel : Nat) (p p' : Src) (k k' : Snk)
    (cur c : NodeIdx), k.closed = false →
    (decodeLoop nt root fuel p k cur = .eof p' k' c ∨ decodeLoop nt root fuel p k cur = .badInput p' k' c ∨
      ∃ d, decodeLoop nt root fuel p k cur = .corrupt p' k' c d) →
    playCalls (decodeCalls nt root fuel p cur) (withPorts s p k) = withPorts s p' k'
  | 0, p, p', k, k', cur, c, _, h => by rcases h with h | h | ⟨d, h⟩ <;> cases h
  | fuel + 1, p, p', k, k', cur, c, hc, h => by
    rw [decodeLoop] at h
    rw [decodeCalls, playCalls_cons, playCall_read]
    rcases hr : srcRead 1 p with ⟨v, q⟩
    rw [hr] at h
    cases v with
    | none => rcases h with h | h | ⟨d, h⟩ <;> cases h; rfl
    | some b =>
      simp only at h ⊢
      cases hn : nodeAt nt cur with
      | none => rw [hn] at h; rcases h with h | h | ⟨d, h⟩ <;> cases h
      | some x =>
        rw [hn] at h
        cases x with
        | leaf sym w => rcases h with h | h | ⟨d, h⟩ <;> cases h; rfl
        | internal l r w =>
          simp only at h ⊢
          cases hm : nodeAt nt (if b = 0 then l else r) with
          | none => rw [hm] at h; rcases h with h | h | ⟨d, h⟩ <;> cases h
          | some y =>
            rw [hm] at h
            cases y with
            | internal l' r' w' => exact decodeCalls_play nt root s fuel q p' k k' _ c hc h
            | leaf sym w' =>
              simp only at h ⊢
              by_cases h1 : sym.toNat = Config.eos
              · simp only [if_pos h1] at h ⊢
                rcases h with h | h | ⟨d, h⟩ <;> cases h; rfl
              · by_cases h2 : Config.eos < sym.toNat
                · simp only [if_neg h1, if_pos h2] at h ⊢
                  rcases h with h | h | ⟨d, h⟩ <;> cases h; rfl
                · simp only [if_neg h1, if_neg h2] at h ⊢
                  rw [playCalls_cons, playCall_write s q hc]
                  exact decodeCalls_play nt root s fuel q p' _ k' root c (by simpa using hc) h

/-- One token's calls lead the source to where fetching it ends (43_header_codec.md R175). -/
theorem tokenCalls_play {s : State} (u : State) (hu : u.src = s.src) :
    (∀ s', (fetchToken s = .internal s' ∨ ∃ v, fetchToken s = .leaf v s') →
      playCalls (tokenCalls s) u = { u with src := s'.src }) ∧
    (∀ t, fetchToken s = .settled (.faulted t) → playCalls (tokenCalls s) u = { u with src := t.src }) ∧
    (∀ t, fetchToken s ≠ .settled (.done t)) := by
  have flt : ∀ {c : FaultCode} {op : Opcode} {x t : State}, takeFault c op x = .faulted t → t.src = x.src := by
    intro c op x t h; obtain ⟨k, _, rfl⟩ := takeFault_faulted h; rfl
  unfold tokenCalls fetchToken
  cases hp : s.src with
  | none => exact ⟨(by rintro s' (h | ⟨v, h⟩) <;> cases h), (by intro t h; cases h), (by intro t h; cases h)⟩
  | some p =>
    rw [hp] at hu
    simp only
    rcases hr : srcRead 1 p with ⟨v, q⟩
    have h1 : playCall u (.srcRead 1) = { u with src := some q } := by simp [playCall, hu, hr]
    cases v with
    | none =>
      refine ⟨(by rintro s' (h | ⟨v, h⟩) <;> cases h), ?_, ?_⟩
      · intro t h; injection h with h
        rw [playCalls_cons, playCalls_nil, h1, flt h]
      · intro t h; injection h with h; exact takeFault_ne_done _ _ _ _ h
    | some b =>
      simp only
      by_cases hn : s.ncnt.toNat = Config.nodeCap
      · simp only [if_pos hn]
        refine ⟨(by rintro s' (h | ⟨v, h⟩) <;> cases h), ?_, ?_⟩
        · intro t h; injection h with h
          rw [playCalls_cons, playCalls_nil, h1, flt h]
        · intro t h; injection h with h; exact takeFault_ne_done _ _ _ _ h
      · by_cases hb : b = 1
        · simp only [if_neg hn, if_pos hb]
          rcases hr2 : srcRead 9 q with ⟨v2, q2⟩
          have h2 : playCall { u with src := some q } (.srcRead 9) = { u with src := some q2 } := by
            simp [playCall, hr2]
          cases v2 with
          | none =>
            refine ⟨(by rintro s' (h | ⟨v, h⟩) <;> cases h), ?_, ?_⟩
            · intro t h; injection h with h
              rw [playCalls_cons, playCalls_cons, playCalls_nil, h1, h2, flt h]
            · intro t h; injection h with h; exact takeFault_ne_done _ _ _ _ h
          | some v2 =>
            refine ⟨?_, (by intro t h; cases h), (by intro t h; cases h)⟩
            rintro s' (h | ⟨v, h⟩) <;> cases h
            rw [playCalls_cons, playCalls_cons, playCalls_nil, h1, h2]
        · simp only [if_neg hn, if_neg hb]
          refine ⟨?_, (by intro t h; cases h), (by intro t h; cases h)⟩
          rintro s' (h | ⟨v, h⟩) <;> cases h
          rw [playCalls_cons, playCalls_nil, h1]

/-- A header token leaves the source alone. -/
theorem bodyOf_token_src {s t : State} :
    (runHdrInternal s = .done t ∨ runHdrInternal s = .faulted t → t.src = s.src) ∧
    (∀ v, runHdrLeaf v s = .done t ∨ runHdrLeaf v s = .faulted t → t.src = s.src) := by
  have flt : ∀ {c : FaultCode} {op : Opcode} {x : State}, takeFault c op x = .done t ∨ takeFault c op x = .faulted t →
      t.src = x.src := by
    rintro c op x (h | h)
    · exact absurd h (takeFault_ne_done _ _ _ _)
    · obtain ⟨k, _, rfl⟩ := takeFault_faulted h; rfl
  constructor
  · intro h
    unfold runHdrInternal at h
    cases hr : s.runState <;> rw [hr] at h <;> simp only at h
    · rcases h with h | h <;> cases h; rfl
    · split at h
      · exact flt h
      · rcases h with h | h <;> cases h; rfl
    · rcases h with h | h <;> cases h; rfl
  · intro v h
    unfold runHdrLeaf at h
    cases hr : s.runState <;> rw [hr] at h <;> simp only at h
    · rcases h with h | h <;> cases h; rfl
    · split at h
      · exact flt h
      · split at h <;> rcases h with h | h <;> cases h <;> rfl
    · rcases h with h | h <;> cases h; rfl

/-- RDHDR's calls lead the source to where its loop ends (43_header_codec.md R175). -/
theorem headerCalls_play : ∀ (fuel : Nat) (s u t : State), u.src = s.src →
    (headerLoop fuel s = .done t ∨ headerLoop fuel s = .faulted t) →
    playCalls (headerCalls fuel s) u = { u with src := t.src }
  | 0, s, u, t, _, h => by rcases h with h | h <;> cases h
  | fuel + 1, s, u, t, hu, h => by
    obtain ⟨hgo, hflt, hnd⟩ := tokenCalls_play (s := s) u hu
    rw [headerLoop] at h
    rw [headerCalls, playCalls_append]
    cases hf : fetchToken s with
    | settled r =>
      rw [hf] at h
      rcases h with h | h <;> simp only at h
      · subst h; exact absurd hf (hnd t)
      · subst h; rw [hflt t hf]; rfl
    | internal s' =>
      rw [hf] at h
      rw [hgo s' (.inl hf)]
      simp only at h ⊢
      have hs := fun x => (bodyOf_token_src (s := s') (t := x)).1
      cases hb : runHdrInternal s' with
      | stopped f => rw [hb] at h; rcases h with h | h <;> cases h
      | refused r => rw [hb] at h; rcases h with h | h <;> cases h
      | faulted x =>
        rw [hb] at h
        rcases h with h | h <;> cases h
        rw [playCalls_nil, hs _ (.inr hb)]
      | done x =>
        rw [hb] at h
        have hx := hs x (.inl hb)
        simp only [andThen_done] at h ⊢
        by_cases hy : x.runState = .busy
        · rw [if_pos hy] at h ⊢
          rw [headerCalls_play fuel x { u with src := s'.src } t hx.symm h]
        · rw [if_neg hy] at h ⊢
          rcases h with h | h <;> cases h
          rw [playCalls_nil, hx]
    | leaf v s' =>
      rw [hf] at h
      rw [hgo s' (.inr ⟨v, hf⟩)]
      simp only at h ⊢
      have hs := fun x => (bodyOf_token_src (s := s') (t := x)).2 v
      cases hb : runHdrLeaf v s' with
      | stopped f => rw [hb] at h; rcases h with h | h <;> cases h
      | refused r => rw [hb] at h; rcases h with h | h <;> cases h
      | faulted x =>
        rw [hb] at h
        rcases h with h | h <;> cases h
        rw [playCalls_nil, hs _ (.inr hb)]
      | done x =>
        rw [hb] at h
        have hx := hs x (.inl hb)
        simp only [andThen_done] at h ⊢
        by_cases hy : x.runState = .busy
        · rw [if_pos hy] at h ⊢
          rw [headerCalls_play fuel x { u with src := s'.src } t hx.symm h]
        · rw [if_neg hy] at h ⊢
          rcases h with h | h <;> cases h
          rw [playCalls_nil, hx]

/-! ## A command a reset abandons -/

/-- Everything an abandoned command can do: with a next state, the ports are as some of its calls left them and all else
is at its reset value; otherwise it stops as the whole command does. -/
theorem abandonCommand_cases (i : Instr) (n : Nat) (s : State) :
    ((∃ t, exec i s = .next t) ∧
      abandonCommand i n s = .next (clearCore (playCalls ((portCalls i s).take n) s))) ∨
    (∃ f, exec i s = .fault f ∧ abandonCommand i n s = .fault f) ∨
    (∃ r, exec i s = .refused r ∧ abandonCommand i n s = .refused r) := by
  unfold abandonCommand
  cases h : exec i s with
  | next t => exact .inl ⟨⟨t, rfl⟩, rfl⟩
  | fault f => exact .inr (.inl ⟨f, rfl, rfl⟩)
  | refused r => exact .inr (.inr ⟨r, rfl, rfl⟩)

end Sys2Proof.Machine
end

