-- ==== Sys2Proof/Laws/Frame.lean ====
section
/-! SUPPORT. Which parts of the state each instruction may write (10_state.md R24 to R32), along every end of its body. -/

namespace Sys2Proof.Machine

/-- The parts of the state a body may write; the tree part is NT, NCNT, ROOT, TV and TSRC, the walk part CUR and DST. -/
structure Writes where
  freq : Bool := false
  tree : Bool := false
  ct   : Bool := false
  cv   : Bool := false
  walk : Bool := false
  src  : Bool := false
  snk  : Bool := false

/-- What each instruction's body may write. -/
def writesOf : Instr → Writes
  | .clear => { freq := true, tree := true, ct := true, cv := true, walk := true }
  | .count => { freq := true, src := true }
  | .build => { tree := true, cv := true }
  | .gencodes => { ct := true, cv := true }
  | .wrmagic => { snk := true }
  | .wrhdr => { snk := true }
  | .rewind => { src := true }
  | .encode => { src := true, snk := true }
  | .close => { snk := true }
  | .rdmagic => { src := true }
  | .rdhdr => { tree := true, cv := true, src := true }
  | .decode => { walk := true, src := true, snk := true }
  | .compress => { freq := true, tree := true, ct := true, cv := true, src := true, snk := true }
  | .decompress => { tree := true, cv := true, walk := true, src := true, snk := true }
  | .hdrInternal => { tree := true }
  | .hdrLeaf _ => { tree := true }

/-- Everything outside `w` is unchanged; STATE and the model's header stack are not said here. -/
structure Frame (w : Writes) (s t : State) : Prop where
  params  : t.params = s.params
  host    : t.host = s.host
  replies : t.replies = s.replies
  draws   : t.draws = s.draws
  err     : t.err = s.err
  fop     : t.fop = s.fop
  freq    : w.freq = true ∨ t.freq = s.freq
  tree    : w.tree = true ∨ (t.nt = s.nt ∧ t.ncnt = s.ncnt ∧ t.root = s.root ∧ t.tv = s.tv ∧ t.tsrc = s.tsrc)
  ct      : w.ct = true ∨ t.ct = s.ct
  cv      : w.cv = true ∨ t.cv = s.cv
  walk    : w.walk = true ∨ (t.cur = s.cur ∧ t.dst = s.dst)
  src     : w.src = true ∨ t.src = s.src
  snk     : w.snk = true ∨ t.snk = s.snk

theorem Frame.trans {w : Writes} {s t u : State} (h : Frame w s t) (h' : Frame w t u) : Frame w s u where
  params := h'.params.trans h.params
  host := h'.host.trans h.host
  replies := h'.replies.trans h.replies
  draws := h'.draws.trans h.draws
  err := h'.err.trans h.err
  fop := h'.fop.trans h.fop
  freq := h.freq.elim .inl fun a => h'.freq.imp_right fun b => b.trans a
  tree := h.tree.elim .inl fun a => h'.tree.imp_right fun b =>
    ⟨b.1.trans a.1, b.2.1.trans a.2.1, b.2.2.1.trans a.2.2.1, b.2.2.2.1.trans a.2.2.2.1, b.2.2.2.2.trans a.2.2.2.2⟩
  ct := h.ct.elim .inl fun a => h'.ct.imp_right fun b => b.trans a
  cv := h.cv.elim .inl fun a => h'.cv.imp_right fun b => b.trans a
  walk := h.walk.elim .inl fun a => h'.walk.imp_right fun b => ⟨b.1.trans a.1, b.2.trans a.2⟩
  src := h.src.elim .inl fun a => h'.src.imp_right fun b => b.trans a
  snk := h.snk.elim .inl fun a => h'.snk.imp_right fun b => b.trans a

/-- A wider frame. -/
structure Writes.Le (w v : Writes) : Prop where
  freq : w.freq = true → v.freq = true
  tree : w.tree = true → v.tree = true
  ct   : w.ct = true → v.ct = true
  cv   : w.cv = true → v.cv = true
  walk : w.walk = true → v.walk = true
  src  : w.src = true → v.src = true
  snk  : w.snk = true → v.snk = true

theorem Frame.mono {w v : Writes} (hw : w.Le v) {s t : State} (h : Frame w s t) : Frame v s t where
  params := h.params
  host := h.host
  replies := h.replies
  draws := h.draws
  err := h.err
  fop := h.fop
  freq := h.freq.imp_left hw.freq
  tree := h.tree.imp_left hw.tree
  ct := h.ct.imp_left hw.ct
  cv := h.cv.imp_left hw.cv
  walk := h.walk.imp_left hw.walk
  src := h.src.imp_left hw.src
  snk := h.snk.imp_left hw.snk

/-- The end of a body: its frame, STATE kept or IDLE, the stack kept or empty. -/
def FrameEnds (w : Writes) (s : State) (r : Run) : Prop :=
  Ends (fun t => Frame w s t ∧ (t.runState = s.runState ∨ t.runState = .idle) ∧ (t.hdr = s.hdr ∨ t.hdr = []))
    (fun _ _ u => Frame w s u) (fun _ => True) r

theorem FrameEnds.andThen {w : Writes} {s : State} {r : Run} {k : State → Run} (h : FrameEnds w s r)
    (hk : ∀ t, FrameEnds w t (k t)) : FrameEnds w s (r.andThen k) := by
  refine Ends.andThen h fun t ht => ?_
  refine (hk t).imp ?_ (fun _ _ _ hu => ht.1.trans hu) (fun _ h => h)
  rintro u ⟨hf, hr, hh⟩
  refine ⟨ht.1.trans hf, ?_, ?_⟩
  · rcases hr with hr | hr
    · rw [hr]; exact ht.2.1
    · exact .inr hr
  · rcases hh with hh | hh
    · rw [hh]; exact ht.2.2
    · exact .inr hh

theorem FrameEnds.mono {w v : Writes} (hw : w.Le v) {s : State} {r : Run} (h : FrameEnds w s r) : FrameEnds v s r :=
  Ends.imp h (fun _ ht => ⟨ht.1.mono hw, ht.2⟩) (fun _ _ _ hu => hu.mono hw) (fun _ h => h)

theorem frame_count (s : State) : FrameEnds (writesOf .count) s (runCount s) := by
  refine (runCount_ends s).imp ?_ ?_ (fun _ h => h.elim)
  · rintro t ⟨p, p', f, _, _, _, rfl⟩
    exact ⟨by constructor <;> simp [writesOf], .inl rfl, .inl rfl⟩
  · rintro c op u ⟨_, _, p, p', f, _, _, _, rfl⟩
    constructor <;> simp [writesOf]

theorem frame_build (s : State) : FrameEnds (writesOf .build) s (runBuild s) := by
  refine (runBuild_ends s).imp ?_ ?_ (fun _ h => h.elim)
  · rintro t ⟨nt, n, r, _, rfl⟩
    exact ⟨by constructor <;> simp [writesOf, startTree], .inl rfl, .inl rfl⟩
  · rintro c op u ⟨_, _, nt, n, _, _, _, rfl⟩
    constructor <;> simp [writesOf, startTree]

theorem frame_gencodes (s : State) : FrameEnds (writesOf .gencodes) s (runGencodes s) := by
  refine (runGencodes_ends s).imp ?_ ?_ (fun _ _ => trivial)
  · rintro t ⟨ct, a, b, _, _, _, _, rfl⟩
    exact ⟨by constructor <;> simp [writesOf], .inl rfl, .inl rfl⟩
  · rintro c op u ⟨_, _, ct, _, rfl⟩
    constructor <;> simp [writesOf]

theorem frame_wrmagic (s : State) : FrameEnds (writesOf .wrmagic) s (runWrmagic s) := by
  refine (runWrmagic_ends s).imp ?_ (fun _ _ _ h => h.elim) (fun _ h => h.elim)
  rintro t ⟨c, k, _, _, rfl⟩
  exact ⟨by constructor <;> simp [writesOf], .inl rfl, .inl rfl⟩

theorem frame_wrhdr (s : State) : FrameEnds (writesOf .wrhdr) s (runWrhdr s) := by
  refine (runWrhdr_ends s).imp ?_ (fun _ _ _ h => h.elim) (fun _ _ => trivial)
  rintro t ⟨c, k, _, _, rfl⟩
  exact ⟨by constructor <;> simp [writesOf], .inl rfl, .inl rfl⟩

theorem frame_rewind (s : State) : FrameEnds (writesOf .rewind) s (runRewind s) := by
  refine (runRewind_ends s).imp ?_ (fun _ _ _ h => h.elim) (fun _ h => h.elim)
  rintro t ⟨p, _, rfl⟩
  exact ⟨by constructor <;> simp [writesOf], .inl rfl, .inl rfl⟩

theorem frame_encode (s : State) : FrameEnds (writesOf .encode) s (runEncode s) := by
  refine (runEncode_ends s).imp ?_ ?_ (fun _ h => h.elim)
  · rintro t ⟨p, p', c, k, _, _, _, _, rfl⟩
    exact ⟨by constructor <;> simp [writesOf], .inl rfl, .inl rfl⟩
  · rintro c op u ⟨_, _, p, p', d, k, _, _, _, _, rfl⟩
    constructor <;> simp [writesOf]

theorem frame_close (s : State) : FrameEnds (writesOf .close) s (runClose s) := by
  refine (runClose_ends s).imp ?_ (fun _ _ _ h => h.elim) (fun _ h => h.elim)
  rintro t ⟨k, _, _, rfl⟩
  exact ⟨by constructor <;> simp [writesOf], .inl rfl, .inl rfl⟩

theorem frame_rdmagic (s : State) : FrameEnds (writesOf .rdmagic) s (runRdmagic s) := by
  refine (runRdmagic_ends s).imp ?_ ?_ (fun _ h => h.elim)
  · rintro t ⟨p, p', _, _, rfl⟩
    exact ⟨by constructor <;> simp [writesOf], .inl rfl, .inl rfl⟩
  · rintro c op u ⟨_, _, p, p', _, _, rfl⟩
    constructor <;> simp [writesOf]

theorem frame_rdhdr (s : State) : FrameEnds (writesOf .rdhdr) s (runRdhdr s) := by
  refine (runRdhdr_ends s).imp ?_ ?_ (fun _ h => h.elim)
  · rintro t ⟨p, tree, rest, _, _, _, rfl⟩
    exact ⟨by constructor <;> simp [writesOf], .inr rfl, .inr rfl⟩
  · rintro c op u ⟨_, _, p, p', nt, n, hdr, _, _, _, _, _, rfl⟩
    constructor <;> simp [writesOf]

theorem frame_decode (s : State) : FrameEnds (writesOf .decode) s (runDecode s) := by
  refine (runDecode_ends s).imp ?_ ?_ (fun _ _ => trivial)
  · rintro t ⟨p, p', d, k, c, _, _, _, _, rfl⟩
    exact ⟨by constructor <;> simp [writesOf], .inl rfl, .inl rfl⟩
  · rintro e op u ⟨_, _, p, p', d, k, c, dst, _, _, _, _, rfl⟩
    constructor <;> simp [writesOf]

theorem frame_compress (s : State) : FrameEnds (writesOf .compress) s (runCompress s) := by
  have le : ∀ i ∈ [Instr.count, .build, .gencodes, .wrmagic, .wrhdr, .rewind, .encode, .close],
      (writesOf i).Le (writesOf .compress) := by
    intro i hi
    simp only [List.mem_cons, List.not_mem_nil, or_false] at hi
    rcases hi with rfl | rfl | rfl | rfl | rfl | rfl | rfl | rfl <;> constructor <;> decide
  unfold runCompress
  refine FrameEnds.andThen (FrameEnds.andThen (FrameEnds.andThen (FrameEnds.andThen (FrameEnds.andThen
    (FrameEnds.andThen (FrameEnds.andThen ?_ fun t => ?_) fun t => ?_) fun t => ?_) fun t => ?_) fun t => ?_)
    fun t => ?_) fun t => ?_
  · exact (frame_count s).mono (le _ (by decide))
  · exact (frame_build t).mono (le _ (by decide))
  · exact (frame_gencodes t).mono (le _ (by decide))
  · exact (frame_wrmagic t).mono (le _ (by decide))
  · exact (frame_wrhdr t).mono (le _ (by decide))
  · exact (frame_rewind t).mono (le _ (by decide))
  · exact (frame_encode t).mono (le _ (by decide))
  · exact (frame_close t).mono (le _ (by decide))

theorem frame_decompress (s : State) : FrameEnds (writesOf .decompress) s (runDecompress s) := by
  have le : ∀ i ∈ [Instr.rdmagic, .rdhdr, .decode, .close], (writesOf i).Le (writesOf .decompress) := by
    intro i hi
    simp only [List.mem_cons, List.not_mem_nil, or_false] at hi
    rcases hi with rfl | rfl | rfl | rfl <;> constructor <;> decide
  unfold runDecompress
  refine FrameEnds.andThen (FrameEnds.andThen (FrameEnds.andThen ?_ fun t => ?_) fun t => ?_) fun t => ?_
  · exact (frame_rdmagic s).mono (le _ (by decide))
  · exact (frame_rdhdr t).mono (le _ (by decide))
  · exact (frame_decode t).mono (le _ (by decide))
  · exact (frame_close t).mono (le _ (by decide))

/-- The frame of every command but CLEAR. -/
theorem frame_body {i : Instr} (hc : i.isCommand = true) (hn : i ≠ .clear) (s : State) :
    FrameEnds (writesOf i) s (bodyOf i s) := by
  cases i with
  | clear => exact absurd rfl hn
  | count => exact frame_count s
  | build => exact frame_build s
  | gencodes => exact frame_gencodes s
  | wrmagic => exact frame_wrmagic s
  | wrhdr => exact frame_wrhdr s
  | rewind => exact frame_rewind s
  | encode => exact frame_encode s
  | close => exact frame_close s
  | rdmagic => exact frame_rdmagic s
  | rdhdr => exact frame_rdhdr s
  | decode => exact frame_decode s
  | compress => exact frame_compress s
  | decompress => exact frame_decompress s
  | hdrInternal => cases hc
  | hdrLeaf sym => cases hc

/-! ## Which faults (60_exceptions.md R230) -/

/-- The faults a body can raise, each with the phase it records. -/
def faultsOf : Instr → List (FaultCode × Opcode)
  | .clear | .wrmagic | .wrhdr | .rewind | .close => []
  | .count => [(.capacityExceeded, 0x2)]
  | .build => [(.capacityExceeded, 0x3)]
  | .gencodes => [(.decodeCorrupt, 0x4)]
  | .encode => [(.codeMissing, 0x8)]
  | .rdmagic => [(.formatError, 0xA)]
  | .rdhdr => [(.streamCorrupt, 0xB), (.treeOverflow, 0xB)]
  | .decode => [(.badInput, 0xC), (.decodeCorrupt, 0xC)]
  | .compress => [(.capacityExceeded, 0x2), (.capacityExceeded, 0x3), (.decodeCorrupt, 0x4), (.codeMissing, 0x8)]
  | .decompress => [(.formatError, 0xA), (.streamCorrupt, 0xB), (.treeOverflow, 0xB), (.badInput, 0xC),
      (.decodeCorrupt, 0xC)]
  | .hdrInternal => [(.treeOverflow, 0xB)]
  | .hdrLeaf _ => [(.treeOverflow, 0xB)]

/-- A body's faults are those of `l`; no error is recorded before fault entry. -/
def Raises (l : List (FaultCode × Opcode)) (s : State) (r : Run) : Prop :=
  Ends (fun t => t.err = s.err) (fun c op u => (c, op) ∈ l ∧ u.err = s.err) (fun _ => True) r

theorem Raises.mono {l m : List (FaultCode × Opcode)} {s : State} {r : Run} (h : Raises l s r) (hl : l ⊆ m) :
    Raises m s r :=
  Ends.imp h (fun _ h => h) (fun _ _ _ h => ⟨hl h.1, h.2⟩) (fun _ _ => trivial)

theorem Raises.andThen {l : List (FaultCode × Opcode)} {s : State} {r : Run} {k : State → Run} (h : Raises l s r)
    (hk : ∀ t, Raises l t (k t)) : Raises l s (r.andThen k) :=
  Ends.andThen h fun t ht =>
    (hk t).imp (fun _ h => h.trans ht) (fun _ _ _ h => ⟨h.1, h.2.trans ht⟩) (fun _ _ => trivial)

theorem raises_prim {i : Instr} (hi : i ∈ [Instr.count, .build, .gencodes, .wrmagic, .wrhdr, .rewind, .encode, .close,
    .rdmagic, .rdhdr, .decode]) (s : State) : Raises (faultsOf i) s (bodyOf i s) := by
  simp only [List.mem_cons, List.not_mem_nil, or_false] at hi
  rcases hi with rfl | rfl | rfl | rfl | rfl | rfl | rfl | rfl | rfl | rfl | rfl
  · refine (runCount_ends s).imp ?_ ?_ (fun _ _ => trivial)
    · rintro t ⟨p, p', f, _, _, _, rfl⟩; rfl
    · rintro c op u ⟨rfl, rfl, p, p', f, _, _, _, rfl⟩; exact ⟨by decide, rfl⟩
  · refine (runBuild_ends s).imp ?_ ?_ (fun _ _ => trivial)
    · rintro t ⟨nt, n, r, _, rfl⟩; rfl
    · rintro c op u ⟨rfl, rfl, nt, n, _, _, _, rfl⟩; exact ⟨by decide, rfl⟩
  · refine (runGencodes_ends s).imp ?_ ?_ (fun _ _ => trivial)
    · rintro t ⟨ct, a, b, _, _, _, _, rfl⟩; rfl
    · rintro c op u ⟨rfl, rfl, ct, _, rfl⟩; exact ⟨by decide, rfl⟩
  · refine (runWrmagic_ends s).imp ?_ (fun _ _ _ h => h.elim) (fun _ _ => trivial)
    rintro t ⟨c, k, _, _, rfl⟩; rfl
  · refine (runWrhdr_ends s).imp ?_ (fun _ _ _ h => h.elim) (fun _ _ => trivial)
    rintro t ⟨c, k, _, _, rfl⟩; rfl
  · refine (runRewind_ends s).imp ?_ (fun _ _ _ h => h.elim) (fun _ _ => trivial)
    rintro t ⟨p, _, rfl⟩; rfl
  · refine (runEncode_ends s).imp ?_ ?_ (fun _ _ => trivial)
    · rintro t ⟨p, p', c, k, _, _, _, _, rfl⟩; rfl
    · rintro c op u ⟨rfl, rfl, p, p', d, k, _, _, _, _, rfl⟩; exact ⟨by decide, rfl⟩
  · refine (runClose_ends s).imp ?_ (fun _ _ _ h => h.elim) (fun _ _ => trivial)
    rintro t ⟨k, _, _, rfl⟩; rfl
  · refine (runRdmagic_ends s).imp ?_ ?_ (fun _ _ => trivial)
    · rintro t ⟨p, p', _, _, rfl⟩; rfl
    · rintro c op u ⟨rfl, rfl, p, p', _, _, rfl⟩; exact ⟨by decide, rfl⟩
  · refine (runRdhdr_ends s).imp ?_ ?_ (fun _ _ => trivial)
    · rintro t ⟨p, tree, rest, _, _, _, rfl⟩; rfl
    · rintro c op u ⟨rfl | rfl, rfl, p, p', nt, n, hdr, _, _, _, _, _, rfl⟩ <;> exact ⟨by decide, rfl⟩
  · refine (runDecode_ends s).imp ?_ ?_ (fun _ _ => trivial)
    · rintro t ⟨p, p', d, k, c, _, _, _, _, rfl⟩; rfl
    · rintro c op u ⟨rfl | rfl, rfl, p, p', d, k, e, dst, _, _, _, _, rfl⟩ <;> exact ⟨by decide, rfl⟩

/-- What every command but CLEAR can raise. -/
theorem raises_body {i : Instr} (hc : i.isCommand = true) (hn : i ≠ .clear) (s : State) :
    Raises (faultsOf i) s (bodyOf i s) := by
  cases i with
  | clear => exact absurd rfl hn
  | compress =>
    have p : ∀ i ∈ [Instr.count, .build, .gencodes, .wrmagic, .wrhdr, .rewind, .encode, .close], ∀ t,
        Raises (faultsOf .compress) t (bodyOf i t) := fun i hi t =>
      (raises_prim (by revert hi; revert i; decide) t).mono (by revert hi; revert i; decide)
    show Raises _ _ (runCompress s)
    unfold runCompress
    exact Raises.andThen (Raises.andThen (Raises.andThen (Raises.andThen (Raises.andThen (Raises.andThen (Raises.andThen
      (p .count (by decide) s) (p .build (by decide))) (p .gencodes (by decide))) (p .wrmagic (by decide)))
      (p .wrhdr (by decide))) (p .rewind (by decide))) (p .encode (by decide))) (p .close (by decide))
  | decompress =>
    have p : ∀ i ∈ [Instr.rdmagic, .rdhdr, .decode, .close], ∀ t, Raises (faultsOf .decompress) t (bodyOf i t) :=
      fun i hi t => (raises_prim (by revert hi; revert i; decide) t).mono (by revert hi; revert i; decide)
    show Raises _ _ (runDecompress s)
    unfold runDecompress
    exact Raises.andThen (Raises.andThen (Raises.andThen (p .rdmagic (by decide) s) (p .rdhdr (by decide)))
      (p .decode (by decide))) (p .close (by decide))
  | hdrInternal => cases hc
  | hdrLeaf sym => cases hc
  | _ => exact raises_prim (by decide) s

/-! ## What an instruction's next state is -/

/-- The state fault entry leaves, whatever was recorded before (60_exceptions.md R236). -/
def faultedState (c : FaultCode) (op : Opcode) (k : Snk) (u : State) : State :=
  { u with
    err := if u.err = .none then c else u.err
    fop := if u.err = .none then op else u.fop
    snk := some (closeIfOpen k), runState := .fault, hdr := [] }

/-- Everything a command but CLEAR can do when it gives a next state: no effect outside IDLE, an IllegalCommand, or an end of
its body. -/
theorem exec_next_cases {i : Instr} (hc : i.isCommand = true) (hn : i ≠ .clear) {s t : State}
    {P : State → Prop} {Q : FaultCode → Opcode → State → Prop} {R : Fault → Prop}
    (hb : s.runState = .idle → Ends P Q R (bodyOf i s)) (h : exec i s = .next t) :
    (s.runState ≠ .idle ∧ t = s) ∨
    (s.runState = .idle ∧ prereqBroken (prereqOf i) s = true ∧ ∃ k, s.snk = some k ∧
      t = faultedState .illegalCommand (opcodeOf i) k s) ∨
    (s.runState = .idle ∧ prereqBroken (prereqOf i) s = false ∧
      (P t ∨ ∃ c op u k, Q c op u ∧ u.snk = some k ∧ t = faultedState c op k u)) := by
  rw [exec_command hc hn] at h
  rcases accept_cases i (bodyOf i) s with ⟨hi, he⟩ | ⟨hi, hp, he⟩ | ⟨r, he⟩ | ⟨hi, hp, he⟩
  · rw [he] at h; injection h with h; exact .inl ⟨hi, h.symm⟩
  · rw [he] at h
    rcases outcome_next_iff.1 h with h | h
    · exact absurd h (takeFault_ne_done _ _ _ _)
    · obtain ⟨k, hk, ht⟩ := takeFault_faulted h
      exact .inr (.inl ⟨hi, hp, k, hk, ht⟩)
  · rw [he] at h; cases h
  · rw [he] at h
    exact .inr (.inr ⟨hi, hp, (hb hi).next h⟩)

/-- Everything a header token can do. -/
theorem token_next_cases {i : Instr} (hc : i.isCommand = false) {s t : State} (h : exec i s = .next t) :
    (s.runState ≠ .busy ∧ t = s) ∨
    (s.runState = .busy ∧
      ((∃ k, s.snk = some k ∧ t = faultedState .treeOverflow 0xB k s) ∨
       (s.ncnt.toNat ≠ Config.nodeCap ∧
        ((i = .hdrInternal ∧ t = { s with ncnt := s.ncnt + 1, hdr := ⟨s.ncnt, none⟩ :: s.hdr }) ∨
         (∃ sym w, i = .hdrLeaf sym ∧
          w = closeNodes s.ncnt s.hdr (tablePut s.nt s.ncnt.toNat (.leaf (BitVec.ofNat 9 sym) 0)) ∧
          ((w.2.2 = none ∧ t = { s with ncnt := s.ncnt + 1, nt := w.1, hdr := w.2.1 }) ∨
           (∃ r, w.2.2 = some r ∧ t = { s with
              ncnt := s.ncnt + 1, nt := w.1, hdr := [], root := r, tv := true, tsrc := true,
              runState := .idle }))))))) := by
  have fault : (takeFault .treeOverflow (opcodeOf .rdhdr) s).outcome = .next t →
      ∃ k, s.snk = some k ∧ t = faultedState .treeOverflow 0xB k s := by
    intro h
    rcases outcome_next_iff.1 h with h | h
    · exact absurd h (takeFault_ne_done _ _ _ _)
    · exact takeFault_faulted h
  by_cases hs : s.runState = .busy
  · refine .inr ⟨hs, ?_⟩
    cases i with
    | hdrInternal =>
      rcases runHdrInternal_busy hs with ⟨_, he⟩ | ⟨hn, he⟩
      · exact .inl (fault (by rw [← he]; exact h))
      · have : Host.Outcome.next _ = Host.Outcome.next t := (congrArg Run.outcome he).symm.trans h
        injection this with this
        exact .inr ⟨hn, .inl ⟨rfl, this.symm⟩⟩
    | hdrLeaf sym =>
      rcases runHdrLeaf_busy hs sym with ⟨_, he⟩ | ⟨hn, w, hw, ⟨hr, he⟩ | ⟨r, hr, he⟩⟩
      · exact .inl (fault (by rw [← he]; exact h))
      · have : Host.Outcome.next _ = Host.Outcome.next t := (congrArg Run.outcome he).symm.trans h
        injection this with this
        exact .inr ⟨hn, .inr ⟨sym, w, rfl, hw, .inl ⟨hr, this.symm⟩⟩⟩
      · have : Host.Outcome.next _ = Host.Outcome.next t := (congrArg Run.outcome he).symm.trans h
        injection this with this
        exact .inr ⟨hn, .inr ⟨sym, w, rfl, hw, .inr ⟨r, hr, this.symm⟩⟩⟩
    | _ => cases hc
  · refine .inl ⟨hs, ?_⟩
    cases i with
    | hdrInternal =>
      change (runHdrInternal s).outcome = _ at h
      unfold runHdrInternal at h
      split at h
      · injection h with h; exact h.symm
      · injection h with h; exact h.symm
      · exact absurd ‹_› hs
    | hdrLeaf sym =>
      change (runHdrLeaf sym s).outcome = _ at h
      unfold runHdrLeaf at h
      split at h
      · injection h with h; exact h.symm
      · injection h with h; exact h.symm
      · exact absurd ‹_› hs
    | _ => cases hc

end Sys2Proof.Machine
end

