-- ==== Sys2Proof/Laws/Cases.lean ====
section
/-! SUPPORT. Everything a step can do when it gives a next state (20_memory.md R61, 46_orchestration.md R215, 60_exceptions.md
R250, log entry 3). -/

namespace Sys2Proof.Machine

/-- The primitives the composites are made of. -/
def primitives : List Instr :=
  [.count, .build, .gencodes, .wrmagic, .wrhdr, .rewind, .encode, .close, .rdmagic, .rdhdr, .decode]

/-- What every primitive's body keeps, along every end, every command's body but CLEAR's keeps. -/
theorem body_keeps {I : State → Prop}
    (h : ∀ i ∈ primitives, ∀ s, I s → Ends I (fun _ _ u => I u) (fun _ => True) (bodyOf i s)) {i : Instr}
    (hc : i.isCommand = true) (hn : i ≠ .clear) {s : State} (hs : I s) :
    Ends I (fun _ _ u => I u) (fun _ => True) (bodyOf i s) := by
  cases i with
  | clear => exact absurd rfl hn
  | compress =>
    show Ends _ _ _ (runCompress s)
    unfold runCompress
    exact Ends.andThen (Ends.andThen (Ends.andThen (Ends.andThen (Ends.andThen (Ends.andThen (Ends.andThen
      (h .count (by decide) s hs) (h .build (by decide))) (h .gencodes (by decide))) (h .wrmagic (by decide)))
      (h .wrhdr (by decide))) (h .rewind (by decide))) (h .encode (by decide))) (h .close (by decide))
  | decompress =>
    show Ends _ _ _ (runDecompress s)
    unfold runDecompress
    exact Ends.andThen (Ends.andThen (Ends.andThen (h .rdmagic (by decide) s hs) (h .rdhdr (by decide)))
      (h .decode (by decide))) (h .close (by decide))
  | hdrInternal => cases hc
  | hdrLeaf sym => cases hc
  | _ => exact h _ (by decide) s hs

/-- What a step that gives a next state did. -/
inductive Did (s t : State) : Prop where
  /-- Nothing but host actions taken, answers given and free words drawn. -/
  | answered (h : List HostAction) (r : List Reply) (d : Nat)
      (ht : t = { s with host := h, replies := r, draws := d })
  /-- A reset (R260). -/
  | reset (rest : List HostAction) (ht : t = clearCore { s with host := rest })
  /-- A word taken while STATE is not BUSY, whose command a reset abandons after some of its port calls (R260,
  R261). -/
  | abandoned (w : Word) (n : Nat) (cs : List PortCall) (rest : List HostAction) (hb : s.runState ≠ .busy)
      (hh : s.host = .cmdReset w n :: rest) (ht : t = clearCore (playCalls cs { s with host := rest }))
  /-- A source attached (R250). -/
  | attachedSrc (d : List Byte) (rest : List HostAction) (hh : s.host = .attachSrc d :: rest)
      (ht : t = { s with host := rest, src := some { data := d, pos := 0, exh := false, rew := false } })
  /-- A sink attached (R250). -/
  | attachedSnk (rest : List HostAction) (hh : s.host = .attachSnk :: rest)
      (ht : t = { s with host := rest, snk := some { bits := [], closed := false } })
  /-- A write of FREQ in IDLE (R64). -/
  | wroteFreq (sym : Nat) (w : Word) (rest : List HostAction) (hs : sym ≤ 256) (hi : s.runState = .idle)
      (ht : t = { s with host := rest, freq := freqPut s.freq sym (w.toNat % Config.countLimit s.params) })
  /-- A command word taken while STATE is not BUSY (R215). -/
  | command (i : Instr) (rest : List HostAction) (hb : s.runState ≠ .busy) (hc : i.isCommand = true)
      (hh : s.host = .hwrite 0 (encodeCommand i) :: rest) (he : exec i { s with host := rest } = .next t)
  /-- A word that is no command, in IDLE (R102). -/
  | illegal (w : Word) (rest : List HostAction) (k : Snk) (hi : s.runState = .idle) (hk : s.snk = some k)
      (hh : s.host = .hwrite 0 w :: rest)
      (ht : t = faultedState .illegalCommand (opField w) k { s with host := rest })
  /-- A token of the header that is open. -/
  | token (i : Instr) (p p' : Src) (hb : s.runState = .busy) (hc : i.isCommand = false) (hp : s.src = some p)
      (hl : SrcLater p p') (he : exec i { s with src := some p' } = .next t)
  /-- The header that is open cannot go on (R179, R180). -/
  | cut (c : FaultCode) (p p' : Src) (n : NodeIdx) (k : Snk) (hb : s.runState = .busy) (hp : s.src = some p)
      (hl : SrcLater p p') (hn : n = s.ncnt ∨ (n = s.ncnt + 1 ∧ s.ncnt.toNat ≠ Config.nodeCap)) (hk : s.snk = some k)
      (hc : c = .streamCorrupt ∨ c = .treeOverflow)
      (ht : t = faultedState c 0xB k { s with src := some p', ncnt := n })

theorem answer_did {s t : State} {rest : List HostAction} {r : Reply}
    (h : (answer r { s with host := rest }).outcome = .next t) : Did s t := by
  injection h with h; exact .answered rest (s.replies ++ [r]) s.draws h.symm

theorem answerFree_did {s t : State} {rest : List HostAction} {m : Word}
    (h : (answerFree m { s with host := rest }).outcome = .next t) : Did s t := by
  injection h with h
  exact .answered rest (s.replies ++ [.word (Config.freeWord s.draws &&& m)]) (s.draws + 1) h.symm

theorem hostRead_did {s t : State} {rest : List HostAction} {idx : WinIdx}
    (h : (hostRead idx { s with host := rest }).outcome = .next t) : Did s t := by
  unfold hostRead at h
  cases hc : windowCell idx <;> rw [hc] at h <;> simp only at h
  case cmd => cases h
  case unmapped => cases h
  case nodeFields => split at h <;> first | exact answer_did h | exact answerFree_did h
  case nodeWeight => split at h <;> first | exact answer_did h | exact answerFree_did h
  case codeHead => split at h <;> first | exact answer_did h | exact answerFree_did h
  case codeWord => split at h <;> first | exact answer_did h | exact answerFree_did h
  all_goals exact answer_did h

/-- A write of a window word while STATE is not BUSY. -/
theorem hostWrite_did {s t : State} {rest : List HostAction} {idx : WinIdx} {w : Word} (hb : s.runState ≠ .busy)
    (hh : s.host = .hwrite idx w :: rest) (h : (hostWrite idx w { s with host := rest }).outcome = .next t) :
    Did s t := by
  unfold hostWrite at h
  cases hc : windowCell idx <;> rw [hc] at h <;> simp only at h
  case cmd =>
    have h0 : idx = 0 := by
      unfold windowCell at hc
      simp only at hc
      repeat' split at hc
      all_goals first | (cases hc; done) | (exact BitVec.eq_of_toNat_eq ‹_›)
    subst h0
    cases hd : decodeCommand w with
    | ok i =>
      obtain ⟨hi, he⟩ := eq_encode_of_decode hd
      rw [hd] at h
      exact .command i rest hb hi (by rw [hh, he]) h
    | error r =>
      rw [hd] at h
      simp only [Event.outcome, illegalWord] at h
      cases hr : s.runState with
      | busy => exact absurd hr hb
      | fault =>
        rw [hr] at h; injection h with h
        exact .answered rest s.replies s.draws (by rw [← h, hr])
      | idle =>
        have hf : (takeFault .illegalCommand (opField w) { s with host := rest }).outcome = .next t := by
          rw [← h]; simp only [hr]
        rcases outcome_next_iff.1 hf with hf | hf
        · exact absurd hf (takeFault_ne_done _ _ _ _)
        · obtain ⟨k, hk, ht⟩ := takeFault_faulted hf
          exact .illegal w rest k hr hk hh ht
  case freq sym =>
    obtain ⟨hs, _⟩ := windowCell_freq_iff hc
    simp only [Event.outcome, hostWriteFreq] at h
    cases hr : s.runState with
    | busy => exact absurd hr hb
    | fault =>
      rw [hr] at h; injection h with h
      exact .answered rest s.replies s.draws (by rw [← h, hr])
    | idle =>
      rw [hr] at h; injection h with h
      exact .wroteFreq sym w rest hs hr (by rw [← h, hr])
  all_goals cases h

/-- A next state after a word whose command a reset abandons: some calls made, all else reset. -/
theorem hostCmdReset_next {s t : State} {w : Word} {n : Nat} (h : (hostCmdReset w n s).outcome = .next t) :
    ∃ cs, t = clearCore (playCalls cs s) := by
  unfold hostCmdReset at h
  split at h
  · rename_i i _
    rcases abandonCommand_cases i n s with ⟨_, he⟩ | ⟨f, _, he⟩ | ⟨r, _, he⟩ <;>
      simp only [Event.outcome, he] at h <;> cases h
    exact ⟨_, rfl⟩
  · simp only [Event.outcome, abandonIllegal] at h
    split at h
    · rename_i u hu
      have : u = s := by
        unfold illegalWord at hu
        split at hu
        · injection hu with hu; exact hu.symm
        · injection hu with hu; exact hu.symm
        · exact absurd hu (takeFault_ne_done _ _ _ _)
      injection h with h
      exact ⟨[], by rw [← h, this]; rfl⟩
    · injection h with h
      exact ⟨_, h.symm⟩
    · cases h
    · cases h

/-- A step that takes such a word. -/
theorem step_cmdReset {s t : State} {rest : List HostAction} {w : Word} {n : Nat} (hb : s.runState ≠ .busy)
    (hh : s.host = .cmdReset w n :: rest) (h : step s = .next t) :
    ∃ cs, t = clearCore (playCalls cs { s with host := rest }) := by
  rw [step_host hb hh] at h
  exact hostCmdReset_next h

/-- A step that takes such a word, for a command. -/
theorem step_cmdReset_command {s : State} {i : Instr} {rest : List HostAction} {w : Word} {n : Nat}
    (hb : s.runState ≠ .busy) (hh : s.host = .cmdReset w n :: rest) (hd : decodeCommand w = .ok i) :
    step s = abandonCommand i n { s with host := rest } := by
  rw [step_host hb hh]
  simp only [hostEvent, hostCmdReset, hd, Event.outcome]

/-- A token, or the end of the header, while a header is open. -/
theorem token_did {s t : State} (hb : s.runState = .busy) (h : (tokenEvent s).outcome = .next t) : Did s t := by
  unfold tokenEvent at h
  rcases fetchToken_src (s := s) with ⟨r, he⟩ | ⟨p', he⟩ | ⟨v, p', he⟩ <;> rw [he] at h
  · have go : ∀ {c : FaultCode} {p p' : Src} {n : NodeIdx}, s.src = some p → SrcLater p p' →
        (n = s.ncnt ∨ (n = s.ncnt + 1 ∧ s.ncnt.toNat ≠ Config.nodeCap)) → (c = .streamCorrupt ∨ c = .treeOverflow) →
        (takeFault c (opcodeOf .rdhdr) { s with src := some p', ncnt := n }).outcome = .next t → Did s t := by
      intro c p p' n hp hl hn hc h
      rcases outcome_next_iff.1 h with h | h
      · exact absurd h (takeFault_ne_done _ _ _ _)
      · obtain ⟨k, hk, ht⟩ := takeFault_faulted h
        exact .cut c p p' n k hb hp hl hn hk hc ht
    rcases fetchToken_settled he with rfl | ⟨p, p', hp, hl, rfl | ⟨_, rfl⟩ | ⟨hn, rfl⟩⟩
    · cases h
    · exact go hp hl (.inl rfl) (.inl rfl) h
    · exact go hp hl (.inl rfl) (.inr rfl) h
    · exact go hp hl (.inr ⟨rfl, hn⟩) (.inl rfl) h
  · obtain ⟨p, hp, hl⟩ := fetchToken_later (.inl he)
    exact .token .hdrInternal p p' hb rfl hp hl h
  · obtain ⟨p, hp, hl⟩ := fetchToken_later (.inr ⟨v, he⟩)
    exact .token (.hdrLeaf v) p p' hb rfl hp hl h

/-- Everything a step that gives a next state can have done. -/
theorem step_did {s t : State} (h : step s = .next t) : Did s t := by
  by_cases hb : s.runState = .busy
  · rcases step_busy hb with ⟨rest, _, he⟩ | ⟨rest, _, he⟩ | ⟨_, _, he⟩
    · rw [he] at h; injection h with h; exact .reset rest h.symm
    · rw [he] at h; injection h with h
      exact .answered rest (s.replies ++ [.word ((Config.freeWord s.draws &&& 0xFFFFFFFC) ||| 1)]) (s.draws + 1) h.symm
    · rw [he] at h; exact token_did hb h
  · cases hh : s.host with
    | nil =>
      rw [step_wait hb hh] at h; injection h with h
      exact .answered s.host s.replies s.draws h.symm
    | cons a rest =>
      rw [step_host hb hh] at h
      cases a with
      | reset => injection h with h; exact .reset rest h.symm
      | attachSrc d => injection h with h; exact .attachedSrc d rest hh h.symm
      | attachSnk => injection h with h; exact .attachedSnk rest hh h.symm
      | hwrite idx w => exact hostWrite_did hb hh h
      | hread idx => exact hostRead_did h
      | cmdReset w n =>
        obtain ⟨cs, ht⟩ := hostCmdReset_next h
        exact .abandoned w n cs rest hb hh ht
      | collect =>
        simp only [hostEvent, Event.outcome, hostCollect] at h
        split at h
        · cases h
        · split at h
          · exact answer_did h
          · cases h

end Sys2Proof.Machine
end

