-- ==== Sys2Proof/Laws/PerInstr.lean ====
section
/-! SUPPORT. The family EncodedForm: what each instruction's encoding is as bits (30_encoding.md R100, R101, R103, R110),
one lemma per constructor of Instr. -/

namespace Sys2Proof.Laws.EncodedForm

/-- An instruction that can be encoded is a command, whose word holds its opcode in bits 3:0, an opcode of 1 to 14, with
zeros above; or a header token, of one bit for INTERNAL and ten for LEAF, that its opcode field does not name. -/
def Statement (i : Instr) : Prop :=
  i.wf = true →
    (i.isCommand = true ∧ opField (encodeCommand i) = opcodeOf i ∧ (encodeCommand i).toNat = (opcodeOf i).toNat ∧
      1 ≤ (opcodeOf i).toNat ∧ (opcodeOf i).toNat ≤ 14 ∧ commandOf (opcodeOf i) = some i ∧ encodeToken i = []) ∨
    (i.isCommand = false ∧ opcodeOf i = 0 ∧
      ((i = .hdrInternal ∧ encodeToken i = [false]) ∨
       (∃ sym : Sym, i = .hdrLeaf sym.toNat ∧ (encodeToken i).length = 10 ∧
          ∃ c, encodeToken i = true :: c ∧ val c = sym.toNat)))

theorem clear : Statement .clear := fun _ => .inl (by decide)
theorem count : Statement .count := fun _ => .inl (by decide)
theorem build : Statement .build := fun _ => .inl (by decide)
theorem gencodes : Statement .gencodes := fun _ => .inl (by decide)
theorem wrmagic : Statement .wrmagic := fun _ => .inl (by decide)
theorem wrhdr : Statement .wrhdr := fun _ => .inl (by decide)
theorem rewind : Statement .rewind := fun _ => .inl (by decide)
theorem encode : Statement .encode := fun _ => .inl (by decide)
theorem close : Statement .close := fun _ => .inl (by decide)
theorem rdmagic : Statement .rdmagic := fun _ => .inl (by decide)
theorem rdhdr : Statement .rdhdr := fun _ => .inl (by decide)
theorem decode : Statement .decode := fun _ => .inl (by decide)
theorem compress : Statement .compress := fun _ => .inl (by decide)
theorem decompress : Statement .decompress := fun _ => .inl (by decide)
theorem hdrInternal : Statement .hdrInternal := fun _ => .inr ⟨rfl, rfl, .inl ⟨rfl, rfl⟩⟩

theorem hdrLeaf (sym : Nat) : Statement (.hdrLeaf sym) := by
  intro h
  have hs : sym < 2 ^ 9 := by simpa [Instr.wf] using h
  have hv : (BitVec.ofNat 9 sym).toNat = sym := by rw [BitVec.toNat_ofNat, Nat.mod_eq_of_lt hs]
  refine .inr ⟨rfl, rfl, .inr ⟨BitVec.ofNat 9 sym, by rw [hv], by simp [encodeToken], bits 9 sym, rfl, ?_⟩⟩
  rw [hv, val_bits hs]

end Sys2Proof.Laws.EncodedForm
end

