-- ==== Sys2Proof/Tests/Slice0.lean ====
section
/-! SUPPORT. Tests: encodings written out from spec/30_encoding.md, one small step per instruction with the values of
spec/95_test_vectors.md and of the worked examples, and for every statement with hypotheses a concrete state and
operands that meet them. -/

open Sys2Proof Sys2Proof.Machine

/-! ## Small states -/

/-- Reset, then a fresh source with content `d` and an empty open sink (70_reset_and_hazards.md R262). -/
def Tests.ready (d : List Byte) : State := attachSink (attachSource d State.reset)

/-- `s` with one host action pending. -/
def Tests.pending (a : HostAction) (s : State) : State := { s with host := [a] }

/-- The tree of "ab" as BUILD leaves it (95_test_vectors.md V21). -/
def Tests.abTree (d : List Byte) : State :=
  { Tests.ready d with
    freq := [(97, 1), (98, 1), (256, 1)]
    nt := [(0, .leaf 97 1), (1, .leaf 98 1), (2, .leaf 256 1), (3, .internal 0 1 2), (4, .internal 2 3 3)]
    root := 4
    ncnt := 5
    tv := true }

/-- With its code table (95_test_vectors.md V33). -/
def Tests.abCodes (d : List Byte) : State :=
  { Tests.abTree d with cv := true, ct := [(97, [true, false]), (98, [true, true]), (256, [false])] }

/-- A decoded tree in pre-order (43_header_codec.md R183): Node(Leaf(97), Node(Leaf(x), Leaf(256))). -/
def Tests.decoded (x : Sym) (d : List Byte) : State :=
  { Tests.ready d with
    nt := [(0, .internal 1 2 0), (1, .leaf 97 0), (2, .internal 3 4 0), (3, .leaf x 0), (4, .leaf 256 0)]
    root := 0
    ncnt := 5
    tv := true
    tsrc := true }

/-- A decoded tree that is one leaf (95_test_vectors.md V4F). -/
def Tests.oneLeaf (d : List Byte) : State :=
  { Tests.ready d with nt := [(0, .leaf 97 0)], root := 0, ncnt := 1, tv := true, tsrc := true }

/-- `s` with its sink closed. -/
def Tests.shut (s : State) : State := { s with snk := some { bits := [], closed := true } }

/-- `s` in FAULT (95_test_vectors.md V93: ENCODE without a code table). -/
def Tests.faulted (s : State) : State :=
  { Tests.shut s with runState := .fault, err := .illegalCommand, fop := 0x8 }

/-- Does the outcome give a next state with this property? -/
def Tests.nextIs (o : Host.Outcome State Fault Refusal) (p : State → Prop) [DecidablePred p] : Bool :=
  match o with
  | .next t => decide (p t)
  | .fault _ => false
  | .refused _ => false

/-! ## Well-formed and ill-formed terms -/

theorem test_wf_leaf_symbol_of_nine_bits : (Instr.hdrLeaf 511).wf = true ∧ (Instr.hdrLeaf 0).wf = true := by decide
theorem test_wf_refuses_leaf_symbol_of_ten_bits : (Instr.hdrLeaf 512).wf = false := by decide
theorem test_wf_commands : Instr.clear.wf = true ∧ Instr.decompress.wf = true ∧ Instr.hdrInternal.wf = true := by
  decide
/-- What the check keeps out: 512 does not fit in 9 bits, so its encoding is another symbol's. -/
theorem test_ill_formed_leaf_is_not_its_encoding : decode (encode (.hdrLeaf 512)) = .ok (.hdrLeaf 0) := by decide

/-! ## Decoding words written out from R101 and tokens from R110 -/

theorem test_decode_clear : decodeCommand 0b00000000000000000000000000000001 = .ok .clear := by decide
theorem test_decode_count : decodeCommand 0b00000000000000000000000000000010 = .ok .count := by decide
theorem test_decode_build : decodeCommand 0b00000000000000000000000000000011 = .ok .build := by decide
theorem test_decode_gencodes : decodeCommand 0b00000000000000000000000000000100 = .ok .gencodes := by decide
theorem test_decode_wrmagic : decodeCommand 0b00000000000000000000000000000101 = .ok .wrmagic := by decide
theorem test_decode_wrhdr : decodeCommand 0b00000000000000000000000000000110 = .ok .wrhdr := by decide
theorem test_decode_rewind : decodeCommand 0b00000000000000000000000000000111 = .ok .rewind := by decide
theorem test_decode_encode : decodeCommand 0b00000000000000000000000000001000 = .ok .encode := by decide
theorem test_decode_close : decodeCommand 0b00000000000000000000000000001001 = .ok .close := by decide
theorem test_decode_rdmagic : decodeCommand 0b00000000000000000000000000001010 = .ok .rdmagic := by decide
theorem test_decode_rdhdr : decodeCommand 0b00000000000000000000000000001011 = .ok .rdhdr := by decide
theorem test_decode_decode : decodeCommand 0b00000000000000000000000000001100 = .ok .decode := by decide
theorem test_decode_compress : decodeCommand 0b00000000000000000000000000001101 = .ok .compress := by decide
theorem test_decode_decompress : decodeCommand 0b00000000000000000000000000001110 = .ok .decompress := by decide
/-- R102, V90, V91, V92: both reserved opcodes, and the lowest and the highest bit that must be zero. -/
theorem test_decode_rejects : decodeCommand 0x00000000 = .error .reservedOpcode ∧
    decodeCommand 0x0000000F = .error .reservedOpcode ∧ decodeCommand 0x00000012 = .error .upperBitsSet ∧
    decodeCommand 0x80000001 = .error .upperBitsSet := by decide

theorem test_decode_internal : decodeToken [false, true, true] = .ok (.hdrInternal, [true, true]) := by decide
/-- `1 001100001` is LEAF(97) (43_header_codec.md R170). -/
theorem test_decode_leaf :
    decodeToken [true, false, false, true, true, false, false, false, false, true, false] =
      .ok (.hdrLeaf 97, [false]) := by decide
/-- `1 100000000` is LEAF(256), `1 111111111` LEAF(511). -/
theorem test_decode_leaf_high :
    decodeToken (true :: true :: List.replicate 8 false) = .ok (.hdrLeaf 256, []) ∧
    decodeToken (List.replicate 10 true) = .ok (.hdrLeaf 511, []) := by decide
theorem test_decode_token_cut :
    decodeToken [] = .error .tagMissing ∧ decodeToken (List.replicate 9 true) = .error .symbolCut := by decide

/-- R166: the marker's bits. -/
theorem test_bits_of_magic : bits 32 0xFACE8201 =
    [true, true, true, true, true, false, true, false, true, true, false, false, true, true, true, false,
     true, false, false, false, false, false, true, false, false, false, false, false, false, false, false, true] := by
  decide

/-! ## The opcode table's rows -/

theorem test_table_word_commands :
    decodeTableWord 32 0x1 = some .clear ∧ decodeTableWord 32 0xB = some .rdhdr ∧
    decodeTableWord 32 0xE = some .decompress ∧ decodeTableWord 32 0xF = none ∧ decodeTableWord 32 0x10 = none := by
  decide
/-- Log entry 15: stream bit 0 of a token is bit 0 of the number. -/
theorem test_table_word_tokens :
    decodeTableWord 8 0 = some .hdrInternal ∧ decodeTableWord 8 1 = some (.hdrLeaf 0) ∧
    decodeTableWord 16 0b1000011001 = some (.hdrLeaf 97) := by decide
theorem test_fetch_word_runs_a_command :
    Tests.nextIs (step (State.reset.withFetchWord 32 0x2)) (fun t => freqAt t.freq 256 = 1 ∧ t.host = []) = true := by
  decide
theorem test_fetch_word_runs_a_token :
    Tests.nextIs (step (State.reset.withFetchWord 16 0b1000011001))
      (fun t => t.nt = [(0, .leaf 97 0)] ∧ t.root = 0 ∧ t.tv = true ∧ t.runState = .idle) = true := by decide

/-! ## One step of each instruction -/

/-- V95, V96: out of FAULT; the ports stay. -/
theorem test_clear : Tests.nextIs (exec .clear (Tests.faulted (Tests.abCodes [0x61])))
    (fun t => statusWord t = 0x00000800 ∧ t.nt = [] ∧ t.ct = [] ∧ t.freq = [] ∧ t.root = 0x3FF ∧ t.ncnt = 0) = true := by
  decide
/-- V10. -/
theorem test_count : Tests.nextIs (exec .count (Tests.ready [0x61, 0x61, 0x62]))
    (fun t => t.freq = [(97, 2), (98, 1), (256, 1)] ∧ statusWord t = 0x00002000 ∧
      t.src.map (·.pos) = some 24) = true := by decide
/-- V14, with COUNT_W = 2. -/
theorem test_count_full :
    Tests.nextIs (exec .count { Tests.ready [0x61, 0x61, 0x61, 0x61] with
        params := { magic := 0xFACE8201, countWLess1 := 1 } })
      (fun t => t.freq = [(97, 3)] ∧ statusWord t = 0x00020852) = true := by decide
/-- V21. -/
theorem test_build :
    Tests.nextIs (exec .build { Tests.ready [] with freq := [(97, 1), (98, 1), (256, 1)] })
      (fun t => t.nt = (Tests.abTree []).nt ∧ t.root = 4 ∧ t.ncnt = 5 ∧ statusWord t = 0x00000100) = true := by
  decide +kernel
/-- V27: the weight sum is 2^32. -/
theorem test_build_overflow :
    Tests.nextIs (exec .build { Tests.ready [] with freq := [(0, 4294967295), (256, 1)] })
      (fun t => statusWord t = 0x00030852 ∧ t.root = 0x3FF ∧ t.ncnt = 2) = true := by decide +kernel
/-- V33. -/
theorem test_gencodes : Tests.nextIs (exec .gencodes (Tests.abTree []))
    (fun t => t.ct = (Tests.abCodes []).ct ∧ statusWord t = 0x00000300) = true := by decide
/-- V3C: symbol 97 on two leaves. -/
theorem test_gencodes_duplicate : Tests.nextIs (exec .gencodes (Tests.decoded 97 []))
    (fun t => t.ct = [(97, [false])] ∧ statusWord t = 0x00040D42) = true := by decide
/-- 43_header_codec.md R166. -/
theorem test_wrmagic : Tests.nextIs (exec .wrmagic (Tests.ready []))
    (fun t => t.snk.map (fun k => bytesOf k.bits) = some [0xFA, 0xCE, 0x82, 0x01]) = true := by decide
/-- V41. -/
theorem test_wrhdr : Tests.nextIs (exec .wrhdr (Tests.abTree []))
    (fun t => t.snk.map (fun k => bytesOf k.bits) = some [0x60, 0x09, 0x86, 0x62]) = true := by decide
/-- 44_payload_encode.md R186. -/
theorem test_rewind :
    Tests.nextIs (exec .rewind { Tests.ready [] with
        src := some { data := [0x61, 0x61, 0x62], pos := 24, exh := true, rew := false } })
      (fun t => t.src = some { data := [0x61, 0x61, 0x62], pos := 0, exh := false, rew := true } ∧
        statusWord t = 0x00001000) = true := by decide
/-- PRG3's payload: `10`, `11`, `0`. -/
theorem test_encode : Tests.nextIs (exec .encode (Tests.abCodes [0x61, 0x62]))
    (fun t => t.snk.map (·.bits) = some [true, false, true, true, false]) = true := by decide
/-- V86: no code for 63. -/
theorem test_encode_missing : Tests.nextIs (exec .encode (Tests.abCodes [0x61, 0x62, 0x63]))
    (fun t => statusWord t = 0x00080B72 ∧ t.snk.map (fun k => bytesOf k.bits) = some [0xB0] ∧
      t.src.map (·.pos) = some 24) = true := by decide
/-- V87: 69 bits become 72. -/
theorem test_close :
    Tests.nextIs (exec .close { Tests.ready [] with snk := some { bits := List.replicate 69 true, closed := false } })
      (fun t => t.snk = some { bits := List.replicate 69 true ++ [false, false, false], closed := true }) = true := by
  decide +kernel
/-- V89. -/
theorem test_close_twice : Tests.nextIs (exec .close (Tests.shut (Tests.ready [])))
    (fun t => t.err = .illegalCommand ∧ t.fop = 9 ∧ t.runState = .fault) = true := by decide
/-- 43_header_codec.md R174. -/
theorem test_rdmagic : Tests.nextIs (exec .rdmagic (Tests.ready [0xFA, 0xCE, 0x82, 0x01, 0x40, 0x18, 0x04]))
    (fun t => t.src.map (·.pos) = some 32 ∧ t.runState = .idle) = true := by decide
/-- V44: 24 bits are no marker. -/
theorem test_rdmagic_short : Tests.nextIs (exec .rdmagic (Tests.ready [0xFA, 0xCE, 0x82]))
    (fun t => statusWord t = 0x000A2812 ∧ t.src.map (·.pos) = some 24) = true := by decide
/-- V41r. -/
theorem test_rdhdr : Tests.nextIs (exec .rdhdr (Tests.ready [0x60, 0x09, 0x86, 0x62]))
    (fun t => t.nt = [(0, .internal 1 2 0), (1, .leaf 256 0), (2, .internal 3 4 0), (3, .leaf 97 0), (4, .leaf 98 0)] ∧
      t.root = 0 ∧ t.ncnt = 5 ∧ statusWord t = 0x00000500 ∧ t.src.map (·.pos) = some 32) = true := by decide
/-- V46 after its marker: cut inside a symbol, the node counted. -/
theorem test_rdhdr_cut : Tests.nextIs (exec .rdhdr (Tests.ready [0x40]))
    (fun t => statusWord t = 0x000B2822 ∧ t.ncnt = 2 ∧ t.root = 0x3FF) = true := by decide
/-- R210. -/
theorem test_decode : Tests.nextIs (exec .decode (Tests.decoded 98 [0x2C]))
    (fun t => t.snk.map (fun k => bytesOf k.bits) = some [0x61, 0x61, 0x62] ∧ t.cur = 4 ∧ t.dst = .atLeafEof ∧
      t.src.map (·.pos) = some 6 ∧ t.runState = .idle) = true := by decide
/-- V57's fault on a leaf above 256, here the second leaf: `10` of the byte 80. -/
theorem test_decode_leaf_above_256 : Tests.nextIs (exec .decode (Tests.decoded 300 [0x80]))
    (fun t => statusWord t = 0x000C4D42 ∧ t.cur = 3 ∧ t.src.map (·.pos) = some 2) = true := by decide
/-- V64. -/
theorem test_compress : Tests.nextIs (exec .compress (Tests.ready [0x61, 0x61, 0x62]))
    (fun t => t.snk.map (fun k => bytesOf k.bits) =
        some [0xFA, 0xCE, 0x82, 0x01, 0x4C, 0x29, 0x8B, 0x00, 0x2C] ∧ statusWord t = 0x00003B00) = true := by
  decide +kernel
/-- V60: the empty input. -/
theorem test_compress_empty : Tests.nextIs (exec .compress (Tests.ready []))
    (fun t => t.snk.map (fun k => bytesOf k.bits) = some [0xFA, 0xCE, 0x82, 0x01, 0x40, 0x18, 0x04]) = true := by
  decide +kernel
/-- V51: the bits after the EOS code stay unread. -/
theorem test_decompress :
    Tests.nextIs (exec .decompress (Tests.ready [0xFA, 0xCE, 0x82, 0x01, 0x4C, 0x38, 0x02, 0xDE, 0xAD]))
      (fun t => t.snk.map (fun k => bytesOf k.bits) = some [0x61] ∧ t.cur = 2 ∧ t.src.map (·.pos) = some 55 ∧
        statusWord t = 0x00008D00) = true := by decide +kernel
/-- V55: a root that is a leaf. -/
theorem test_decompress_leaf_root : Tests.nextIs (exec .decompress (Tests.ready [0xFA, 0xCE, 0x82, 0x01, 0x98, 0x40]))
    (fun t => statusWord t = 0x000C0D42 ∧ t.cur = 0) = true := by decide +kernel
/-- R175, R176: the index is taken, the node is open. -/
theorem test_hdrInternal : Tests.nextIs (exec .hdrInternal (openHeader (Tests.ready [])))
    (fun t => t.ncnt = 1 ∧ t.hdr = [{ node := 0, left := none }] ∧ t.runState = .busy) = true := by decide
/-- R183's last token: LEAF(256) as NT[4] ends NT[2] and then NT[0]. -/
theorem test_hdrLeaf :
    Tests.nextIs (exec (.hdrLeaf 256) { openHeader (Tests.ready []) with
        ncnt := 4, nt := [(1, .leaf 97 0), (3, .leaf 98 0)],
        hdr := [{ node := 2, left := some 3 }, { node := 0, left := some 1 }] })
      (fun t => t.nt = (Tests.decoded 98 []).nt ∧ t.root = 0 ∧ t.ncnt = 5 ∧ t.tv = true ∧ t.hdr = []) = true := by decide

/-! ## The host window (95_test_vectors.md section 2.8) -/

/-- The word a host read answers in the state of section 2.8. -/
def Tests.readAt (idx : WinIdx) (w : Word) : Bool :=
  Tests.nextIs (step (Tests.pending (.hread idx)
      { Tests.abCodes [0x61, 0x62] with src := some { data := [0x61, 0x62], pos := 16, exh := true, rew := false } }))
    (fun t => t.replies = [.word w])

theorem test_window_registers : Tests.readAt 0x0001 0x00002300 = true ∧ Tests.readAt 0x0002 0x00000004 = true ∧
    Tests.readAt 0x0003 0x00000005 = true ∧ Tests.readAt 0x0004 0x000003FF = true := by decide
theorem test_window_freq : Tests.readAt 0x0161 0x00000001 = true ∧ Tests.readAt 0x0163 0x00000000 = true ∧
    Tests.readAt 0x0200 0x00000001 = true := by decide
theorem test_window_nt : Tests.readAt 0x0400 0xBFFFFC61 = true ∧ Tests.readAt 0x0404 0xBFFFFD00 = true ∧
    Tests.readAt 0x0406 0x00100000 = true ∧ Tests.readAt 0x0408 0x00300800 = true ∧
    Tests.readAt 0x0409 0x00000003 = true := by decide
theorem test_window_ct : Tests.readAt 0x1610 0x80000002 = true ∧ Tests.readAt 0x1611 0x80000000 = true ∧
    Tests.readAt 0x1618 0x00000000 = true ∧ Tests.readAt 0x1621 0xC0000000 = true ∧
    Tests.readAt 0x2000 0x80000001 = true ∧ Tests.readAt 0x2001 0x00000000 = true := by decide
/-- R117's example: code `101`. -/
theorem test_code_words : codeHeadWord [true, false, true] = 0x80000003 ∧
    codeBodyWord [true, false, true] 1 = 0xA0000000 ∧ codeBodyWord [true, false, true] 2 = 0 := by decide
/-- Section 2.8: truncated to two bits with COUNT_W = 2. -/
theorem test_window_write_truncates :
    Tests.nextIs (step (Tests.pending (.hwrite 0x0141 7)
        { Tests.ready [] with params := { magic := 0xFACE8201, countWLess1 := 1 } }))
      (fun t => t.freq = [(65, 3)]) = true := by decide
/-- V92. -/
theorem test_illegal_word : Tests.nextIs (step (Tests.pending (.hwrite 0 0x12) (Tests.ready [])))
    (fun t => statusWord t = 0x00020882 ∧ t.freq = []) = true := by decide

/-! ## A reset during a command (70_reset_and_hazards.md R260, R261): the calls counted in the pseudocode by hand -/

/-- COUNT after two reads: 16 bits consumed, the counts gone. -/
theorem test_reset_abandons_count :
    Tests.nextIs (step (Tests.pending (.cmdReset 0x2 2) (Tests.ready [0x61, 0x61, 0x62])))
      (fun t => t.src = some { data := [0x61, 0x61, 0x62], pos := 16, exh := false, rew := false } ∧ t.freq = [] ∧
        t.runState = .idle ∧ t.host = []) = true := by decide
/-- ENCODE after a read, the two bits of `10`, a read and the first bit of `11`: the sink open, not padded. -/
theorem test_reset_abandons_encode :
    Tests.nextIs (step (Tests.pending (.cmdReset 0x8 5) (Tests.abCodes [0x61, 0x62])))
      (fun t => t.src.map (·.pos) = some 16 ∧ t.snk = some { bits := [true, false, true], closed := false } ∧
        t.tv = false ∧ t.cv = false) = true := by decide
/-- RDHDR after the tag 0, the tag 1 and its symbol: 11 bits. -/
theorem test_reset_abandons_rdhdr :
    Tests.nextIs (step (Tests.pending (.cmdReset 0xB 3) (Tests.ready [0x60, 0x09, 0x86, 0x62])))
      (fun t => t.src.map (·.pos) = some 11 ∧ t.nt = [] ∧ t.ncnt = 0) = true := by decide
/-- DECODE after three bits and the two bytes they gave. -/
theorem test_reset_abandons_decode :
    Tests.nextIs (step (Tests.pending (.cmdReset 0xC 5) (Tests.decoded 98 [0x2C])))
      (fun t => t.src.map (·.pos) = some 3 ∧ t.snk.map (fun k => bytesOf k.bits) = some [0x61, 0x61] ∧
        t.snk.map (·.closed) = some false ∧ t.cur = 0x3FF) = true := by decide
/-- COMPRESS of "a": two reads, the marker and the header's first bit. -/
theorem test_reset_abandons_compress :
    Tests.nextIs (step (Tests.pending (.cmdReset 0xD 4) (Tests.ready [0x61])))
      (fun t => t.src = some { data := [0x61], pos := 8, exh := true, rew := false } ∧
        t.snk = some { bits := bits 32 0xFACE8201 ++ [false], closed := false } ∧ t.nt = []) = true := by decide +kernel
/-- A fault's close is the last call: RDMAGIC on a short source after its read alone, and after the close too. -/
theorem test_reset_abandons_fault_entry :
    Tests.nextIs (step (Tests.pending (.cmdReset 0xA 1) (Tests.ready [0xFA])))
      (fun t => t.snk.map (·.closed) = some false ∧ t.src.map (·.exh) = some true ∧ t.err = .none) = true ∧
    Tests.nextIs (step (Tests.pending (.cmdReset 0xA 2) (Tests.ready [0xFA])))
      (fun t => t.snk.map (·.closed) = some true ∧ t.err = .none ∧ t.runState = .idle) = true := by decide

/-! ## Witnesses: states and operands that meet the hypotheses of each statement -/

theorem witness_DecodeOfEncode : (Instr.hdrLeaf 0).wf = true ∧ (Instr.hdrLeaf 511).wf = true ∧ Instr.clear.wf = true := by
  decide

theorem witness_HeaderParsesOneWay :
    (HuffTree.node (.leaf 0) (.leaf 256)).header ++ [true] = (HuffTree.node (.leaf 0) (.leaf 256)).header ++ [true] := rfl

theorem witness_TableWordFields : (List.replicate 256 true).length ≤ 256 ∧ ([] : Bits).length ≤ 256 ∧ (0 < 256 ∧ 255 < 256) := by
  decide +kernel

theorem witness_StepRunsTheCommand :
    (Tests.pending (.hwrite 0 0x2) (Tests.ready [])).runState ≠ .busy ∧
    (Tests.pending (.hwrite 0 0x2) (Tests.ready [])).host = [.hwrite 0 0x2] ∧ decodeCommand 0x2 = .ok .count := by decide

/-- A header open over the bits of LEAF(97). -/
def Tests.openOver (d : List Byte) : State := openHeader (Tests.ready d)

theorem witness_StepRunsTheToken :
    (Tests.openOver [0x98, 0x40]).runState = .busy ∧
    (Tests.openOver [0x98, 0x40]).src = some { data := [0x98, 0x40], pos := 0, exh := false, rew := false } ∧
    (Tests.openOver [0x98, 0x40]).ncnt.toNat ≠ 513 ∧
    decodeToken (bitsLeft { data := [0x98, 0x40], pos := 0, exh := false, rew := false }) =
      .ok (.hdrLeaf 97, List.replicate 6 false) ∧
    (∀ h, (Tests.openOver [0x98, 0x40]).host ≠ .reset :: h) ∧
    (∀ h, (Tests.openOver [0x98, 0x40]).host ≠ .hread 1 :: h) :=
  ⟨by decide, by decide, by decide, by decide, (by intro h e; cases e), (by intro h e; cases e)⟩

theorem witness_IllegalWordFaults :
    (Tests.ready []).runState = .idle ∧ (Tests.ready []).err = .none ∧
    (Tests.ready []).snk = some { bits := [], closed := false } ∧
    (Tests.pending (.hwrite 0 0) (Tests.ready [])).host = [.hwrite 0 0] ∧
    (0x00000000 : Word).extractLsb' 0 4 = (0x0 : Opcode) ∧ (0x0000000F : Word).extractLsb' 0 4 = (0xF : Opcode) ∧
    (0x00000012 : Word).extractLsb' 4 28 ≠ (0 : BitVec 28) ∧ (0x80000001 : Word).extractLsb' 4 28 ≠ (0 : BitVec 28) := by
  decide

/-- The states in which a prerequisite fails, column by column, and one in which none does. -/
theorem witness_PrerequisitesAreTested :
    ((Tests.ready []).runState = .idle ∧ (Tests.ready []).err = .none ∧
      (Tests.ready []).snk = some { bits := [], closed := false } ∧ Instr.decode.isCommand = true ∧
      Instr.decode ∈ [Instr.gencodes, .wrhdr, .decode] ∧ (Tests.ready []).tv = false ∧ (Tests.ready []).cv = false) ∧
    ((Tests.shut (Tests.ready [])).runState = .idle ∧ (Tests.shut (Tests.ready [])).err = .none ∧
      (Tests.shut (Tests.ready [])).snk = some { bits := [], closed := true } ∧
      Instr.close ∈ [Instr.wrmagic, .wrhdr, .encode, .close, .decode, .compress, .decompress]) ∧
    (∃ p : Src, { Tests.ready [] with src := some (srcRewind { data := [], pos := 0, exh := false, rew := false }) }.src =
      some p ∧ p.rew = true) ∧
    ¬ ((Instr.decode ∈ [Instr.gencodes, .wrhdr, .decode] ∧ (Tests.abTree []).tv = false) ∨
        (Instr.decode = .encode ∧ (Tests.abTree []).cv = false) ∨
        (Instr.decode ∈ [Instr.wrmagic, .wrhdr, .encode, .close, .decode, .compress, .decompress] ∧
          (Snk.mk [] false).closed = true) ∨
        (Instr.decode ∈ [Instr.rewind, .compress] ∧ ∃ p, (Tests.abTree []).src = some p ∧ p.rew = true)) :=
  ⟨by decide, by decide, ⟨_, rfl, rfl⟩, by
    rintro (h | h | h | ⟨h, -⟩)
    · exact absurd h (by decide)
    · exact absurd h (by decide)
    · exact absurd h (by decide)
    · exact absurd h (by decide)⟩

theorem witness_FaultIsLeftByClearOrReset :
    (Tests.faulted (Tests.ready [])).runState = .fault ∧
    ((0x2 : Word) ≠ 0x00000001 ∧ (Tests.pending (.hwrite 0 0x2) (Tests.faulted (Tests.ready []))).host = [.hwrite 0 0x2]) ∧
    (0x0100 ≤ (0x0100 : WinIdx).toNat ∧ (0x0200 : WinIdx).toNat ≤ 0x0200) ∧
    (windowCell 0x0001 ≠ .cmd ∧ windowCell 0x0001 ≠ .unmapped ∧ windowCell 0x2008 ≠ .cmd ∧
      windowCell 0x2008 ≠ .unmapped) ∧
    (Tests.pending .reset (Tests.faulted (Tests.ready []))).host = [.reset] := by decide

theorem witness_ClearGivesTheResetState :
    ((Tests.abCodes []).runState = .idle ∨ (Tests.abCodes []).runState = .fault) ∧
    (Tests.faulted (Tests.ready [])).runState = .fault ∧ Instr.count.isCommand = true ∧ Instr.count ≠ .clear := by decide

theorem witness_ResetValues :
    ((Tests.abCodes []).runState ≠ .busy ∧ exec .clear (Tests.abCodes []) = .next (Tests.ready [])) ∧
    ((Tests.pending .reset (Tests.openOver [])).host = [.reset] ∧
      ∃ t, step (Tests.pending .reset (Tests.openOver [])) = .next t) ∧
    ((Tests.pending (.cmdReset 0x2 1) (Tests.ready [])).runState ≠ .busy ∧
      (Tests.pending (.cmdReset 0x2 1) (Tests.ready [])).host = [.cmdReset 0x2 1] ∧
      ∃ t, step (Tests.pending (.cmdReset 0x2 1) (Tests.ready [])) = .next t) ∧
    ((Tests.ready []).snk = some (Snk.mk [] false) ∧ (Tests.ready []).src = some (Src.mk [] 0 false false)) :=
  ⟨⟨by decide, rfl⟩, ⟨by decide, _, rfl⟩, ⟨by decide, by decide, _, rfl⟩, by decide⟩

/-- A reset alone; one before the first call and one after the last; a word that is no command; nothing to do. -/
theorem witness_ResetAtAnyTime :
    ((Tests.pending .reset (Tests.openOver [])).host = [.reset] ∧ (Tests.pending .reset (Tests.ready [])).host = [.reset]) ∧
    ((Tests.pending (.cmdReset 0x2 0) (Tests.ready [0x61])).runState ≠ .busy ∧
      (Tests.pending (.cmdReset 0x2 0) (Tests.ready [0x61])).host = [.cmdReset 0x2 0] ∧
      (Tests.pending (.cmdReset 0x2 9) (Tests.ready [0x61])).host = [.cmdReset 0x2 9] ∧
      decodeCommand 0x2 = .ok .count ∧ ∃ t, exec .count (Tests.ready [0x61]) = .next t) ∧
    (Instr.count.isCommand = true ∧ Instr.clear.isCommand = true ∧ ∃ t, exec .clear (Tests.ready []) = .next t) ∧
    ((Tests.ready []).runState = .idle ∧ (Tests.ready []).snk = some (Snk.mk [] false) ∧
      (Tests.pending (.cmdReset 0xF 0) (Tests.ready [])).host = [.cmdReset 0xF 0] ∧
      (Tests.pending (.cmdReset 0xF 1) (Tests.ready [])).host = [.cmdReset 0xF 1] ∧
      decodeCommand 0xF = .error .reservedOpcode) ∧
    ((Tests.ready []).runState ≠ .busy ∧ (Tests.ready []).host = []) :=
  ⟨by decide, ⟨by decide, by decide, by decide, by decide, _, rfl⟩, ⟨by decide, by decide, _, rfl⟩, by decide, by decide⟩

theorem witness_FaultEntry : (Tests.ready []).snk = some (Snk.mk [] false) ∧ (Snk.mk [] false).closed = false ∧
    (Tests.ready []).err = .none ∧ (Tests.faulted (Tests.ready [])).snk = some (Snk.mk [] true) ∧
    (Snk.mk [] true).closed = true ∧ (Tests.faulted (Tests.ready [])).err ≠ .none := by decide

/-- An IllegalCommand, and a fault of each phase. -/
theorem witness_FaultsByPhase :
    (Tests.ready []).err = .none ∧
    Tests.nextIs (exec .encode (Tests.ready [])) (fun t => t.err = .illegalCommand ∧ t.fop = 0x8) = true ∧
    Tests.nextIs (exec .rdmagic (Tests.ready [])) (fun t => t.err = .formatError ∧ t.fop = 0xA) = true ∧
    Tests.nextIs (exec .rdhdr (Tests.ready [])) (fun t => t.err = .streamCorrupt ∧ t.fop = 0xB) = true ∧
    Tests.nextIs (exec .decode (Tests.abTree [])) (fun t => t.err = .badInput ∧ t.fop = 0xC) = true ∧
    Tests.nextIs (exec .decode (Tests.oneLeaf [0])) (fun t => t.err = .decodeCorrupt ∧ t.fop = 0xC) = true ∧
    Tests.nextIs (exec .gencodes (Tests.oneLeaf [])) (fun t => t.err = .decodeCorrupt ∧ t.fop = 0x4) = true ∧
    Tests.nextIs (exec (.hdrLeaf 0) { Tests.openOver [] with ncnt := 513 })
      (fun t => t.err = .treeOverflow ∧ t.fop = 0xB) = true ∧
    Tests.nextIs (exec .encode (Tests.abCodes [0])) (fun t => t.err = .codeMissing ∧ t.fop = 0x8) = true := by decide

theorem witness_StatusFields : (Tests.ready []).snk = some (Snk.mk [] false) ∧
    (Tests.ready []).src = some (Src.mk [] 0 false false) := by decide

/-- NT full, its last entry a leaf (95_test_vectors.md V31 has 513 entries). -/
def Tests.fullTable : State :=
  { Tests.ready [] with nt := [(0, .leaf 0 1), (512, .leaf 256 1)], ncnt := 513, root := 512, tv := true }

theorem witness_HostReadsTheWindow :
    (Tests.abCodes []).runState ≠ .busy ∧ (Tests.pending (.hread 1) (Tests.abCodes [])).host = [.hread 1] ∧
    ((0 : Nat) ≤ 256 ∧ (0x0100 : WinIdx).toNat = 0x0100 + 0 ∧ freqAt (Tests.abCodes []).freq 0 < Config.countLimit (Tests.abCodes []).params) ∧
    ((256 : Nat) ≤ 256 ∧ (0x0200 : WinIdx).toNat = 0x0100 + 256 ∧
      freqAt (Tests.abCodes []).freq 256 < Config.countLimit (Tests.abCodes []).params) ∧
    (Tests.fullTable.tv = true ∧ 0 < Tests.fullTable.ncnt.toNat ∧ tableGet Tests.fullTable.nt 0 = some (.leaf 0 1) ∧
      512 < Tests.fullTable.ncnt.toNat ∧ tableGet Tests.fullTable.nt 512 = some (.leaf 256 1) ∧
      nodeWeight (.leaf 256 1) < Config.countLimit Tests.fullTable.params ∧
      (0x0400 : WinIdx).toNat = 0x0400 + 2 * 0 ∧ (0x0800 : WinIdx).toNat = 0x0400 + 2 * 512 ∧
      (0x0801 : WinIdx).toNat = 0x0401 + 2 * 512) ∧
    (tableGet (Tests.abCodes []).ct 256 = some [false] ∧ (0x2000 : WinIdx).toNat = 0x1000 + 16 * 256 ∧
      (0x2001 : WinIdx).toNat = 0x1000 + 16 * 256 + 1 ∧ (0x2008 : WinIdx).toNat = 0x1000 + 16 * 256 + 8) := by decide

theorem witness_UnspecifiedReadsAnswerAnyWord :
    (Tests.ready []).runState ≠ .busy ∧ (Tests.pending (.hread 0x0400) (Tests.ready [])).host = [.hread 0x0400] ∧
    ((Tests.ready []).tv = false ∧ (0x0400 : WinIdx).toNat = 0x0400 + 2 * 0 + 0 ∧
      (0x0801 : WinIdx).toNat = 0x0400 + 2 * 512 + 1 ∧ (Tests.abTree []).ncnt.toNat ≤ 5 ∧
      (0x040A : WinIdx).toNat = 0x0400 + 2 * 5 + 0) ∧
    (tableGet (Tests.ready []).ct 0 = none ∧ (0x1000 : WinIdx).toNat = 0x1000 + 16 * 0 + 0 ∧
      tableGet (Tests.ready []).ct 256 = none ∧ (0x2008 : WinIdx).toNat = 0x1000 + 16 * 256 + 8) := by decide

theorem witness_HostWritesFreq :
    tablesCanonical (Tests.abCodes []) = true ∧ (0x0100 : WinIdx).toNat = 0x0100 + 0 ∧
    (0x0200 : WinIdx).toNat = 0x0100 + 256 ∧
    (Tests.pending (.hwrite 0x0200 7) (Tests.abCodes [])).host = [.hwrite 0x0200 7] ∧
    (Tests.abCodes []).runState = .idle ∧ tablesCanonical (Tests.faulted (Tests.abCodes [])) = true ∧
    (Tests.faulted (Tests.abCodes [])).runState = .fault := by decide

/-- The edges of each refused range of the window. -/
theorem witness_RefusedTransactions :
    (Tests.ready []).runState ≠ .busy ∧ (Tests.pending (.hread 0) (Tests.ready [])).host = [.hread 0] ∧
    (5 ≤ (0x0005 : WinIdx).toNat ∧ (0x00FF : WinIdx).toNat < 0x0100) ∧
    (0x0200 < (0x0201 : WinIdx).toNat ∧ (0x03FF : WinIdx).toNat < 0x0400) ∧
    (0x0801 < (0x0802 : WinIdx).toNat ∧ (0x0FFF : WinIdx).toNat < 0x1000) ∧
    (0x2008 < (0x2009 : WinIdx).toNat ∧ 0x2008 < (0x3FFF : WinIdx).toNat) ∧
    (0x1000 ≤ (0x1009 : WinIdx).toNat ∧ 9 ≤ (0x1009 : WinIdx).toNat % 16) ∧
    ((Tests.pending (.hwrite 1 0) (Tests.ready [])).host = [.hwrite 1 0] ∧ (0x0001 : WinIdx) ≠ 0 ∧
      (0x00FF : WinIdx).toNat < 0x0100 ∧ 0x0200 < (0x0201 : WinIdx).toNat) := by decide

theorem witness_HostAttachesAndCollects :
    (Tests.ready []).runState ≠ .busy ∧ (Tests.pending (.attachSrc [1]) (Tests.ready [])).host = [.attachSrc [1]] ∧
    (Tests.pending .attachSnk (Tests.ready [])).host = [.attachSnk] ∧
    (Tests.pending .collect (Tests.shut (Tests.ready []))).snk = some (Snk.mk [] true) ∧
    (Tests.pending .collect (Tests.shut (Tests.ready []))).host = [.collect] := by decide

theorem witness_CountCountsTheBytesLeft :
    (Tests.ready [0, 255]).runState = .idle ∧ (Tests.ready [0, 255]).src = some (Src.mk [0, 255] 0 false false) ∧
    (∀ b : Byte, (bytesLeft (Src.mk [0, 255] 0 false false)).count b < Config.countLimit (Tests.ready [0, 255]).params) :=
  ⟨by decide, by decide, fun b => lt_of_le_of_lt List.count_le_length (by decide)⟩

/-- COUNT_W = 1: the second 0 does not fit. -/
def Tests.narrow (d : List Byte) : State := { Tests.ready d with params := { magic := 0xFACE8201, countWLess1 := 0 } }

theorem witness_CountNeverWraps :
    (Tests.narrow [0, 0]).runState = .idle ∧ (Tests.narrow [0, 0]).err = .none ∧
    (Tests.narrow [0, 0]).src = some (Src.mk [0, 0] 0 false false) ∧ (Tests.narrow [0, 0]).snk = some (Snk.mk [] false) ∧
    bytesLeft (Src.mk [0, 0] 0 false false) = [0] ++ 0 :: [] ∧
    ([0] : List Byte).count 0 = Config.countLimit (Tests.narrow [0, 0]).params - 1 ∧
    (∀ c : Byte, ([0] : List Byte).count c < Config.countLimit (Tests.narrow [0, 0]).params) :=
  ⟨by decide, by decide, by decide, by decide, by decide, by decide,
    fun c => lt_of_le_of_lt List.count_le_length (by decide)⟩

/-- Also for the pad leaf's case: a FREQ that is all zero. -/
theorem witness_BuildResult :
    (Tests.abTree []).runState = .idle ∧
    ((List.range 257).map (freqAt (Tests.abTree []).freq)).sum < Config.countLimit (Tests.abTree []).params ∧
    ((List.range 257).map (freqAt (Tests.ready []).freq)).sum < Config.countLimit (Tests.ready []).params := by
  decide +kernel

theorem witness_BuildMergesTheTwoLeast :
    (Tests.abTree []).runState = .idle ∧
    ((List.range 257).map (freqAt (Tests.abTree []).freq)).sum < Config.countLimit (Tests.abTree []).params ∧
    Tests.nextIs (exec .build (Tests.abTree []))
      (fun t => t.ncnt.toNat < 2 * 3 + 1 ∧ 3 < t.ncnt.toNat ∧ t.ncnt.toNat < 2 * 4 + 1 ∧ 4 < t.ncnt.toNat) = true := by
  decide +kernel

theorem witness_BuildOverflows :
    (Tests.narrow []).runState = .idle ∧ (Tests.narrow []).err = .none ∧ (Tests.narrow []).snk = some (Snk.mk [] false) ∧
    Config.countLimit { Tests.narrow [] with freq := [(0, 1), (256, 1)] }.params ≤
      ((List.range 257).map (freqAt { Tests.narrow [] with freq := [(0, 1), (256, 1)] }.freq)).sum := by decide +kernel

/-- V24's table, HUFFDOC's own skewed example. -/
theorem witness_BuiltTreeIsMinimal :
    ((List.range 257).map (freqAt [(120, 1000), (121, 1), (256, 1)])).sum < Config.countLimit Config.defaultParams ∧
    Tests.nextIs (exec .build { Tests.ready [] with freq := [(120, 1000), (121, 1), (256, 1)] })
      (fun t => ((rootTree t).map (fun u => u.codesFrom [])) =
        some [(121, [false, false]), (256, [false, true]), (120, [true])]) = true ∧
    freqAt [(120, 1000), (121, 1), (256, 1)] 121 < freqAt [(120, 1000), (121, 1), (256, 1)] 120 := by decide +kernel

/-- The tree of `Tests.abTree`. -/
def Tests.abShape : HuffTree := .node (.leaf 256) (.node (.leaf 97) (.leaf 98))

theorem witness_GencodesRecordsThePaths :
    (Tests.abTree []).runState = .idle ∧ (Tests.abTree []).tv = true ∧
    rootTree (Tests.abTree []) = some (.node (.leaf 256) (.node (.leaf 97) (.leaf 98))) ∧
    Tests.abShape.symbols.Nodup ∧ (∀ x ∈ Tests.abShape.symbols, x ≤ 256) := by decide +kernel

/-- A root that is a leaf; a symbol on two leaves; a symbol above 256. -/
theorem witness_GencodesRejectsBadTrees :
    ((Tests.oneLeaf []).runState = .idle ∧ (Tests.oneLeaf []).err = .none ∧ (Tests.oneLeaf []).tv = true ∧
      (Tests.oneLeaf []).snk = some (Snk.mk [] false) ∧ rootTree (Tests.oneLeaf []) = some (.leaf 97)) ∧
    (rootTree (Tests.decoded 97 []) = some (.node (.leaf 97) (.node (.leaf 97) (.leaf 256))) ∧
      (HuffTree.node (.leaf 97) (.node (.leaf 97) (.leaf 256))).codesFrom [] =
        [(97, [false])] ++ (97, [true, false]) :: [(256, [true, true])] ∧
      (([(97, [false])] : List (Nat × Bits)).map Prod.fst).Nodup ∧
      (∀ e ∈ ([(97, [false])] : List (Nat × Bits)), e.1 ≤ 256) ∧
      97 ∈ ([(97, [false])] : List (Nat × Bits)).map Prod.fst) ∧
    (rootTree (Tests.decoded 257 []) = some (.node (.leaf 97) (.node (.leaf 257) (.leaf 256))) ∧
      (HuffTree.node (.leaf 97) (.node (.leaf 257) (.leaf 256))).codesFrom [] =
        [(97, [false])] ++ (257, [true, false]) :: [(256, [true, true])] ∧ 256 < 257) := by decide +kernel

theorem witness_codesOfTree (d : List Byte) : CodesOfTree (Tests.abCodes d) := by
  intro _
  refine ⟨Tests.abShape, rfl, by decide, fun sym => ?_⟩
  by_cases h1 : 256 = sym
  · subst h1; exact ⟨rfl, by decide⟩
  · by_cases h2 : 97 = sym
    · subst h2; exact ⟨rfl, by decide⟩
    · by_cases h3 : 98 = sym
      · subst h3; exact ⟨rfl, by decide⟩
      · simp [Tests.abCodes, Tests.abShape, HuffTree.codeOf, HuffTree.codesFrom, tableGet, h1, h2, h3]

theorem witness_CodesFormAPrefixCode : CodesOfTree (Tests.abCodes []) ∧ (Tests.abCodes []).cv = true ∧
    tableGet (Tests.abCodes []).ct 97 = some [true, false] ∧ tableGet (Tests.abCodes []).ct 256 = some [false] :=
  ⟨witness_codesOfTree [], by decide, by decide, by decide⟩

theorem witness_WrmagicAppendsTheMarker :
    (Tests.ready []).runState = .idle ∧ (Tests.ready []).snk = some (Snk.mk [] false) ∧ (Snk.mk [] false).closed = false ∧
    (Tests.shut (Tests.ready [])).runState = .idle ∧ (Tests.shut (Tests.ready [])).snk = some (Snk.mk [] true) ∧
    (Snk.mk [] true).closed = true ∧ (Tests.shut (Tests.ready [])).err = .none := by decide

theorem witness_WrhdrAppendsTheHeader :
    ((Tests.abTree []).runState = .idle ∧ (Tests.abTree []).tv = true ∧ (Tests.abTree []).snk = some (Snk.mk [] false) ∧
      rootTree (Tests.abTree []) = some Tests.abShape) ∧
    ((Tests.ready []).tv = false ∧ (Tests.ready []).err = .none ∧ (Tests.ready []).snk = some (Snk.mk [] false)) ∧
    ((Tests.shut (Tests.abTree [])).snk = some (Snk.mk [] true) ∧ (Tests.shut (Tests.abTree [])).err = .none) := by decide

theorem witness_RdmagicChecksTheMarker :
    ((Tests.ready [0xFA, 0xCE, 0x82, 0x01]).runState = .idle ∧
      (Tests.ready [0xFA, 0xCE, 0x82, 0x01]).src = some (Src.mk [0xFA, 0xCE, 0x82, 0x01] 0 false false) ∧
      bitsLeft (Src.mk [0xFA, 0xCE, 0x82, 0x01] 0 false false) = bits 32 Config.defaultParams.magic.toNat ++ []) ∧
    ((Tests.ready []).err = .none ∧ (Tests.ready []).snk = some (Snk.mk [] false) ∧
      bitsLeft (Src.mk [0xFF, 0xFF, 0xFF, 0xFF] 0 false false) = List.replicate 32 true ++ [] ∧
      (List.replicate 32 true).length = 32 ∧ List.replicate 32 true ≠ bits 32 Config.defaultParams.magic.toNat) ∧
    ((bitsLeft (Src.mk [0xFA, 0xCE, 0x82] 0 false false)).length < 32 ∧
      (bitsLeft (Src.mk [] 0 false false)).length < 32) := by decide

/-- A tree of `n` internal nodes, each right child a leaf 0: `2 n + 1` nodes. -/
def Tests.spine : Nat → HuffTree
  | 0 => .leaf 256
  | n + 1 => .node (Tests.spine n) (.leaf 0)

/-- The bytes of a header, zero bits added to fill the last one. -/
def Tests.headerBytes (t : HuffTree) : List Byte :=
  bytesOf (t.header ++ List.replicate ((8 - t.header.length % 8) % 8) false)

theorem test_headerBytes (t : HuffTree) :
    bitsLeft (Src.mk (Tests.headerBytes t) 0 false false) =
      t.header ++ List.replicate ((8 - t.header.length % 8) % 8) false := by
  have h : (t.header ++ List.replicate ((8 - t.header.length % 8) % 8) false).length =
      8 * ((t.header.length + (8 - t.header.length % 8) % 8) / 8) := by
    simp only [List.length_append, List.length_replicate]; omega
  simpa [bitsLeft, Tests.headerBytes] using sourceBits_bytesOf _ _ h

theorem test_spine_size : ∀ n, (Tests.spine n).size = 2 * n + 1
  | 0 => rfl
  | n + 1 => by simp only [Tests.spine, HuffTree.size, test_spine_size n]; omega

/-- One token, and the most tokens the table holds. -/
theorem witness_RdhdrRebuildsTheTree (n : Nat) (hn : n = 0 ∨ n = 256) :
    (Tests.ready (Tests.headerBytes (Tests.spine n))).runState = .idle ∧
    (Tests.ready (Tests.headerBytes (Tests.spine n))).src =
      some (Src.mk (Tests.headerBytes (Tests.spine n)) 0 false false) ∧
    (∃ rest, bitsLeft (Src.mk (Tests.headerBytes (Tests.spine n)) 0 false false) = (Tests.spine n).header ++ rest) ∧
    (Tests.spine n).size ≤ 513 := by
  refine ⟨rfl, rfl, ⟨_, test_headerBytes _⟩, ?_⟩
  have h := test_spine_size n
  omega

/-- The header of 513 tokens without its last two bits, as bytes. -/
def Tests.longCut : List Byte := bytesOf ((Tests.spine 256).header.take 2824)

theorem test_longCut : bitsLeft (Src.mk Tests.longCut 0 false false) = (Tests.spine 256).header.take 2824 := by
  have hl := HuffTree.header_length (Tests.spine 256)
  have hs := HuffTree.size_leaves (Tests.spine 256)
  have h := test_spine_size 256
  have : ((Tests.spine 256).header.take 2824).length = 8 * 353 := by rw [List.length_take]; omega
  simpa [bitsLeft, Tests.longCut] using sourceBits_bytesOf _ _ this

theorem test_spine_zeros : ∀ n m, m ≤ n → ∃ more, more ≠ [] ∧ (Tests.spine n).header = List.replicate m false ++ more
  | n, 0, _ => ⟨_, by
      have := HuffTree.header_length (Tests.spine n); have := HuffTree.leaves_pos (Tests.spine n)
      intro h; simp only [h, List.length_nil] at *; omega, rfl⟩
  | n + 1, m + 1, h => by
    obtain ⟨more, hm, he⟩ := test_spine_zeros n m (by omega)
    exact ⟨more ++ (HuffTree.leaf 0).header, by simp [hm], by
      simp [Tests.spine, HuffTree.header, he, List.replicate_succ]⟩

theorem test_spine_firstTokens : ∀ n m, m ≤ n → (Tests.spine n).firstTokens m = List.replicate m false
  | _, 0, _ => rfl
  | n + 1, m + 1, h => by
    have hs := test_spine_size n
    rw [Tests.spine, HuffTree.firstTokens_node, test_spine_firstTokens n m (by omega),
      show m - (Tests.spine n).size = 0 by omega]
    simp [List.replicate_succ]

/-- A source of zero bytes, at bit `pos`. -/
def Tests.zeros (bytes pos : Nat) : Src := { data := List.replicate bytes 0, pos := pos, exh := false, rew := false }

theorem test_zeros (bytes pos : Nat) : bitsLeft (Tests.zeros bytes pos) = List.replicate (8 * bytes - pos) false := by
  have h : ∀ n, sourceBits (List.replicate n 0) = List.replicate (8 * n) false := by
    intro n
    induction n with
    | zero => rfl
    | succ n ih =>
      rw [List.replicate_succ, show sourceBits (0 :: List.replicate n 0) = List.replicate 8 false ++
        sourceBits (List.replicate n 0) from rfl, ih, ← List.replicate_add, show 8 + 8 * n = 8 * (n + 1) by omega]
  rw [bitsLeft, if_neg (by simp [Tests.zeros]), Tests.zeros, h, List.drop_replicate]

/-- A header cut at its start, inside a symbol, and in its last symbol with a full table; cut before the 513th token (V47)
and where the 514th would begin, both of a header too large for the table; that header and one bit more, its 515 tokens
whole, and with the 514th token cut off (V48). -/
theorem witness_RdhdrFaults :
    ((Tests.ready []).runState = .idle ∧ (Tests.ready []).err = .none ∧ (Tests.ready []).snk = some (Snk.mk [] false) ∧
      (Tests.ready []).src = some (Src.mk [] 0 false false)) ∧
    ((Tests.spine 0).header = bitsLeft (Src.mk [] 0 false false) ++ (Tests.spine 0).header ∧ (Tests.spine 0).header ≠ []) ∧
    ((Tests.spine 1).header = bitsLeft (Src.mk [0x60] 0 false false) ++ (Tests.spine 1).header.drop 8 ∧
      (Tests.spine 1).header.drop 8 ≠ [] ∧
      (bitsLeft (Src.mk [0x60] 0 false false)).length ≤ ((Tests.spine 1).firstTokens 513).length) ∧
    ((∃ more, (Tests.spine 256).header = bitsLeft (Src.mk Tests.longCut 0 false false) ++ more ∧ more ≠ []) ∧
      (bitsLeft (Src.mk Tests.longCut 0 false false)).length ≤ ((Tests.spine 256).firstTokens 513).length) ∧
    (∀ q : Src, q = Tests.zeros 64 0 ∨ q = Tests.zeros 65 7 →
      (∃ more, (Tests.spine 513).header = bitsLeft q ++ more ∧ more ≠ []) ∧
      (bitsLeft q).length ≤ ((Tests.spine 513).firstTokens 513).length) ∧
    (∀ t q, (t = Tests.spine 257 ∧ q = Src.mk (Tests.headerBytes t) 0 false false) ∨
        (t = Tests.spine 513 ∧ (q = Tests.zeros 65 0 ∨ q = Tests.zeros 65 6)) →
      513 < t.size ∧ ∃ b rest, bitsLeft q = t.firstTokens 513 ++ b :: rest) := by
  have h1 := test_spine_size 256
  have h2 := test_spine_size 257
  have h3 := test_spine_size 513
  have hl := HuffTree.header_length (Tests.spine 256)
  have hs := HuffTree.size_leaves (Tests.spine 256)
  refine ⟨by decide, by decide, ⟨by decide, by decide, by decide⟩, ⟨⟨(Tests.spine 256).header.drop 2824, ?_, ?_⟩, ?_⟩,
    ?_, ?_⟩
  · rw [test_longCut, List.take_append_drop]
  · intro h
    have := congrArg List.length h
    simp only [List.length_drop, List.length_nil] at this
    omega
  · rw [test_longCut, HuffTree.firstTokens_all _ (by omega), List.length_take]; omega
  · rintro q (rfl | rfl) <;> rw [test_zeros, test_spine_firstTokens 513 513 (by omega)]
    · obtain ⟨more, hm, he⟩ := test_spine_zeros 513 512 (by omega)
      exact ⟨⟨more, he, hm⟩, by simp only [List.length_replicate]; decide⟩
    · obtain ⟨more, hm, he⟩ := test_spine_zeros 513 513 (by omega)
      exact ⟨⟨more, he, hm⟩, by simp only [List.length_replicate]; decide⟩
  · rintro t q (⟨rfl, rfl⟩ | ⟨rfl, rfl | rfl⟩)
    · refine ⟨by omega, ?_⟩
      obtain ⟨x, hx, he⟩ := HuffTree.firstTokens_succ (Tests.spine 257) (n := 513) (by omega)
      have ha := HuffTree.firstTokens_append (Tests.spine 257) 514
      obtain ⟨b, c, rfl⟩ : ∃ b c, x = b :: c := by
        rcases HuffTree.token_cases hx with rfl | ⟨v, rfl⟩ <;> exact ⟨_, _, rfl⟩
      rw [test_headerBytes, ← ha, he]
      exact ⟨b, _, by simp only [List.append_assoc, List.cons_append]; rfl⟩
    · refine ⟨by omega, false, List.replicate 6 false, ?_⟩
      rw [test_zeros, test_spine_firstTokens 513 513 (by omega), ← List.replicate_succ, ← List.replicate_add]
    · refine ⟨by omega, false, [], ?_⟩
      rw [test_zeros, test_spine_firstTokens 513 513 (by omega), show [false] = List.replicate 1 false from rfl,
        ← List.replicate_add]

theorem witness_RdhdrAlwaysEnds :
    (Tests.ready []).runState = .idle ∧ (Tests.ready []).err = .none ∧
    (Tests.ready []).src = some (Src.mk [] 0 false false) ∧ (Tests.ready []).snk = some (Snk.mk [] false) := by decide

/-- A node open at each stage, two nodes a leaf ends at once, and a full table. -/
theorem witness_HeaderTokensBuildTheTree :
    ((Tests.openOver []).runState = .busy ∧ 0 < 512 ∧ 511 < 512 ∧ (Tests.openOver []).ncnt.toNat ≠ 513) ∧
    (Tests.openOver []).hdr = ([] : List (NodeIdx × NodeIdx)).map (fun e => { node := e.1, left := some e.2 }) ∧
    { Tests.openOver [] with hdr := [⟨2, some 3⟩, ⟨0, some 1⟩] }.hdr =
      [((2 : NodeIdx), (3 : NodeIdx)), (0, 1)].map (fun e => { node := e.1, left := some e.2 }) ∧
    { Tests.openOver [] with hdr := [⟨2, some 3⟩, ⟨0, none⟩] }.hdr =
      [((2 : NodeIdx), (3 : NodeIdx))].map (fun e => { node := e.1, left := some e.2 }) ++ { node := 0, left := none } :: [] ∧
    ({ Tests.openOver [] with ncnt := 513 }.ncnt.toNat = 513 ∧ (Tests.openOver []).err = .none ∧
      (Tests.openOver []).snk = some (Snk.mk [] false)) := by decide

theorem witness_TokensStepByStepAreRdhdr (n : Nat) (hn : n = 0 ∨ n = 256) :
    (Tests.ready (Tests.headerBytes (Tests.spine n))).runState = .idle ∧
    (Tests.ready (Tests.headerBytes (Tests.spine n))).src =
      some (Src.mk (Tests.headerBytes (Tests.spine n)) 0 false false) ∧
    (Tests.ready (Tests.headerBytes (Tests.spine n))).host = [] ∧
    (∃ rest, bitsLeft (Src.mk (Tests.headerBytes (Tests.spine n)) 0 false false) = (Tests.spine n).header ++ rest) ∧
    (Tests.spine n).size ≤ 513 := by
  have h := test_spine_size n
  exact ⟨rfl, rfl, rfl, ⟨_, test_headerBytes _⟩, by omega⟩

theorem witness_RewindReturnsToTheStart :
    ((Tests.ready [1]).runState = .idle ∧ (Tests.ready [1]).src = some (Src.mk [1] 0 false false) ∧
      (Src.mk [1] 0 false false).rew = false) ∧
    ({ Tests.ready [1] with src := some (Src.mk [1] 0 false true) }.src = some (Src.mk [1] 0 false true) ∧
      (Src.mk [1] 0 false true).rew = true ∧ (Tests.ready [1]).err = .none ∧
      (Tests.ready [1]).snk = some (Snk.mk [] false)) := by decide

/-- Some bytes, and the empty input. -/
theorem witness_EncodeAppendsThePayload :
    ((Tests.abCodes [0x61, 0x62]).runState = .idle ∧ (Tests.abCodes [0x61, 0x62]).cv = true ∧
      (Tests.abCodes [0x61, 0x62]).src = some (Src.mk [0x61, 0x62] 0 false false) ∧
      (Tests.abCodes [0x61, 0x62]).snk = some (Snk.mk [] false) ∧
      codesOfBytes (Tests.abCodes []).ct (bytesLeft (Src.mk [0x61, 0x62] 0 false false)) =
        some [true, false, true, true] ∧ tableGet (Tests.abCodes []).ct 256 = some [false]) ∧
    codesOfBytes (Tests.abCodes []).ct (bytesLeft (Src.mk [] 0 false false)) = some [] := by decide

theorem witness_EncodeMissingCode :
    ((Tests.abCodes [0x61, 0x63]).runState = .idle ∧ (Tests.abCodes [0x61, 0x63]).err = .none ∧
      (Tests.abCodes [0x61, 0x63]).cv = true ∧
      (Tests.abCodes [0x61, 0x63]).src = some (Src.mk [0x61, 0x63] 0 false false) ∧
      (Tests.abCodes [0x61, 0x63]).snk = some (Snk.mk [] false) ∧
      bytesLeft (Src.mk [0x61, 0x63] 0 false false) = [0x61] ++ 0x63 :: [] ∧
      codesOfBytes (Tests.abCodes []).ct [0x61] = some [true, false] ∧
      tableGet (Tests.abCodes []).ct (0x63 : Byte).toNat = none) ∧
    (codesOfBytes [(97, [false]), (98, [true])] (bytesLeft (Src.mk [0x61] 0 false false)) = some [false] ∧
      tableGet ([(97, [false]), (98, [true])] : Table Bits) 256 = none) := by decide

theorem witness_ClosePadsAndCloses :
    ((Tests.ready []).runState = .idle ∧ (Tests.ready []).snk = some (Snk.mk [] false) ∧ (Snk.mk [] false).closed = false) ∧
    ((Tests.shut (Tests.ready [])).snk = some (Snk.mk [] true) ∧ (Snk.mk [] true).closed = true ∧
      (Tests.shut (Tests.ready [])).err = .none) := by decide

/-- Node(Leaf(97), Node(Leaf(x), Leaf(256))), the tree of `Tests.decoded`. -/
def Tests.decodedRight (x : Sym) : HuffTree := .node (.leaf x) (.leaf 256)

/-- R210's payload, and the EOS code alone. -/
theorem witness_DecodeWritesTheBytes :
    ((Tests.decoded 98 [0x2C]).runState = .idle ∧ (Tests.decoded 98 [0x2C]).tv = true ∧
      (Tests.decoded 98 [0x2C]).src = some (Src.mk [0x2C] 0 false false) ∧
      (Tests.decoded 98 [0x2C]).snk = some (Snk.mk [] false) ∧
      rootTree (Tests.decoded 98 [0x2C]) = some (.node (.leaf 97) (Tests.decodedRight 98)) ∧
      bitsLeft (Src.mk [0x2C] 0 false false) =
        ([([false], 0x61), ([false], 0x61), ([true, false], 0x62)] : List (Bits × Byte)).flatMap Prod.fst ++
          ([true, true] ++ [false, false]) ∧
      (∀ e ∈ ([([false], 0x61), ([false], 0x61), ([true, false], 0x62)] : List (Bits × Byte)),
        (HuffTree.node (.leaf 97) (Tests.decodedRight 98)).leafAt e.1 = some (e.2.zeroExtend 9)) ∧
      (HuffTree.node (.leaf 97) (Tests.decodedRight 98)).leafAt [true, true] = some 256) ∧
    bitsLeft (Src.mk [0xC0] 0 false false) =
      ([] : List (Bits × Byte)).flatMap Prod.fst ++ ([true, true] ++ List.replicate 6 false) := by decide

/-- Cut inside a code, and between two codes. -/
theorem witness_DecodeCutPayload :
    ((Tests.decoded 98 [0x01]).runState = .idle ∧ (Tests.decoded 98 [0x01]).err = .none ∧
      (Tests.decoded 98 [0x01]).tv = true ∧ (Tests.decoded 98 [0x01]).src = some (Src.mk [0x01] 0 false false) ∧
      (Tests.decoded 98 [0x01]).snk = some (Snk.mk [] false) ∧
      rootTree (Tests.decoded 98 [0x01]) = some (.node (.leaf 97) (Tests.decodedRight 98)) ∧
      bitsLeft (Src.mk [0x01] 0 false false) =
        (List.replicate 7 (([false], 0x61) : Bits × Byte)).flatMap Prod.fst ++ [true] ∧
      (∀ e ∈ List.replicate 7 (([false], 0x61) : Bits × Byte),
        (HuffTree.node (.leaf 97) (Tests.decodedRight 98)).leafAt e.1 = some (e.2.zeroExtend 9)) ∧
      (HuffTree.node (.leaf 97) (Tests.decodedRight 98)).innerAt [true] = true) ∧
    (bitsLeft (Src.mk [] 0 false false) = ([] : List (Bits × Byte)).flatMap Prod.fst ++ [] ∧
      (HuffTree.node (.leaf 97) (Tests.decodedRight 98)).innerAt [] = true) := by decide

/-- A leaf at the root with no bit and with one; symbols 257 and 511. -/
theorem witness_DecodeRejectsBadTrees :
    ((Tests.oneLeaf []).runState = .idle ∧ (Tests.oneLeaf []).err = .none ∧ (Tests.oneLeaf []).tv = true ∧
      (Tests.oneLeaf []).snk = some (Snk.mk [] false) ∧ rootTree (Tests.oneLeaf []) = some (.leaf 97) ∧
      (Tests.oneLeaf []).src = some (Src.mk [] 0 false false) ∧ bitsLeft (Src.mk [] 0 false false) = []) ∧
    ((Tests.oneLeaf [0]).src = some (Src.mk [0] 0 false false) ∧ bitsLeft (Src.mk [0] 0 false false) ≠ []) ∧
    (rootTree (Tests.decoded 257 [0x40]) = some (.node (.leaf 97) (Tests.decodedRight 257)) ∧
      bitsLeft (Src.mk [0x40] 0 false false) =
        ([([false], 0x61)] : List (Bits × Byte)).flatMap Prod.fst ++ ([true, false] ++ List.replicate 5 false) ∧
      (∀ e ∈ ([([false], 0x61)] : List (Bits × Byte)),
        (HuffTree.node (.leaf 97) (Tests.decodedRight 257)).leafAt e.1 = some (e.2.zeroExtend 9)) ∧
      (HuffTree.node (.leaf 97) (Tests.decodedRight 257)).leafAt [true, false] = some 257 ∧ 256 < (257 : Sym).toNat ∧
      (HuffTree.node (.leaf 97) (Tests.decodedRight 511)).leafAt [true, false] = some 511 ∧ 256 < (511 : Sym).toNat) := by
  decide

theorem witness_DecodeAlwaysEnds :
    (Tests.decoded 98 []).runState = .idle ∧ (Tests.decoded 98 []).err = .none ∧ (Tests.decoded 98 []).tv = true ∧
    (Tests.decoded 98 []).src = some (Src.mk [] 0 false false) ∧ (Tests.decoded 98 []).snk = some (Snk.mk [] false) ∧
    rootTree (Tests.decoded 98 []) = some (.node (.leaf 97) (Tests.decodedRight 98)) := by decide

theorem witness_CompositesAreTheirPrimitives :
    (Tests.ready []).runState = .idle ∧ (Tests.ready []).snk = some (Snk.mk [] false) ∧ (Snk.mk [] false).closed = false ∧
    (∀ p, (Tests.ready []).src = some p → p.rew = false) :=
  ⟨by decide, by decide, by decide, by intro p h; cases h; rfl⟩

theorem witness_CompressWritesTheWireFormat :
    (Tests.ready [0x61]).runState = .idle ∧
    (Tests.ready [0x61]).src = some { data := [0x61], pos := 0, exh := false, rew := false } ∧
    (Tests.ready [0x61]).snk = some (Snk.mk [] false) ∧
    ([0x61] : List Byte).length + 1 < Config.countLimit (Tests.ready [0x61]).params ∧
    ([] : List Byte).length + 1 < Config.countLimit (Tests.ready []).params := by decide

/-- V51's stream. -/
theorem witness_DecompressWritesTheBytes :
    (Tests.ready [0xFA, 0xCE, 0x82, 0x01, 0x4C, 0x38, 0x02]).runState = .idle ∧
    (Tests.ready [0xFA, 0xCE, 0x82, 0x01, 0x4C, 0x38, 0x02]).src =
      some (Src.mk [0xFA, 0xCE, 0x82, 0x01, 0x4C, 0x38, 0x02] 0 false false) ∧
    (Tests.ready [0xFA, 0xCE, 0x82, 0x01, 0x4C, 0x38, 0x02]).snk = some (Snk.mk [] false) ∧
    bitsLeft (Src.mk [0xFA, 0xCE, 0x82, 0x01, 0x4C, 0x38, 0x02] 0 false false) =
      bits 32 Config.defaultParams.magic.toNat ++ ((HuffTree.node (.leaf 97) (.leaf 256)).header ++
        (([([false], 0x61)] : List (Bits × Byte)).flatMap Prod.fst ++ ([true] ++ [false]))) ∧
    (HuffTree.node (.leaf 97) (.leaf 256)).size ≤ 513 ∧
    (∀ e ∈ ([([false], 0x61)] : List (Bits × Byte)),
      (HuffTree.node (.leaf 97) (.leaf 256)).leafAt e.1 = some (e.2.zeroExtend 9)) ∧
    (HuffTree.node (.leaf 97) (.leaf 256)).leafAt [true] = some 256 := by decide

/-- The second run's state too, over V61's stream. -/
theorem witness_RoundTrip :
    (Tests.ready [0x61]).runState = .idle ∧
    (Tests.ready [0x61]).src = some { data := [0x61], pos := 0, exh := false, rew := false } ∧
    (Tests.ready [0x61]).snk = some { bits := [], closed := false } ∧
    ([0x61] : List Byte).length + 1 < Config.countLimit (Tests.ready [0x61]).params ∧
    (Tests.ready [0xFA, 0xCE, 0x82, 0x01, 0x4C, 0x38, 0x02]).params = (Tests.ready [0x61]).params ∧
    (Tests.ready [0xFA, 0xCE, 0x82, 0x01, 0x4C, 0x38, 0x02]).src =
      some { data := [0xFA, 0xCE, 0x82, 0x01, 0x4C, 0x38, 0x02], pos := 0, exh := false, rew := false } ∧
    (Tests.ready [0xFA, 0xCE, 0x82, 0x01, 0x4C, 0x38, 0x02]).snk = some { bits := [], closed := false } := by decide

theorem witness_WhoWritesWhat : ∃ t, exec .count (Tests.ready [0x61]) = .next t := ⟨_, rfl⟩

/-- A step that moves the source and appends to the sink. -/
theorem witness_StreamsOnlyMoveForward :
    portsLegal (Tests.pending (.hwrite 0 0x8) (Tests.abCodes [0x61])) = true ∧
    (∃ t, step (Tests.pending (.hwrite 0 0x8) (Tests.abCodes [0x61])) = .next t) ∧
    (Tests.pending (.hwrite 0 0x8) (Tests.abCodes [0x61])).snk = some (Snk.mk [] false) ∧
    (∀ rest, (Tests.pending (.hwrite 0 0x8) (Tests.abCodes [0x61])).host ≠ .attachSnk :: rest) ∧
    (Tests.pending (.hwrite 0 0x8) (Tests.abCodes [0x61])).src = some (Src.mk [0x61] 0 false false) ∧
    (∀ d rest, (Tests.pending (.hwrite 0 0x8) (Tests.abCodes [0x61])).host ≠ .attachSrc d :: rest) :=
  ⟨by decide, ⟨_, rfl⟩, by decide, (by intro r e; cases e), by decide, (by intro d r e; cases e)⟩

/-- A step between commands, and one inside a header read token by token. -/
theorem witness_TablesStayCanonical :
    tablesCanonical (Tests.pending (.hwrite 0 0x4) (Tests.abTree [])) = true ∧
    (∃ t, step (Tests.pending (.hwrite 0 0x4) (Tests.abTree [])) = .next t) ∧
    tablesCanonical (Tests.openOver [0x98, 0x40]) = true ∧ (∃ t, step (Tests.openOver [0x98, 0x40]) = .next t) :=
  ⟨by decide, ⟨_, rfl⟩, by decide, ⟨_, rfl⟩⟩

theorem witness_TablesStayInTheirFields :
    (∃ t, step (Tests.pending (.hwrite 0 0x4) (Tests.abTree [])) = .next t) ∧
    betweenCommands (Tests.pending (.hwrite 0 0x4) (Tests.abTree [])) = true ∧
    tablesFit (Tests.pending (.hwrite 0 0x4) (Tests.abTree [])) = true := ⟨⟨_, rfl⟩, by decide, by decide⟩

theorem witness_StatusStaysLegal :
    (∃ t, step (Tests.pending (.hwrite 0 0x4) (Tests.abTree [])) = .next t) ∧
    statusLegal (Tests.pending (.hwrite 0 0x4) (Tests.abTree [])) = true ∧
    betweenCommands (Tests.pending (.hwrite 0 0x4) (Tests.abTree [])) = true ∧
    statusLegal (Tests.faulted (Tests.ready [])) = true := ⟨⟨_, rfl⟩, by decide, by decide, by decide⟩

theorem witness_treeOwned : TreeOwned (Tests.pending (.hwrite 0 0x4) (Tests.abTree [])) := by
  intro _
  exact ⟨[4, 2, 3, 0, 1], by decide, by decide⟩

theorem witness_TreeStaysOwned :
    betweenCommands (Tests.pending (.hwrite 0 0x4) (Tests.abTree [])) = true ∧
    TreeOwned (Tests.pending (.hwrite 0 0x4) (Tests.abTree [])) ∧
    (∃ t, step (Tests.pending (.hwrite 0 0x4) (Tests.abTree [])) = .next t) :=
  ⟨by decide, witness_treeOwned, ⟨_, rfl⟩⟩

theorem witness_CodesStayOfTheTree :
    betweenCommands (Tests.abCodes [0x61]) = true ∧ CodesOfTree (Tests.abCodes [0x61]) ∧
    (Tests.abCodes [0x61]).cv = true ∧ (∃ t, step (Tests.abCodes [0x61]) = .next t) :=
  ⟨by decide, witness_codesOfTree _, by decide, ⟨_, rfl⟩⟩

theorem witness_PortsStayLegal :
    portsLegal (Tests.pending (.hwrite 0 0x9) (Tests.ready [0x61])) = true ∧
    (∃ t, step (Tests.pending (.hwrite 0 0x9) (Tests.ready [0x61])) = .next t) := ⟨by decide, ⟨_, rfl⟩⟩

theorem witness_NoModelFault :
    betweenCommands (Tests.pending (.hwrite 0 0x4) (Tests.abTree [])) = true ∧
    TreeOwned (Tests.pending (.hwrite 0 0x4) (Tests.abTree [])) := ⟨by decide, witness_treeOwned⟩
end

section
/-! Proofs of the family 10_state.md, first part: what a step keeps. An invariant that does not read the ports is kept
by every step once it is kept by each primitive's body, by a host write of FREQ and by fault entry. -/

namespace Sys2Proof.Machine

/-! ## Bodies -/

/-- A run that is done ended in one of its ends. -/
theorem Ends.of_done {P : State → Prop} {Q : FaultCode → Opcode → State → Prop} {R : Fault → Prop} {t : State}
    (h : Ends P Q R (.done t)) : P t := by
  rcases h with ⟨u, he, h⟩ | ⟨c, op, u, he, _⟩ | ⟨f, he, _⟩ | ⟨x, he⟩
  · injection he with he; exact he ▸ h
  · exact absurd he.symm (takeFault_ne_done c op u t)
  · cases he
  · cases he

/-- A run is done with what holds of every state it can be done with. -/
theorem Ends.and_done {P P' : State → Prop} {Q : FaultCode → Opcode → State → Prop} {R : Fault → Prop} {r : Run}
    (h : Ends P Q R r) (h' : ∀ t, r = .done t → P' t) : Ends (fun t => P t ∧ P' t) Q R r := by
  rcases h with ⟨t, rfl, h⟩ | ⟨c, op, u, rfl, h⟩ | ⟨f, rfl, h⟩ | ⟨x, rfl⟩
  · exact .done ⟨h, h' t rfl⟩
  · exact .raised h
  · exact .stopped h
  · exact .refused

theorem isCommand_of_primitive {j : Instr} (hj : j ∈ primitives) : j.isCommand = true ∧ j ≠ .clear := by
  revert hj j; decide

/-- The frame of a primitive. -/
theorem frame_primitive {j : Instr} (hj : j ∈ primitives) (s : State) : FrameEnds (writesOf j) s (bodyOf j s) :=
  frame_body (isCommand_of_primitive hj).1 (isCommand_of_primitive hj).2 s

/-- A primitive that ends well ends IDLE. -/
theorem idle_of_primitive_done {j : Instr} (hj : j ∈ primitives) {s t : State} (hi : s.runState = .idle)
    (h : bodyOf j s = .done t) : t.runState = .idle := by
  obtain ⟨_, hr, _⟩ := Ends.of_done (h ▸ frame_primitive hj s)
  exact hr.elim (fun h => h.trans hi) id

/-- What R216 grants the two primitives whose bodies do not look themselves: a tree to GENCODES, a source not yet
rewound to REWIND. -/
def Prepared : Instr → State → Prop
  | .gencodes, s => s.tv = true
  | .rewind, s => mirrorRwd s = false
  | _, _ => True

/-- A command whose prerequisites are not broken is prepared (R216). -/
theorem prepared_of_accepted {i : Instr} {s : State} (h : prereqBroken (prereqOf i) s = false) : Prepared i s := by
  cases i with
  | gencodes => simpa [prereqBroken, prereqOf, Prepared] using h
  | rewind => simpa [prereqBroken, prereqOf, Prepared] using h
  | _ => exact trivial

/-- Before COMPRESS rewinds, no primitive of it touches SRC.rew. -/
theorem mirrorRwd_of_done {j : Instr} (hj : j ∈ [Instr.count, .build, .gencodes, .wrmagic, .wrhdr]) {s t : State}
    (h : bodyOf j s = .done t) : mirrorRwd t = mirrorRwd s := by
  have cases_src : ∀ j ∈ [Instr.count, .build, .gencodes, .wrmagic, .wrhdr],
      j = .count ∨ (j ∈ primitives ∧ (writesOf j).src = false) := by decide
  rcases cases_src j hj with rfl | ⟨hp, hw⟩
  · obtain ⟨p, p', f, hp, hl, _, rfl⟩ := Ends.of_done ((show runCount s = Run.done t from h) ▸ runCount_ends s)
    simp [mirrorRwd, hp, hl.rew]
  · obtain ⟨hf, _⟩ := Ends.of_done (h ▸ frame_primitive hp s)
    rw [mirrorRwd, hf.src.resolve_left (by simp [hw]), mirrorRwd]

/-- BUILD leaves a tree (R145). -/
theorem tv_of_build_done {s t : State} (h : runBuild s = .done t) : t.tv = true := by
  obtain ⟨nt, n, root, _, rfl⟩ := Ends.of_done (h ▸ runBuild_ends s)
  rfl

section
variable {I : State → Prop} {Q : FaultCode → Opcode → State → Prop} {R : Fault → Prop}
  (h : ∀ j ∈ primitives, ∀ s, s.runState = .idle → Prepared j s → I s → Ends I Q R (bodyOf j s))
include h

/-- A primitive that keeps `I` from IDLE on keeps it and ends IDLE. -/
theorem primitive_ends_idle {j : Instr} (hj : j ∈ primitives) {s : State} (hi : s.runState = .idle) (hp : Prepared j s)
    (hs : I s) : Ends (fun t => I t ∧ t.runState = .idle) Q R (bodyOf j s) :=
  (h j hj s hi hp hs).and_done fun _ ht => idle_of_primitive_done hj hi ht

/-- COMPRESS (R218): BUILD makes the tree GENCODES needs, and REWIND is the first to rewind. -/
theorem compress_ends {s : State} (hi : s.runState = .idle) (hr : mirrorRwd s = false) (hs : I s) :
    Ends I Q R (runCompress s) := by
  have early : ∀ j ∈ [Instr.count, .build, .gencodes, .wrmagic, .wrhdr], ∀ s, Prepared j s →
      (I s ∧ s.runState = .idle) ∧ mirrorRwd s = false →
      Ends (fun t => (I t ∧ t.runState = .idle) ∧ mirrorRwd t = false) Q R (bodyOf j s) := fun j hj s hp hs =>
    have sub : ∀ j ∈ [Instr.count, .build, .gencodes, .wrmagic, .wrhdr], j ∈ primitives := by decide
    (primitive_ends_idle h (sub j hj) hs.1.2 hp hs.1.1).and_done fun _ ht => (mirrorRwd_of_done hj ht).trans hs.2
  have build : ∀ s, (I s ∧ s.runState = .idle) ∧ mirrorRwd s = false →
      Ends (fun t => ((I t ∧ t.runState = .idle) ∧ mirrorRwd t = false) ∧ t.tv = true) Q R (runBuild s) := fun s hs =>
    (early .build (by decide) s trivial hs).and_done fun _ ht => tv_of_build_done ht
  have all := (((((((early .count (by decide) s trivial ⟨⟨hs, hi⟩, hr⟩).andThen build).andThen
    fun t ht => early .gencodes (by decide) t ht.2 ht.1).andThen
    fun t ht => early .wrmagic (by decide) t trivial ht).andThen
    fun t ht => early .wrhdr (by decide) t trivial ht).andThen
    fun t ht => primitive_ends_idle h (j := .rewind) (by decide) ht.1.2 ht.2 ht.1.1).andThen
    fun t ht => primitive_ends_idle h (j := .encode) (by decide) ht.2 trivial ht.1).andThen
    fun t ht => primitive_ends_idle h (j := .close) (by decide) ht.2 trivial ht.1
  exact all.imp (fun _ ht => ht.1) (fun _ _ _ h => h) (fun _ h => h)

/-- DECOMPRESS (R221). -/
theorem decompress_ends {s : State} (hi : s.runState = .idle) (hs : I s) : Ends I Q R (runDecompress s) := by
  have all := (((primitive_ends_idle h (j := .rdmagic) (by decide) hi trivial hs).andThen
    fun t ht => primitive_ends_idle h (j := .rdhdr) (by decide) ht.2 trivial ht.1).andThen
    fun t ht => primitive_ends_idle h (j := .decode) (by decide) ht.2 trivial ht.1).andThen
    fun t ht => primitive_ends_idle h (j := .close) (by decide) ht.2 trivial ht.1
  exact all.imp (fun _ ht => ht.1) (fun _ _ _ h => h) (fun _ h => h)

/-- What every primitive keeps from IDLE on, a command's body keeps. -/
theorem body_ends {i : Instr} (hc : i.isCommand = true) (hn : i ≠ .clear) {s : State} (hi : s.runState = .idle)
    (hp : prereqBroken (prereqOf i) s = false) (hs : I s) : Ends I Q R (bodyOf i s) := by
  cases i with
  | clear => exact absurd rfl hn
  | compress =>
    have hflags : mirrorSnkc s = false ∧ mirrorRwd s = false := by simpa [prereqBroken, prereqOf] using hp
    exact compress_ends h hi hflags.2 hs
  | decompress => exact decompress_ends h hi hs
  | hdrInternal => cases hc
  | hdrLeaf sym => cases hc
  | _ => exact h _ (by decide) s hi (prepared_of_accepted hp) hs

end

/-- `exec_next_cases` over a body whose ends are known where its prerequisites hold (R215, R216). -/
theorem exec_accepted_cases {i : Instr} (hc : i.isCommand = true) (hn : i ≠ .clear) {s t : State} {P : State → Prop}
    {Q : FaultCode → Opcode → State → Prop} {R : Fault → Prop}
    (hb : s.runState = .idle → prereqBroken (prereqOf i) s = false → Ends P Q R (bodyOf i s)) (h : exec i s = .next t) :
    t = s ∨ (∃ k, s.snk = some k ∧ t = faultedState .illegalCommand (opcodeOf i) k s) ∨ P t ∨
    ∃ c op u k, Q c op u ∧ u.snk = some k ∧ t = faultedState c op k u := by
  cases hp : prereqBroken (prereqOf i) s with
  | false =>
    rcases exec_next_cases hc hn (fun hi => hb hi hp) h with ⟨_, ht⟩ | ⟨_, _, ht⟩ | ⟨_, _, ht⟩
    · exact .inl ht
    · exact .inr (.inl ht)
    · exact .inr (.inr ht)
  | true =>
    rcases exec_next_cases hc hn (fun _ => frame_body hc hn s) h with ⟨_, ht⟩ | ⟨_, _, ht⟩ | ⟨_, hp', _⟩
    · exact .inl ht
    · exact .inr (.inl ht)
    · exact absurd (hp.symm.trans hp') (by decide)

/-! ## Steps -/

/-- An invariant that reads neither the ports nor the model's lists, and what must hold where a fault is raised. -/
structure StepInvariant (I : State → Prop) (Q : FaultCode → Opcode → State → Prop) : Prop where
  /-- Ports, host actions, answers and draws do not matter. -/
  outside : ∀ {s p k h r d}, I s → I { s with src := p, snk := k, host := h, replies := r, draws := d }
  cleared : ∀ {s}, I s → I (clearCore s)
  freq : ∀ {s sym} (w : Word), sym ≤ 256 → I s →
    I { s with freq := freqPut s.freq sym (w.toNat % Config.countLimit s.params) }
  faulted : ∀ {c op u} (k : Snk), Q c op u → I (faultedState c op k u)
  illegal : ∀ {s} (op : Opcode), I s → Q .illegalCommand op s
  body : ∀ j ∈ primitives, ∀ s, s.runState = .idle → Prepared j s → I s →
    Ends I Q (fun _ => True) (bodyOf j s)

variable {I : State → Prop} {Q : FaultCode → Opcode → State → Prop}

/-- A command keeps such an invariant. -/
theorem StepInvariant.exec_keeps (H : StepInvariant I Q) {i : Instr} (hc : i.isCommand = true) {s t : State}
    (hb : s.runState ≠ .busy) (hs : I s) (he : exec i s = .next t) : I t := by
  by_cases hn : i = .clear
  · subst hn
    rw [exec_clear hb] at he
    injection he with he
    exact he ▸ H.cleared hs
  · rcases exec_accepted_cases hc hn (fun hi hp => body_ends H.body hc hn hi hp hs) he with
      rfl | ⟨k, _, rfl⟩ | ht | ⟨c, op, u, k, hq, _, rfl⟩
    · exact hs
    · exact H.faulted k (H.illegal _ hs)
    · exact ht
    · exact H.faulted k hq

/-- Every step keeps such an invariant, if the tokens and the faults of a header that is open do. -/
theorem StepInvariant.step_keeps (H : StepInvariant I Q) {s t : State}
    (htoken : s.runState = .busy → ∀ i p, i.isCommand = false → exec i { s with src := p } = .next t → I t)
    (hcut : s.runState = .busy → ∀ c p n, c = .streamCorrupt ∨ c = .treeOverflow →
      n = s.ncnt ∨ (n = s.ncnt + 1 ∧ s.ncnt.toNat ≠ Config.nodeCap) → Q c 0xB { s with src := p, ncnt := n })
    (hs : I s) (h : step s = .next t) : I t := by
  cases step_did h with
  | answered h r d ht => exact ht ▸ H.outside hs
  | reset rest ht => exact ht ▸ H.cleared (H.outside hs)
  | abandoned w n cs rest hb hh ht =>
    obtain ⟨p, k, hp⟩ := playCalls_ports cs { s with host := rest }
    rw [ht, hp]
    exact H.cleared (H.outside (s := s) hs)
  | attachedSrc d rest hh ht => exact ht ▸ H.outside hs
  | attachedSnk rest hh ht => exact ht ▸ H.outside hs
  | wroteFreq sym w rest hsym hi ht => exact ht ▸ H.freq (s := { s with host := rest }) w hsym (H.outside hs)
  | command i rest hb hc hh he => exact H.exec_keeps hc (s := { s with host := rest }) hb (H.outside hs) he
  | illegal w rest k hi hk hh ht => exact ht ▸ H.faulted k (H.illegal _ (H.outside hs))
  | token i p p' hb hc hp hl he => exact htoken hb i _ hc he
  | cut c p p' n k hb hp hl hn hk hc ht => exact ht ▸ H.faulted k (hcut hb c _ n hc hn)

/-- From between commands no header is open. -/
theorem StepInvariant.step_keeps_between (H : StepInvariant I Q) {s t : State} (hb : s.runState ≠ .busy) (hs : I s)
    (h : step s = .next t) : I t :=
  H.step_keeps (fun hbusy => absurd hbusy hb) (fun hbusy => absurd hbusy hb) hs h

/-- A primitive keeps what every state keeps that differs outside the primitive's own parts alone. -/
theorem keeps_of_frame {I : State → Prop} {j : Instr} (hj : j ∈ primitives) {s : State}
    (h : ∀ t, Frame (writesOf j) s t → I t) : Ends I (fun _ _ u => I u) (fun _ => True) (bodyOf j s) :=
  (frame_primitive hj s).imp (fun t ht => h t ht.1) (fun _ _ u hu => h u hu) (fun _ h => h)

end Sys2Proof.Machine
end

section
/-! Proofs of the family 10_state.md, second part: the tables (10_state.md R21, R25, R29, R30, R32, log entry 6). -/

namespace Sys2Proof.Machine

/-- The primitives that write a table, the others' frames. -/
theorem tables_writers : ∀ j ∈ primitives, j ∈ [Instr.count, .build, .gencodes, .rdhdr] ∨
    ((writesOf j).freq = false ∧ (writesOf j).tree = false ∧ (writesOf j).ct = false) := by decide

/-- What a frame that leaves the tables out says of them. -/
theorem Frame.tables {w : Writes} {s t : State} (h : Frame w s t)
    (hw : w.freq = false ∧ w.tree = false ∧ w.ct = false) :
    t.freq = s.freq ∧ t.nt = s.nt ∧ t.ncnt = s.ncnt ∧ t.ct = s.ct := by
  obtain ⟨hf, ht, hc⟩ := hw
  obtain ⟨hnt, hncnt, _⟩ := h.tree.resolve_left (by simp [ht])
  exact ⟨h.freq.resolve_left (by simp [hf]), hnt, hncnt, h.ct.resolve_left (by simp [hc])⟩

/-! ## The canonical form -/

theorem tablesCanonical_iff (s : State) : tablesCanonical s = true ↔
    tableSorted s.freq = true ∧ tableSorted s.nt = true ∧ tableSorted s.ct = true ∧ ∀ e ∈ s.freq, e.2 ≠ 0 := by
  simp [tablesCanonical, and_assoc]

theorem tablesCanonical_body : ∀ j ∈ primitives, ∀ s, tablesCanonical s = true →
    Ends (fun t => tablesCanonical t = true) (fun _ _ u => tablesCanonical u = true) (fun _ => True) (bodyOf j s) := by
  intro j hj s hs
  obtain ⟨hf, hn, hc, h0⟩ := (tablesCanonical_iff s).1 hs
  rcases tables_writers j hj with hw | hw
  · simp only [List.mem_cons, List.not_mem_nil, or_false] at hw
    rcases hw with rfl | rfl | rfl | rfl
    · have ok : ∀ f p, FreqOk (Config.countLimit s.params) f → tablesCanonical { s with src := p, freq := f } = true :=
        fun f p h => (tablesCanonical_iff _).2 ⟨h.sorted, hn, hc, fun e he => (h.entries e he).1⟩
      refine (runCount_ends s).imp ?_ ?_ (fun _ _ => trivial)
      · rintro t ⟨p, p', f, _, _, h, rfl⟩; exact ok f _ h
      · rintro c op u ⟨_, _, p, p', f, _, _, h, rfl⟩; exact ok f _ h
    · refine (runBuild_ends s).imp ?_ ?_ (fun _ _ => trivial)
      · rintro t ⟨nt, n, root, h, rfl⟩; exact (tablesCanonical_iff _).2 ⟨hf, h.ok.sorted, hc, h0⟩
      · rintro c op u ⟨_, _, nt, n, h, _, _, rfl⟩; exact (tablesCanonical_iff _).2 ⟨hf, h.sorted, hc, h0⟩
    · refine (runGencodes_ends s).imp ?_ ?_ (fun _ _ => trivial)
      · rintro t ⟨ct, a, b, h, _, _, _, rfl⟩; exact (tablesCanonical_iff _).2 ⟨hf, hn, h.sorted, h0⟩
      · rintro c op u ⟨_, _, ct, h, rfl⟩; exact (tablesCanonical_iff _).2 ⟨hf, hn, h.sorted, h0⟩
    · refine (runRdhdr_ends s).imp ?_ ?_ (fun _ _ => trivial)
      · rintro t ⟨p, tree, rest, _, _, hsz, rfl⟩
        obtain ⟨hok, _⟩ := placeTree_ok tree 0 [] ⟨rfl, by simp⟩ (by simp) (by omega)
        exact (tablesCanonical_iff _).2 ⟨hf, hok.sorted, hc, h0⟩
      · rintro c op u ⟨_, _, p, p', nt, n, hdr, _, _, h, _, _, rfl⟩
        exact (tablesCanonical_iff _).2 ⟨hf, h.sorted, hc, h0⟩
  · refine keeps_of_frame hj fun t ht => ?_
    obtain ⟨e1, e2, _, e3⟩ := ht.tables hw
    rw [tablesCanonical_iff, e1, e2, e3]
    exact ⟨hf, hn, hc, h0⟩

theorem tablesCanonical_invariant :
    StepInvariant (fun s => tablesCanonical s = true) (fun _ _ u => tablesCanonical u = true) where
  outside h := h
  cleared _ := rfl
  freq w _ h := by
    obtain ⟨hf, hn, hc, h0⟩ := (tablesCanonical_iff _).1 h
    refine (tablesCanonical_iff _).2 ⟨tableSorted_freqPut hf _ _, hn, hc, fun e he => ?_⟩
    rcases mem_freqPut he with ⟨rfl, hne⟩ | he
    · exact hne
    · exact h0 e he
  faulted _ h := h
  illegal _ h := h
  body j hj s _ _ h := tablesCanonical_body j hj s h

/-- A header token writes NT entries one by one. -/
theorem tablesCanonical_token {i : Instr} (hc : i.isCommand = false) {s t : State} (hs : tablesCanonical s = true)
    (h : exec i s = .next t) : tablesCanonical t = true := by
  rcases token_next_cases hc h with ⟨_, rfl⟩ | ⟨_, ⟨k, _, rfl⟩ | ⟨_, ⟨_, rfl⟩ | ⟨sym, w, _, hw, ht⟩⟩⟩
  · exact hs
  · exact hs
  · exact hs
  · obtain ⟨hf, hn, hc, h0⟩ := (tablesCanonical_iff s).1 hs
    have hsorted : tableSorted w.1 = true := by
      rw [hw]
      exact closeNodes_keeps (P := fun nt => tableSorted nt = true) _ _ _ (tableSorted_put hn _ _)
        fun nt j l r _ h => tableSorted_put h _ _
    rcases ht with ⟨_, rfl⟩ | ⟨r, _, rfl⟩ <;> exact (tablesCanonical_iff _).2 ⟨hf, hsorted, hc, h0⟩

/-- Settles O53: each primitive, token and host write puts or erases single entries of a canonical table. -/
theorem tablesStayCanonical : Obligations.TablesStayCanonical := by
  intro s t hs h
  exact tablesCanonical_invariant.step_keeps
    (fun _ i p hc he => tablesCanonical_token hc (s := { s with src := p }) hs he) (fun _ c p n _ _ => hs) hs h

/-! ## The fields -/

theorem tablesFit_iff (s : State) : tablesFit s = true ↔
    (∀ e ∈ s.freq, e.1 < Config.nsym ∧ e.2 < Config.countLimit s.params) ∧
    (∀ e ∈ s.nt, e.1 < Config.nodeCap ∧ nodeWeight e.2 < Config.countLimit s.params) ∧
    (∀ e ∈ s.ct, e.1 < Config.nsym ∧ 0 < e.2.length ∧ e.2.length ≤ 256) ∧ s.ncnt.toNat ≤ Config.nodeCap := by
  simp only [tablesFit, Bool.and_eq_true, List.all_eq_true, decide_eq_true_eq, and_assoc]

theorem countLimit_pos (p : Config.Params) : 0 < Config.countLimit p := by
  have := countLimit_ge p; omega

/-- NT with every weight 0, as a header's tokens leave it, fits. -/
theorem NodesOk.fit {nt : Table Node} (h : NodesOk nt) (h0 : ∀ e ∈ nt, nodeWeight e.2 = 0) (p : Config.Params) :
    ∀ e ∈ nt, e.1 < Config.nodeCap ∧ nodeWeight e.2 < Config.countLimit p :=
  fun e he => ⟨h.keys e he, by rw [h0 e he]; exact countLimit_pos p⟩

theorem tablesFit_body : ∀ j ∈ primitives, ∀ s, tablesFit s = true →
    Ends (fun t => tablesFit t = true) (fun _ _ u => tablesFit u = true) (fun _ => True) (bodyOf j s) := by
  intro j hj s hs
  obtain ⟨hf, hn, hc, hcnt⟩ := (tablesFit_iff s).1 hs
  rcases tables_writers j hj with hw | hw
  · simp only [List.mem_cons, List.not_mem_nil, or_false] at hw
    rcases hw with rfl | rfl | rfl | rfl
    · have ok : ∀ f p, FreqOk (Config.countLimit s.params) f → tablesFit { s with src := p, freq := f } = true :=
        fun f p h => (tablesFit_iff _).2 ⟨fun e he => (h.entries e he).2, hn, hc, hcnt⟩
      refine (runCount_ends s).imp ?_ ?_ (fun _ _ => trivial)
      · rintro t ⟨p, p', f, _, _, h, rfl⟩; exact ok f _ h
      · rintro c op u ⟨_, _, p, p', f, _, _, h, rfl⟩; exact ok f _ h
    · have light : ∀ nt, NodesOk nt → Light s nt →
          ∀ e ∈ nt, e.1 < Config.nodeCap ∧ nodeWeight e.2 < Config.countLimit s.params :=
        fun nt hok hl e he => ⟨hok.keys e he, hl (fun e he => (hf e he).2) e he⟩
      refine (runBuild_ends s).imp ?_ ?_ (fun _ _ => trivial)
      · rintro t ⟨nt, n, root, h, rfl⟩; exact (tablesFit_iff _).2 ⟨hf, light nt h.ok h.light, hc, h.count⟩
      · rintro c op u ⟨_, _, nt, n, h, hl, hle, rfl⟩; exact (tablesFit_iff _).2 ⟨hf, light nt h hl, hc, hle⟩
    · refine (runGencodes_ends s).imp ?_ ?_ (fun _ _ => trivial)
      · rintro t ⟨ct, a, b, h, _, _, _, rfl⟩; exact (tablesFit_iff _).2 ⟨hf, hn, h.entries, hcnt⟩
      · rintro c op u ⟨_, _, ct, h, rfl⟩; exact (tablesFit_iff _).2 ⟨hf, hn, h.entries, hcnt⟩
    · refine (runRdhdr_ends s).imp ?_ ?_ (fun _ _ => trivial)
      · rintro t ⟨p, tree, rest, _, _, hsz, rfl⟩
        obtain ⟨hok, h0⟩ := placeTree_ok tree 0 [] ⟨rfl, by simp⟩ (by simp) (by omega)
        refine (tablesFit_iff _).2 ⟨hf, hok.fit h0 _, hc, ?_⟩
        exact le_trans (by rw [BitVec.toNat_ofNat]; exact Nat.mod_le _ _) hsz
      · rintro c op u ⟨_, _, p, p', nt, n, hdr, _, _, h, h0, hle, rfl⟩
        exact (tablesFit_iff _).2 ⟨hf, h.fit h0 _, hc, hle⟩
  · refine keeps_of_frame hj fun t ht => ?_
    obtain ⟨e1, e2, e3, e4⟩ := ht.tables hw
    rw [tablesFit_iff, e1, e2, e3, e4, ht.params]
    exact ⟨hf, hn, hc, hcnt⟩

theorem tablesFit_invariant : StepInvariant (fun s => tablesFit s = true) (fun _ _ u => tablesFit u = true) where
  outside h := h
  cleared _ := rfl
  freq w hsym h := by
    obtain ⟨hf, hn, hc, hcnt⟩ := (tablesFit_iff _).1 h
    refine (tablesFit_iff _).2 ⟨fun e he => ?_, hn, hc, hcnt⟩
    rcases mem_freqPut he with ⟨rfl, _⟩ | he
    · exact ⟨by simp only [Config.nsym]; omega, Nat.mod_lt _ (countLimit_pos _)⟩
    · exact hf e he
  faulted _ h := h
  illegal _ h := h
  body j hj s _ _ h := tablesFit_body j hj s h

/-! ## The parameters (R21) -/

theorem params_invariant (p : Config.Params) : StepInvariant (fun s => s.params = p) (fun _ _ u => u.params = p) where
  outside h := h
  cleared h := h
  freq _ _ h := h
  faulted _ h := h
  illegal _ h := h
  body _ hj _ _ _ h := keeps_of_frame hj fun _ ht => ht.params.trans h

theorem params_token {i : Instr} (hc : i.isCommand = false) {s t : State} (h : exec i s = .next t) :
    t.params = s.params := by
  rcases token_next_cases hc h with
    ⟨_, rfl⟩ | ⟨_, ⟨k, _, rfl⟩ | ⟨_, ⟨_, rfl⟩ | ⟨sym, w, _, _, ⟨_, rfl⟩ | ⟨r, _, rfl⟩⟩⟩⟩ <;> rfl

theorem not_busy_of_between {s : State} (h : betweenCommands s = true) : s.runState ≠ .busy := by
  simp only [betweenCommands, Bool.and_eq_true, decide_eq_true_eq] at h
  exact h.1

/-- Settles O54: the parameters are in every frame; each primitive and host write puts entries that fit. -/
theorem tablesStayInTheirFields : Obligations.TablesStayInTheirFields := by
  intro s t h
  refine ⟨?_, fun hb hs => tablesFit_invariant.step_keeps_between (not_busy_of_between hb) hs h⟩
  exact (params_invariant s.params).step_keeps (fun _ i p hc he => params_token hc (s := { s with src := p }) he)
    (fun _ c p n _ _ => rfl) rfl h

end Sys2Proof.Machine
end

section
/-! Proofs of the family 10_state.md, third part: STATUS, the tree and its codes (10_state.md R23, R24, R28, R30). -/

namespace Sys2Proof.Machine

/-! ## STATUS -/

theorem statusLegal_iff (s : State) : statusLegal s = true ↔
    (s.runState = .fault ↔ s.err ≠ .none) ∧ (s.err = .none → s.fop = 0) ∧
    (s.dst = .atLeafSym → s.runState = .fault) ∧ (s.cv = true → s.tv = true) ∧
    (s.tv = false → s.root = Config.nil) := by
  simp only [statusLegal, Bool.and_eq_true, and_assoc, beq_iff_eq, decide_eq_decide, Bool.or_eq_true,
    decide_eq_true_eq, Bool.not_eq_true', ne_eq]
  refine and_congr_right fun _ => and_congr ?_ (and_congr ?_ (and_congr ?_ ?_))
  · tauto
  · tauto
  · cases s.cv <;> cases s.tv <;> simp
  · cases s.tv <;> simp

/-- What must hold where a fault is raised for STATUS to be legal after fault entry (R236). -/
def RaisedLegal (c : FaultCode) (_ : Opcode) (u : State) : Prop :=
  c ≠ .none ∧ (u.cv = true → u.tv = true) ∧ (u.tv = false → u.root = Config.nil)

theorem statusLegal_faulted {c : FaultCode} {op : Opcode} {u : State} (k : Snk) (h : RaisedLegal c op u) :
    statusLegal (faultedState c op k u) = true := by
  obtain ⟨hc, hcv, hroot⟩ := h
  have herr : (faultedState c op k u).err ≠ .none := by
    by_cases he : u.err = .none <;> simp [faultedState, he, hc]
  exact (statusLegal_iff _).2 ⟨⟨fun _ => herr, fun _ => rfl⟩, fun he => absurd he herr, fun _ => rfl, hcv, hroot⟩

theorem statusLegal_body : ∀ j ∈ primitives, ∀ s, s.runState = .idle → Prepared j s → statusLegal s = true →
    Ends (fun t => statusLegal t = true) RaisedLegal (fun _ => True) (bodyOf j s) := by
  intro j hj s hi hp hs
  obtain ⟨hfault, hfop, hdst, hcv, hroot⟩ := (statusLegal_iff s).1 hs
  simp only [primitives, List.mem_cons, List.not_mem_nil, or_false] at hj
  rcases hj with rfl | rfl | rfl | rfl | rfl | rfl | rfl | rfl | rfl | rfl | rfl
  · refine (runCount_ends s).imp ?_ ?_ (fun _ _ => trivial)
    · rintro t ⟨p, p', f, _, _, _, rfl⟩; exact hs
    · rintro c op u ⟨rfl, _, p, p', f, _, _, _, rfl⟩; exact ⟨nofun, hcv, hroot⟩
  · refine (runBuild_ends s).imp ?_ ?_ (fun _ _ => trivial)
    · rintro t ⟨nt, n, r, _, rfl⟩; exact (statusLegal_iff _).2 ⟨hfault, hfop, hdst, nofun, nofun⟩
    · rintro c op u ⟨rfl, _, nt, n, _, _, _, rfl⟩; exact ⟨nofun, nofun, fun _ => rfl⟩
  · have htv : s.tv = true := hp
    refine (runGencodes_ends s).imp ?_ ?_ (fun _ _ => trivial)
    · rintro t ⟨ct, a, b, _, _, _, _, rfl⟩; exact (statusLegal_iff _).2 ⟨hfault, hfop, hdst, fun _ => htv, hroot⟩
    · rintro c op u ⟨rfl, _, ct, _, rfl⟩; exact ⟨nofun, nofun, hroot⟩
  · refine (runWrmagic_ends s).imp ?_ (fun _ _ _ h => h.elim) (fun _ _ => trivial)
    rintro t ⟨c, k, _, _, rfl⟩; exact hs
  · refine (runWrhdr_ends s).imp ?_ (fun _ _ _ h => h.elim) (fun _ _ => trivial)
    rintro t ⟨c, k, _, _, rfl⟩; exact hs
  · refine (runRewind_ends s).imp ?_ (fun _ _ _ h => h.elim) (fun _ _ => trivial)
    rintro t ⟨p, _, rfl⟩; exact hs
  · refine (runEncode_ends s).imp ?_ ?_ (fun _ _ => trivial)
    · rintro t ⟨p, p', c, k, _, _, _, _, rfl⟩; exact hs
    · rintro c op u ⟨rfl, _, p, p', d, k, _, _, _, _, rfl⟩; exact ⟨nofun, hcv, hroot⟩
  · refine (runClose_ends s).imp ?_ (fun _ _ _ h => h.elim) (fun _ _ => trivial)
    rintro t ⟨k, _, _, rfl⟩; exact hs
  · refine (runRdmagic_ends s).imp ?_ ?_ (fun _ _ => trivial)
    · rintro t ⟨p, p', _, _, rfl⟩; exact hs
    · rintro c op u ⟨rfl, _, p, p', _, _, rfl⟩; exact ⟨nofun, hcv, hroot⟩
  · refine (runRdhdr_ends s).imp ?_ ?_ (fun _ _ => trivial)
    · rintro t ⟨p, tree, rest, _, _, _, rfl⟩
      have hnf : s.runState ≠ .fault := by rw [hi]; decide
      exact (statusLegal_iff _).2 ⟨by simpa [hi] using hfault, hfop, fun h => absurd (hdst h) hnf, nofun, nofun⟩
    · rintro c op u ⟨rfl | rfl, _, p, p', nt, n, hdr, _, _, _, _, _, rfl⟩ <;> exact ⟨nofun, nofun, fun _ => rfl⟩
  · refine (runDecode_ends s).imp ?_ ?_ (fun _ _ => trivial)
    · rintro t ⟨p, p', d, k, c, _, _, _, _, rfl⟩
      exact (statusLegal_iff _).2 ⟨hfault, hfop, nofun, hcv, hroot⟩
    · rintro c op u ⟨rfl | rfl, _, p, p', d, k, e, dst, _, _, _, _, rfl⟩ <;> exact ⟨nofun, hcv, hroot⟩

theorem RaisedLegal.of_statusLegal {c : FaultCode} {s : State} (h : statusLegal s = true) (hc : c ≠ .none)
    (op : Opcode) : RaisedLegal c op s := by
  obtain ⟨_, _, _, hcv, hroot⟩ := (statusLegal_iff s).1 h
  exact ⟨hc, hcv, hroot⟩

theorem statusLegal_invariant : StepInvariant (fun s => statusLegal s = true) RaisedLegal where
  outside h := h
  cleared _ := rfl
  freq _ _ h := h
  faulted k h := statusLegal_faulted k h
  illegal op h := .of_statusLegal h (by decide) op
  body := statusLegal_body

theorem statusLegal_token {i : Instr} (hc : i.isCommand = false) {s t : State} (hs : statusLegal s = true)
    (h : exec i s = .next t) : statusLegal t = true := by
  rcases token_next_cases hc h with
    ⟨_, rfl⟩ | ⟨hb, ⟨k, _, rfl⟩ | ⟨_, ⟨_, rfl⟩ | ⟨sym, w, _, _, ⟨_, rfl⟩ | ⟨r, _, rfl⟩⟩⟩⟩
  · exact hs
  · exact statusLegal_faulted k (.of_statusLegal hs (by decide) _)
  · exact hs
  · exact hs
  · obtain ⟨hfault, hfop, hdst, _, _⟩ := (statusLegal_iff s).1 hs
    have hnf : s.runState ≠ .fault := by rw [hb]; decide
    exact (statusLegal_iff _).2
      ⟨⟨nofun, fun he => absurd (hfault.2 he) hnf⟩, hfop, fun hd => absurd (hdst hd) hnf, fun _ => rfl, nofun⟩

/-! ## Between commands -/

theorem betweenCommands_iff (s : State) : betweenCommands s = true ↔ s.runState ≠ .busy ∧ s.hdr = [] := by
  simp [betweenCommands]

/-- A command taken between commands ends between commands (R7). -/
theorem betweenCommands_exec {i : Instr} (hc : i.isCommand = true) {s t : State} (hs : betweenCommands s = true)
    (h : exec i s = .next t) : betweenCommands t = true := by
  obtain ⟨hb, hh⟩ := (betweenCommands_iff s).1 hs
  by_cases hn : i = .clear
  · subst hn
    rw [exec_clear hb] at h
    injection h with h
    exact h ▸ rfl
  · rcases exec_next_cases hc hn (fun _ => frame_body hc hn s) h with
      ⟨_, rfl⟩ | ⟨_, _, k, _, rfl⟩ | ⟨_, _, ⟨_, hr, hd⟩ | ⟨c, op, u, k, _, _, rfl⟩⟩
    · exact hs
    · rfl
    · refine (betweenCommands_iff t).2 ⟨?_, hd.elim (fun e => e.trans hh) id⟩
      rcases hr with hr | hr <;> rw [hr]
      · exact hb
      · decide
    · rfl

/-- Without a header open no token runs, and every other step ends between commands. -/
theorem betweenCommands_step {s t : State} (hs : betweenCommands s = true) (h : step s = .next t) :
    betweenCommands t = true := by
  have hb := not_busy_of_between hs
  cases step_did h with
  | answered h r d ht => exact ht ▸ hs
  | reset rest ht => exact ht ▸ rfl
  | abandoned w n cs rest hb hh ht => exact ht ▸ rfl
  | attachedSrc d rest hh ht => exact ht ▸ hs
  | attachedSnk rest hh ht => exact ht ▸ hs
  | wroteFreq sym w rest hsym hi ht => exact ht ▸ hs
  | command i rest _ hc hh he => exact betweenCommands_exec hc (s := { s with host := rest }) hs he
  | illegal w rest k hi hk hh ht => exact ht ▸ rfl
  | token i p p' hbusy hc hp hl he => exact absurd hbusy hb
  | cut c p p' n k hbusy hp hl hn hk hc ht => exact absurd hbusy hb

/-- Settles O55: each primitive, token and fault keeps STATUS legal; a command leaves no header open. -/
theorem statusStaysLegal : Obligations.StatusStaysLegal := by
  intro s t h
  refine ⟨fun hs => ?_, fun hs => betweenCommands_step hs h⟩
  refine statusLegal_invariant.step_keeps (fun _ i p hc he => statusLegal_token hc (s := { s with src := p }) hs he)
    (fun _ c p n hc _ => ?_) hs h
  refine .of_statusLegal (s := { s with src := p, ncnt := n }) hs ?_ _
  rcases hc with rfl | rfl <;> nofun

/-! ## The tree -/

/-- The primitives that write the tree, the others' frames. -/
theorem tree_writers : ∀ j ∈ primitives, j = .build ∨ j = .rdhdr ∨ (writesOf j).tree = false := by decide

/-- A tree that fits NT is at most 256 deep (R5, R160). -/
theorem HuffTree.depth_lt_maxLevels {t : HuffTree} (h : t.size ≤ Config.nodeCap) : t.depth < Config.maxLevels := by
  have h1 := t.depth_lt_leaves
  have h2 := t.size_leaves
  simp only [Config.nodeCap, Config.maxLevels] at h ⊢
  omega

/-- The tree RDHDR places owns the indices it took (R176). -/
theorem nodesAt_placeTree_root {t : HuffTree} (h : t.size ≤ Config.nodeCap) :
    nodesAt (placeTree t 0 []) Config.maxLevels 0 = some (List.range t.size) := by
  obtain ⟨ht, hx⟩ := treeAt_placeTree t 0 [] (by simp only [Config.nodeCap] at h; omega) (fun _ _ _ => rfl)
  simpa using nodesAt_of_depth ht hx (HuffTree.depth_lt_maxLevels h)

theorem treeOwned_body : ∀ j ∈ primitives, ∀ s, TreeOwned s →
    Ends TreeOwned (fun _ _ u => TreeOwned u) (fun _ => True) (bodyOf j s) := by
  intro j hj s hs
  rcases tree_writers j hj with rfl | rfl | hw
  · refine (runBuild_ends s).imp ?_ ?_ (fun _ _ => trivial)
    · rintro t ⟨nt, n, root, h, rfl⟩; exact fun _ => h.owned
    · rintro c op u ⟨_, _, nt, n, _, _, _, rfl⟩; exact nofun
  · refine (runRdhdr_ends s).imp ?_ ?_ (fun _ _ => trivial)
    · rintro t ⟨p, tree, rest, _, _, hsz, rfl⟩ _
      refine ⟨_, nodesAt_placeTree_root hsz, ?_⟩
      simp only [Config.nodeCap] at hsz
      rw [BitVec.toNat_ofNat, Nat.mod_eq_of_lt (by omega)]
    · rintro c op u ⟨_, _, p, p', nt, n, hdr, _, _, _, _, _, rfl⟩; exact nofun
  · refine keeps_of_frame hj fun t ht => ?_
    obtain ⟨hnt, hncnt, hroot, htv, _⟩ := ht.tree.resolve_left (by simp [hw])
    simpa only [TreeOwned, hnt, hncnt, hroot, htv] using hs

theorem treeOwned_invariant : StepInvariant TreeOwned (fun _ _ u => TreeOwned u) where
  outside h := h
  cleared _ := nofun
  freq _ _ h := h
  faulted _ h := h
  illegal _ h := h
  body j hj s _ _ h := treeOwned_body j hj s h

/-- Settles O56: BUILD and RDHDR leave an owned tree or none, nothing else writes the tree between commands. -/
theorem treeStaysOwned : Obligations.TreeStaysOwned := fun _ _ hb hs h =>
  treeOwned_invariant.step_keeps_between (not_busy_of_between hb) hs h

/-! ## The codes -/

/-- The primitives that write the tree or the codes, the others' frames. -/
theorem codes_writers : ∀ j ∈ primitives, j ∈ [Instr.build, .gencodes, .rdhdr] ∨
    ((writesOf j).tree = false ∧ (writesOf j).ct = false ∧ (writesOf j).cv = false) := by decide

/-- Below an internal root no code is empty (R160). -/
theorem HuffTree.codeOf_node_ne_nil (l r : HuffTree) (sym : Nat) : (HuffTree.node l r).codeOf sym ≠ some [] := by
  intro h
  have := HuffTree.codesFrom_node_pos (mem_of_tableGet h)
  simp at this

theorem codesOfTree_body : ∀ j ∈ primitives, ∀ s, CodesOfTree s →
    Ends CodesOfTree (fun _ _ u => CodesOfTree u) (fun _ => True) (bodyOf j s) := by
  intro j hj s hs
  rcases codes_writers j hj with hw | ⟨htree, hct, hcv⟩
  · simp only [List.mem_cons, List.not_mem_nil, or_false] at hw
    rcases hw with rfl | rfl | rfl
    · refine (runBuild_ends s).imp ?_ ?_ (fun _ _ => trivial)
      · rintro t ⟨nt, n, root, _, rfl⟩; exact nofun
      · rintro c op u ⟨_, _, nt, n, _, _, _, rfl⟩; exact nofun
    · refine (runGencodes_ends s).imp ?_ ?_ (fun _ _ => trivial)
      · rintro t ⟨ct, a, b, _, hroot, hnodup, hget, rfl⟩
        exact fun _ => ⟨_, hroot, hnodup, fun sym => ⟨hget sym, HuffTree.codeOf_node_ne_nil a b sym⟩⟩
      · rintro c op u ⟨_, _, ct, _, rfl⟩; exact nofun
    · refine (runRdhdr_ends s).imp ?_ ?_ (fun _ _ => trivial)
      · rintro t ⟨p, tree, rest, _, _, _, rfl⟩; exact nofun
      · rintro c op u ⟨_, _, p, p', nt, n, hdr, _, _, _, _, _, rfl⟩; exact nofun
  · refine keeps_of_frame hj fun t ht => ?_
    obtain ⟨hnt, _, hroot, _, _⟩ := ht.tree.resolve_left (by simp [htree])
    have hc := ht.ct.resolve_left (by simp [hct])
    have hv := ht.cv.resolve_left (by simp [hcv])
    simpa only [CodesOfTree, rootTree, hnt, hroot, hc, hv] using hs

theorem codesOfTree_invariant : StepInvariant CodesOfTree (fun _ _ u => CodesOfTree u) where
  outside h := h
  cleared _ := nofun
  freq _ _ h := h
  faulted _ h := h
  illegal _ h := h
  body j hj s _ _ h := codesOfTree_body j hj s h

/-- Settles O57: GENCODES records the paths of the tree in NT, and whatever writes the tree takes CV away. -/
theorem codesStayOfTheTree : Obligations.CodesStayOfTheTree := fun _ _ hb hs h =>
  codesOfTree_invariant.step_keeps_between (not_busy_of_between hb) hs h

end Sys2Proof.Machine
end

section
/-! Proofs of the family 10_state.md, fourth part: the ports (10_state.md R33, R34, 20_memory.md R60, R70 to R75). -/

namespace Sys2Proof.Machine

/-! ## What happens to a port -/

/-- A sink that only grows, and not once it is closed (R34, R73, R74). -/
structure SnkMoved (k k' : Snk) : Prop where
  grown : k.bits <+: k'.bits
  kept  : k.closed = true → k' = k
  whole : k'.closed = true → k'.bits.length % 8 = 0

theorem SnkMoved.trans {k l m : Snk} (h : SnkMoved k l) (h' : SnkMoved l m) : SnkMoved k m where
  grown := h.grown.trans h'.grown
  kept hc := by rw [h'.kept (by rw [h.kept hc]; exact hc), h.kept hc]
  whole := h'.whole

theorem snkAppend_moved (c : Bits) {k : Snk} (hk : k.closed = false) : SnkMoved k (snkAppend c k) where
  grown := List.prefix_append _ _
  kept hc := absurd (hk.symm.trans hc) (by decide)
  whole hc := absurd (hk.symm.trans hc) (by decide)

theorem snkClose_moved {k : Snk} (hk : k.closed = false) : SnkMoved k (snkClose k) where
  grown := List.prefix_append _ _
  kept hc := absurd (hk.symm.trans hc) (by decide)
  whole _ := snkClose_whole_bytes k

theorem closeIfOpen_moved {k : Snk} (hk : k.closed = true → k.bits.length % 8 = 0) : SnkMoved k (closeIfOpen k) := by
  unfold closeIfOpen
  split
  · exact ⟨List.prefix_rfl, fun _ => rfl, hk⟩
  · rename_i hc; exact snkClose_moved (by simpa using hc)

theorem srcLater_moved {p q : Src} (h : SrcLater p q) (hp : p.pos ≤ 8 * p.data.length)
    (he : p.exh = true → p.pos = 8 * p.data.length) : SrcMoved p q := by
  rcases h with rfl | ⟨n, hn, rfl⟩
  · refine ⟨rfl, ⟨le_rfl, fun _ => rfl⟩, .inl ⟨rfl, hp, fun hx => ?_⟩⟩
    simp only [srcAtEnd, ← he hx, ← hx]
  · cases hx : p.exh with
    | true =>
      rw [bitsLeft_of_exh hx, List.length_nil, Nat.le_zero] at hn
      subst hn
      exact ⟨rfl, ⟨hp, he⟩, .inl ⟨rfl, le_rfl, fun _ => rfl⟩⟩
    | false =>
      rw [bitsLeft_of_not_exh hx, List.length_drop, sourceBits_length] at hn
      refine ⟨rfl, ⟨?_, ?_⟩, .inl ⟨rfl, Nat.le_add_right _ _, ?_⟩⟩
      · simp only [srcAdvance_pos, srcAdvance_data]; omega
      · simp [hx]
      · simp [hx]

theorem srcRewind_moved {p : Src} (hr : p.rew = false) : SrcMoved p (srcRewind p) :=
  ⟨rfl, ⟨Nat.zero_le _, nofun⟩, .inr ⟨hr, rfl⟩⟩

/-! ## The ports of a state -/

theorem portsLegal_iff (s : State) : portsLegal s = true ↔
    (∀ p, s.src = some p → p.pos ≤ 8 * p.data.length ∧ (p.exh = true → p.pos = 8 * p.data.length)) ∧
    (∀ k, s.snk = some k → k.closed = true → k.bits.length % 8 = 0) := by
  simp only [portsLegal, Bool.and_eq_true]
  refine and_congr ?_ ?_
  · cases s.src with
    | none => simp
    | some p => cases hx : p.exh <;> simp [hx]
  · cases s.snk with
    | none => simp
    | some k => cases hx : k.closed <;> simp [hx]

/-- Each port as a legal move leaves it; a port never attached stays so. -/
structure PortsMoved (s t : State) : Prop where
  src : Option.Rel SrcMoved s.src t.src
  snk : Option.Rel SnkMoved s.snk t.snk

theorem optionRel_trans {α : Type} {r : α → α → Prop} (hr : ∀ {a b c}, r a b → r b c → r a c) {a b c : Option α}
    (h : Option.Rel r a b) (h' : Option.Rel r b c) : Option.Rel r a c := by
  cases h with
  | none => exact h'
  | some m =>
    cases h' with
    | some m' => exact .some (hr m m')

theorem PortsMoved.trans {s t u : State} (h : PortsMoved s t) (h' : PortsMoved t u) : PortsMoved s u :=
  ⟨optionRel_trans (fun h h' => h.trans h') h.src h'.src, optionRel_trans (fun h h' => h.trans h') h.snk h'.snk⟩

theorem srcLegal_of_moved {o : Option Src} {p : Src} (h : Option.Rel SrcMoved o (some p)) :
    p.pos ≤ 8 * p.data.length ∧ (p.exh = true → p.pos = 8 * p.data.length) := by
  cases h with
  | some m => exact m.legal

theorem snkWhole_of_moved {o : Option Snk} {k : Snk} (h : Option.Rel SnkMoved o (some k)) :
    k.closed = true → k.bits.length % 8 = 0 := by
  cases h with
  | some m => exact m.whole

/-- Moved ports are legal. -/
theorem PortsMoved.legal {s t : State} (h : PortsMoved s t) : portsLegal t = true :=
  (portsLegal_iff t).2 ⟨fun _ hp => srcLegal_of_moved (hp ▸ h.src), fun _ hk => snkWhole_of_moved (hk ▸ h.snk)⟩

theorem optionRel_some_left {α : Type} {r : α → α → Prop} {a : α} {o : Option α} (h : Option.Rel r (some a) o) :
    ∃ b, o = some b ∧ r a b := by
  cases h with
  | some m => exact ⟨_, rfl, m⟩

theorem playCalls_src_none (cs : List PortCall) {s : State} (h : s.src = none) : (playCalls cs s).src = none := by
  induction cs generalizing s with
  | nil => exact h
  | cons c cs ih => exact ih (by cases c <;> simp [playCall, h])

theorem playCalls_snk_none (cs : List PortCall) {s : State} (h : s.snk = none) : (playCalls cs s).snk = none := by
  induction cs generalizing s with
  | nil => exact h
  | cons c cs ih => exact ih (by cases c <;> simp [playCall, h])

/-- Each port moved, or attached as the host's next action asks (R250). -/
structure PortsStepped (s t : State) : Prop where
  src : Option.Rel SrcMoved s.src t.src ∨
    ∃ d rest, s.host = .attachSrc d :: rest ∧ t.src = some { data := d, pos := 0, exh := false, rew := false }
  snk : Option.Rel SnkMoved s.snk t.snk ∨
    ∃ rest, s.host = .attachSnk :: rest ∧ t.snk = some { bits := [], closed := false }

theorem PortsMoved.stepped {s t : State} (h : PortsMoved s t) : PortsStepped s t := ⟨.inl h.src, .inl h.snk⟩

theorem snk_appends {s : State} {k : Snk} (hk : s.snk = some k) (hc : k.closed = false) (c : Bits) :
    Option.Rel SnkMoved s.snk (some (snkAppend c k)) := hk ▸ .some (snkAppend_moved c hc)

section
variable {s : State} (hl : portsLegal s = true)
include hl

theorem src_stays : Option.Rel SrcMoved s.src s.src := by
  have h := ((portsLegal_iff s).1 hl).1
  cases hp : s.src with
  | none => exact .none
  | some p => exact .some ⟨rfl, h p hp, .inl ⟨rfl, le_rfl, fun _ => rfl⟩⟩

theorem snk_stays : Option.Rel SnkMoved s.snk s.snk := by
  have h := ((portsLegal_iff s).1 hl).2
  cases hk : s.snk with
  | none => exact .none
  | some k => exact .some ⟨List.prefix_rfl, fun _ => rfl, h k hk⟩

theorem src_reads {p p' : Src} (hp : s.src = some p) (h : SrcLater p p') : Option.Rel SrcMoved s.src (some p') := by
  obtain ⟨hle, hend⟩ := ((portsLegal_iff s).1 hl).1 p hp
  exact hp ▸ .some (srcLater_moved h hle hend)

theorem snk_closes {k : Snk} (hk : s.snk = some k) : Option.Rel SnkMoved s.snk (some (closeIfOpen k)) :=
  hk ▸ .some (closeIfOpen_moved (((portsLegal_iff s).1 hl).2 k hk))

/-- Fault entry closes the sink and leaves the source (R236). -/
theorem faultedState_moved {c : FaultCode} {op : Opcode} {k : Snk} (hk : s.snk = some k) :
    PortsMoved s (faultedState c op k s) := ⟨src_stays hl, snk_closes hl hk⟩

/-- Every primitive moves the ports legally. -/
theorem ports_body {j : Instr} (hj : j ∈ primitives) (hp : Prepared j s) :
    Ends (PortsMoved s) (fun _ _ u => PortsMoved s u) (fun _ => True) (bodyOf j s) := by
  have frame : ∀ {j}, j ∈ primitives → (writesOf j).src = false → (writesOf j).snk = false →
      Ends (PortsMoved s) (fun _ _ u => PortsMoved s u) (fun _ => True) (bodyOf j s) := fun hj hp hk =>
    keeps_of_frame hj fun t ht => by
      have e1 := ht.src.resolve_left (by simp [hp])
      have e2 := ht.snk.resolve_left (by simp [hk])
      exact ⟨by rw [e1]; exact src_stays hl, by rw [e2]; exact snk_stays hl⟩
  simp only [primitives, List.mem_cons, List.not_mem_nil, or_false] at hj
  rcases hj with rfl | rfl | rfl | rfl | rfl | rfl | rfl | rfl | rfl | rfl | rfl
  · refine (runCount_ends s).imp ?_ ?_ (fun _ _ => trivial)
    · rintro t ⟨p, p', f, hp, h, _, rfl⟩; exact ⟨src_reads hl hp h, snk_stays hl⟩
    · rintro c op u ⟨_, _, p, p', f, hp, h, _, rfl⟩; exact ⟨src_reads hl hp h, snk_stays hl⟩
  · exact frame (by decide) rfl rfl
  · exact frame (by decide) rfl rfl
  · refine (runWrmagic_ends s).imp ?_ (fun _ _ _ h => h.elim) (fun _ _ => trivial)
    rintro t ⟨c, k, hk, hc, rfl⟩; exact ⟨src_stays hl, snk_appends hk hc c⟩
  · refine (runWrhdr_ends s).imp ?_ (fun _ _ _ h => h.elim) (fun _ _ => trivial)
    rintro t ⟨c, k, hk, hc, rfl⟩; exact ⟨src_stays hl, snk_appends hk hc c⟩
  · refine (runRewind_ends s).imp ?_ (fun _ _ _ h => h.elim) (fun _ _ => trivial)
    rintro t ⟨p, hs, rfl⟩
    have hr : p.rew = false := by simpa [Prepared, mirrorRwd, hs] using hp
    exact ⟨hs ▸ .some (srcRewind_moved hr), snk_stays hl⟩
  · refine (runEncode_ends s).imp ?_ ?_ (fun _ _ => trivial)
    · rintro t ⟨p, p', c, k, hp, h, hk, hc, rfl⟩; exact ⟨src_reads hl hp h, snk_appends hk hc c⟩
    · rintro c op u ⟨_, _, p, p', d, k, hp, h, hk, hc, rfl⟩; exact ⟨src_reads hl hp h, snk_appends hk hc d⟩
  · refine (runClose_ends s).imp ?_ (fun _ _ _ h => h.elim) (fun _ _ => trivial)
    rintro t ⟨k, hk, hc, rfl⟩; exact ⟨src_stays hl, hk ▸ .some (snkClose_moved hc)⟩
  · refine (runRdmagic_ends s).imp ?_ ?_ (fun _ _ => trivial)
    · rintro t ⟨p, p', hp, h, rfl⟩; exact ⟨src_reads hl hp h, snk_stays hl⟩
    · rintro c op u ⟨_, _, p, p', hp, h, rfl⟩; exact ⟨src_reads hl hp h, snk_stays hl⟩
  · refine (runRdhdr_ends s).imp ?_ ?_ (fun _ _ => trivial)
    · rintro t ⟨p, tree, rest, hp, hb, _, rfl⟩
      exact ⟨src_reads hl hp (.inr ⟨_, by simp [hb], rfl⟩), snk_stays hl⟩
    · rintro c op u ⟨_, _, p, p', nt, n, hdr, hp, h, _, _, _, rfl⟩; exact ⟨src_reads hl hp h, snk_stays hl⟩
  · refine (runDecode_ends s).imp ?_ ?_ (fun _ _ => trivial)
    · rintro t ⟨p, p', d, k, c, hp, h, hk, hc, rfl⟩; exact ⟨src_reads hl hp h, snk_appends hk hc d⟩
    · rintro c op u ⟨_, _, p, p', d, k, e, dst, hp, h, hk, hc, rfl⟩; exact ⟨src_reads hl hp h, snk_appends hk hc d⟩

/-! ## Steps -/

/-- Every command moves the ports legally. -/
theorem ports_exec {i : Instr} (hc : i.isCommand = true) {t : State} (hb : s.runState ≠ .busy)
    (he : exec i s = .next t) : PortsMoved s t := by
  have stay : PortsMoved s s := ⟨src_stays hl, snk_stays hl⟩
  by_cases hn : i = .clear
  · subst hn
    rw [exec_clear hb] at he
    injection he with he
    exact he ▸ ⟨stay.src, stay.snk⟩
  · have hbody := fun hi hp => body_ends (I := PortsMoved s) (Q := fun _ _ u => PortsMoved s u) (R := fun _ => True)
      (fun j hj u _ hprep hu => (ports_body hu.legal hj hprep).imp (fun _ h => hu.trans h) (fun _ _ _ h => hu.trans h)
        (fun _ h => h)) hc hn hi hp stay
    rcases exec_accepted_cases hc hn hbody he with rfl | ⟨k, hk, rfl⟩ | ht | ⟨c, op, u, k, hu, hk, rfl⟩
    · exact stay
    · exact faultedState_moved hl hk
    · exact ht
    · exact hu.trans (faultedState_moved hu.legal hk)

/-- Every list of port calls moves the ports legally. -/
theorem ports_calls (cs : List PortCall) : PortsMoved s (playCalls cs s) := by
  obtain ⟨hsrc, hsnk⟩ := (portsLegal_iff s).1 hl
  obtain ⟨_, hwhole⟩ := (portsLegal_iff _).1 (playCalls_legal cs hl)
  refine ⟨?_, ?_⟩
  · cases hp : s.src with
    | none => rw [playCalls_src_none cs hp]; exact .none
    | some p =>
      obtain ⟨p', hp', m⟩ := playCalls_src cs hp (hsrc p hp).1 (hsrc p hp).2
      exact hp' ▸ .some m
  · cases hk : s.snk with
    | none => rw [playCalls_snk_none cs hk]; exact .none
    | some k =>
      obtain ⟨k', hk', hg, hc⟩ := playCalls_snk cs hk
      exact hk' ▸ .some ⟨hg, hc, hwhole k' hk'⟩

/-- A token of an open header touches no port but for the sink of a fault. -/
theorem ports_token {i : Instr} (hc : i.isCommand = false) {t : State} (h : exec i s = .next t) : PortsMoved s t := by
  rcases token_next_cases hc h with
    ⟨_, rfl⟩ | ⟨_, ⟨k, hk, rfl⟩ | ⟨_, ⟨_, rfl⟩ | ⟨sym, w, _, _, ⟨_, rfl⟩ | ⟨r, _, rfl⟩⟩⟩⟩
  · exact ⟨src_stays hl, snk_stays hl⟩
  · exact faultedState_moved hl hk
  · exact ⟨src_stays hl, snk_stays hl⟩
  · exact ⟨src_stays hl, snk_stays hl⟩
  · exact ⟨src_stays hl, snk_stays hl⟩

/-- Each port is moved by a step, but for the attach that is the host's next action (R250). -/
theorem ports_step {t : State} (h : step s = .next t) : PortsStepped s t := by
  have src := src_stays hl
  have snk := snk_stays hl
  cases step_did h with
  | answered h r d ht => exact PortsMoved.stepped (ht ▸ ⟨src, snk⟩)
  | reset rest ht => exact PortsMoved.stepped (ht ▸ ⟨src, snk⟩)
  | abandoned w n cs rest hb hh ht =>
    have m := ports_calls (s := { s with host := rest }) hl cs
    exact PortsMoved.stepped (ht ▸ ⟨m.src, m.snk⟩)
  | attachedSrc d rest hh ht => exact ht ▸ ⟨.inr ⟨d, rest, hh, rfl⟩, .inl snk⟩
  | attachedSnk rest hh ht => exact ht ▸ ⟨.inl src, .inr ⟨rest, hh, rfl⟩⟩
  | wroteFreq sym w rest hsym hi ht => exact PortsMoved.stepped (ht ▸ ⟨src, snk⟩)
  | command i rest hb hc hh he =>
    have m := ports_exec (s := { s with host := rest }) hl hc hb he
    exact PortsMoved.stepped ⟨m.src, m.snk⟩
  | illegal w rest k hi hk hh ht => exact PortsMoved.stepped (ht ▸ ⟨src, snk_closes hl hk⟩)
  | token i p p' hb hc hp hlater he =>
    have read : PortsMoved s { s with src := some p' } := ⟨src_reads hl hp hlater, snk⟩
    exact PortsMoved.stepped (read.trans (ports_token read.legal hc he))
  | cut c p p' n k hb hp hlater hn hk hc ht => exact PortsMoved.stepped (ht ▸ ⟨src_reads hl hp hlater, snk_closes hl hk⟩)

end

/-- Settles O58: a moved port is legal, and so is one just attached. -/
theorem portsStayLegal : Obligations.PortsStayLegal := by
  intro s t hl h
  obtain ⟨hsrc, hsnk⟩ := ports_step hl h
  refine (portsLegal_iff t).2 ⟨fun p hp => ?_, fun k hk => ?_⟩
  · rcases hsrc with m | ⟨d, rest, _, ht⟩
    · exact srcLegal_of_moved (hp ▸ m)
    · cases hp.symm.trans ht
      exact ⟨Nat.zero_le _, nofun⟩
  · rcases hsnk with m | ⟨rest, _, ht⟩
    · exact snkWhole_of_moved (hk ▸ m)
    · cases hk.symm.trans ht
      exact nofun

/-- Settles O52: but for an attach each port is moved, and a move never goes back but for the one rewind. -/
theorem streamsOnlyMoveForward : Obligations.StreamsOnlyMoveForward := by
  intro s t hl h
  obtain ⟨hsrc, hsnk⟩ := ports_step hl h
  refine ⟨fun k hk hno => ?_, fun p hp hno => ?_⟩
  · rcases hsnk with m | ⟨rest, hh, _⟩
    · obtain ⟨k', hk', m⟩ := optionRel_some_left (hk ▸ m)
      exact ⟨k', hk', m.grown, m.kept⟩
    · exact absurd hh (hno rest)
  · rcases hsrc with m | ⟨d, rest, hh, _⟩
    · obtain ⟨p', hp', m⟩ := optionRel_some_left (hp ▸ m)
      exact ⟨p', hp', m.data, m.round⟩
    · exact absurd hh (hno d rest)

end Sys2Proof.Machine
end

section
/-! Proofs of the family 10_state.md, fifth part: the fields of STATUS, unspecified reads, who writes what, commands
taken from CMD, and reset (10_state.md R22, R23, R36, R37). -/

namespace Sys2Proof.Machine

/-! ## STATUS, field by field (R23) -/

theorem extractLsb'_eq_of_div_mod {n start len : Nat} {w : BitVec n} {v : BitVec len}
    (h : w.toNat / 2 ^ start % 2 ^ len = v.toNat) : w.extractLsb' start len = v :=
  BitVec.eq_of_toNat_eq (by rw [BitVec.extractLsb'_toNat, Nat.shiftRight_eq_div_pow, h])

theorem getLsbD_eq_of_div_mod {n i : Nat} {w : BitVec n} {b : Bool} (h : w.toNat / 2 ^ i % 2 = b.toNat) :
    w.getLsbD i = b := by
  rw [BitVec.getLsbD, Nat.testBit_eq_decide_div_mod_eq, h]
  cases b <;> rfl

/-- Every field's code fits the bits R23 gives it. -/
theorem statusFields_fit (s : State) : runStateCode s.runState ≤ 2 ∧ faultCodeNumber s.err ≤ 8 ∧ decStateCode s.dst ≤ 2 ∧
    s.fop.toNat < 16 ∧ s.tv.toNat ≤ 1 ∧ s.cv.toNat ≤ 1 ∧ s.tsrc.toNat ≤ 1 ∧ (mirrorSnkc s).toNat ≤ 1 ∧
    (mirrorRwd s).toNat ≤ 1 ∧ (mirrorSrcx s).toNat ≤ 1 := by
  refine ⟨?_, ?_, ?_, s.fop.isLt, Bool.toNat_le _, Bool.toNat_le _, Bool.toNat_le _, Bool.toNat_le _, Bool.toNat_le _,
    Bool.toNat_le _⟩
  · cases s.runState <;> decide
  · cases s.err <;> decide
  · cases s.dst <;> decide

/-- STATUS as a sum of fields that do not overlap. -/
theorem statusWord_toNat (s : State) : (statusWord s).toNat = runStateCode s.runState + faultCodeNumber s.err * 2 ^ 4 +
    s.tv.toNat * 2 ^ 8 + s.cv.toNat * 2 ^ 9 + s.tsrc.toNat * 2 ^ 10 + (mirrorSnkc s).toNat * 2 ^ 11 +
    (mirrorRwd s).toNat * 2 ^ 12 + (mirrorSrcx s).toNat * 2 ^ 13 + decStateCode s.dst * 2 ^ 14 +
    s.fop.toNat * 2 ^ 16 := by
  rw [statusWord, BitVec.toNat_ofNat]
  refine Nat.mod_eq_of_lt ?_
  have hfit := statusFields_fit s
  omega

/-- Each field of STATUS as the quotient and remainder that cut it out of the word. -/
theorem statusWord_div_mod (s : State) :
    (statusWord s).toNat / 2 ^ 0 % 2 ^ 2 = runStateCode s.runState ∧ (statusWord s).toNat / 2 ^ 2 % 2 ^ 2 = 0 ∧
    (statusWord s).toNat / 2 ^ 4 % 2 ^ 4 = faultCodeNumber s.err ∧ (statusWord s).toNat / 2 ^ 8 % 2 = s.tv.toNat ∧
    (statusWord s).toNat / 2 ^ 9 % 2 = s.cv.toNat ∧ (statusWord s).toNat / 2 ^ 10 % 2 = s.tsrc.toNat ∧
    (statusWord s).toNat / 2 ^ 11 % 2 = (mirrorSnkc s).toNat ∧ (statusWord s).toNat / 2 ^ 12 % 2 = (mirrorRwd s).toNat ∧
    (statusWord s).toNat / 2 ^ 13 % 2 = (mirrorSrcx s).toNat ∧
    (statusWord s).toNat / 2 ^ 14 % 2 ^ 2 = decStateCode s.dst ∧ (statusWord s).toNat / 2 ^ 16 % 2 ^ 4 = s.fop.toNat ∧
    (statusWord s).toNat / 2 ^ 20 % 2 ^ 12 = 0 := by
  have hsum := statusWord_toNat s
  have hfit := statusFields_fit s
  refine ⟨?_, ?_, ?_, ?_, ?_, ?_, ?_, ?_, ?_, ?_, ?_, ?_⟩ <;> omega

/-- The mirrors of attached ports (R23). -/
theorem statusWord_mirrors (s : State) : (∀ k, s.snk = some k → (statusWord s).getLsbD 11 = k.closed) ∧
    (∀ p, s.src = some p → (statusWord s).getLsbD 12 = p.rew ∧ (statusWord s).getLsbD 13 = p.exh) := by
  obtain ⟨_, _, _, _, _, _, hsnkc, hrwd, hsrcx, _⟩ := statusWord_div_mod s
  refine ⟨fun k hk => ?_, fun p hp => ⟨?_, ?_⟩⟩
  · rw [getLsbD_eq_of_div_mod hsnkc, mirrorSnkc, hk]; rfl
  · rw [getLsbD_eq_of_div_mod hrwd, mirrorRwd, hp]; rfl
  · rw [getLsbD_eq_of_div_mod hsrcx, mirrorSrcx, hp]; rfl

/-- Settles O16: each field by its quotient and remainder. -/
theorem statusFields : Obligations.StatusFields := by
  intro s
  obtain ⟨hrun, h2, herr, htv, hcv, htsrc, _, _, _, hdst, hfop, h20⟩ := statusWord_div_mod s
  obtain ⟨hsnk, hsrc⟩ := statusWord_mirrors s
  refine ⟨extractLsb'_eq_of_div_mod ?_, extractLsb'_eq_of_div_mod h2, extractLsb'_eq_of_div_mod ?_,
    getLsbD_eq_of_div_mod htv, getLsbD_eq_of_div_mod hcv, getLsbD_eq_of_div_mod htsrc, hsnk, hsrc,
    extractLsb'_eq_of_div_mod ?_, extractLsb'_eq_of_div_mod hfop, extractLsb'_eq_of_div_mod h20⟩
  · rw [hrun]; cases s.runState <;> rfl
  · rw [herr]; cases s.err <;> rfl
  · rw [hdst]; cases s.dst <;> rfl

/-! ## Unspecified reads (R37, log entry 5) -/

theorem visibleNode_none {s : State} {i : Nat} (h : s.tv = false ∨ s.ncnt.toNat ≤ i) : visibleNode s i = none := by
  rw [visibleNode, if_neg]
  rintro ⟨htv, hlt⟩
  rcases h with h | h
  · simp [h] at htv
  · omega

theorem and_allOnes32 (w : Word) : w &&& 0xFFFFFFFF = w := BitVec.and_allOnes

theorem hostRead_node_free {s : State} {idx : WinIdx} {i k : Nat} (hi : i ≤ 512) (hk : k ≤ 1)
    (hn : s.tv = false ∨ s.ncnt.toNat ≤ i) (h : idx.toNat = 0x0400 + 2 * i + k) :
    hostRead idx s = answerFree 0xFFFFFFFF s := by
  rcases Nat.le_one_iff_eq_zero_or_eq_one.1 hk with rfl | rfl
  · rw [hostRead, windowCell_node hi h]
    simp only [visibleNode_none hn]
  · rw [hostRead, windowCell_weight hi (by omega)]
    simp only [visibleNode_none hn]

/-- Settles O18: the window's entry is one R37 leaves open, so the read draws the next free word. -/
theorem unspecifiedReadsAnswerAnyWord : Obligations.UnspecifiedReadsAnswerAnyWord := by
  intro s idx rest hb hh
  rw [step_host hb hh]
  refine ⟨fun i k hi hk hn h => ?_, fun sym k hs hk hc h => ?_⟩
  · show (hostRead idx { s with host := rest }).outcome = _
    rw [hostRead_node_free hi hk (s := { s with host := rest }) hn h, answerFree, and_allOnes32]
    rfl
  · show (hostRead idx { s with host := rest }).outcome = _
    rcases Nat.eq_zero_or_pos k with rfl | hpos
    · rw [hostRead, windowCell_head hs h]
      simp only [hc]
      rfl
    · rw [hostRead, windowCell_word hs hpos hk h, if_neg (by omega)]
      simp only [hc, answerFree, and_allOnes32]
      rfl

/-! ## Who writes what -/

theorem Frame.refl (w : Writes) (s : State) : Frame w s s := by constructor <;> simp

/-- Every instruction but CLEAR leaves a state its frame allows, or the state fault entry makes of one. -/
theorem exec_frame {i : Instr} (hn : i ≠ .clear) {s t : State} (h : exec i s = .next t) :
    ∃ u, Frame (writesOf i) s u ∧ ((t = u ∧ (u.hdr = s.hdr ∨ u.hdr = [] ∨ s.runState = .busy)) ∨
      (s.runState ≠ .fault ∧ ∃ c op k, t = faultedState c op k u)) := by
  cases hc : i.isCommand with
  | true =>
    rcases exec_next_cases hc hn (fun _ => frame_body hc hn s) h with
      ⟨_, rfl⟩ | ⟨hi, _, k, _, rfl⟩ | ⟨hi, _, ⟨hf, _, hd⟩ | ⟨c, op, u, k, hf, _, rfl⟩⟩
    · exact ⟨t, .refl _ t, .inl ⟨rfl, .inl rfl⟩⟩
    · exact ⟨s, .refl _ s, .inr ⟨by rw [hi]; decide, _, _, k, rfl⟩⟩
    · exact ⟨t, hf, .inl ⟨rfl, hd.imp_right .inl⟩⟩
    · exact ⟨u, hf, .inr ⟨by rw [hi]; decide, c, op, k, rfl⟩⟩
  | false =>
    have htree : (writesOf i).tree = true := by
      cases i with
      | hdrInternal => rfl
      | hdrLeaf sym => rfl
      | _ => cases hc
    rcases token_next_cases hc h with
      ⟨_, rfl⟩ | ⟨hb, ⟨k, _, rfl⟩ | ⟨_, ⟨_, rfl⟩ | ⟨sym, w, _, _, ⟨_, rfl⟩ | ⟨r, _, rfl⟩⟩⟩⟩
    · exact ⟨t, .refl _ t, .inl ⟨rfl, .inl rfl⟩⟩
    · exact ⟨s, .refl _ s, .inr ⟨by rw [hb]; decide, _, _, k, rfl⟩⟩
    all_goals exact ⟨_, by constructor <;> simp [htree], .inl ⟨rfl, .inr (.inr hb)⟩⟩

/-- The instructions that may write each part (10_state.md R24 to R32). -/
theorem writers_of_parts (i : Instr) :
    ((writesOf i).freq = true → i ∈ [Instr.clear, .count, .compress]) ∧
    ((writesOf i).tree = true →
      i ∈ [Instr.clear, .build, .rdhdr, .compress, .decompress] ∨ i.isCommand = false) ∧
    ((writesOf i).ct = true → i ∈ [Instr.clear, .gencodes, .compress]) ∧
    ((writesOf i).cv = true → i ∈ [Instr.clear, .build, .gencodes, .rdhdr, .compress, .decompress]) ∧
    ((writesOf i).walk = true → i ∈ [Instr.clear, .decode, .decompress]) ∧
    ((writesOf i).src = true →
      i ∈ [Instr.count, .rewind, .encode, .rdmagic, .rdhdr, .decode, .compress, .decompress]) ∧
    ((writesOf i).snk = true → i ∈ [Instr.wrmagic, .wrhdr, .encode, .close, .decode, .compress, .decompress]) := by
  cases i with
  | hdrLeaf sym => exact ⟨nofun, fun _ => .inr rfl, nofun, nofun, nofun, nofun, nofun⟩
  | _ => decide

/-- What CLEAR leaves: the reset state of R36, or the same state while BUSY. -/
theorem exec_clear_cases {s t : State} (h : exec .clear s = .next t) : t = s ∨ t = clearCore s := by
  by_cases hb : s.runState = .busy
  · have hstay : exec .clear s = .next s := by
      show execClear s = .next s
      rw [execClear, hb]
    exact .inl (Host.Outcome.next.inj (h.symm.trans hstay))
  · exact .inr (Host.Outcome.next.inj (h.symm.trans (exec_clear hb)))

/-- Settles O51: each instruction's frame, and what fault entry writes besides. -/
theorem whoWritesWhat : Obligations.WhoWritesWhat := by
  intro i s t h
  by_cases hn : i = .clear
  · subst hn
    rcases exec_clear_cases h with rfl | rfl <;> simp
  · obtain ⟨u, hf, ht⟩ := exec_frame hn h
    obtain ⟨wfreq, wtree, wct, wcv, wwalk, wsrc, wsnk⟩ := writers_of_parts i
    have freq := hf.freq.symm.imp_right wfreq
    have tree := hf.tree.symm.imp_right wtree
    have ct := hf.ct.symm.imp_right wct
    have cv := hf.cv.symm.imp_right wcv
    have walk := hf.walk.symm.imp_right wwalk
    have src := hf.src.symm.imp_right wsrc
    rcases ht with ⟨rfl, hd⟩ | ⟨hs, c, op, k, rfl⟩
    · exact ⟨hf.params, hf.host, hf.replies, hf.draws, freq, tree, ct, cv, walk, src,
        hf.snk.symm.imp_right fun h => .inr (wsnk h), .inl ⟨hf.err, hf.fop⟩, hd⟩
    · exact ⟨hf.params, hf.host, hf.replies, hf.draws, freq, tree, ct, cv, walk, src, .inr (.inl rfl),
        .inr (.inr ⟨hs, rfl⟩), .inr (.inl rfl)⟩

/-! ## Commands from CMD -/

/-- Settles O6: the step of a command's word. -/
theorem stepRunsTheCommand : Obligations.StepRunsTheCommand := fun _ _ _ _ hb hh hd => step_command hb hh hd

/-! ## Reset and CLEAR (R36, R224, R260) -/

/-- After CLEAR or reset every bit of STATUS but the mirrors is 0 (R36). -/
theorem statusWord_clearCore (s : State) : statusWord (clearCore s) &&& 0xFFFFC7FF = 0 := by
  have mask : ∀ a b c : Bool,
      BitVec.ofNat 32 (a.toNat * 2 ^ 11 + b.toNat * 2 ^ 12 + c.toNat * 2 ^ 13) &&& 0xFFFFC7FF = 0 := by decide
  simpa [statusWord, runStateCode, faultCodeNumber, decStateCode] using
    mask (mirrorSnkc (clearCore s)) (mirrorRwd (clearCore s)) (mirrorSrcx (clearCore s))

/-- Every state R36 speaks of is one the way out of FAULT leaves. -/
theorem eq_clearCore_of_reset {t : State} (h : t = State.reset ∨ (∃ s, s.runState ≠ .busy ∧ exec .clear s = .next t) ∨
    (∃ s rest, s.host = .reset :: rest ∧ step s = .next t) ∨
    (∃ s w n rest, s.runState ≠ .busy ∧ s.host = .cmdReset w n :: rest ∧ step s = .next t)) : ∃ u, t = clearCore u := by
  rcases h with rfl | ⟨s, hb, h⟩ | ⟨s, rest, hh, h⟩ | ⟨s, w, n, rest, hb, hh, h⟩
  · exact ⟨State.reset, rfl⟩
  · rw [exec_clear hb] at h
    injection h with h
    exact ⟨s, h.symm⟩
  · rw [step_reset hh] at h
    injection h with h
    exact ⟨_, h.symm⟩
  · obtain ⟨cs, ht⟩ := step_cmdReset hb hh h
    exact ⟨_, ht⟩

/-- CLEAR and a reset between steps leave the ports (R225, R261). -/
theorem ports_of_reset {s t : State}
    (h : exec .clear s = .next t ∨ ∃ rest, s.host = .reset :: rest ∧ step s = .next t) :
    t.src = s.src ∧ t.snk = s.snk := by
  rcases h with h | ⟨rest, hh, h⟩
  · rcases exec_clear_cases h with rfl | rfl <;> exact ⟨rfl, rfl⟩
  · rw [step_reset hh] at h
    injection h with h
    exact h ▸ ⟨rfl, rfl⟩

/-- Settles O12: both kinds of reset and CLEAR end in `clearCore`, whose mirrors show the ports. -/
theorem resetValues : Obligations.ResetValues := by
  refine ⟨fun t h => ?_, fun s t h => ?_⟩
  · obtain ⟨u, rfl⟩ := eq_clearCore_of_reset h
    exact ⟨rfl, rfl, rfl, rfl, rfl, rfl, rfl, rfl, rfl, rfl, fun _ => rfl, fun _ => rfl, statusWord_clearCore u⟩
  · obtain ⟨hsrc, hsnk⟩ := ports_of_reset h
    obtain ⟨hmk, hmp⟩ := statusWord_mirrors t
    exact ⟨hsrc, hsnk, fun k hk => hmk k (hsnk.trans hk), fun p hp => hmp p (hsrc.trans hp)⟩

/-- Settles O60: with no tree, no code and no port there is nothing to break. -/
theorem invariantsAtReset : Obligations.InvariantsAtReset :=
  ⟨by decide, by decide, by decide, by decide, nofun, nofun, by decide⟩

end Sys2Proof.Machine
end

section
/-! Proofs of the family 20_memory.md: the host's reads and writes of the window (20_memory.md R61 to R65). -/

namespace Sys2Proof.Machine

/-! ## Reads of the window (R62, R63) -/

/-- A read of the window between commands is the host port's alone (R61). -/
theorem step_hread {s : State} {idx : WinIdx} {rest : List HostAction} (hb : s.runState ≠ .busy)
    (hh : s.host = .hread idx :: rest) : step s = (hostRead idx { s with host := rest }).outcome :=
  step_host hb hh

/-- A read that is answered changes the list of answers alone. -/
theorem step_hread_answer {s : State} {idx : WinIdx} {rest : List HostAction} {r : Reply} (hb : s.runState ≠ .busy)
    (hh : s.host = .hread idx :: rest) (h : hostRead idx { s with host := rest } = answer r { s with host := rest }) :
    step s = .next { s with host := rest, replies := s.replies ++ [r] } := by
  rw [step_hread hb hh, h]
  rfl

/-- A count or weight that fits COUNT_W bits is shown whole (R62, R116). -/
theorem countWord_of_lt {p : Config.Params} {n : Nat} (h : n < Config.countLimit p) :
    countWord p n = BitVec.ofNat 32 n := by
  rw [countWord, Nat.mod_eq_of_lt h]

theorem visibleNode_some {s : State} {i : Nat} {n : Node} (htv : s.tv = true) (hi : i < s.ncnt.toNat)
    (hn : tableGet s.nt i = some n) : visibleNode s i = some n := by
  rw [visibleNode, if_pos ⟨htv, hi⟩, hn]

theorem hostRead_freq {s : State} {idx : WinIdx} {sym : Nat} (hs : sym ≤ 256) (h : idx.toNat = 0x0100 + sym)
    (hf : freqAt s.freq sym < Config.countLimit s.params) :
    hostRead idx s = answer (.word (BitVec.ofNat 32 (freqAt s.freq sym))) s := by
  simp only [hostRead, windowCell_freq hs h, countWord_of_lt hf]

theorem hostRead_node {s : State} {idx : WinIdx} {i : Nat} {n : Node} (hi : i ≤ 512) (hn : visibleNode s i = some n)
    (h : idx.toNat = 0x0400 + 2 * i) : hostRead idx s = answer (.word (nodeWord n)) s := by
  simp only [hostRead, windowCell_node hi h, hn]

theorem hostRead_weight {s : State} {idx : WinIdx} {i : Nat} {n : Node} (hi : i ≤ 512) (hn : visibleNode s i = some n)
    (hw : nodeWeight n < Config.countLimit s.params) (h : idx.toNat = 0x0401 + 2 * i) :
    hostRead idx s = answer (.word (BitVec.ofNat 32 (nodeWeight n))) s := by
  simp only [hostRead, windowCell_weight hi h, hn, countWord_of_lt hw]

theorem hostRead_head {s : State} {idx : WinIdx} {sym : Nat} {c : Bits} (hs : sym ≤ 256)
    (hc : tableGet s.ct sym = some c) (h : idx.toNat = 0x1000 + 16 * sym) :
    hostRead idx s = answer (.word (codeHeadWord c)) s := by
  simp only [hostRead, windowCell_head hs h, hc]

theorem hostRead_word {s : State} {idx : WinIdx} {sym k : Nat} {c : Bits} (hs : sym ≤ 256) (hk : 1 ≤ k) (hk8 : k ≤ 8)
    (hc : tableGet s.ct sym = some c) (h : idx.toNat = 0x1000 + 16 * sym + k) :
    hostRead idx s = answer (.word (codeBodyWord c k)) s := by
  simp only [hostRead, windowCell_word hs hk hk8 h, hc]

/-- Settles O17: the index names a cell of the map, whose read answers the map's word. -/
theorem hostReadsTheWindow : Obligations.HostReadsTheWindow := by
  intro s idx rest hb hh
  refine ⟨?status, ?root, ?ncnt, ?cur, fun sym hs h hf => ?freq, fun i n htv hi hi' hn hw => ?node,
    fun sym c hs hc => ?code⟩
  case status | root | ncnt | cur =>
    rintro rfl
    exact step_hread_answer hb hh rfl
  case freq => exact step_hread_answer hb hh (hostRead_freq hs h hf)
  case node =>
    have hv : visibleNode { s with host := rest } i = some n := visibleNode_some htv hi hn
    exact ⟨fun h => step_hread_answer hb hh (hostRead_node hi' hv h),
      fun h => step_hread_answer hb hh (hostRead_weight hi' hv hw h)⟩
  case code =>
    exact ⟨fun h => step_hread_answer hb hh (hostRead_head hs hc h),
      fun k hk hk8 h => step_hread_answer hb hh (hostRead_word hs hk hk8 hc h)⟩

/-! ## Writes of FREQ (R64) -/

/-- A write of FREQ[sym] between commands is the host port's alone (R61). -/
theorem step_hwrite_freq {s : State} {idx : WinIdx} {w : Word} {rest : List HostAction} {sym : Nat}
    (hb : s.runState ≠ .busy) (hs : sym ≤ 256) (h : idx.toNat = 0x0100 + sym) (hh : s.host = .hwrite idx w :: rest) :
    step s = (hostWriteFreq sym w { s with host := rest }).outcome := by
  rw [step_host hb hh, hostEvent, hostWrite, windowCell_freq hs h]
  rfl

theorem hostWriteFreq_idle {s : State} (sym : Nat) (w : Word) (hr : s.runState = .idle) :
    hostWriteFreq sym w s = .done { s with freq := freqPut s.freq sym (w.toNat % Config.countLimit s.params) } := by
  rw [hostWriteFreq, hr]

theorem hostWriteFreq_fault {s : State} (sym : Nat) (w : Word) (hr : s.runState = .fault) :
    hostWriteFreq sym w s = .done s := by
  rw [hostWriteFreq, hr]

/-- Settles O19: a write of one entry of a canonical table, dropped in FAULT. -/
theorem hostWritesFreq : Obligations.HostWritesFreq := by
  intro s idx w rest sym hcan hs h hh
  obtain ⟨hsorted, _⟩ := (tablesCanonical_iff s).1 hcan
  have hstep : s.runState ≠ .busy → step s = (hostWriteFreq sym w { s with host := rest }).outcome :=
    fun hb => step_hwrite_freq hb hs h hh
  refine ⟨fun hr => ⟨freqPut s.freq sym (w.toNat % Config.countLimit s.params), ?_, ?_, fun j hj => ?_⟩, fun hr => ?_⟩
  · rw [hstep (by simp [hr]), hostWriteFreq_idle (s := { s with host := rest }) sym w hr]
    rfl
  · rw [freqAt_put hsorted, if_pos rfl, Config.countLimit]
  · rw [freqAt_put hsorted, if_neg hj]
  · rw [hstep (by simp [hr]), hostWriteFreq_fault (s := { s with host := rest }) sym w hr]
    rfl

/-! ## Refused transactions (R65, U10) -/

theorem windowCell_cmd_iff (idx : WinIdx) : windowCell idx = .cmd ↔ idx = 0 := by
  refine ⟨fun h => ?_, fun h => h ▸ windowCell_cmd⟩
  by_contra hne
  have h0 : idx.toNat ≠ 0 := fun h0 => hne (BitVec.eq_of_toNat_eq h0)
  simp only [windowCell, if_neg h0] at h
  split_ifs at h

theorem hostRead_refused {idx : WinIdx} (s : State) (h : windowCell idx = .cmd ∨ windowCell idx = .unmapped) :
    hostRead idx s = .refused (.windowRead idx) := by
  rcases h with h | h <;> rw [hostRead, h]

/-- CMD and FREQ are the only cells a write reaches (R61, R65). -/
theorem hostWrite_refused {idx : WinIdx} (w : Word) (s : State) (hcmd : windowCell idx ≠ .cmd)
    (hfreq : ∀ sym, windowCell idx ≠ .freq sym) : hostWrite idx w s = .settled (.refused (.windowWrite idx)) := by
  rw [hostWrite]
  cases hc : windowCell idx with
  | cmd => exact absurd hc hcmd
  | freq sym => exact absurd hc (hfreq sym)
  | _ => rfl

/-- Settles O20: a refused read is of CMD or of no cell, a refused write of a cell that is neither CMD nor FREQ. -/
theorem refusedTransactions : Obligations.RefusedTransactions := by
  intro s idx rest hb
  refine ⟨fun hh h => ?_, fun w hh h0 h => ?_⟩
  · have hcell : windowCell idx = .cmd ∨ windowCell idx = .unmapped :=
      h.imp (windowCell_cmd_iff idx).2 windowCell_unmapped
    rw [step_hread hb hh, hostRead_refused _ hcell]
    rfl
  · have hfreq : ∀ sym, windowCell idx ≠ .freq sym := fun sym hc => by
      have := windowCell_freq_iff hc
      omega
    rw [step_host hb hh, hostEvent, hostWrite_refused w _ (mt (windowCell_cmd_iff idx).1 h0) hfreq]
    rfl

end Sys2Proof.Machine
end

section
/-! Proofs of the family 30_encoding.md: command words, header tokens and headers, the fields of table words, and what
one header token and one illegal word do (30_encoding.md R100 to R117). -/

namespace Sys2Proof

/-! ## Command words (R100 to R103) -/

/-- The encoded form of every instruction. -/
theorem encodedForm : ∀ i : Instr, Laws.EncodedForm.Statement i
  | .clear => Laws.EncodedForm.clear
  | .count => Laws.EncodedForm.count
  | .build => Laws.EncodedForm.build
  | .gencodes => Laws.EncodedForm.gencodes
  | .wrmagic => Laws.EncodedForm.wrmagic
  | .wrhdr => Laws.EncodedForm.wrhdr
  | .rewind => Laws.EncodedForm.rewind
  | .encode => Laws.EncodedForm.encode
  | .close => Laws.EncodedForm.close
  | .rdmagic => Laws.EncodedForm.rdmagic
  | .rdhdr => Laws.EncodedForm.rdhdr
  | .decode => Laws.EncodedForm.decode
  | .compress => Laws.EncodedForm.compress
  | .decompress => Laws.EncodedForm.decompress
  | .hdrInternal => Laws.EncodedForm.hdrInternal
  | .hdrLeaf sym => Laws.EncodedForm.hdrLeaf sym

theorem wf_of_isCommand {i : Instr} (h : i.isCommand = true) : i.wf = true := by
  cases i with
  | hdrLeaf sym => cases h
  | _ => rfl

/-- With bits 31:4 zero a defined OP selects its command (R100, R101). -/
theorem decodeCommand_defined {w : Word} {i : Instr} (hw : w.toNat < 16) (hop : commandOf (opField w) = some i) :
    decodeCommand w = .ok i := by
  rw [decodeCommand, if_pos ((Machine.upper_zero_iff w).2 hw), hop]

/-- With bits 31:4 zero a reserved OP is rejected (R102). -/
theorem decodeCommand_reserved {w : Word} (hw : w.toNat < 16) (hop : commandOf (opField w) = none) :
    decodeCommand w = .error .reservedOpcode := by
  rw [decodeCommand, if_pos ((Machine.upper_zero_iff w).2 hw), hop]

theorem decodeCommand_encodeCommand {i : Instr} (hc : i.isCommand = true) : decodeCommand (encodeCommand i) = .ok i := by
  rcases encodedForm i (wf_of_isCommand hc) with ⟨_, hop, hword, _, hle, hcommand, _⟩ | ⟨hc', _⟩
  · exact decodeCommand_defined (by omega) (hop ▸ hcommand)
  · rw [hc] at hc'; cases hc'

/-- The decoder answers a command for that command's word alone (R101). -/
theorem decodeCommand_eq_iff {i : Instr} (hc : i.isCommand = true) (w : Word) :
    decodeCommand w = .ok i ↔ w = encodeCommand i := by
  refine ⟨fun h => (Machine.eq_encode_of_decode h).2, ?_⟩
  rintro rfl
  exact decodeCommand_encodeCommand hc

/-- What R102 makes an illegal word is no command. -/
theorem decodeCommand_illegal {w : Word}
    (h : w.extractLsb' 0 4 = (0x0 : Opcode) ∨ w.extractLsb' 0 4 = (0xF : Opcode) ∨ w.extractLsb' 4 28 ≠ (0 : BitVec 28)) :
    ∃ r, decodeCommand w = .error r := by
  by_cases hw : w.toNat < 16
  · refine ⟨_, decodeCommand_reserved hw ?_⟩
    rcases h with hop | hop | hup
    · rw [opField, hop]; rfl
    · rw [opField, hop]; rfl
    · exact absurd ((Machine.upper_zero_iff w).2 hw) hup
  · exact ⟨_, Machine.decodeCommand_upper hw⟩

/-! ## Header tokens (R110) -/

theorem decodeToken_internal (rest : Bits) : decodeToken (false :: rest) = .ok (.hdrInternal, rest) := rfl

theorem decodeToken_leaf {sym : Nat} (hs : sym < 2 ^ 9) (rest : Bits) :
    decodeToken (true :: (bits 9 sym ++ rest)) = .ok (.hdrLeaf sym, rest) := by
  have hlen : (bits 9 sym).length = 9 := bits_length 9 sym
  rw [decodeToken, if_neg (by simp), List.take_left' hlen, List.drop_left' hlen, val_bits hs]

/-- Fewer than 9 symbol bits are no token (R110). -/
theorem decodeToken_cut {rest : Bits} (h : rest.length < 9) : decodeToken (true :: rest) = .error .symbolCut := by
  rw [decodeToken, if_pos h]

/-- A token in front of any bits is read and leaves them. -/
theorem decodeToken_encodeToken {i : Instr} (hc : i.isCommand = false) (hw : i.wf = true) (rest : Bits) :
    decodeToken (encodeToken i ++ rest) = .ok (i, rest) := by
  cases i with
  | hdrInternal => exact decodeToken_internal rest
  | hdrLeaf sym => exact decodeToken_leaf (of_decide_eq_true hw) rest
  | _ => cases hc

/-- Settles O1: a command's word has its opcode, a token's bits are read back whole. -/
theorem decodeOfEncode : Obligations.DecodeOfEncode := by
  intro i hw
  cases hc : i.isCommand with
  | true =>
    rw [encode, if_pos hc]
    exact decodeCommand_encodeCommand hc
  | false =>
    have htoken := decodeToken_encodeToken hc hw []
    rw [List.append_nil] at htoken
    rw [encode, if_neg (by simp [hc]), decode, htoken]

/-- Settles O2: each clause is `decodeCommand_eq_iff` for one command, whose word is computed. -/
theorem commandWordMap : Obligations.CommandWordMap := fun w =>
  ⟨decodeCommand_eq_iff rfl w, decodeCommand_eq_iff rfl w, decodeCommand_eq_iff rfl w, decodeCommand_eq_iff rfl w,
    decodeCommand_eq_iff rfl w, decodeCommand_eq_iff rfl w, decodeCommand_eq_iff rfl w, decodeCommand_eq_iff rfl w,
    decodeCommand_eq_iff rfl w, decodeCommand_eq_iff rfl w, decodeCommand_eq_iff rfl w, decodeCommand_eq_iff rfl w,
    decodeCommand_eq_iff rfl w, decodeCommand_eq_iff rfl w⟩

/-- Settles O3: each sample is one case of the decoder. -/
theorem sampleWordsDecode : Obligations.SampleWordsDecode :=
  ⟨decodeCommand_encodeCommand (i := .clear) rfl, decodeCommand_encodeCommand (i := .rewind) rfl,
    decodeCommand_encodeCommand (i := .decompress) rfl, decodeCommand_reserved (by decide) rfl,
    decodeCommand_reserved (by decide) rfl, Machine.decodeCommand_upper (by decide), decodeToken_internal [true],
    decodeToken_leaf (sym := 97) (by decide) [], decodeToken_leaf (sym := 256) (by decide) [],
    decodeToken_cut (by decide)⟩

/-! ## Headers (R110 to R112) -/

/-- Settles O4: the counts by induction on the tree, and the front of a header tells the tree. -/
theorem headerParsesOneWay : Obligations.HeaderParsesOneWay :=
  ⟨fun t => ⟨t.header_length, t.size_leaves⟩, fun _ _ _ _ => HuffTree.header_append_inj⟩

/-! ## Table words (R116, R117) -/

/-- Stream bit `j` of a bit list is bit `length - 1 - j` of its value (R9). -/
theorem testBit_val : ∀ (c : Bits) {j : Nat}, j < c.length → (val c).testBit (c.length - 1 - j) = c.getD j false
  | b :: c, 0, _ => by
    rw [val_cons, Nat.mul_comm, Nat.testBit_two_pow_mul_add _ (val_lt c), if_neg (by simp)]
    cases b <;> simp
  | b :: c, j + 1, hj => by
    have hj' : j < c.length := by simpa using hj
    have hidx : (b :: c).length - 1 - (j + 1) = c.length - 1 - j := by rw [List.length_cons]; omega
    rw [val_cons, hidx, Nat.mul_comm, Nat.testBit_two_pow_mul_add _ (val_lt c), if_pos (by omega), testBit_val c hj']
    rfl

namespace Machine

/-- Each field of a Leaf's word 0 as the quotient and remainder that cut it out of the word (R116). -/
theorem nodeWord_leaf_div_mod (sym : Sym) (w : Nat) :
    (nodeWord (.leaf sym w)).toNat / 2 ^ 0 % 2 ^ 9 = sym.toNat ∧ (nodeWord (.leaf sym w)).toNat / 2 ^ 9 % 2 = 0 ∧
    (nodeWord (.leaf sym w)).toNat / 2 ^ 10 % 2 ^ 10 = 0x3FF ∧ (nodeWord (.leaf sym w)).toNat / 2 ^ 20 % 2 ^ 10 = 0x3FF ∧
    (nodeWord (.leaf sym w)).toNat / 2 ^ 30 % 2 = 0 ∧ (nodeWord (.leaf sym w)).toNat / 2 ^ 31 % 2 = 1 := by
  have hsym := sym.isLt
  have hsum : (nodeWord (.leaf sym w)).toNat = sym.toNat + 0x3FF * 2 ^ 10 + 0x3FF * 2 ^ 20 + 2 ^ 31 := by
    rw [nodeWord, BitVec.toNat_ofNat, show Config.nil.toNat = 0x3FF from rfl]
    exact Nat.mod_eq_of_lt (by omega)
  refine ⟨?_, ?_, ?_, ?_, ?_, ?_⟩ <;> omega

/-- Each field of an Internal entry's word 0 as the quotient and remainder that cut it out of the word (R116). -/
theorem nodeWord_internal_div_mod (l r : NodeIdx) (w : Nat) :
    (nodeWord (.internal l r w)).toNat / 2 ^ 0 % 2 ^ 9 = 0 ∧ (nodeWord (.internal l r w)).toNat / 2 ^ 9 % 2 = 0 ∧
    (nodeWord (.internal l r w)).toNat / 2 ^ 10 % 2 ^ 10 = l.toNat ∧
    (nodeWord (.internal l r w)).toNat / 2 ^ 20 % 2 ^ 10 = r.toNat ∧
    (nodeWord (.internal l r w)).toNat / 2 ^ 30 % 2 = 0 ∧ (nodeWord (.internal l r w)).toNat / 2 ^ 31 % 2 = 0 := by
  have hl := l.isLt
  have hr := r.isLt
  have hsum : (nodeWord (.internal l r w)).toNat = l.toNat * 2 ^ 10 + r.toNat * 2 ^ 20 := by
    rw [nodeWord, BitVec.toNat_ofNat]
    exact Nat.mod_eq_of_lt (by omega)
  refine ⟨?_, ?_, ?_, ?_, ?_, ?_⟩ <;> omega

/-- Each field of a valid CT entry's word 0 as the quotient and remainder that cut it out of the word (R117). -/
theorem codeHeadWord_div_mod {code : Bits} (h : code.length ≤ 256) :
    (codeHeadWord code).toNat / 2 ^ 31 % 2 = 1 ∧ (codeHeadWord code).toNat / 2 ^ 9 % 2 ^ 22 = 0 ∧
    (codeHeadWord code).toNat / 2 ^ 0 % 2 ^ 9 = code.length := by
  have hsum : (codeHeadWord code).toNat = 2 ^ 31 + code.length := by
    rw [codeHeadWord, BitVec.toNat_ofNat, Nat.mod_eq_of_lt (b := 2 ^ 9) (by omega)]
    exact Nat.mod_eq_of_lt (by omega)
  refine ⟨?_, ?_, ?_⟩ <;> omega

/-- The 32 code bits, zeros past the end, that one of the words 1 to 8 holds (R117). -/
def codeChunk (code : Bits) (n : Nat) : Bits := ((code ++ List.replicate 256 false).drop (32 * n)).take 32

theorem codeChunk_length {n : Nat} (code : Bits) (hn : n < 8) : (codeChunk code n).length = 32 := by
  rw [codeChunk, List.length_take, List.length_drop, List.length_append, List.length_replicate]
  omega

theorem codeChunk_getD {n j : Nat} (code : Bits) (hn : n < 8) (hj : j < 32) :
    (codeChunk code n).getD j false = code.getD (32 * n + j) false := by
  simp only [codeChunk, List.getD_eq_getElem?_getD, List.getElem?_take_of_lt hj, List.getElem?_drop]
  rcases Nat.lt_or_ge (32 * n + j) code.length with h | h
  · rw [List.getElem?_append_left h]
  · rw [List.getElem?_append_right h, List.getElem?_replicate_of_lt (by omega), List.getElem?_eq_none h]
    rfl

/-- Word `1 + n` of a valid CT entry reads as its 32 code bits, first bit highest. -/
theorem codeBodyWord_toNat {n : Nat} (code : Bits) (hn : n < 8) :
    (codeBodyWord code (1 + n)).toNat = val (codeChunk code n) := by
  have hlt := val_lt (codeChunk code n)
  rw [codeChunk_length code hn] at hlt
  rw [codeBodyWord, Nat.add_sub_cancel_left, BitVec.toNat_ofNat]
  exact Nat.mod_eq_of_lt hlt

/-- Code bit `32 n + j` is bit `31 - j` of word `1 + n` (R117). -/
theorem codeBodyWord_getLsbD {n j : Nat} (code : Bits) (hn : n < 8) (hj : j < 32) :
    (codeBodyWord code (1 + n)).getLsbD (31 - j) = code.getD (32 * n + j) false := by
  have hlen := codeChunk_length code hn
  have hbit := testBit_val (codeChunk code n) (j := j) (by omega)
  rw [hlen, codeChunk_getD code hn hj] at hbit
  rw [BitVec.getLsbD, codeBodyWord_toNat code hn]
  exact hbit

/-- Settles O5: each field by its quotient and remainder, each code bit by its place in its word. -/
theorem tableWordFields : Obligations.TableWordFields := by
  refine ⟨fun sym w => ?leaf, fun l r w => ?internal, fun code hlen => ?code⟩
  case leaf =>
    obtain ⟨hsym, h9, hleft, hright, h30, hleaf⟩ := nodeWord_leaf_div_mod sym w
    exact ⟨extractLsb'_eq_of_div_mod hsym, getLsbD_eq_of_div_mod h9, extractLsb'_eq_of_div_mod hleft,
      extractLsb'_eq_of_div_mod hright, getLsbD_eq_of_div_mod h30, getLsbD_eq_of_div_mod hleaf⟩
  case internal =>
    obtain ⟨hsym, h9, hleft, hright, h30, hleaf⟩ := nodeWord_internal_div_mod l r w
    exact ⟨extractLsb'_eq_of_div_mod hsym, getLsbD_eq_of_div_mod h9, extractLsb'_eq_of_div_mod hleft,
      extractLsb'_eq_of_div_mod hright, getLsbD_eq_of_div_mod h30, getLsbD_eq_of_div_mod hleaf⟩
  case code =>
    obtain ⟨hvalid, hzero, hlength⟩ := codeHeadWord_div_mod hlen
    refine ⟨getLsbD_eq_of_div_mod hvalid, extractLsb'_eq_of_div_mod hzero, ?_, fun k hk => ?_⟩
    · rw [BitVec.extractLsb'_toNat, Nat.shiftRight_eq_div_pow, hlength]
    · rw [codeBodyWord_getLsbD code (by omega) (Nat.mod_lt k (by omega)), Nat.div_add_mod]

/-! ## Header tokens as instructions (R110, R175 to R179) -/

/-- An open node whose left subtree is complete: the next complete subtree ends it. -/
def waitsForRight (e : NodeIdx × NodeIdx) : HdrFrame := { node := e.1, left := some e.2 }

/-- A complete subtree ends an open node: the node is written and is the complete subtree in turn (R175). -/
def endNode (a : Table Node × NodeIdx) (e : NodeIdx × NodeIdx) : Table Node × NodeIdx :=
  (tablePut a.1 e.1.toNat (.internal e.2 a.2 0), e.1)

/-- A complete subtree ends the open nodes that wait for a right child, innermost first, and then meets the rest. -/
theorem closeNodes_ended (ended : List (NodeIdx × NodeIdx)) : ∀ (opn : List HdrFrame) (a : Table Node × NodeIdx),
    closeNodes a.2 (ended.map waitsForRight ++ opn) a.1 =
      closeNodes (ended.foldl endNode a).2 opn (ended.foldl endNode a).1 := by
  induction ended with
  | nil => exact fun _ _ => rfl
  | cons e ended ih => exact fun opn a => ih opn (endNode a e)

/-- A LEAF token that ends the whole tree completes the header (R178). -/
theorem runHdrLeaf_root {s : State} {sym : Nat} {nt : Table Node} {opn : List HdrFrame} {r : NodeIdx}
    (hs : s.runState = .busy) (hn : s.ncnt.toNat ≠ Config.nodeCap)
    (h : closeNodes s.ncnt s.hdr (tablePut s.nt s.ncnt.toNat (.leaf (BitVec.ofNat 9 sym) 0)) = (nt, opn, some r)) :
    runHdrLeaf sym s = .done { s with
      ncnt := s.ncnt + 1, nt := nt, hdr := [], root := r, tv := true, tsrc := true, runState := .idle } := by
  rw [runHdrLeaf, hs]
  simp only [if_neg hn, h]

/-- A LEAF token that leaves a node open keeps the header open. -/
theorem runHdrLeaf_open {s : State} {sym : Nat} {nt : Table Node} {opn : List HdrFrame}
    (hs : s.runState = .busy) (hn : s.ncnt.toNat ≠ Config.nodeCap)
    (h : closeNodes s.ncnt s.hdr (tablePut s.nt s.ncnt.toNat (.leaf (BitVec.ofNat 9 sym) 0)) = (nt, opn, none)) :
    runHdrLeaf sym s = .done { s with ncnt := s.ncnt + 1, nt := nt, hdr := opn } := by
  rw [runHdrLeaf, hs]
  simp only [if_neg hn, h]

/-- Either token with a full table is TreeOverflow in RDHDR's phase (R179). -/
theorem exec_token_full {i : Instr} {s : State} {k : Snk} (hc : i.isCommand = false) (hs : s.runState = .busy)
    (hn : s.ncnt.toNat = Config.nodeCap) (he : s.err = .none) (hk : s.snk = some k) :
    exec i s = .next (faultState .treeOverflow 0xB k s) := by
  have hbody : bodyOf i s = takeFault .treeOverflow (opcodeOf .rdhdr) s := by
    cases i with
    | hdrInternal => exact ((runHdrInternal_busy hs).resolve_right fun h => h.1 hn).2
    | hdrLeaf sym => exact ((runHdrLeaf_busy hs sym).resolve_right fun h => h.1 hn).2
    | _ => cases hc
  rw [exec_token hc, hbody, takeFault_outcome hk he]
  rfl

/-- Settles O37: the nodes a leaf ends are written by `closeNodes_ended`; what it leaves open decides the rest. -/
theorem headerTokensBuildTheTree : Obligations.HeaderTokensBuildTheTree := by
  intro s sym hs _
  refine ⟨fun hn => ?internal, fun ended w hn hw => ⟨fun hhdr => ?root, fun j outer hhdr => ?inner⟩,
    fun k hn he hk => ⟨exec_token_full rfl hs hn he hk, exec_token_full rfl hs hn he hk⟩⟩
  case internal =>
    rw [exec_token rfl, bodyOf, ((runHdrInternal_busy hs).resolve_left fun h => hn h.1).2, outcome_done]
  case root =>
    have hclose := closeNodes_ended ended [] (tablePut s.nt s.ncnt.toNat (.leaf (BitVec.ofNat 9 sym) 0), s.ncnt)
    rw [List.append_nil, show ended.map waitsForRight = s.hdr from hhdr.symm] at hclose
    rw [exec_token rfl, bodyOf, runHdrLeaf_root hs hn hclose, outcome_done, hw]
    rfl
  case inner =>
    have hclose := closeNodes_ended ended ({ node := j, left := none } :: outer)
      (tablePut s.nt s.ncnt.toNat (.leaf (BitVec.ofNat 9 sym) 0), s.ncnt)
    rw [show ended.map waitsForRight ++ { node := j, left := none } :: outer = s.hdr from hhdr.symm] at hclose
    rw [exec_token rfl, bodyOf, runHdrLeaf_open hs hn hclose, outcome_done, hw]
    rfl

/-! ## Illegal words (R102) -/

/-- A write to CMD of a word that is no command, between commands, is the host port's alone (R215). -/
theorem step_illegalWord {s : State} {w : Word} {rest : List HostAction} {r : Reject} (hb : s.runState ≠ .busy)
    (hh : s.host = .hwrite 0 w :: rest) (hd : decodeCommand w = .error r) :
    step s = (illegalWord w { s with host := rest }).outcome := by
  rw [step_host hb hh, hostEvent, hostWrite, windowCell_cmd]
  simp only [hd]
  rfl

theorem illegalWord_idle {s : State} (w : Word) (hr : s.runState = .idle) :
    illegalWord w s = takeFault .illegalCommand (opField w) s := by
  rw [illegalWord, hr]

/-- Settles O8: no such word decodes, and IDLE takes it as a fault. -/
theorem illegalWordFaults : Obligations.IllegalWordFaults := by
  intro s w rest k hr he hk hh hw
  obtain ⟨r, hd⟩ := decodeCommand_illegal hw
  rw [step_illegalWord (by simp [hr]) hh hd, illegalWord_idle (s := { s with host := rest }) w hr]
  exact takeFault_outcome (s := { s with host := rest }) hk he _ _

end Machine

end Sys2Proof
end

section
/-! Proofs of the family 40_frequency_count.md: what COUNT leaves (40_frequency_count.md R131, R132, R133). -/

namespace Sys2Proof.Machine

/-- In IDLE COUNT runs its body: R216 asks nothing of it. -/
theorem exec_count_idle {s : State} (hi : s.runState = .idle) : exec .count s = (runCount s).outcome :=
  exec_runs rfl (by decide) hi rfl rfl

/-- Where the loop reads every byte, COUNT ends with the end mark's count set to 1 (R132). -/
theorem exec_count_exhausted {s : State} {p p' : Src} {f : Table Nat} (hi : s.runState = .idle) (hp : s.src = some p)
    (h : countLoop (Config.countLimit s.params) (p.data.length + 1) p [] = .exhausted p' f) :
    exec .count s = .next { s with src := some p', freq := freqPut f Config.eos 1 } := by
  rw [exec_count_idle hi, runCount, withSource_some hp, h, outcome_done]

/-- Where the loop meets a full count, COUNT raises CapacityExceeded over the counts so far (R133, R236). -/
theorem exec_count_full {s : State} {p p' : Src} {k : Snk} {f : Table Nat} (hi : s.runState = .idle)
    (he : s.err = .none) (hp : s.src = some p) (hk : s.snk = some k)
    (h : countLoop (Config.countLimit s.params) (p.data.length + 1) p [] = .full p' f) :
    exec .count s =
      .next (faultState .capacityExceeded (opcodeOf .count) k { s with src := some p', freq := f }) := by
  rw [exec_count_idle hi, runCount, withSource_some hp, h]
  exact takeFault_outcome (s := { s with src := some p', freq := f }) hk he _ _

/-- A byte whose count is full in front of it makes a count of the whole list too large. -/
theorem not_all_fit_of_full {α : Type} [BEq α] [LawfulBEq α] {limit : Nat} {d front rest : List α} {b : α}
    (hd : d = front ++ b :: rest) (hfull : limit ≤ front.count b + 1) : ¬ ∀ c ∈ d, d.count c < limit := by
  intro hfits
  have hless := hfits b (by simp [hd])
  rw [hd, List.count_append, List.count_cons_self] at hless
  omega

/-- COUNT's loop from an empty FREQ, in counts of the bytes: it reads every byte and every count fits, or it stops at
the first byte whose count in front of it is full. -/
theorem countLoop_from_zero (limit : Nat) (p : Src) :
    (∃ f, countLoop limit (p.data.length + 1) p [] = .exhausted (srcAtEnd p) f ∧ tableSorted f = true ∧
      (∀ j, freqAt f j = occurrences (bytesLeft p) j) ∧ ∀ b ∈ bytesLeft p, (bytesLeft p).count b < limit) ∨
    (∃ f front b rest, bytesLeft p = front ++ b :: rest ∧
      countLoop limit (p.data.length + 1) p [] = .full (srcAdvance (8 * (front.length + 1)) p) f ∧
      (∀ j, freqAt f j = occurrences front j) ∧ limit ≤ front.count b + 1 ∧ ∀ c ∈ front, front.count c < limit) := by
  rcases countLoop_cases limit (p.data.length + 1) p [] (Nat.lt_succ_of_le (bytesLeft_length_le p)) rfl with
    ⟨f, hloop, hsorted, hfreq, hfits⟩ | ⟨f, front, b, rest, hleft, hloop, _, hfreq, hfull, hfits⟩
  · refine .inl ⟨f, hloop, hsorted, by simpa using hfreq, fun b hb => ?_⟩
    simpa [hfreq, occurrences_eq_count] using hfits b hb
  · refine .inr ⟨f, front, b, rest, hleft, hloop, by simpa using hfreq, ?_, fun c hc => ?_⟩
    · simpa [hfreq, occurrences_eq_count] using hfull
    · simpa [hfreq, occurrences_eq_count] using hfits c hc

/-- If every byte left fits its count, COUNT's loop reads them all (R131). -/
theorem countLoop_exhausted {limit : Nat} {p : Src} (h : ∀ b, (bytesLeft p).count b < limit) :
    ∃ f, countLoop limit (p.data.length + 1) p [] = .exhausted (srcAtEnd p) f ∧ tableSorted f = true ∧
      ∀ j, freqAt f j = occurrences (bytesLeft p) j := by
  rcases countLoop_from_zero limit p with ⟨f, hloop, hsorted, hfreq, _⟩ | ⟨_, _, _, _, hleft, _, _, hfull, _⟩
  · exact ⟨f, hloop, hsorted, hfreq⟩
  · exact absurd (fun b _ => h b) (not_all_fit_of_full hleft hfull)

/-- A front whose counts all fit does not go on past a shorter front's full byte. -/
theorem front_eq_of_prefix {α : Type} [BEq α] [LawfulBEq α] {limit : Nat} {front front' mid rest tail : List α} {b : α}
    (hfront' : front' = front ++ mid) (htail : b :: rest = mid ++ tail) (hfull : limit ≤ front.count b + 1)
    (hfits' : ∀ c ∈ front', front'.count c < limit) : front = front' := by
  cases mid with
  | nil => rw [hfront', List.append_nil]
  | cons c mid =>
    obtain ⟨rfl, _⟩ := List.cons.inj htail
    exact absurd hfits' (not_all_fit_of_full hfront' hfull)

/-- A list is cut at its first full byte in one way: two fronts whose own counts all fit, each before a byte whose
count it fills, are the same. -/
theorem front_unique {α : Type} [BEq α] [LawfulBEq α] {limit : Nat} {front front' rest rest' : List α} {b b' : α}
    (h : front ++ b :: rest = front' ++ b' :: rest') (hfull : limit ≤ front.count b + 1)
    (hfull' : limit ≤ front'.count b' + 1) (hfits : ∀ c ∈ front, front.count c < limit)
    (hfits' : ∀ c ∈ front', front'.count c < limit) : front = front' := by
  rcases List.append_eq_append_iff.1 h with ⟨mid, hfront', htail⟩ | ⟨mid, hfront, htail⟩
  · exact front_eq_of_prefix hfront' htail hfull hfits'
  · exact (front_eq_of_prefix hfront htail hfull' hfits).symm

/-- If the bytes left hold a front whose counts fit and then a byte whose count is full, COUNT's loop stops there with
that byte read and only the front counted (R133). -/
theorem countLoop_full {limit : Nat} {p : Src} {front rest : List Byte} {b : Byte}
    (hleft : bytesLeft p = front ++ b :: rest) (hfull : limit ≤ front.count b + 1)
    (hfits : ∀ c, front.count c < limit) :
    ∃ f, countLoop limit (p.data.length + 1) p [] = .full (srcAdvance (8 * (front.length + 1)) p) f ∧
      ∀ j, freqAt f j = occurrences front j := by
  rcases countLoop_from_zero limit p with
    ⟨_, _, _, _, hall⟩ | ⟨f, front', b', rest', hleft', hloop, hfreq, hfull', hfits'⟩
  · exact absurd hall (not_all_fit_of_full hleft hfull)
  · obtain rfl := front_unique (hleft'.symm.trans hleft) hfull' hfull hfits' fun c _ => hfits c
    exact ⟨f, hloop, hfreq⟩

/-- Settles O22: no count fills, so the loop reads every byte, and the write of FREQ[256] leaves the bytes' counts. -/
theorem countCountsTheBytesLeft : Obligations.CountCountsTheBytesLeft := by
  refine ⟨(decodeCommand_eq_iff rfl _).2 rfl, fun s p hi hp hfits => ?_⟩
  obtain ⟨f, hloop, hsorted, hfreq⟩ := countLoop_exhausted hfits
  have hput : ∀ j, freqAt (freqPut f Config.eos 1) j = if j = 256 then 1 else occurrences (bytesLeft p) j := fun j => by
    rw [freqAt_put hsorted, hfreq]; rfl
  refine ⟨_, exec_count_exhausted hi hp hloop, fun b => ?_, ?_, fun j hj => ?_⟩
  · have hb := b.isLt
    rw [hput, if_neg (by omega), occurrences_eq_count]
  · rw [hput, if_pos rfl]
  · rw [hput, if_neg (by omega), occurrences_eq_zero _ (by omega)]

/-- Settles O23: `before` is the only front at which the loop can stop. -/
theorem countNeverWraps : Obligations.CountNeverWraps := by
  intro s p k before rest b hi he hp hk hleft hfull hfits
  obtain ⟨f, hloop, hfreq⟩ := countLoop_full (limit := Config.countLimit s.params) hleft (by omega) hfits
  refine ⟨f, exec_count_full hi he hp hk hloop, fun c => ?_, fun j hj => ?_⟩
  · rw [hfreq, occurrences_eq_count]
  · rw [hfreq, occurrences_eq_zero _ hj]

end Sys2Proof.Machine
end

section
/-! Proofs of the family 41_tree_build.md: the leaf set, the built table and its root, how each entry is made, and the
depths of the leaves (41_tree_build.md R140 to R149). -/

namespace Sys2Proof.Machine

/-! ## The leaf set (R141, R142) -/

/-- EOS always, the bytes that were counted, and the pad leaf where no byte was. -/
theorem mem_leafSymbols_iff (freq : Table Nat) (x : Nat) : x ∈ leafSymbols freq ↔
    x = 256 ∨ (x < 256 ∧ 0 < freqAt freq x) ∨ (x = 0 ∧ ∀ y, y < 256 → freqAt freq y = 0) := by
  rcases leafSymbols_cases freq with ⟨hnone, hl⟩ | ⟨hsome, hl⟩
  · have hzero : ∀ y, y < 256 → freqAt freq y = 0 := by simpa [List.filter_eq_nil_iff] using hnone
    have hpos : ¬ (x < 256 ∧ 0 < freqAt freq x) := fun ⟨hx, h⟩ => by have := hzero x hx; omega
    simp [hl, hpos, and_iff_left hzero, Config.eos, or_comm]
  · have hpad : ¬ ∀ y, y < 256 → freqAt freq y = 0 := by simpa [List.filter_eq_nil_iff] using hsome
    simp [hl, hpad, Config.eos, or_comm]

theorem leafSymbols_sorted (freq : Table Nat) : (leafSymbols freq).Pairwise (· < ·) := by
  rcases leafSymbols_cases freq with ⟨_, hl⟩ | ⟨_, hl⟩
  · rw [hl]; decide
  · rw [hl, List.pairwise_append]
    refine ⟨List.pairwise_lt_range.filter _, List.pairwise_singleton _ _, fun a ha b hb => ?_⟩
    simp only [List.mem_filter, List.mem_range, List.mem_singleton, Config.eos] at ha hb
    omega

/-! ## What BUILD leaves (R140, R145, R147) -/

/-- The state a completed BUILD leaves over its table; CUR and DST stay (R145). -/
def builtState (nt : Table Node) (s : State) : State :=
  { s with
    nt := nt, ncnt := BitVec.ofNat 10 (2 * (leafSymbols s.freq).length - 1),
    root := BitVec.ofNat 10 (2 * (leafSymbols s.freq).length - 2), tv := true, cv := false, tsrc := false }

/-- A completed BUILD's table: one tree over the leaf set, every entry past the leaves made by a merge. -/
structure BuiltTable (freq : Table Nat) (nt : Table Node) : Prop where
  oneTree : OneTree nt (2 * (leafSymbols freq).length - 1) (2 * (leafSymbols freq).length - 2) (leafSymbols freq)
    (leafTotal freq)
  merged : Merged (putLeaves freq (leafSymbols freq) [] 0).1 (leafSymbols freq).length nt
    (2 * (leafSymbols freq).length - 1)

/-- In IDLE BUILD runs its body: R216 asks nothing of it. -/
theorem exec_build_idle {s : State} (hi : s.runState = .idle) : exec .build s = (runBuild s).outcome :=
  exec_runs rfl (by decide) hi rfl rfl

/-- Counts whose sum fits are built into a tree (R145). -/
theorem exec_build_fits {s : State} (hi : s.runState = .idle)
    (hfit : ((List.range 257).map (freqAt s.freq)).sum < Config.countLimit s.params) :
    ∃ nt, exec .build s = .next (builtState nt s) ∧ BuiltTable s.freq nt := by
  rw [← leafTotal_eq] at hfit
  rcases runBuild_cases s with ⟨_, nt, hrun, hone, _, hmerged⟩ | ⟨hover, _⟩
  · exact ⟨nt, by rw [exec_build_idle hi, hrun]; rfl, hone, hmerged⟩
  · omega

/-- Counts whose sum does not fit are a fault among the merges (R147, R236). -/
theorem exec_build_overflows {s : State} {k : Snk} (hi : s.runState = .idle) (he : s.err = .none) (hk : s.snk = some k)
    (hover : Config.countLimit s.params ≤ ((List.range 257).map (freqAt s.freq)).sum) :
    ∃ nt n, exec .build s = .next (faultState .capacityExceeded (opcodeOf .build) k
        { startTree s with nt := nt, ncnt := BitVec.ofNat 10 n }) ∧
      n + 2 ≤ 2 * (leafSymbols s.freq).length ∧
      Merged (putLeaves s.freq (leafSymbols s.freq) [] 0).1 (leafSymbols s.freq).length nt n := by
  rw [← leafTotal_eq] at hover
  rcases runBuild_cases s with ⟨hfit, _⟩ | ⟨_, nt, n, _, _, _, hrun, _, hn, _, _, hmerged⟩
  · omega
  · refine ⟨nt, n, ?_, hn, hmerged⟩
    rw [exec_build_idle hi, hrun]
    exact takeFault_outcome (s := { startTree s with nt := nt, ncnt := BitVec.ofNat 10 n }) hk he _ _

namespace BuiltTable

variable {freq : Table Nat} {nt : Table Node}

/-- The leaves stand first, in symbol order, with their counts (R141). -/
theorem tableGet_leaf (T : BuiltTable freq nt) {k : Nat} (hk : k < (leafSymbols freq).length) :
    tableGet nt k = some (.leaf (BitVec.ofNat 9 (leafSymbols freq)[k]) (freqAt freq (leafSymbols freq)[k])) := by
  obtain ⟨_, _, hleaf, _⟩ := putLeaves_spec freq (leafSymbols freq) [] 0
  rw [T.merged.keeps k hk, ← hleaf k hk, Nat.zero_add]

/-- The tree at the last entry has the leaf set for its leaves and weighs all of them (R145, R146). -/
theorem treeAt_root (T : BuiltTable freq nt) : ∃ t,
    treeAt nt Config.maxLevels (BitVec.ofNat 10 (2 * (leafSymbols freq).length - 2)) = some t ∧
    t.symbols.Perm (leafSymbols freq) ∧ weightAt nt (2 * (leafSymbols freq).length - 2) = leafTotal freq := by
  obtain ⟨tree, nodes, F⟩ := T.oneTree
  exact ⟨_, F.trees _ (List.mem_singleton_self _), by simpa using F.symbols, by simpa using F.weights⟩

end BuiltTable

/-- Settles O24: the table, its tree and its root are those of `exec_build_fits`. -/
theorem buildResult : Obligations.BuildResult := by
  intro s hi hfit
  obtain ⟨nt, hexec, T⟩ := exec_build_fits hi hfit
  obtain ⟨t, htree, hsyms, hweight⟩ := T.treeAt_root
  exact ⟨leafSymbols s.freq, nt, t, hexec, leafSymbols_sorted s.freq, mem_leafSymbols_iff s.freq,
    fun _ hk => T.tableGet_leaf hk, htree, hsyms, hweight.trans (leafTotal_eq s.freq)⟩

/-- Settles O26: the fault state of `exec_build_overflows`; the merge of the last two trees was never written. -/
theorem buildOverflows : Obligations.BuildOverflows := by
  intro s k hi he hk hover
  obtain ⟨nt, n, hexec, hn, hmerged⟩ := exec_build_overflows hi he hk hover
  obtain ⟨_, hlen⟩ := leafSymbols_length s.freq
  exact ⟨nt, n, hexec, by omega, hmerged.listed⟩

/-! ## How each entry is made (R143, R144) -/

/-- A table of at most 513 entries has its length and its root's index in 10 bits (R146). -/
theorem builtState_ncnt (nt : Table Node) (s : State) :
    (builtState nt s).ncnt.toNat = 2 * (leafSymbols s.freq).length - 1 := by
  obtain ⟨_, hlen⟩ := leafSymbols_length s.freq
  exact Nat.mod_eq_of_lt (by omega)

theorem builtState_root (nt : Table Node) (s : State) :
    (builtState nt s).root.toNat = 2 * (leafSymbols s.freq).length - 2 := by
  obtain ⟨_, hlen⟩ := leafSymbols_length s.freq
  exact Nat.mod_eq_of_lt (by omega)

/-- Settles O25: every entry past the leaves was made by the loop. -/
theorem buildMergesTheTwoLeast : Obligations.BuildMergesTheTwoLeast := by
  intro s hi hfit
  obtain ⟨nt, hexec, T⟩ := exec_build_fits hi hfit
  refine ⟨_, hexec, fun n hinner hn => ?_⟩
  rw [builtState_ncnt] at hinner hn
  exact T.merged.made n (by omega) hn

/-! ## Depths in a built tree (R149)

A node extracted no later than another has a parent made no later, and a later parent weighs no less; so the
order of extraction passes from two nodes to their parents, up to the root. -/

/-- `i` is a child of the Internal entry `m`. -/
def ChildOf (nt : Table Node) (m i : Nat) : Prop :=
  ∃ l r w, tableGet nt m = some (.internal l r w) ∧ (l.toNat = i ∨ r.toNat = i)

theorem childBelow_iff (nt : Table Node) (n i : Nat) : ChildBelow nt n i ↔ ∃ m < n, ChildOf nt m i :=
  ⟨fun ⟨m, l, r, w, hm, h⟩ => ⟨m, hm, l, r, w, h⟩, fun ⟨m, hm, l, r, w, h⟩ => ⟨m, l, r, w, hm, h⟩⟩

/-- A tree active when `q` is made, and there already when an earlier `p` was, was active then and no child of `p`. -/
theorem ActiveAt.earlier {nt : Table Node} {p q i : Nat} (h : ActiveAt nt q i) (hpq : p < q) (hip : i < p) :
    ActiveAt nt p i ∧ ¬ ChildOf nt p i := by
  obtain ⟨_, hfree⟩ := h
  rw [childBelow_iff] at hfree
  refine ⟨⟨hip, fun hc => ?_⟩, fun hc => hfree ⟨p, hpq, hc⟩⟩
  obtain ⟨m, hm, hc⟩ := (childBelow_iff nt p i).1 hc
  exact hfree ⟨m, by omega, hc⟩

theorem Before.weight_le {nt : Table Node} {i j : Nat} (h : Before nt i j) : weightAt nt i ≤ weightAt nt j := by
  rcases h with h | ⟨h, _⟩ <;> omega

/-- What a merge says of its two children, whatever their side. -/
theorem MadeOfLeast.children {nt : Table Node} {m : Nat} (h : MadeOfLeast nt m) (hm : m < 2 ^ 10) : ∃ a b : Nat,
    (∀ i, ChildOf nt m i ↔ i = a ∨ i = b) ∧ weightAt nt m = weightAt nt a + weightAt nt b ∧
    ActiveAt nt m a ∧ ActiveAt nt m b ∧
    ∀ i, ActiveAt nt m i → ¬ ChildOf nt m i → Before nt a i ∧ Before nt b i := by
  obtain ⟨a, b, hget, _, ha, hb, hleast, hnext⟩ := h
  have ta : (BitVec.ofNat 10 a).toNat = a := Nat.mod_eq_of_lt (ha.1.trans hm)
  have tb : (BitVec.ofNat 10 b).toNat = b := Nat.mod_eq_of_lt (hb.1.trans hm)
  have hchild : ∀ i, ChildOf nt m i ↔ i = a ∨ i = b := fun i => by
    simp [ChildOf, hget, ta, tb, eq_comm]
  refine ⟨a, b, hchild, by simp [weightAt, hget, nodeWeight], ha, hb, fun i hi hc => ?_⟩
  rw [hchild, not_or] at hc
  exact ⟨hleast i hi hc.1, hnext i hi hc.1 hc.2⟩

/-- A child stands below its parent and weighs no more. -/
theorem MadeOfLeast.child_le {nt : Table Node} {m i : Nat} (h : MadeOfLeast nt m) (hm : m < 2 ^ 10)
    (hi : ChildOf nt m i) : i < m ∧ weightAt nt i ≤ weightAt nt m := by
  obtain ⟨a, b, hchild, hw, ⟨ha, _⟩, ⟨hb, _⟩, _⟩ := h.children hm
  rcases (hchild i).1 hi with rfl | rfl <;> omega

/-- A child comes before every active tree that is no child. -/
theorem MadeOfLeast.child_before {nt : Table Node} {m i j : Nat} (h : MadeOfLeast nt m) (hm : m < 2 ^ 10)
    (hi : ChildOf nt m i) (hj : ActiveAt nt m j) (hjc : ¬ ChildOf nt m j) : Before nt i j := by
  obtain ⟨a, b, hchild, _, _, _, hbefore⟩ := h.children hm
  obtain ⟨ha, hb⟩ := hbefore j hj hjc
  rcases (hchild i).1 hi with rfl | rfl
  · exact ha
  · exact hb

/-! ### Paths -/

theorem follow_append (nt : Table Node) (c d : Bits) (i : NodeIdx) :
    follow nt i (c ++ d) = (follow nt i c).bind fun j => follow nt j d := by
  induction c generalizing i with
  | nil => rfl
  | cons b c ih =>
    simp only [List.cons_append, follow]
    cases nodeAt nt i with
    | none => rfl
    | some x =>
      cases x with
      | leaf _ _ => rfl
      | internal l r _ => exact ih _

/-- The last bit of a path leads from a node to its child. -/
theorem follow_snoc {nt : Table Node} {i j : NodeIdx} {c : Bits} {b : Bool} (h : follow nt i (c ++ [b]) = some j) :
    ∃ p, follow nt i c = some p ∧ ChildOf nt p.toNat j.toNat := by
  rw [follow_append, Option.bind_eq_some_iff] at h
  obtain ⟨p, hp, h⟩ := h
  refine ⟨p, hp, ?_⟩
  rw [follow] at h
  split at h
  · rename_i l r w hget
    obtain rfl := Option.some.inj h
    refine ⟨l, r, w, hget, ?_⟩
    cases b
    · exact .inl rfl
    · exact .inr rfl
  · cases h
  · cases h

/-- A path of the tree to a leaf leads to that leaf's entry in NT. -/
theorem follow_of_leafAt {nt : Table Node} {n : Nat} {i : NodeIdx} {t : HuffTree} {c : Bits} {sym : Sym}
    (ht : treeAt nt n i = some t) (hc : t.leafAt c = some sym) :
    ∃ j w, follow nt i c = some j ∧ nodeAt nt j = some (.leaf sym w) := by
  induction t generalizing n i c with
  | leaf s =>
    obtain ⟨_, _, ⟨s', w, hget, hs⟩ | ⟨_, _, _, _, _, _, _, _, hs⟩⟩ := treeAt_cases ht
    · cases c with
      | nil =>
        cases hs
        cases hc
        exact ⟨i, w, rfl, hget⟩
      | cons b c => cases hc
    · cases hs
  | node a b iha ihb =>
    obtain ⟨_, _, ⟨_, _, _, hs⟩ | ⟨l, r, w, a', b', hget, hl, hr, hs⟩⟩ := treeAt_cases ht
    · cases hs
    · cases hs
      cases c with
      | nil => cases hc
      | cons bit c =>
        rw [follow, hget]
        cases bit with
        | false => exact iha hl hc
        | true => exact ihb hr hc

namespace BuiltTable

variable {freq : Table Nat} {nt : Table Node}

/-- The entries past the leaves, and they alone, have children. -/
theorem bounds_of_childOf (T : BuiltTable freq nt) {m i : Nat} (h : ChildOf nt m i) :
    (leafSymbols freq).length ≤ m ∧ m < 2 * (leafSymbols freq).length - 1 := by
  obtain ⟨l, r, w, hget, _⟩ := h
  refine ⟨Nat.le_of_not_lt fun hm => ?_, (T.merged.listed m).1 (by rw [hget]; rfl)⟩
  rw [T.tableGet_leaf hm] at hget
  cases hget

/-- An entry past the leaves was made from the two least, and its index fits. -/
theorem made (T : BuiltTable freq nt) {m : Nat} (hge : (leafSymbols freq).length ≤ m)
    (hlt : m < 2 * (leafSymbols freq).length - 1) : MadeOfLeast nt m ∧ m < 2 ^ 10 := by
  obtain ⟨_, hlen⟩ := leafSymbols_length freq
  exact ⟨T.merged.made m hge hlt, by omega⟩

theorem made_of_childOf (T : BuiltTable freq nt) {m i : Nat} (h : ChildOf nt m i) : MadeOfLeast nt m ∧ m < 2 ^ 10 :=
  T.made (T.bounds_of_childOf h).1 (T.bounds_of_childOf h).2

/-- A merge weighs no less than an earlier one: a child made since the earlier one weighs that much already, and two
children that were active then come after both of its children. -/
theorem weightAt_mono (T : BuiltTable freq nt) {p : Nat} (hp : (leafSymbols freq).length ≤ p) :
    ∀ {q : Nat}, p ≤ q → q < 2 * (leafSymbols freq).length - 1 → weightAt nt p ≤ weightAt nt q := by
  intro q
  induction q using Nat.strong_induction_on with
  | _ q ih =>
    intro hpq hq
    rcases hpq.eq_or_lt with rfl | hpq
    · exact Nat.le_refl _
    obtain ⟨hmp, hp10⟩ := T.made hp (by omega)
    obtain ⟨hmq, hq10⟩ := T.made (m := q) (by omega) hq
    obtain ⟨a, b, hchildp, hwp, _, _, hbefore⟩ := hmp.children hp10
    obtain ⟨a', b', hchildq, hwq, ha', hb', _⟩ := hmq.children hq10
    have hnew : ∀ i, p ≤ i → ChildOf nt q i → weightAt nt p ≤ weightAt nt q := fun i hi hc => by
      obtain ⟨hiq, hw⟩ := hmq.child_le hq10 hc
      exact (ih i hiq hi (by omega)).trans hw
    rcases Nat.lt_or_ge a' p with hap | hap
    · rcases Nat.lt_or_ge b' p with hbp | hbp
      · obtain ⟨hacta, hnota⟩ := ha'.earlier hpq hap
        obtain ⟨hactb, hnotb⟩ := hb'.earlier hpq hbp
        have hwa := (hbefore a' hacta hnota).1.weight_le
        have hwb := (hbefore b' hactb hnotb).2.weight_le
        omega
      · exact hnew b' hbp ((hchildq b').2 (.inr rfl))
    · exact hnew a' hap ((hchildq a').2 (.inl rfl))

/-- A child of an earlier merge comes before a child of a later one. -/
theorem before_of_parent_lt (T : BuiltTable freq nt) {p q u v : Nat} (hu : ChildOf nt p u) (hv : ChildOf nt q v)
    (hpq : p < q) : Before nt u v := by
  obtain ⟨hge, _⟩ := T.bounds_of_childOf hu
  obtain ⟨_, hlt⟩ := T.bounds_of_childOf hv
  obtain ⟨hmp, hp10⟩ := T.made_of_childOf hu
  obtain ⟨hmq, hq10⟩ := T.made_of_childOf hv
  rcases Nat.lt_or_ge v p with hvp | hpv
  · obtain ⟨_, _, hchildq, _, ha, hb, _⟩ := hmq.children hq10
    have hact : ActiveAt nt q v := by rcases (hchildq v).1 hv with rfl | rfl <;> assumption
    obtain ⟨hactp, hnot⟩ := hact.earlier hpq hvp
    exact hmp.child_before hp10 hu hactp hnot
  · obtain ⟨hup, hwu⟩ := hmp.child_le hp10 hu
    have hvq := (hmq.child_le hq10 hv).1
    have hwv := T.weightAt_mono hge hpv (hvq.trans hlt)
    unfold Before
    omega

/-- Every node below the root comes before it. -/
theorem before_root (T : BuiltTable freq nt) {p u : Nat} (hu : ChildOf nt p u) :
    Before nt u (2 * (leafSymbols freq).length - 2) := by
  obtain ⟨hge, hlt⟩ := T.bounds_of_childOf hu
  obtain ⟨hmp, hp10⟩ := T.made_of_childOf hu
  obtain ⟨hup, hw⟩ := hmp.child_le hp10 hu
  have hroot := T.weightAt_mono hge (q := 2 * (leafSymbols freq).length - 2) (by omega) (by omega)
  unfold Before
  omega

/-- A node that does not come before another lies no deeper: neither do their parents, up to the root. -/
theorem path_length_le (T : BuiltTable freq nt) {root : NodeIdx}
    (hroot : root.toNat = 2 * (leafSymbols freq).length - 2) (cu : Bits) : ∀ (cv : Bits) {u v : NodeIdx},
    follow nt root cu = some u → follow nt root cv = some v → ¬ Before nt u.toNat v.toNat → cu.length ≤ cv.length := by
  induction cu using List.reverseRecOn with
  | nil => exact fun _ _ _ _ _ _ => Nat.zero_le _
  | append_singleton cu bu ih =>
    intro cv u v hu hv hle
    obtain ⟨p, hp, hcu⟩ := follow_snoc hu
    rcases List.eq_nil_or_concat' cv with rfl | ⟨cv, bv, rfl⟩
    · obtain rfl := Option.some.inj hv
      exact absurd (hroot ▸ T.before_root hcu) hle
    · obtain ⟨q, hq, hcv⟩ := follow_snoc hv
      have hqp : q.toNat ≤ p.toNat := Nat.le_of_not_lt fun hpq => hle (T.before_of_parent_lt hcu hcv hpq)
      have hw := T.weightAt_mono (T.bounds_of_childOf hcv).1 hqp (T.bounds_of_childOf hcu).2
      have hparents := ih cv hp hq (by unfold Before; omega)
      simpa using hparents

/-- The path to a leaf of the built tree leads to an entry with that leaf's count. -/
theorem exists_follow_of_mem_codesFrom (T : BuiltTable freq nt) {n : Nat} {root : NodeIdx} {t : HuffTree} {x : Nat}
    {c : Bits} (ht : treeAt nt n root = some t) (hx : (x, c) ∈ t.codesFrom []) :
    ∃ j, follow nt root c = some j ∧ weightAt nt j.toNat = freqAt freq x := by
  obtain ⟨sym, hleaf, hsym⟩ := HuffTree.leafAt_of_mem hx
  obtain ⟨j, w, hfollow, hget⟩ := follow_of_leafAt ht hleaf
  refine ⟨j, hfollow, ?_⟩
  replace hget : tableGet nt j.toNat = some (.leaf sym w) := hget
  have hlisted := (T.merged.listed j.toNat).1 (by rw [hget]; rfl)
  have hj : j.toNat < (leafSymbols freq).length := Nat.lt_of_not_ge fun hge => by
    obtain ⟨_, _, hinternal, _⟩ := T.merged.made _ hge hlisted
    rw [hget] at hinternal
    cases hinternal
  have hle : (leafSymbols freq)[j.toNat] ≤ 256 := leafSymbols_le freq _ (List.getElem_mem hj)
  rw [T.tableGet_leaf hj] at hget
  cases hget
  have hsymbol : x = (leafSymbols freq)[j.toNat] := hsym.symm.trans (Nat.mod_eq_of_lt (by omega))
  simp [weightAt, T.tableGet_leaf hj, nodeWeight, hsymbol]

end BuiltTable

/-- Settles O27: a leaf with a greater count does not come before the other, so its path is no longer. -/
theorem builtTreeIsMinimal : Obligations.BuiltTreeIsMinimal := by
  intro s hi hfit
  obtain ⟨nt, hexec, T⟩ := exec_build_fits hi hfit
  obtain ⟨tree, htree, _⟩ := T.treeAt_root
  refine ⟨_, tree, hexec, htree, fun x y cx cy hx hy hless => ?_⟩
  obtain ⟨u, hu, hwu⟩ := T.exists_follow_of_mem_codesFrom htree hx
  obtain ⟨v, hv, hwv⟩ := T.exists_follow_of_mem_codesFrom htree hy
  exact T.path_length_le (builtState_root nt s) cx cy hu hv (by unfold Before; omega)

end Sys2Proof.Machine
end

section
/-! Proofs of the family 42_code_table.md: the codes GENCODES records, the trees it rejects, and the prefix code
(42_code_table.md R155 to R161). -/

namespace Sys2Proof.Machine

/-! ## Recording the leaves' paths (R156 to R158) -/

/-- From an empty table, distinct symbols up to 256 are all recorded, and the table reads as the list. -/
theorem recordCodes_from_empty {l : List (Nat × Bits)} (hd : (l.map Prod.fst).Nodup) (hr : ∀ e ∈ l, e.1 ≤ Config.eos) :
    ∃ ct, recordCodes l [] = .done ct ∧ ∀ sym, tableGet ct sym = tableGet l sym := by
  obtain ⟨ct, hdone, hget⟩ := recordCodes_distinct (ct := []) hd hr fun _ _ => rfl
  refine ⟨ct, hdone, fun sym => ?_⟩
  rw [hget sym]
  cases tableGet l sym <;> rfl

/-- Recording stops at the first symbol that is above 256 or stands in the list before, with what stood before it
recorded (R158). -/
theorem recordCodes_rejects {before rest : List (Nat × Bits)} {x : Nat} {c : Bits} (hd : (before.map Prod.fst).Nodup)
    (hr : ∀ e ∈ before, e.1 ≤ Config.eos) (hx : Config.eos < x ∨ x ∈ before.map Prod.fst) :
    ∃ ct, recordCodes (before ++ (x, c) :: rest) [] = .corrupt ct ∧ ∀ sym, tableGet ct sym = tableGet before sym := by
  obtain ⟨ct, hdone, hget⟩ := recordCodes_from_empty hd hr
  have hbad : Config.eos < x ∨ (tableGet ct x).isSome := hx.imp_right fun hmem => by
    obtain ⟨e, he, rfl⟩ := List.mem_map.1 hmem
    rw [hget, Option.isSome_iff_ne_none]
    exact tableGet_ne_none_of_mem he
  exact ⟨ct, by simp only [recordCodes_append, hdone, recordCodes, if_pos hbad], hget⟩

/-! ## The command (R155, R159) -/

/-- In IDLE with a tree GENCODES runs its body (R216). -/
theorem exec_gencodes_idle {s : State} (hi : s.runState = .idle) (htv : s.tv = true) :
    exec .gencodes s = (runGencodes s).outcome :=
  exec_runs rfl (by decide) hi (by simp [prereqBroken, prereqOf, htv]) rfl

/-- A root that is a leaf is rejected with no valid code (R159). -/
theorem runGencodes_leaf {s : State} {sym : Sym} (h : rootTree s = some (.leaf sym)) :
    runGencodes s = takeFault .decodeCorrupt (opcodeOf .gencodes) { s with cv := false, ct := [] } := by
  obtain ⟨_, _, ⟨_, _, hnode, _⟩ | ⟨_, _, _, _, _, _, _, _, htree⟩⟩ := treeAt_cases h
  · simp only [runGencodes, hnode]
  · cases htree

section
variable {s : State} {l r : HuffTree} (h : rootTree s = some (.node l r)) {ct : Table Bits}
include h

/-- An internal root's entry in NT. -/
theorem nodeAt_root_of_node : ∃ i j w, nodeAt s.nt s.root = some (.internal i j w) := by
  obtain ⟨_, _, ⟨_, _, _, htree⟩ | ⟨i, j, w, _, _, hnode, _, _, _⟩⟩ := treeAt_cases h
  · cases htree
  · exact ⟨i, j, w, hnode⟩

/-- Below an internal root a walk that records every leaf's path makes the code table valid. -/
theorem runGencodes_done (hw : recordCodes ((HuffTree.node l r).codesFrom []) [] = .done ct) :
    runGencodes s = .done { s with cv := true, ct := ct } := by
  obtain ⟨_, _, _, hnode⟩ := nodeAt_root_of_node h
  simp only [runGencodes, hnode, walkCodes_eq h, hw]

/-- Below an internal root a walk that meets a bad leaf is a fault over the codes recorded before it (R158). -/
theorem runGencodes_corrupt (hw : recordCodes ((HuffTree.node l r).codesFrom []) [] = .corrupt ct) :
    runGencodes s = takeFault .decodeCorrupt (opcodeOf .gencodes) { s with cv := false, ct := ct } := by
  obtain ⟨_, _, _, hnode⟩ := nodeAt_root_of_node h
  simp only [runGencodes, hnode, walkCodes_eq h, hw]

end

/-- Settles O28: every leaf's path is recorded, so the table reads as the list of them. -/
theorem gencodesRecordsThePaths : Obligations.GencodesRecordsThePaths := by
  intro s l r hi htv hroot hd hle
  rw [← HuffTree.codesFrom_symbols _ []] at hd hle
  obtain ⟨ct, hdone, hget⟩ := recordCodes_from_empty hd fun e he => hle _ (List.mem_map_of_mem he)
  exact ⟨ct, by rw [exec_gencodes_idle hi htv, runGencodes_done hroot hdone, outcome_done], hget⟩

/-- Settles O29: a leaf root ends the body at once, a bad leaf ends the recording at `before`. -/
theorem gencodesRejectsBadTrees : Obligations.GencodesRejectsBadTrees := by
  intro s k t hi he htv hk hroot
  have faults (ct : Table Bits) :
      (takeFault .decodeCorrupt (opcodeOf .gencodes) { s with cv := false, ct := ct }).outcome =
        .next (faultState .decodeCorrupt 0x4 k { s with cv := false, ct := ct }) :=
    takeFault_outcome (s := { s with cv := false, ct := ct }) hk he _ _
  constructor
  · rintro sym rfl
    rw [exec_gencodes_idle hi htv, runGencodes_leaf hroot, faults]
  · rintro l r before rest x c rfl hcodes hd hle hx
    obtain ⟨ct, hcorrupt, hget⟩ := recordCodes_rejects (c := c) (rest := rest) hd hle hx
    rw [← hcodes] at hcorrupt
    exact ⟨ct, by rw [exec_gencodes_idle hi htv, runGencodes_corrupt hroot hcorrupt, faults], hget⟩

/-! ## The prefix code (R160, R161) -/

/-- No leaf lies on the path to another: where one listed code is a prefix of another, both end on one leaf. -/
theorem HuffTree.symbol_eq_of_prefix {t : HuffTree} {x y : Nat} {c d : Bits} (hx : (x, c) ∈ t.codesFrom [])
    (hy : (y, d) ∈ t.codesFrom []) (hp : c <+: d) : x = y := by
  obtain ⟨a, ha, rfl⟩ := HuffTree.leafAt_of_mem hx
  obtain ⟨b, hb, rfl⟩ := HuffTree.leafAt_of_mem hy
  obtain ⟨tail, rfl⟩ := hp
  by_cases htail : tail = []
  · subst htail
    rw [List.append_nil, ha] at hb
    exact congrArg BitVec.toNat (Option.some.inj hb)
  · rw [HuffTree.leafAt_append ha tail htail] at hb
    cases hb

/-- Settles O30: the codes are paths in the tree at ROOT, none of them empty, and that tree has at most 257 levels. -/
theorem codesFormAPrefixCode : Obligations.CodesFormAPrefixCode := by
  intro s hs hcv x y c d hx hy
  obtain ⟨t, hroot, _, hcodes⟩ := hs hcv
  obtain ⟨hgetx, hne⟩ := hcodes x
  rw [hgetx] at hx
  rw [(hcodes y).1] at hy
  have hmem := mem_of_tableGet hx
  refine ⟨HuffTree.symbol_eq_of_prefix hmem (mem_of_tableGet hy), ?_, ?_⟩
  · exact List.length_pos_of_ne_nil fun hc => hne (hc ▸ hx)
  · have hdepth : t.depth < 257 := treeAt_depth hroot
    have hlen : c.length ≤ t.depth := HuffTree.codesFrom_length_le hmem
    omega

end Sys2Proof.Machine
end

section
/-! Proofs of the family 43_header_codec.md: the marker and the header written, the marker checked, the header read
whole and token by token (43_header_codec.md R165, R168, R172 to R182). -/

namespace Sys2Proof.Machine

/-! ## The write side (R165, R168) -/

theorem prereqBroken_wrmagic {s : State} {k : Snk} (hk : s.snk = some k) :
    prereqBroken (prereqOf .wrmagic) s = k.closed := by
  simp [prereqBroken, prereqOf, mirrorSnkc, hk]

theorem prereqBroken_wrhdr {s : State} {k : Snk} (hk : s.snk = some k) :
    prereqBroken (prereqOf .wrhdr) s = (!s.tv || k.closed) := by
  simp [prereqBroken, prereqOf, mirrorSnkc, hk]

theorem prereqPortAbsent_of_sink {i : Instr} (hrew : (prereqOf i).notRewound = false) {s : State} {k : Snk}
    (hk : s.snk = some k) : prereqPortAbsent (prereqOf i) s = none := by
  simp [prereqPortAbsent, hrew, hk]

/-- Settles O31: an open sink is all R216 asks; a closed one breaks it. -/
theorem wrmagicAppendsTheMarker : Obligations.WrmagicAppendsTheMarker := by
  refine ⟨decodeCommand_encodeCommand (i := .wrmagic) rfl,
    fun s k hi hk => ⟨fun hc => ?opened, fun hc he => ?closed⟩⟩
  case opened =>
    rw [exec_runs rfl (by decide) hi (by rw [prereqBroken_wrmagic hk, hc]) (prereqPortAbsent_of_sink rfl hk), bodyOf,
      runWrmagic, withSink_open hk hc, outcome_done, snkWrite]
  case closed =>
    exact exec_illegal rfl (by decide) hi (by rw [prereqBroken_wrmagic hk, hc]) hk he

/-- Where a tree stands at ROOT and the sink is open, WRHDR's body appends the tree's header. -/
theorem runWrhdr_tree {s : State} {k : Snk} {t : HuffTree} (hk : s.snk = some k) (hc : k.closed = false)
    (ht : rootTree s = some t) : runWrhdr s = .done { s with snk := some (snkAppend t.header k) } := by
  rw [runWrhdr, withSink_open hk hc, emitHeader_eq ht]

/-- Settles O32: `emit` over the tree at ROOT appends its header; no tree or a closed sink breaks R216. -/
theorem wrhdrAppendsTheHeader : Obligations.WrhdrAppendsTheHeader := by
  refine ⟨decodeCommand_encodeCommand (i := .wrhdr) rfl,
    fun s k hi hk => ⟨fun t htv hc ht => ?accepted, fun hbroken he => ?illegal⟩⟩
  case accepted =>
    rw [exec_runs rfl (by decide) hi (by rw [prereqBroken_wrhdr hk, htv, hc]; rfl) (prereqPortAbsent_of_sink rfl hk),
      bodyOf, runWrhdr_tree hk hc ht, outcome_done, snkAppend]
  case illegal =>
    have hb : prereqBroken (prereqOf .wrhdr) s = true := by
      rw [prereqBroken_wrhdr hk]
      rcases hbroken with h | h <;> simp [h]
    exact exec_illegal rfl (by decide) hi hb hk he

/-! ## The marker on the read side (R172, R173) -/

theorem exec_rdmagic_idle {s : State} (hi : s.runState = .idle) : exec .rdmagic s = (runRdmagic s).outcome :=
  exec_runs rfl (by decide) hi rfl rfl

/-- Thirty-two bits read are compared with MAGIC's, bit for bit. -/
theorem runRdmagic_read {s : State} {p : Src} {c rest : Bits} (hp : s.src = some p) (hb : bitsLeft p = c ++ rest)
    (hl : c.length = 32) :
    runRdmagic s = if c = bits 32 s.params.magic.toNat then .done { s with src := some (srcAdvance 32 p) }
      else takeFault .formatError (opcodeOf .rdmagic) { s with src := some (srcAdvance 32 p) } := by
  have hread : srcRead 32 p = (some (val c), srcAdvance 32 p) := by
    rw [srcRead_some (by decide) (by rw [hb, List.length_append]; omega), hb, List.take_left' hl]
  have hval : val c = s.params.magic.toNat ↔ c = bits 32 s.params.magic.toNat :=
    ⟨fun h => by rw [← h, bits_val_of_length hl], fun h => by rw [h, val_bits s.params.magic.isLt]⟩
  simp only [runRdmagic, withSource_some hp, hread, hval]

/-- Fewer than thirty-two bits are a mismatch too (R173). -/
theorem runRdmagic_short {s : State} {p : Src} (hp : s.src = some p) (hl : (bitsLeft p).length < 32) :
    runRdmagic s = takeFault .formatError (opcodeOf .rdmagic) { s with src := some (srcAtEnd p) } := by
  simp only [runRdmagic, withSource_some hp, srcRead_none hl]

/-- Settles O33: the three ends of the one 32-bit read. -/
theorem rdmagicChecksTheMarker : Obligations.RdmagicChecksTheMarker := by
  refine ⟨decodeCommand_encodeCommand (i := .rdmagic) rfl, fun s p hi hp =>
    ⟨fun rest hb => ?marker, fun k c rest he hk hb hl hne => ?other, fun k he hk hl => ?short⟩⟩
  all_goals rw [exec_rdmagic_idle hi]
  case marker => rw [runRdmagic_read hp hb (bits_length _ _), if_pos rfl, outcome_done]
  case other =>
    rw [runRdmagic_read hp hb hl, if_neg hne]
    exact takeFault_outcome (s := { s with src := some (srcAdvance 32 p) }) hk he _ _
  case short =>
    rw [runRdmagic_short hp hl]
    exact takeFault_outcome (s := { s with src := some (srcAtEnd p) }) hk he _ _

/-! ## The header read whole (R175 to R182) -/

theorem exec_rdhdr_idle {s : State} (hi : s.runState = .idle) : exec .rdhdr s = (runRdhdr s).outcome :=
  exec_runs rfl (by decide) hi rfl rfl

/-- The tree RDHDR places stands at index 0 (R176). -/
theorem treeAt_placeTree_root {t : HuffTree} (h : t.size ≤ Config.nodeCap) :
    treeAt (placeTree t 0 []) Config.maxLevels 0 = some t := by
  have hroot := (treeAt_placeTree t 0 [] (by simp only [Config.nodeCap] at h; omega) fun _ _ _ => rfl).1
  exact treeAt_of_depth hroot (HuffTree.depth_lt_maxLevels h)

/-- Settles O34: RDHDR places the tree from index 0 on in an empty table. -/
theorem rdhdrRebuildsTheTree : Obligations.RdhdrRebuildsTheTree := by
  intro s p t rest hi hp hb hsz
  have hweights := (placeTree_ok t 0 [] ⟨rfl, by simp⟩ (by simp) (by rw [Nat.zero_add]; exact hsz)).2
  refine ⟨placeTree t 0 [], ?_, treeAt_placeTree_root hsz, nodesAt_placeTree_root hsz, hweights⟩
  rw [exec_rdhdr_idle hi, runRdhdr_tree hp hb hsz, outcome_done, ← hi]

/-- A fault RDHDR raises with the header open: what it leaves but for the source and the tree's fields is as before. -/
theorem takeFault_openHeader {s : State} {k : Snk} (hk : s.snk = some k) (he : s.err = .none) (c : FaultCode)
    (src : Option Src) (n : NodeIdx) (nt : Table Node) (opn : List HdrFrame) :
    (takeFault c (opcodeOf .rdhdr) { openHeader s with src := src, ncnt := n, nt := nt, hdr := opn }).outcome =
      .next (faultState c 0xB k
        { s with src := src, nt := nt, ncnt := n, root := 0x3FF, tv := false, cv := false }) :=
  takeFault_outcome (s := { openHeader s with src := src, ncnt := n, nt := nt, hdr := opn }) hk he _ _

/-- Settles O35: a cut header and one too large for the table end the loop at the tokens begun. -/
theorem rdhdrFaults : Obligations.RdhdrFaults := by
  intro s p k t hi he hp hk
  refine ⟨fun more hh hm hl => ?cut, fun b rest ht hb => ?full⟩
  all_goals rw [exec_rdhdr_idle hi]
  case cut =>
    obtain ⟨n, nt, opn, hcap, hsz, hcover, hfewest, hrun⟩ := runRdhdr_cut hp hh hm hl
    have hn : (BitVec.ofNat 10 n : NodeIdx).toNat = n := by
      simp only [Config.nodeCap] at hcap
      rw [BitVec.toNat_ofNat, Nat.mod_eq_of_lt (by omega)]
    refine ⟨nt, BitVec.ofNat 10 n, ?_, ?_⟩
    · rw [hrun, takeFault_openHeader hk he]
    · rw [hn]
      exact ⟨hcap, hsz, hcover, hfewest⟩
  case full =>
    obtain ⟨nt, opn, hrun⟩ := runRdhdr_over hp ht hb
    exact ⟨nt, by rw [hrun, takeFault_openHeader hk he]; rfl⟩

/-- Settles O36: a header that fits is placed; else the loop ends in a fault with the header open. -/
theorem rdhdrAlwaysEnds : Obligations.RdhdrAlwaysEnds := by
  intro s p k hi he hp hk
  rw [exec_rdhdr_idle hi]
  rcases runRdhdr_cases hp with ⟨t, rest, hb, hsz⟩ | ⟨c, u, hrun, hu, _, hcap, hcode⟩
  · rw [runRdhdr_tree hp hb hsz]
    exact ⟨_, rfl, .inl ⟨rfl, rfl, t, rest, hb, hsz, treeAt_placeTree_root hsz⟩⟩
  · rw [hrun, hu, takeFault_openHeader hk he]
    exact ⟨_, rfl, .inr ⟨rfl, rfl, rfl, rfl, hcap, hcode.imp And.left And.left⟩⟩

/-! ## The header read token by token (log entries 3 and 4) -/

/-- A token at the source's position is fetched as an instruction with its bits consumed. -/
theorem tokenEvent_of_decodeToken {s : State} {p : Src} {i : Instr} {rest : Bits} (hp : s.src = some p)
    (hn : s.ncnt.toNat ≠ Config.nodeCap) (hd : decodeToken (bitsLeft p) = .ok (i, rest)) :
    tokenEvent s = .run i { s with src := some (srcAdvance (encodeToken i).length p) } := by
  rcases decodeToken_cases hd with ⟨rfl, hb⟩ | ⟨v, rfl, hb⟩
  · simp only [tokenEvent, fetchToken_internal hp hb hn]
    rfl
  · simp only [tokenEvent, fetchToken_leaf hp v.isLt hb hn, encodeToken, List.length_cons, bits_length]

/-- Settles O7: no host action comes first, so the step is the token's. -/
theorem stepRunsTheToken : Obligations.StepRunsTheToken := by
  intro s p i rest hs hp hn hd hreset hread
  rcases step_busy hs with ⟨h, hh, _⟩ | ⟨h, hh, _⟩ | ⟨_, _, hstep⟩
  · exact absurd hh (hreset h)
  · exact absurd hh (hread h)
  · rw [hstep, tokenEvent_of_decodeToken hp hn hd]
    rfl

/-- With no host action pending, a step in an open header is its token's. -/
theorem step_token {s : State} (hs : s.runState = .busy) (hh : s.host = []) : step s = (tokenEvent s).outcome := by
  rcases step_busy hs with ⟨_, h, _⟩ | ⟨_, h, _⟩ | ⟨_, _, hstep⟩
  · rw [hh] at h; cases h
  · rw [hh] at h; cases h
  · exact hstep

/-- One round of RDHDR's loop is one step's event: a token run and the loop continued, or an end that is no success. -/
theorem headerLoop_succ_cases (s : State) :
    (∃ i s', i.isCommand = false ∧ s'.host = s.host ∧ tokenEvent s = .run i s' ∧
      ∀ fuel, headerLoop (fuel + 1) s = (bodyOf i s').andThen (continueHeader fuel)) ∨
    (∀ fuel t, headerLoop (fuel + 1) s ≠ .done t) := by
  rcases fetchToken_src (s := s) with ⟨r, hf⟩ | ⟨p', hf⟩ | ⟨v, p', hf⟩
  · right
    intro fuel t
    simp only [headerLoop, hf]
    rcases fetchToken_settled hf with rfl | ⟨p, p', _, _, rfl | ⟨_, rfl⟩ | ⟨_, rfl⟩⟩
    · nofun
    all_goals exact takeFault_ne_done _ _ _ _
  · exact .inl ⟨.hdrInternal, { s with src := some p' }, rfl, rfl, by rw [tokenEvent, hf],
      fun fuel => by rw [headerLoop, hf]; rfl⟩
  · exact .inl ⟨.hdrLeaf v, { s with src := some p' }, rfl, rfl, by rw [tokenEvent, hf],
      fun fuel => by rw [headerLoop, hf]; rfl⟩

theorem exec_token_host {i : Instr} (hc : i.isCommand = false) {s t : State} (h : exec i s = .next t) :
    t.host = s.host := by
  obtain ⟨u, hu, ⟨rfl, _⟩ | ⟨_, c, op, k, rfl⟩⟩ := exec_frame (by rintro rfl; cases hc) h
  · exact hu.host
  · exact hu.host

theorem run_succ {s t : State} (h : step s = .next t) (n : Nat) :
    Host.Core.run Sys2Proof.core (n + 1) s = Host.Core.run Sys2Proof.core n t := by
  have hcore : Sys2Proof.core.step s = .next t := h
  simp only [Host.Core.run, hcore]

/-- With nothing pending between commands, any number of steps wait (R260). -/
theorem run_wait {s : State} (hb : s.runState ≠ .busy) (hh : s.host = []) :
    ∀ n, Host.Core.run Sys2Proof.core n s = .next s
  | 0 => rfl
  | n + 1 => (run_succ (step_wait hb hh) n).trans (run_wait hb hh n)

/-- Steps enough for RDHDR's loop to complete a header end where it does: one step a token, the steps left over wait. -/
theorem run_of_headerLoop : ∀ (n : Nat) {s t : State}, s.runState = .busy → s.host = [] → headerLoop n s = .done t →
    Host.Core.run Sys2Proof.core n s = .next t
  | 0, _, _, _, _, h => by cases h
  | n + 1, s, t, hs, hh, h => by
    rcases headerLoop_succ_cases s with ⟨i, s', hc, hs', hevent, hloop⟩ | hend
    · rw [hloop n] at h
      obtain ⟨u, hbody, hrest⟩ := andThen_done_iff.1 h
      have hexec : exec i s' = .next u := by rw [exec_token hc, hbody, outcome_done]
      have hstep : step s = .next u := by rw [step_token hs hh, hevent, Event.outcome, hexec]
      have hu : u.host = [] := by rw [exec_token_host hc hexec, hs', hh]
      rw [run_succ hstep]
      unfold continueHeader at hrest
      split at hrest
      · exact run_of_headerLoop n ‹_› hu hrest
      · cases hrest
        exact run_wait ‹_› hu n
    · exact absurd h (hend n t)

/-- RDHDR needs no more rounds than the tree has tokens. -/
theorem headerLoop_size {s : State} {p : Src} {t : HuffTree} {rest : Bits} (hp : s.src = some p)
    (hb : bitsLeft p = t.header ++ rest) (hc : t.size ≤ Config.nodeCap) :
    headerLoop t.size (openHeader s) = runRdhdr s := by
  have hloop := headerLoop_tree t (s := openHeader s) (p := p) (rest := rest) hp rfl hb (by simpa using hc)
  have hexact := hloop 0
  have hmore := hloop (Config.nodeCap + 1 - t.size)
  rw [Nat.zero_add] at hexact
  rw [show Config.nodeCap + 1 - t.size + t.size = Config.nodeCap + 1 by omega] at hmore
  rw [runRdhdr, hmore, hexact]
  simp [afterSubtree, continueHeader, closeNodes]

/-- Settles O38: the loop completes the header within the tree's tokens, and so do as many steps. -/
theorem tokensStepByStepAreRdhdr : Obligations.TokensStepByStepAreRdhdr := by
  intro s p t rest hi hp hh hb hsz
  have hrun := runRdhdr_tree hp hb hsz
  have hloop := headerLoop_size hp hb hsz
  rw [hrun] at hloop
  rw [exec_rdhdr_idle hi, hrun, outcome_done]
  exact run_of_headerLoop t.size (s := openHeader s) rfl hh hloop

end Sys2Proof.Machine
end

section
/-! Proofs of the family 44_payload_encode.md: the rewind, the payload and the end of the output
(44_payload_encode.md R185, R188 to R191, R194). -/

namespace Sys2Proof.Machine

/-! ## REWIND (R185) -/

theorem prereqBroken_rewind {s : State} {p : Src} (hp : s.src = some p) :
    prereqBroken (prereqOf .rewind) s = p.rew := by
  simp [prereqBroken, prereqOf, mirrorRwd, hp]

theorem prereqPortAbsent_rewind {s : State} {p : Src} (hp : s.src = some p) :
    prereqPortAbsent (prereqOf .rewind) s = none := by
  simp [prereqPortAbsent, prereqOf, hp]

/-- Settles O39: a source not yet rewound is all R216 asks; one rewound before breaks it. -/
theorem rewindReturnsToTheStart : Obligations.RewindReturnsToTheStart := by
  refine ⟨decodeCommand_encodeCommand (i := .rewind) rfl,
    fun s p hi hp => ⟨fun hr => ?first, fun k hr he hk => ?second⟩⟩
  case first =>
    rw [exec_runs rfl (by decide) hi (by rw [prereqBroken_rewind hp, hr]) (prereqPortAbsent_rewind hp), bodyOf,
      runRewind, withSource_some hp, outcome_done, srcRewind]
  case second =>
    exact exec_illegal rfl (by decide) hi (by rw [prereqBroken_rewind hp, hr]) hk he

/-! ## CLOSE (R194) -/

theorem prereqBroken_close {s : State} {k : Snk} (hk : s.snk = some k) :
    prereqBroken (prereqOf .close) s = k.closed := by
  simp [prereqBroken, prereqOf, mirrorSnkc, hk]

/-- Settles O42: an open sink is all R216 asks; a closed one breaks it. -/
theorem closePadsAndCloses : Obligations.ClosePadsAndCloses := by
  refine ⟨decodeCommand_encodeCommand (i := .close) rfl,
    fun s k hi hk => ⟨fun hc => ?opened, fun hc he => ?shut⟩⟩
  case opened =>
    rw [exec_runs rfl (by decide) hi (by rw [prereqBroken_close hk, hc]) (prereqPortAbsent_of_sink rfl hk), bodyOf,
      runClose, withSink_open hk hc, outcome_done, snkClose]
  case shut =>
    exact exec_illegal rfl (by decide) hi (by rw [prereqBroken_close hk, hc]) hk he

/-! ## ENCODE's loop (R188, R190, R191) -/

/-- Bytes whose codes are put all have one. -/
theorem tableGet_isSome_of_codesOfBytes {ct : Table Bits} {d : List Byte} {cs : Bits}
    (h : codesOfBytes ct d = some cs) {b : Byte} (hb : b ∈ d) : (tableGet ct b.toNat).isSome = true := by
  refine Option.isSome_iff_ne_none.2 fun hnone => ?_
  rw [codesOfBytes_none hb hnone] at h
  cases h

/-- A front of bytes with codes before a byte without one is the longest such front. -/
theorem takeWhile_coded {ct : Table Bits} {front rest : List Byte} {b : Byte} {cs : Bits}
    (hcs : codesOfBytes ct front = some cs) (hb : tableGet ct b.toNat = none) :
    (front ++ b :: rest).takeWhile (fun x => (tableGet ct x.toNat).isSome) = front := by
  rw [List.takeWhile_append_of_pos fun x hx => tableGet_isSome_of_codesOfBytes hcs hx,
    List.takeWhile_cons_of_neg (by simp [hb]), List.append_nil]

section
variable {ct : Table Bits} {p : Src} {cs : Bits} (k : Snk)

/-- If every byte left has a code, the loop puts them all. -/
theorem encodeLoop_exhausted (hcs : codesOfBytes ct (bytesLeft p) = some cs) :
    encodeLoop ct (p.data.length + 1) p k = .exhausted (srcAtEnd p) (snkAppend cs k) := by
  rcases encodeLoop_cases ct _ p k (Nat.lt_succ_of_le (bytesLeft_length_le p)) with
    ⟨cs', hcs', hloop⟩ | ⟨_, b, _, _, hleft, hmissing, _, _⟩
  · obtain rfl : cs' = cs := Option.some.inj (hcs'.symm.trans hcs)
    exact hloop
  · rw [codesOfBytes_none (by simp [hleft]) hmissing] at hcs
    cases hcs

/-- If a byte without a code follows a front of bytes with codes, the loop stops there with that byte read. -/
theorem encodeLoop_missing {front rest : List Byte} {b : Byte} (hleft : bytesLeft p = front ++ b :: rest)
    (hcs : codesOfBytes ct front = some cs) (hb : tableGet ct b.toNat = none) :
    encodeLoop ct (p.data.length + 1) p k = .missing (srcAdvance (8 * (front.length + 1)) p) (snkAppend cs k) := by
  rcases encodeLoop_cases ct _ p k (Nat.lt_succ_of_le (bytesLeft_length_le p)) with
    ⟨_, hall, _⟩ | ⟨front', b', rest', cs', hleft', hb', hcs', hloop⟩
  · rw [codesOfBytes_none (by simp [hleft]) hb] at hall
    cases hall
  · obtain rfl : front' = front := by
      rw [← takeWhile_coded (rest := rest') hcs' hb', ← hleft', hleft, takeWhile_coded hcs hb]
    obtain rfl : cs' = cs := Option.some.inj (hcs'.symm.trans hcs)
    exact hloop

end

/-! ## ENCODE (R189, R191) -/

theorem prereqBroken_encode {s : State} {k : Snk} (hk : s.snk = some k) :
    prereqBroken (prereqOf .encode) s = (!s.cv || k.closed) := by
  simp [prereqBroken, prereqOf, mirrorSnkc, hk]

section
variable {s : State} {p : Src} {k : Snk} {cs : Bits} (hp : s.src = some p) (hk : s.snk = some k) (hc : k.closed = false)
include hk hc

/-- In IDLE with CV = 1 and an open sink ENCODE runs its body (R216). -/
theorem exec_encode_idle (hi : s.runState = .idle) (hcv : s.cv = true) : exec .encode s = (runEncode s).outcome :=
  exec_runs rfl (by decide) hi (by rw [prereqBroken_encode hk, hcv, hc]; rfl) (prereqPortAbsent_of_sink rfl hk)

include hp

/-- With a code for every byte left and for EOS, ENCODE's body appends them all, EOS's last (R189). -/
theorem runEncode_done {e : Bits} (hcs : codesOfBytes s.ct (bytesLeft p) = some cs)
    (he : tableGet s.ct Config.eos = some e) :
    runEncode s = .done { s with src := some (srcAtEnd p), snk := some (snkAppend (cs ++ e) k) } := by
  simp only [runEncode, withSink_open hk hc, withSource_some hp, encodeLoop_exhausted k hcs, he, putCode_eq,
    snkAppend_snkAppend]

/-- A byte without a code is CodeMissing over the codes before it (R191). -/
theorem runEncode_missing {front rest : List Byte} {b : Byte} (hleft : bytesLeft p = front ++ b :: rest)
    (hcs : codesOfBytes s.ct front = some cs) (hb : tableGet s.ct b.toNat = none) :
    runEncode s = takeFault .codeMissing (opcodeOf .encode)
      { s with src := some (srcAdvance (8 * (front.length + 1)) p), snk := some (snkAppend cs k) } := by
  simp only [runEncode, withSink_open hk hc, withSource_some hp, encodeLoop_missing k hleft hcs hb]

/-- EOS without a code is CodeMissing over the codes of all the bytes (R191). -/
theorem runEncode_missing_eos (hcs : codesOfBytes s.ct (bytesLeft p) = some cs)
    (he : tableGet s.ct Config.eos = none) :
    runEncode s = takeFault .codeMissing (opcodeOf .encode)
      { s with src := some (srcAtEnd p), snk := some (snkAppend cs k) } := by
  simp only [runEncode, withSink_open hk hc, withSource_some hp, encodeLoop_exhausted k hcs, he]

end

/-- Settles O40: the loop puts every byte's code, and EOS's follows. -/
theorem encodeAppendsThePayload : Obligations.EncodeAppendsThePayload := by
  intro s p k cs e hi hcv hp hk hc hcs he
  rw [exec_encode_idle hk hc hi hcv, runEncode_done hp hk hc hcs he, outcome_done, snkAppend]

/-- Settles O41: the loop stops at the first byte without a code; past the last byte only EOS's code can be missing. -/
theorem encodeMissingCode : Obligations.EncodeMissingCode := by
  intro s p k cs hi herr hcv hp hk hc
  have faults (p' : Src) :
      (takeFault .codeMissing (opcodeOf .encode)
          { s with src := some p', snk := some (snkAppend cs k) }).outcome =
        .next (faultState .codeMissing 0x8 (snkAppend cs k) { s with src := some p' }) :=
    takeFault_outcome (s := { s with src := some p', snk := some (snkAppend cs k) }) rfl herr _ _
  rw [exec_encode_idle hk hc hi hcv]
  refine ⟨fun before b rest hleft hcs hb => ?byte, fun hcs he => ?eos⟩
  case byte => rw [runEncode_missing hp hk hc hleft hcs hb, faults, snkAppend]
  case eos => rw [runEncode_missing_eos hp hk hc hcs he, faults, snkAppend]

end Sys2Proof.Machine
end

section
/-! Proofs of the family 45_payload_decode.md: where DECODE's loop ends by the codes that stand at the source, and the
state each end leaves (45_payload_decode.md R200 to R209). -/

namespace Sys2Proof

/-- Below an internal root every code has a bit. -/
theorem HuffTree.ne_nil_of_leafAt_node {l r : HuffTree} {c : Bits} {x : Sym}
    (h : (HuffTree.node l r).leafAt c = some x) : c ≠ [] := by
  rintro rfl
  cases h

namespace Machine

/-! ## DECODE's loop past the codes of bytes (R202 to R205) -/

section
variable {nt : Table Node} {root : NodeIdx} {n : Nat} {l r : HuffTree} {cs : List (Bits × Byte)} {p : Src} {c : Bits}
  (ht : treeAt nt n root = some (.node l r))
  (hcs : ∀ e ∈ cs, (HuffTree.node l r).leafAt e.1 = some (e.2.zeroExtend 9)) (k : Snk)
include ht hcs

/-- The loop's rounds suffice for the codes of bytes at the source: it stands at the root again with their bytes in the
sink, and rounds enough for the bits behind them are left (R205, R209). -/
theorem decodeLoop_past_codes (hbits : bitsLeft p = cs.flatMap Prod.fst ++ c) : ∃ fuel, c.length < fuel ∧
    decodeLoop nt root (8 * p.data.length + 1) p k root =
      decodeLoop nt root fuel (srcAdvance (cs.flatMap Prod.fst).length p) (snkAppend (sourceBits (cs.map Prod.snd)) k)
        root := by
  have hle := bitsLeft_length_le p
  rw [hbits, List.length_append] at hle
  obtain ⟨fuel, hfuel⟩ : ∃ fuel, 8 * p.data.length + 1 = fuel + (cs.flatMap Prod.fst).length :=
    ⟨8 * p.data.length + 1 - (cs.flatMap Prod.fst).length, by omega⟩
  refine ⟨fuel, by omega, ?_⟩
  rw [hfuel, decodeLoop_codes ht cs (fun e he => ⟨HuffTree.ne_nil_of_leafAt_node (hcs e he), hcs e he⟩) k fuel hbits]

/-- Codes of bytes and then the path to a leaf that is no byte's: the loop ends on that leaf with nothing written for
it, at EOS's with success (R204, R205). -/
theorem decodeLoop_ends_on_leaf {rest : Bits} {x : Sym} (hbits : bitsLeft p = cs.flatMap Prod.fst ++ (c ++ rest))
    (hleaf : (HuffTree.node l r).leafAt c = some x) (hx : Config.eos ≤ x.toNat) : ∃ leafIdx,
    follow nt root c = some leafIdx ∧ decodeLoop nt root (8 * p.data.length + 1) p k root =
      if x.toNat = Config.eos then
        .eof (srcAdvance ((cs.flatMap Prod.fst).length + c.length) p) (snkAppend (sourceBits (cs.map Prod.snd)) k)
          leafIdx
      else
        .corrupt (srcAdvance ((cs.flatMap Prod.fst).length + c.length) p) (snkAppend (sourceBits (cs.map Prod.snd)) k)
          leafIdx .atLeafSym := by
  obtain ⟨fuel, hfuel, hcodes⟩ := decodeLoop_past_codes ht hcs k hbits
  obtain ⟨f, rfl⟩ : ∃ f, fuel = f + c.length := ⟨fuel - c.length, by rw [List.length_append] at hfuel; omega⟩
  have hleft : bitsLeft (srcAdvance (cs.flatMap Prod.fst).length p) = c ++ rest := by
    rw [bitsLeft_advance, hbits, List.drop_left]
  obtain ⟨leafIdx, w, hfollow, _, hcode⟩ := decodeLoop_code (root := root) ht (HuffTree.ne_nil_of_leafAt_node hleaf)
    hleaf (snkAppend (sourceBits (cs.map Prod.snd)) k) f hleft
  refine ⟨leafIdx, hfollow, ?_⟩
  rw [hcodes, hcode, srcAdvance_advance]
  exact ite_congr rfl (fun _ => rfl) fun hne => if_pos (Nat.lt_of_le_of_ne hx (Ne.symm hne))

/-- Codes of bytes and then bits that end inside the tree: the loop runs out of bits on the node they lead to (R202). -/
theorem decodeLoop_ends_inside (hbits : bitsLeft p = cs.flatMap Prod.fst ++ c)
    (hinner : (HuffTree.node l r).innerAt c = true) : ∃ i, follow nt root c = some i ∧
    decodeLoop nt root (8 * p.data.length + 1) p k root =
      .badInput (srcAtEnd p) (snkAppend (sourceBits (cs.map Prod.snd)) k) i := by
  obtain ⟨fuel, hfuel, hcodes⟩ := decodeLoop_past_codes ht hcs k hbits
  obtain ⟨f, rfl⟩ : ∃ f, fuel = f + c.length + 1 := ⟨fuel - c.length - 1, by omega⟩
  have hleft : bitsLeft (srcAdvance (cs.flatMap Prod.fst).length p) = c := by
    rw [bitsLeft_advance, hbits, List.drop_left]
  obtain ⟨i, hfollow, hcut⟩ := decodeLoop_cut (root := root) ht hinner (snkAppend (sourceBits (cs.map Prod.snd)) k) f
    hleft
  exact ⟨i, hfollow, by rw [hcodes, hcut, srcAtEnd_advance]⟩

end

/-- With a root that is a leaf, DECODE's two ends: no bit to read, or a first bit that cannot be followed (R203,
R207). -/
theorem decodeLoop_of_leaf_tree {nt : Table Node} {root : NodeIdx} {n : Nat} {sym : Sym}
    (ht : treeAt nt n root = some (.leaf sym)) (fuel : Nat) (p : Src) (k : Snk) :
    (bitsLeft p = [] ∧ decodeLoop nt root (fuel + 1) p k root = .badInput (srcAtEnd p) k root) ∨
    (bitsLeft p ≠ [] ∧ decodeLoop nt root (fuel + 1) p k root = .corrupt (srcAdvance 1 p) k root .walking) := by
  obtain ⟨_, _, ⟨_, _, hn, _⟩ | ⟨_, _, _, _, _, _, _, _, hnode⟩⟩ := treeAt_cases ht
  · exact decodeLoop_leafRoot hn fuel p k
  · cases hnode

/-! ## What each end leaves (R201 to R205, R236) -/

theorem prereqBroken_decode {s : State} {k : Snk} (hk : s.snk = some k) :
    prereqBroken (prereqOf .decode) s = (!s.tv || k.closed) := by
  simp [prereqBroken, prereqOf, mirrorSnkc, hk]

section
variable {s : State} {p p' : Src} {k k' : Snk} {c : NodeIdx} (hi : s.runState = .idle) (htv : s.tv = true)
  (hp : s.src = some p) (hk : s.snk = some k) (hc : k.closed = false)
include hi htv hk hc

/-- In IDLE with TV = 1 and an open sink DECODE runs its body (R216). -/
theorem exec_decode_idle : exec .decode s = (runDecode s).outcome :=
  exec_runs rfl (by decide) hi (by rw [prereqBroken_decode hk, htv, hc]; rfl) (prereqPortAbsent_of_sink rfl hk)

include hp

/-- At EOS's leaf DECODE ends with success (R204). -/
theorem exec_decode_eof (h : decodeLoop s.nt s.root (8 * p.data.length + 1) p k s.root = .eof p' k' c) :
    exec .decode s = .next { s with src := some p', snk := some k', cur := c, dst := .atLeafEof } := by
  rw [exec_decode_idle hi htv hk hc, runDecode, withSink_open hk hc, withSource_some hp, h, outcome_done]

variable (he : s.err = .none)
include he

/-- Out of bits DECODE raises BadInput over the walk so far (R202, R236). -/
theorem exec_decode_badInput
    (h : decodeLoop s.nt s.root (8 * p.data.length + 1) p k s.root = .badInput p' k' c) :
    exec .decode s = .next (faultState .badInput 0xC k' { s with src := some p', cur := c, dst := .walking }) := by
  rw [exec_decode_idle hi htv hk hc, runDecode, withSink_open hk hc, withSource_some hp, h]
  exact takeFault_outcome (s := { s with src := some p', snk := some k', cur := c, dst := .walking }) rfl he _ _

/-- At a move or a leaf it must reject DECODE raises DecodeCorrupt (R203, R205, R236). -/
theorem exec_decode_corrupt {d : DecState}
    (h : decodeLoop s.nt s.root (8 * p.data.length + 1) p k s.root = .corrupt p' k' c d) :
    exec .decode s = .next (faultState .decodeCorrupt 0xC k' { s with src := some p', cur := c, dst := d }) := by
  rw [exec_decode_idle hi htv hk hc, runDecode, withSink_open hk hc, withSource_some hp, h]
  exact takeFault_outcome (s := { s with src := some p', snk := some k', cur := c, dst := d }) rfl he _ _

end

/-! ## What DECODE does with a payload (R202 to R205, R207) -/

/-- Settles O43: past the byte codes the loop ends on EOS's leaf. -/
theorem decodeWritesTheBytes : Obligations.DecodeWritesTheBytes := by
  intro s p k l r cs ce rest hi htv hp hk hc ht hbits hcs heos
  obtain ⟨leafIdx, hfollow, hloop⟩ := decodeLoop_ends_on_leaf ht hcs k hbits heos (Nat.le_refl _)
  have hsym : (256 : Sym).toNat = Config.eos := rfl
  rw [if_pos hsym] at hloop
  exact ⟨leafIdx, hfollow, exec_decode_eof hi htv hp hk hc hloop⟩

/-- Settles O44: past the byte codes the loop runs out of bits inside the tree. -/
theorem decodeCutPayload : Obligations.DecodeCutPayload := by
  intro s p k l r cs c hi he htv hp hk hc ht hbits hcs hinner
  obtain ⟨i, hfollow, hloop⟩ := decodeLoop_ends_inside ht hcs k hbits hinner
  exact ⟨i, hfollow, exec_decode_badInput hi htv hp hk hc he hloop⟩

/-- Settles O45: a leaf root ends the loop at its first read or move, and past byte codes a leaf above 256 ends it. -/
theorem decodeRejectsBadTrees : Obligations.DecodeRejectsBadTrees := by
  intro s p k t hi he htv hp hk hc ht
  refine ⟨?noBit, ?firstBit, ?aboveEos⟩
  case noBit =>
    rintro sym rfl hnil
    obtain ⟨_, hloop⟩ | ⟨hbits, _⟩ := decodeLoop_of_leaf_tree ht (8 * p.data.length) p k
    · exact exec_decode_badInput hi htv hp hk hc he hloop
    · exact absurd hnil hbits
  case firstBit =>
    rintro sym rfl hbits
    obtain ⟨hnil, _⟩ | ⟨_, hloop⟩ := decodeLoop_of_leaf_tree ht (8 * p.data.length) p k
    · exact absurd hnil hbits
    · exact exec_decode_corrupt hi htv hp hk hc he hloop
  case aboveEos =>
    rintro l r cs c rest x rfl hbits hcs hleaf hx
    obtain ⟨leafIdx, hfollow, hloop⟩ := decodeLoop_ends_on_leaf ht hcs k hbits hleaf (Nat.le_of_lt hx)
    have hne : x.toNat ≠ Config.eos := Nat.ne_of_gt hx
    rw [if_neg hne] at hloop
    exact ⟨leafIdx, hfollow, exec_decode_corrupt hi htv hp hk hc he hloop⟩

/-! ## Success and failure (R209) -/

/-- The bits begin with a whole payload of the tree: codes of bytes below an internal root, then EOS's (R209). -/
def BeginsWithPayload (t : HuffTree) (c : Bits) : Prop :=
  ∃ (l r : HuffTree) (cs : List (Bits × Byte)) (ce rest : Bits), t = .node l r ∧
    c = cs.flatMap Prod.fst ++ (ce ++ rest) ∧ (∀ e ∈ cs, t.leafAt e.1 = some (e.2.zeroExtend 9)) ∧
    t.leafAt ce = some 256

section
variable {s : State} {p : Src} {k : Snk} {t : HuffTree} (hi : s.runState = .idle) (htv : s.tv = true)
  (hp : s.src = some p) (hk : s.snk = some k) (hc : k.closed = false) (ht : rootTree s = some t)
include hi htv hp hk hc ht

/-- A whole payload at the source is decoded to its end (R204). -/
theorem exec_decode_of_payload (h : BeginsWithPayload t (bitsLeft p)) :
    ∃ u, exec .decode s = .next u ∧ u.runState = .idle := by
  obtain ⟨l, r, cs, ce, rest, rfl, hbits, hcs, heos⟩ := h
  obtain ⟨_, _, hexec⟩ := decodeWritesTheBytes s p k l r cs ce rest hi htv hp hk hc ht hbits hcs heos
  exact ⟨_, hexec, hi⟩

/-- Where no whole payload stands at the source, the loop's end is one of the two faults. -/
theorem exec_decode_of_no_payload (he : s.err = .none) (h : ¬ BeginsWithPayload t (bitsLeft p)) :
    ∃ u, exec .decode s = .next u ∧ u.runState = .fault ∧ u.fop = 0xC ∧
      (u.err = .badInput ∨ u.err = .decodeCorrupt) := by
  cases t with
  | leaf sym =>
    obtain ⟨_, hloop⟩ | ⟨_, hloop⟩ := decodeLoop_of_leaf_tree ht (8 * p.data.length) p k
    · exact ⟨_, exec_decode_badInput hi htv hp hk hc he hloop, rfl, rfl, .inl rfl⟩
    · exact ⟨_, exec_decode_corrupt hi htv hp hk hc he hloop, rfl, rfl, .inr rfl⟩
  | node l r =>
    obtain ⟨cs, c, rest, _, hcs, hbits, _, ⟨heos, _⟩ | ⟨_, hloop⟩ | ⟨_, _, hloop⟩⟩ :=
      decodeLoop_cases ht _ k (8 * p.data.length + 1) (Nat.le_refl _) (Nat.lt_succ_of_le (bitsLeft_length_le p))
    · exact absurd ⟨l, r, cs, c, rest, rfl, hbits, hcs, heos⟩ h
    · exact ⟨_, exec_decode_corrupt hi htv hp hk hc he hloop, rfl, rfl, .inr rfl⟩
    · exact ⟨_, exec_decode_badInput hi htv hp hk hc he hloop, rfl, rfl, .inl rfl⟩

end

/-- Settles O46: a whole payload at the source gives success, the lack of one a fault. -/
theorem decodeAlwaysEnds : Obligations.DecodeAlwaysEnds := by
  intro s p k t hi he htv hp hk hc ht
  by_cases hpay : BeginsWithPayload t (bitsLeft p)
  · obtain ⟨u, hexec, hidle⟩ := exec_decode_of_payload hi htv hp hk hc ht hpay
    exact ⟨u, hexec, iff_of_true hidle hpay, .inl hidle⟩
  · obtain ⟨u, hexec, hstate, hfault⟩ := exec_decode_of_no_payload hi htv hp hk hc ht he hpay
    exact ⟨u, hexec, iff_of_false (by rw [hstate]; decide) hpay, .inr ⟨hstate, hfault⟩⟩

end Machine

end Sys2Proof
end

section
/-! Proofs of the family 46_orchestration.md, first part: CLEAR, and the prerequisites of R216
(46_orchestration.md R215, R216, R224, R225). -/

namespace Sys2Proof.Machine

/-! ## CLEAR (R224, R225) -/

/-- Settles O11: `clearCore` is the reset state of registers and tables; in FAULT no other command is accepted. -/
theorem clearGivesTheResetState : Obligations.ClearGivesTheResetState := by
  refine ⟨decodeCommand_encodeCommand (i := .clear) rfl, fun s hs => ?_, fun s i hs hc hn => exec_in_fault hc hn hs⟩
  have hnb : s.runState ≠ .busy := by rcases hs with h | h <;> simp [h]
  rw [exec_clear hnb]
  rfl

/-! ## R216's table by its columns -/

theorem treeValid_iff (i : Instr) : (prereqOf i).treeValid = true ↔ i ∈ [Instr.gencodes, .wrhdr, .decode] := by
  cases i <;> simp [prereqOf]

theorem codesValid_iff (i : Instr) : (prereqOf i).codesValid = true ↔ i = .encode := by
  cases i <;> simp [prereqOf]

theorem sinkOpen_iff (i : Instr) : (prereqOf i).sinkOpen = true ↔
    i ∈ [Instr.wrmagic, .wrhdr, .encode, .close, .decode, .compress, .decompress] := by
  cases i <;> simp [prereqOf]

theorem notRewound_iff (i : Instr) : (prereqOf i).notRewound = true ↔ i ∈ [Instr.rewind, .compress] := by
  cases i <;> simp [prereqOf]

theorem mirrorRwd_iff (s : State) : mirrorRwd s = true ↔ ∃ p, s.src = some p ∧ p.rew = true := by
  cases hp : s.src <;> simp [mirrorRwd, hp]

/-- With a sink attached, a prerequisite is broken in one of the four ways the table's columns name. -/
theorem prereqBroken_iff {s : State} {k : Snk} (hk : s.snk = some k) (i : Instr) :
    prereqBroken (prereqOf i) s = true ↔
      (i ∈ [Instr.gencodes, .wrhdr, .decode] ∧ s.tv = false) ∨ (i = .encode ∧ s.cv = false) ∨
      (i ∈ [Instr.wrmagic, .wrhdr, .encode, .close, .decode, .compress, .decompress] ∧ k.closed = true) ∨
      (i ∈ [Instr.rewind, .compress] ∧ ∃ p, s.src = some p ∧ p.rew = true) := by
  have hclosed : mirrorSnkc s = k.closed := by simp [mirrorSnkc, hk]
  simp only [prereqBroken, Bool.or_eq_true, Bool.and_eq_true, Bool.not_eq_true', treeValid_iff, codesValid_iff,
    sinkOpen_iff, notRewound_iff, mirrorRwd_iff, hclosed, or_assoc]

/-! ## IllegalCommand is acceptance's alone (R215, R235) -/

/-- No command's body raises IllegalCommand. -/
theorem ne_illegalCommand_of_mem_faultsOf {i : Instr} {c : FaultCode} {op : Opcode} (h : (c, op) ∈ faultsOf i) :
    c ≠ .illegalCommand := by
  rintro rfl
  cases i <;> simp [faultsOf] at h

/-- A command whose prerequisites hold leaves no IllegalCommand where none was recorded. -/
theorem err_ne_illegalCommand {i : Instr} {s t : State} (hc : i.isCommand = true) (hi : s.runState = .idle)
    (he : s.err = .none) (hb : prereqBroken (prereqOf i) s = false) (h : exec i s = .next t) :
    t.err ≠ .illegalCommand := by
  by_cases hn : i = .clear
  · subst hn
    rw [exec_clear (by simp [hi])] at h
    injection h with h
    simp [← h]
  · rcases exec_next_cases hc hn (fun _ => raises_body hc hn s) h with
      ⟨hni, _⟩ | ⟨_, hb', _⟩ | ⟨_, _, herr | ⟨c, op, u, k, ⟨hmem, hu⟩, _, rfl⟩⟩
    · exact absurd hi hni
    · exact absurd (hb.symm.trans hb') (by decide)
    · simp [herr, he]
    · simpa [faultedState, hu, he] using ne_illegalCommand_of_mem_faultsOf hmem

/-- Settles O9: the four columns are `prereqBroken`, and a body raises no IllegalCommand of its own. -/
theorem prerequisitesAreTested : Obligations.PrerequisitesAreTested := by
  intro s i k hi he hk hc
  rw [← prereqBroken_iff hk i]
  refine ⟨fun hb => ?broken, fun hb t h => ?unbroken⟩
  case broken =>
    have hn : i ≠ .clear := by rintro rfl; exact Bool.false_ne_true hb
    exact exec_illegal hc hn hi hb hk he
  case unbroken => exact err_ne_illegalCommand hc hi he (by simpa using hb) h

end Sys2Proof.Machine
end

section
/-! Proofs of the family 46_orchestration.md, second part: the composites are their primitives, each accepted where it is
reached (46_orchestration.md R218, R221). -/

namespace Sys2Proof.Machine

/-! ## Bodies one after the other -/

/-- The bodies of a list of instructions one after the other; a raise ends them (R236). -/
def runBodies : List Instr → State → Run
  | [], s => .done s
  | j :: rest, s => (bodyOf j s).andThen (runBodies rest)

theorem andThen_assoc (r : Run) (f g : State → Run) :
    (r.andThen f).andThen g = r.andThen fun t => (f t).andThen g := by
  cases r <;> rfl

theorem andThen_done_right (r : Run) : r.andThen Run.done = r := by
  cases r <;> rfl

theorem runCompress_eq (s : State) : runCompress s =
    runBodies [.count, .build, .gencodes, .wrmagic, .wrhdr, .rewind, .encode, .close] s := by
  simp only [runBodies, bodyOf, runCompress, andThen_assoc, andThen_done_right]

theorem runDecompress_eq (s : State) : runDecompress s = runBodies [.rdmagic, .rdhdr, .decode, .close] s := by
  simp only [runBodies, bodyOf, runDecompress, andThen_assoc, andThen_done_right]

/-! ## What R216 grants along a list of primitives -/

/-- STATE is IDLE, and the prerequisites in `q` hold with their ports attached (R216). -/
structure Grants (q : Prereq) (s : State) : Prop where
  idle   : s.runState = .idle
  tree   : q.treeValid = true → s.tv = true
  codes  : q.codesValid = true → s.cv = true
  sink   : q.sinkOpen = true → ∃ k, s.snk = some k ∧ k.closed = false
  source : q.notRewound = true → ∃ p, s.src = some p ∧ p.rew = false

theorem Grants.prereqBroken_eq {q : Prereq} {s : State} (h : Grants q s) : prereqBroken q s = false := by
  have hsink : q.sinkOpen = true → mirrorSnkc s = false := fun hq => by
    obtain ⟨k, hk, hc⟩ := h.sink hq
    simp [mirrorSnkc, hk, hc]
  have hsource : q.notRewound = true → mirrorRwd s = false := fun hq => by
    obtain ⟨p, hp, hr⟩ := h.source hq
    simp [mirrorRwd, hp, hr]
  simpa [prereqBroken, and_assoc] using ⟨h.tree, h.codes, hsink, hsource⟩

theorem Grants.prereqPortAbsent_eq {q : Prereq} {s : State} (h : Grants q s) : prereqPortAbsent q s = none := by
  have hsink : q.sinkOpen = true → s.snk ≠ none := fun hq => by
    obtain ⟨k, hk, _⟩ := h.sink hq
    simp [hk]
  have hsource : q.notRewound = true → s.src ≠ none := fun hq => by
    obtain ⟨p, hp, _⟩ := h.source hq
    simp [hp]
  rw [prereqPortAbsent, if_neg (by simpa using hsink), if_neg (by simpa using hsource)]

/-- A primitive whose prerequisites are granted runs its body. -/
theorem Grants.exec_eq {j : Instr} (hj : j ∈ primitives) {s : State} (h : Grants (prereqOf j) s) :
    exec j s = (bodyOf j s).outcome :=
  exec_runs (isCommand_of_primitive hj).1 (isCommand_of_primitive hj).2 h.idle h.prereqBroken_eq h.prereqPortAbsent_eq

/-- Every prerequisite in `r` stands in `q`. -/
def Prereq.covers (q r : Prereq) : Bool :=
  (!r.treeValid || q.treeValid) && (!r.codesValid || q.codesValid) && (!r.sinkOpen || q.sinkOpen) &&
    (!r.notRewound || q.notRewound)

theorem Grants.of_covers {q r : Prereq} {s : State} (h : Grants q s) (hq : q.covers r = true) : Grants r s := by
  obtain ⟨⟨⟨htree, hcodes⟩, hsink⟩, hsource⟩ : (((r.treeValid = true → q.treeValid = true) ∧
      (r.codesValid = true → q.codesValid = true)) ∧ (r.sinkOpen = true → q.sinkOpen = true)) ∧
      (r.notRewound = true → q.notRewound = true) := by
    simpa [Prereq.covers, ← Bool.not_eq_true, ← imp_iff_not_or] using hq
  exact ⟨h.idle, h.tree ∘ htree, h.codes ∘ hcodes, h.sink ∘ hsink, h.source ∘ hsource⟩

/-- What is granted after a primitive that ends well: BUILD and RDHDR give a tree and void the codes, GENCODES gives codes,
CLOSE closes the sink; a source is known not to be rewound as long as COUNT alone has read it. -/
def Prereq.after (q : Prereq) (j : Instr) : Prereq where
  treeValid  := q.treeValid || (writesOf j).tree
  codesValid := if (writesOf j).cv then decide (j = .gencodes) else q.codesValid
  sinkOpen   := q.sinkOpen && decide (j ≠ .close)
  notRewound := q.notRewound && (!(writesOf j).src || decide (j = .count))

/-- `Ends.of_done` for a run known to be done by an equation. -/
theorem Ends.of_eq_done {P : State → Prop} {Q : FaultCode → Opcode → State → Prop} {R : Fault → Prop} {r : Run}
    {t : State} (h : Ends P Q R r) (hr : r = .done t) : P t := (hr ▸ h).of_done

/-- BUILD and RDHDR leave a tree (R145, R178). -/
theorem tv_of_done {j : Instr} (hj : j ∈ primitives) (hw : (writesOf j).tree = true) {s t : State}
    (h : bodyOf j s = .done t) : t.tv = true := by
  have makers : ∀ j ∈ primitives, (writesOf j).tree = true → j = .build ∨ j = .rdhdr := by decide
  rcases makers j hj hw with rfl | rfl
  · exact tv_of_build_done h
  · obtain ⟨p, tree, rest, _, _, _, rfl⟩ := (runRdhdr_ends s).of_eq_done h
    rfl

/-- GENCODES leaves codes (R155). -/
theorem cv_of_gencodes_done {s t : State} (h : runGencodes s = .done t) : t.cv = true := by
  obtain ⟨ct, a, b, _, _, _, _, rfl⟩ := (runGencodes_ends s).of_eq_done h
  rfl

/-- Every primitive but CLOSE leaves an open sink open (R73). -/
theorem sinkOpen_of_done {j : Instr} (hj : j ∈ primitives) (hn : j ≠ .close) {s t : State} {k : Snk}
    (hk : s.snk = some k) (hc : k.closed = false) (h : bodyOf j s = .done t) :
    ∃ k', t.snk = some k' ∧ k'.closed = false := by
  have writers : ∀ j ∈ primitives, j ≠ .close →
      j = .wrmagic ∨ j = .wrhdr ∨ j = .encode ∨ j = .decode ∨ (writesOf j).snk = false := by decide
  rcases writers j hj hn with rfl | rfl | rfl | rfl | hw
  · obtain ⟨c, k', _, hc', rfl⟩ := (runWrmagic_ends s).of_eq_done h
    exact ⟨_, rfl, hc'⟩
  · obtain ⟨c, k', _, hc', rfl⟩ := (runWrhdr_ends s).of_eq_done h
    exact ⟨_, rfl, hc'⟩
  · obtain ⟨p, p', c, k', _, _, _, hc', rfl⟩ := (runEncode_ends s).of_eq_done h
    exact ⟨_, rfl, hc'⟩
  · obtain ⟨p, p', d, k', c, _, _, _, hc', rfl⟩ := (runDecode_ends s).of_eq_done h
    exact ⟨_, rfl, hc'⟩
  · obtain ⟨hf, _⟩ := (frame_primitive hj s).of_eq_done h
    exact ⟨k, (hf.snk.resolve_left (by simp [hw])).trans hk, hc⟩

/-- COUNT, and every primitive that does not touch the source, leaves it as rewound as it was (R75). -/
theorem source_of_done {j : Instr} (hj : j ∈ primitives) (hw : (writesOf j).src = false ∨ j = .count) {s t : State}
    {p : Src} (hp : s.src = some p) (hr : p.rew = false) (h : bodyOf j s = .done t) :
    ∃ p', t.src = some p' ∧ p'.rew = false := by
  rcases hw with hw | rfl
  · obtain ⟨hf, _⟩ := (frame_primitive hj s).of_eq_done h
    exact ⟨p, (hf.src.resolve_left (by simp [hw])).trans hp, hr⟩
  · obtain ⟨p₀, p', f, hp₀, hl, _, rfl⟩ := (runCount_ends s).of_eq_done h
    obtain rfl : p₀ = p := Option.some.inj (hp₀.symm.trans hp)
    exact ⟨p', rfl, hl.rew.trans hr⟩

/-- A primitive that ends well grants what `after` says. -/
theorem Grants.after {q : Prereq} {j : Instr} (hj : j ∈ primitives) {s t : State} (h : Grants q s)
    (hd : bodyOf j s = .done t) : Grants (q.after j) t := by
  obtain ⟨hf, _⟩ := (frame_primitive hj s).of_eq_done hd
  refine ⟨idle_of_primitive_done hj h.idle hd, fun hq => ?tree, fun hq => ?codes, fun hq => ?sink, fun hq => ?source⟩
  case tree =>
    cases hw : (writesOf j).tree with
    | true => exact tv_of_done hj hw hd
    | false =>
      obtain ⟨_, _, _, htv, _⟩ := hf.tree.resolve_left (by simp [hw])
      exact htv.trans (h.tree (by simpa [Prereq.after, hw] using hq))
  case codes =>
    cases hw : (writesOf j).cv with
    | true =>
      obtain rfl : j = .gencodes := by simpa [Prereq.after, hw] using hq
      exact cv_of_gencodes_done hd
    | false =>
      exact (hf.cv.resolve_left (by simp [hw])).trans (h.codes (by simpa [Prereq.after, hw] using hq))
  case sink =>
    obtain ⟨hopen, hn⟩ : q.sinkOpen = true ∧ j ≠ .close := by simpa [Prereq.after] using hq
    obtain ⟨k, hk, hc⟩ := h.sink hopen
    exact sinkOpen_of_done hj hn hk hc hd
  case source =>
    obtain ⟨hrew, hw⟩ : q.notRewound = true ∧ ((writesOf j).src = false ∨ j = .count) := by
      simpa [Prereq.after] using hq
    obtain ⟨p, hp, hr⟩ := h.source hrew
    exact source_of_done hj hw hp hr hd

/-- From a state that grants `q` on, the prerequisites of each instruction of the list are granted where it is reached. -/
def accepts : Prereq → List Instr → Bool
  | _, [] => true
  | q, j :: rest => q.covers (prereqOf j) && accepts (q.after j) rest

/-! ## Commands one after the other -/

/-- In FAULT commands without CLEAR among them have no effect (R215, R240). -/
theorem runInOrder_in_fault {s : State} (hs : s.runState = .fault) {l : List Instr}
    (hl : ∀ j ∈ l, j.isCommand = true ∧ j ≠ .clear) : runInOrder l s = .next s := by
  induction l with
  | nil => rfl
  | cons j rest ih =>
    obtain ⟨⟨hc, hn⟩, hrest⟩ := List.forall_mem_cons.1 hl
    rw [runInOrder, exec_in_fault hc hn hs]
    exact ih hrest

/-- A raise ends in FAULT (R236). -/
theorem Ends.fault_of_faulted {P : State → Prop} {Q : FaultCode → Opcode → State → Prop} {R : Fault → Prop} {t : State}
    (h : Ends P Q R (.faulted t)) : t.runState = .fault := by
  rcases h with ⟨u, he, _⟩ | ⟨c, op, u, he, _⟩ | ⟨f, he, _⟩ | ⟨x, he⟩
  · cases he
  · obtain ⟨k, _, rfl⟩ := takeFault_faulted he.symm
    rfl
  · cases he
  · cases he

/-- Where each primitive is accepted when it is reached, running the commands is running their bodies. -/
theorem runInOrder_eq_runBodies {l : List Instr} (hl : ∀ j ∈ l, j ∈ primitives) : ∀ {q : Prereq} {s : State},
    Grants q s → accepts q l = true → runInOrder l s = (runBodies l s).outcome := by
  induction l with
  | nil => intro q s _ _; rfl
  | cons j rest ih =>
    intro q s hq h
    obtain ⟨hj, hrest⟩ := List.forall_mem_cons.1 hl
    obtain ⟨hcovers, haccepts⟩ := Bool.and_eq_true_iff.1 h
    rw [runInOrder, runBodies, (hq.of_covers hcovers).exec_eq hj]
    cases hb : bodyOf j s with
    | done t => exact ih hrest (hq.after hj hb) haccepts
    | faulted t =>
      exact runInOrder_in_fault (Ends.fault_of_faulted (hb ▸ frame_primitive hj s)) fun i hi =>
        isCommand_of_primitive (hrest i hi)
    | stopped f => rfl
    | refused r => rfl

/-- Settles O47: each primitive is accepted where the composite reaches it, so its command runs its body there. -/
theorem compositesAreTheirPrimitives : Obligations.CompositesAreTheirPrimitives := by
  intro s k hi hk hc
  refine ⟨fun p hp hr => ?compress, ?decompress⟩
  case compress =>
    have h : Grants (prereqOf .compress) s := ⟨hi, nofun, nofun, fun _ => ⟨k, hk, hc⟩, fun _ => ⟨p, hp, hr⟩⟩
    rw [exec_runs rfl (by decide) hi h.prereqBroken_eq h.prereqPortAbsent_eq, bodyOf, runCompress_eq,
      runInOrder_eq_runBodies (by decide) h (by decide)]
  case decompress =>
    have h : Grants (prereqOf .decompress) s := ⟨hi, nofun, nofun, fun _ => ⟨k, hk, hc⟩, nofun⟩
    rw [exec_runs rfl (by decide) hi h.prereqBroken_eq h.prereqPortAbsent_eq, bodyOf, runDecompress_eq,
      runInOrder_eq_runBodies (by decide) h (by decide)]

end Sys2Proof.Machine
end

section
/-! Proofs of the family 46_orchestration.md, third part: what COMPRESS and DECOMPRESS leave, and the round trip
(46_orchestration.md R219, R222, R223). -/

namespace Sys2Proof

open Machine

/-! ## A tree's codes as paths (R11, R113, R157) -/

theorem toNat_zeroExtend_byte (b : Byte) : (b.zeroExtend 9).toNat = b.toNat :=
  BitVec.toNat_setWidth_of_le (by decide)

/-- A symbol's code is the path to a leaf with that symbol. -/
theorem HuffTree.leafAt_of_codeOf {t : HuffTree} {x : Sym} {c : Bits} (h : t.codeOf x.toNat = some c) :
    t.leafAt c = some x := by
  obtain ⟨y, hleaf, hy⟩ := HuffTree.leafAt_of_mem (mem_of_tableGet h)
  exact hleaf.trans (congrArg some (BitVec.eq_of_toNat_eq hy))

/-- A symbol on a leaf has a code. -/
theorem HuffTree.exists_codeOf {t : HuffTree} {x : Nat} (h : x ∈ t.symbols) : ∃ c, t.codeOf x = some c := by
  rw [← t.codesFrom_symbols []] at h
  obtain ⟨e, he, rfl⟩ := List.mem_map.1 h
  exact Option.ne_none_iff_exists'.1 (tableGet_ne_none_of_mem he)

/-- The codes of bytes one after the other are cut into the path to each byte's leaf. -/
theorem HuffTree.codes_of_codesOfBytes {t : HuffTree} : ∀ {d : List Byte} {cs : Bits},
    codesOfBytes (t.codesFrom []) d = some cs → ∃ l : List (Bits × Byte), l.flatMap Prod.fst = cs ∧
      l.map Prod.snd = d ∧ ∀ e ∈ l, t.leafAt e.1 = some (e.2.zeroExtend 9)
  | [], cs, h => ⟨[], by simpa [codesOfBytes] using h, rfl, by simp⟩
  | b :: d, cs, h => by
    rw [codesOfBytes] at h
    split at h
    case h_2 => cases h
    case h_1 c cs' hc hcs =>
      obtain rfl : c ++ cs' = cs := Option.some.inj h
      obtain ⟨l, rfl, rfl, hleaf⟩ := HuffTree.codes_of_codesOfBytes hcs
      have hb : t.leafAt c = some (b.zeroExtend 9) :=
        HuffTree.leafAt_of_codeOf ((congrArg t.codeOf (toNat_zeroExtend_byte b)).trans hc)
      exact ⟨(c, b) :: l, rfl, rfl, List.forall_mem_cons.2 ⟨hb, hleaf⟩⟩

/-- Tables that read alike give bytes the same codes. -/
theorem codesOfBytes_congr {ct ct' : Table Bits} (h : ∀ x, tableGet ct x = tableGet ct' x) (d : List Byte) :
    codesOfBytes ct d = codesOfBytes ct' d := by
  induction d with
  | nil => rfl
  | cons b d ih => simp only [codesOfBytes, h, ih]

/-- A tree that can carry the bytes `d` on the wire: an internal root, a size RDHDR takes, a leaf for EOS and for each of the
bytes. -/
structure HuffTree.Carries (t : HuffTree) (d : List Byte) : Prop where
  inner : ∃ l r, t = .node l r
  size  : t.size ≤ 513
  eos   : 256 ∈ t.symbols
  bytes : ∀ b ∈ d, b.toNat ∈ t.symbols

/-- Such a tree has a code for each of the bytes. -/
theorem HuffTree.Carries.exists_codesOfBytes {t : HuffTree} {d : List Byte} (h : t.Carries d) :
    ∃ cs, codesOfBytes (t.codesFrom []) d = some cs :=
  codesOfBytes_some_of_mem fun b hb => Option.isSome_iff_exists.2 (HuffTree.exists_codeOf (h.bytes b hb))

namespace Machine

/-- Commands in order go on from the state the first one leaves. -/
theorem runInOrder_next {i : Instr} {rest : List Instr} {s t : State} (h : exec i s = .next t) :
    runInOrder (i :: rest) s = runInOrder rest t := by
  rw [runInOrder, h]

/-! ## COMPRESS's first pass: COUNT, BUILD, GENCODES (R219) -/

/-- The counts of numbers below `n` add up to how many numbers there are. -/
theorem sum_count_range {l : List Nat} {n : Nat} (h : ∀ x ∈ l, x < n) :
    ((List.range n).map fun j => l.count j).sum = l.length := by
  have hmem : ∀ x ∈ (l : Multiset Nat), x ∈ (List.range n).toFinset := fun x hx =>
    List.mem_toFinset.2 (List.mem_range.2 (h x hx))
  rw [← List.sum_toFinset _ List.nodup_range]
  simpa using Multiset.sum_count_eq_card hmem

/-- The bytes' counts add up to their number. -/
theorem sum_occurrences (d : List Byte) : ((List.range 256).map (occurrences d)).sum = d.length := by
  have hlt : ∀ x ∈ d.map BitVec.toNat, x < 256 := fun x hx => by
    obtain ⟨b, _, rfl⟩ := List.mem_map.1 hx
    exact b.isLt
  exact (sum_count_range hlt).trans (List.length_map _)

/-- With each byte counted and EOS once, FREQ's total is one more than the number of bytes. -/
theorem sum_freqAt {f : Table Nat} {d : List Byte} (hbytes : ∀ b : Byte, freqAt f b.toNat = d.count b)
    (heos : freqAt f 256 = 1) : ((List.range 257).map (freqAt f)).sum = d.length + 1 := by
  have hcount : ∀ j ∈ List.range 256, freqAt f j = occurrences d j := fun j hj => by
    have hj' : (BitVec.ofNat 8 j).toNat = j := Nat.mod_eq_of_lt (List.mem_range.1 hj)
    rw [← hj', hbytes, occurrences_eq_count]
  rw [List.range_succ, List.map_append, List.sum_append, List.map_congr_left hcount, sum_occurrences]
  simp [heos]

/-- A tree over the leaf set of the bytes' counts carries the bytes, and its size is the number of nodes BUILD writes. -/
theorem carries_of_perm {f : Table Nat} {d : List Byte} {t : HuffTree} (hsyms : t.symbols.Perm (leafSymbols f))
    (hbytes : ∀ b : Byte, freqAt f b.toNat = d.count b) :
    t.Carries d ∧ t.size = 2 * (leafSymbols f).length - 1 := by
  obtain ⟨hlow, hhigh⟩ := leafSymbols_length f
  have hleaves : t.leaves = (leafSymbols f).length := by rw [← t.symbols_length, hsyms.length_eq]
  have hsize := t.size_leaves
  refine ⟨⟨?inner, by omega, hsyms.mem_iff.2 (eos_mem_leafSymbols f), fun b hb => hsyms.mem_iff.2 ?byte⟩, by omega⟩
  case inner =>
    cases t with
    | leaf sym => simp only [HuffTree.leaves] at hleaves; omega
    | node l r => exact ⟨l, r, rfl⟩
  case byte => exact mem_leafSymbols_of_pos b.isLt (by rw [hbytes]; exact List.count_pos_iff.2 hb)

/-- The state COUNT, BUILD and GENCODES leave together: counts, a built tree, its codes; CUR, DST and the sink stay. -/
def codedState (t : HuffTree) (p : Src) (f : Table Nat) (nt : Table Node) (ct : Table Bits) (s : State) : State :=
  { s with
    src := some p, freq := f, nt := nt, ct := ct, ncnt := BitVec.ofNat 10 t.size,
    root := BitVec.ofNat 10 (t.size - 1), tv := true, cv := true, tsrc := false }

/-- COMPRESS's first pass over bytes that COUNT_W can count: the tree at ROOT carries them and CT holds its codes. -/
theorem firstPass {s : State} {p : Src} (hi : s.runState = .idle) (hp : s.src = some p)
    (hd : (bytesLeft p).length + 1 < Config.countLimit s.params) : ∃ t f nt ct, t.Carries (bytesLeft p) ∧
    (∀ rest, runInOrder (.count :: .build :: .gencodes :: rest) s =
      runInOrder rest (codedState t (srcAtEnd p) f nt ct s)) ∧
    treeAt nt Config.maxLevels (BitVec.ofNat 10 (t.size - 1)) = some t ∧
    (∀ b : Byte, freqAt f b.toNat = (bytesLeft p).count b) ∧ freqAt f 256 = 1 ∧
    ∀ sym, tableGet ct sym = t.codeOf sym := by
  obtain ⟨f, hcount, hbytes, heos, _⟩ := countCountsTheBytesLeft.2 s p hi hp fun b =>
    Nat.lt_of_le_of_lt List.count_le_length (by omega)
  obtain ⟨nt, hbuild, (T : BuiltTable f nt)⟩ := exec_build_fits
    (s := { s with src := some (srcAtEnd p), freq := f }) hi (by rw [sum_freqAt hbytes heos]; exact hd)
  obtain ⟨t, htree, hsyms, _⟩ := T.treeAt_root
  obtain ⟨hcarries, hsize⟩ := carries_of_perm hsyms hbytes
  obtain ⟨l, r, rfl⟩ := hcarries.inner
  obtain ⟨ct, hcodes, hct⟩ := gencodesRecordsThePaths
    (builtState nt { s with src := some (srcAtEnd p), freq := f }) l r hi rfl htree
    (hsyms.nodup_iff.2 (leafSymbols_nodup f)) fun x hx => leafSymbols_le f x (hsyms.mem_iff.1 hx)
  have hroot : (HuffTree.node l r).size - 1 = 2 * (leafSymbols f).length - 2 := by omega
  refine ⟨.node l r, f, nt, ct, hcarries, fun rest => ?_, by rw [hroot]; exact htree, hbytes, heos, hct⟩
  rw [runInOrder_next hcount, runInOrder_next hbuild, runInOrder_next hcodes, codedState, hroot, hsize]
  rfl

/-! ## COMPRESS's second pass: WRMAGIC, WRHDR, REWIND, ENCODE, CLOSE (R219) -/

/-- COMPRESS's second pass over a tree and its codes: marker, header, the codes of all the source's bytes, EOS's, the pad. -/
theorem secondPass {s : State} {p : Src} {k : Snk} {t : HuffTree} {cs e : Bits} (hi : s.runState = .idle)
    (htv : s.tv = true) (hcv : s.cv = true) (hp : s.src = some p) (hr : p.rew = false) (hk : s.snk = some k)
    (hc : k.closed = false) (ht : rootTree s = some t) (hcs : codesOfBytes s.ct p.data = some cs)
    (he : tableGet s.ct 256 = some e) :
    runInOrder [.wrmagic, .wrhdr, .rewind, .encode, .close] s = .next { s with
      src := some (srcAtEnd (srcRewind p)),
      snk := some (snkClose (snkAppend (bits 32 s.params.magic.toNat ++ (t.header ++ (cs ++ e))) k)) } := by
  let k₁ := snkAppend (bits 32 s.params.magic.toNat) k
  let k₂ := snkAppend t.header k₁
  let k₃ := snkAppend (cs ++ e) k₂
  have hbytes : bytesLeft (srcRewind p) = p.data := bytesLeft_start rfl rfl
  calc runInOrder [.wrmagic, .wrhdr, .rewind, .encode, .close] s
    _ = runInOrder [.wrhdr, .rewind, .encode, .close] { s with snk := some k₁ } :=
        runInOrder_next ((wrmagicAppendsTheMarker.2 s k hi hk).1 hc)
    _ = runInOrder [.rewind, .encode, .close] { s with snk := some k₂ } :=
        runInOrder_next ((wrhdrAppendsTheHeader.2 { s with snk := some k₁ } k₁ hi rfl).1 t htv hc ht)
    _ = runInOrder [.encode, .close] { s with src := some (srcRewind p), snk := some k₂ } :=
        runInOrder_next ((rewindReturnsToTheStart.2 { s with snk := some k₂ } p hi hp).1 hr)
    _ = runInOrder [.close] { s with src := some (srcAtEnd (srcRewind p)), snk := some k₃ } :=
        runInOrder_next (encodeAppendsThePayload { s with src := some (srcRewind p), snk := some k₂ } (srcRewind p) k₂
          cs e hi hcv rfl rfl hc (hbytes ▸ hcs) he)
    _ = .next { s with src := some (srcAtEnd (srcRewind p)), snk := some (snkClose k₃) } :=
        runInOrder_next ((closePadsAndCloses.2 { s with src := some (srcAtEnd (srcRewind p)), snk := some k₃ } k₃ hi
          rfl).1 hc)
    _ = _ := by simp only [k₁, k₂, k₃, snkAppend_snkAppend]

/-! ## COMPRESS (R219) -/

/-- COMPRESS on a fresh source, with what its tree is good for. -/
theorem exec_compress_fresh {s : State} {d : List Byte} {k : Snk} (hi : s.runState = .idle)
    (hp : s.src = some { data := d, pos := 0, exh := false, rew := false }) (hk : s.snk = some k)
    (hc : k.closed = false) (hd : d.length + 1 < Config.countLimit s.params) :
    ∃ t f nt ct cs e, t.Carries d ∧
      exec .compress s = .next { codedState t { data := d, pos := 8 * d.length, exh := true, rew := true } f nt ct s with
        snk := some (snkClose (snkAppend (bits 32 s.params.magic.toNat ++ (t.header ++ (cs ++ e))) k)) } ∧
      treeAt nt Config.maxLevels (BitVec.ofNat 10 (t.size - 1)) = some t ∧
      codesOfBytes (t.codesFrom []) d = some cs ∧ t.codeOf 256 = some e ∧
      (∀ b : Byte, freqAt f b.toNat = d.count b) ∧ freqAt f 256 = 1 ∧ ∀ sym, tableGet ct sym = t.codeOf sym := by
  have hleft : bytesLeft { data := d, pos := 0, exh := false, rew := false } = d := bytesLeft_start rfl rfl
  obtain ⟨t, f, nt, ct, hcarries, hfirst, htree, hbytes, heos, hct⟩ := firstPass hi hp (by rw [hleft]; exact hd)
  rw [hleft] at hcarries hbytes
  obtain ⟨cs, hcs⟩ := hcarries.exists_codesOfBytes
  obtain ⟨e, he⟩ := HuffTree.exists_codeOf hcarries.eos
  refine ⟨t, f, nt, ct, cs, e, hcarries, ?_, htree, hcs, he, hbytes, heos, hct⟩
  rw [(compositesAreTheirPrimitives s k hi hk hc).1 _ hp rfl, hfirst]
  exact secondPass (s := codedState t _ f nt ct s) hi rfl rfl rfl rfl hk hc htree
    ((codesOfBytes_congr hct d).trans hcs) ((hct 256).trans he)

/-- Settles O48: `exec_compress_fresh`, the sink's bits written out. -/
theorem compressWritesTheWireFormat : Obligations.CompressWritesTheWireFormat := by
  intro s d k hi hp hk hc hd
  obtain ⟨t, f, nt, ct, cs, e, _, hexec, hfacts⟩ := exec_compress_fresh hi hp hk hc hd
  exact ⟨t, f, nt, ct, cs, e, _, hexec, rfl, hfacts⟩

/-! ## DECOMPRESS (R222) -/

/-- The state RDHDR leaves over the tree it placed. -/
def headerReadState (t : HuffTree) (p : Src) (nt : Table Node) (s : State) : State :=
  { s with
    src := some p, nt := nt, ncnt := BitVec.ofNat 10 t.size, root := 0, tv := true, cv := false, tsrc := true, hdr := [] }

/-- Settles O49: each of the four primitives ends well on the bits the one before left. -/
theorem decompressWritesTheBytes : Obligations.DecompressWritesTheBytes := by
  intro s p k l r cs ce rest w hi hp hk hc hbits hsize hcs heos hw
  let t := HuffTree.node l r
  let p₁ := srcAdvance 32 p
  let p₂ := srcAdvance t.header.length p₁
  let p₃ := srcAdvance ((cs.flatMap Prod.fst).length + ce.length) p₂
  let k₁ := snkAppend (sourceBits (cs.map Prod.snd)) k
  have hbits₁ : bitsLeft p₁ = t.header ++ (cs.flatMap Prod.fst ++ (ce ++ rest)) := by
    rw [bitsLeft_advance, hbits, List.drop_left' (bits_length _ _)]
  have hbits₂ : bitsLeft p₂ = cs.flatMap Prod.fst ++ (ce ++ rest) := by
    rw [bitsLeft_advance, hbits₁, List.drop_left]
  have hmagic := (rdmagicChecksTheMarker.2 s p hi hp).1 _ hbits
  obtain ⟨nt, hheader, htree, _, _⟩ := rdhdrRebuildsTheTree { s with src := some p₁ } p₁ t _ hi rfl hbits₁ hsize
  let s₂ := headerReadState t p₂ nt s
  obtain ⟨c, hfollow, hdecode⟩ := decodeWritesTheBytes s₂ p₂ k l r cs ce rest hi rfl rfl hk hc htree hbits₂ hcs heos
  let s₃ : State := { s₂ with src := some p₃, snk := some k₁, cur := c, dst := .atLeafEof }
  have hclose := (closePadsAndCloses.2 s₃ k₁ hi rfl).1 hc
  refine ⟨nt, c, ?_, htree, hfollow⟩
  calc exec .decompress s
    _ = runInOrder [.rdmagic, .rdhdr, .decode, .close] s := (compositesAreTheirPrimitives s k hi hk hc).2
    _ = runInOrder [.rdhdr, .decode, .close] { s with src := some p₁ } := runInOrder_next hmagic
    _ = runInOrder [.decode, .close] s₂ := runInOrder_next hheader
    _ = runInOrder [.close] s₃ := runInOrder_next hdecode
    _ = .next { s₃ with snk := some (snkClose k₁) } := runInOrder_next hclose
    _ = _ := by
      have hp₃ : p₃ = srcAdvance (32 + (t.header.length + ((cs.flatMap Prod.fst).length + ce.length))) p := by
        simp only [p₁, p₂, p₃, srcAdvance_advance]
      rw [hw, ← hp₃]
      rfl

/-! ## The round trip (R223) -/

/-- Settles O50: what COMPRESS wrote is the marker, the header and the codes DECOMPRESS asks for, over a tree that carries
`d`; whole bytes need no pad. -/
theorem roundTrip : Obligations.RoundTrip := by
  intro s d hi hp hk hd
  obtain ⟨t, f, nt, ct, cs, e, hcarries, hcompress, _, hcs, he, _⟩ := exec_compress_fresh hi hp hk rfl hd
  let k := snkAppend (bits 32 s.params.magic.toNat ++ (t.header ++ (cs ++ e))) { bits := [], closed := false }
  let z := bytesOf (snkClose k).bits
  have hz : sourceBits z = (snkClose k).bits :=
    sourceBits_bytesOf ((snkClose k).bits.length / 8) _ (by have := snkClose_whole_bytes k; omega)
  refine ⟨_, z, hcompress, hi, by rw [hz]; rfl, fun u hui hparams hup huk => ?_⟩
  obtain ⟨l, r, rfl⟩ := hcarries.inner
  obtain ⟨codes, rfl, rfl, hcodes⟩ := HuffTree.codes_of_codesOfBytes hcs
  have hbits : bitsLeft { data := z, pos := 0, exh := false, rew := false } =
      bits 32 u.params.magic.toNat ++ ((HuffTree.node l r).header ++ (codes.flatMap Prod.fst ++ (e ++
        List.replicate ((8 - k.bits.length % 8) % 8) false))) := by
    rw [bitsLeft_start rfl rfl, hz, hparams, snkClose_bits]
    simp only [k, snkAppend_bits, List.nil_append, List.append_assoc]
  obtain ⟨nt', c, hdecompress, _⟩ := decompressWritesTheBytes u _ _ l r codes e _ _ hui hup huk rfl hbits hcarries.size
    hcodes (HuffTree.leafAt_of_codeOf (x := 256) he) rfl
  exact ⟨_, hdecompress, hui, by simp⟩

end Machine

end Sys2Proof
end

section
/-! Proofs of the family 60_exceptions.md: fault entry, the phases of the faults, what FAULT ignores, and the host's
attaching and collecting (60_exceptions.md R230, R236, R237, R240, R250). -/

namespace Sys2Proof.Machine

/-! ## Fault entry (R236) -/

/-- Where a sink is attached, fault entry leaves `faultedState`, whatever was recorded before. -/
theorem takeFault_eq_faultedState {s : State} {k : Snk} (hk : s.snk = some k) (c : FaultCode) (op : Opcode) :
    takeFault c op s = .faulted (faultedState c op k s) := by
  rw [takeFault, hk]
  rfl

theorem closeIfOpen_of_closed {k : Snk} (h : k.closed = true) : closeIfOpen k = k := by
  rw [closeIfOpen, if_pos h]

theorem closeIfOpen_of_open {k : Snk} (h : k.closed = false) : closeIfOpen k = snkClose k := by
  simp [closeIfOpen, h]

/-- Settles O14: `faultedState` is the state after fault entry, and a raise runs no later statement. -/
theorem faultEntry : Obligations.FaultEntry := by
  intro c op s k hk
  have hraise := takeFault_eq_faultedState hk c op
  refine ⟨faultedState c op k s, ?next, rfl, fun he => ⟨if_pos he, if_pos he⟩, fun he => ⟨if_neg he, if_neg he⟩,
    fun hc => congrArg some (closeIfOpen_of_closed hc), fun hc => congrArg some (closeIfOpen_of_open hc),
    fun later => ?later⟩
  case next => rw [hraise, outcome_faulted]
  case later => rw [hraise, andThen_faulted, outcome_faulted]

/-! ## Faults by phase (R230, R237) -/

/-- R230's table: each fault a body raises, the phase it records, and the instructions that run that phase. -/
theorem faultsOf_table (i : Instr) : ∀ e ∈ faultsOf i,
    (e.1 = .formatError ∧ e.2 = 0xA ∧ i ∈ [Instr.rdmagic, .decompress]) ∨
    (e.1 = .streamCorrupt ∧ e.2 = 0xB ∧ i ∈ [Instr.rdhdr, .decompress]) ∨
    (e.1 = .badInput ∧ e.2 = 0xC ∧ i ∈ [Instr.decode, .decompress]) ∨
    (e.1 = .decodeCorrupt ∧ ((e.2 = 0xC ∧ i ∈ [Instr.decode, .decompress]) ∨
      (e.2 = 0x4 ∧ i ∈ [Instr.gencodes, .compress]))) ∨
    (e.1 = .capacityExceeded ∧ ((e.2 = 0x2 ∧ i ∈ [Instr.count, .compress]) ∨
      (e.2 = 0x3 ∧ i ∈ [Instr.build, .compress]))) ∨
    (e.1 = .treeOverflow ∧ e.2 = 0xB ∧ (i ∈ [Instr.rdhdr, .decompress] ∨ i.isCommand = false)) ∨
    (e.1 = .codeMissing ∧ e.2 = 0x8 ∧ i ∈ [Instr.encode, .compress]) := by
  cases i with
  | hdrLeaf sym =>
    intro e he
    obtain rfl := List.mem_singleton.1 he
    exact .inr (.inr (.inr (.inr (.inr (.inl ⟨rfl, rfl, .inr rfl⟩)))))
  | _ => decide

theorem treeOverflow_mem_faultsOf_token {i : Instr} (hc : i.isCommand = false) :
    (FaultCode.treeOverflow, (0xB : Opcode)) ∈ faultsOf i := by
  cases i with
  | hdrInternal => exact List.mem_singleton.2 rfl
  | hdrLeaf sym => exact List.mem_singleton.2 rfl
  | _ => cases hc

/-- Where no error was recorded, fault entry records its own (R236 step 2). -/
theorem faultedState_records {u : State} (he : u.err = .none) (c : FaultCode) (op : Opcode) (k : Snk) :
    (faultedState c op k u).err = c ∧ (faultedState c op k u).fop = op :=
  ⟨if_pos he, if_pos he⟩

/-- A new error is an IllegalCommand of acceptance, or one of the faults the body raises (R235, R237). -/
theorem exec_new_error {i : Instr} {s t : State} (h : exec i s = .next t) (he : s.err = .none) (ht : t.err ≠ .none) :
    (t.err = .illegalCommand ∧ t.fop = opcodeOf i ∧ i.isCommand = true) ∨ (t.err, t.fop) ∈ faultsOf i := by
  by_cases hn : i = .clear
  · subst hn
    rcases exec_clear_cases h with rfl | rfl
    · exact absurd he ht
    · exact absurd (clearCore_err s) ht
  · cases hc : i.isCommand with
    | true =>
      rcases exec_next_cases hc hn (fun _ => raises_body hc hn s) h with
        ⟨_, rfl⟩ | ⟨_, _, k, _, rfl⟩ | ⟨_, _, hdone | ⟨c, op, u, k, ⟨hmem, hu⟩, _, rfl⟩⟩
      · exact absurd he ht
      · obtain ⟨herr, hfop⟩ := faultedState_records he .illegalCommand (opcodeOf i) k
        exact .inl ⟨herr, hfop, rfl⟩
      · exact absurd (hdone.trans he) ht
      · obtain ⟨herr, hfop⟩ := faultedState_records (hu.trans he) c op k
        rw [herr, hfop]
        exact .inr hmem
    | false =>
      rcases token_next_cases hc h with
        ⟨_, rfl⟩ | ⟨_, ⟨k, _, rfl⟩ | ⟨_, ⟨_, rfl⟩ | ⟨sym, w, _, _, ⟨_, rfl⟩ | ⟨r, _, rfl⟩⟩⟩⟩
      · exact absurd he ht
      · obtain ⟨herr, hfop⟩ := faultedState_records he .treeOverflow 0xB k
        rw [herr, hfop]
        exact .inr (treeOverflow_mem_faultsOf_token hc)
      all_goals exact absurd he ht

/-- Settles O15: a new error is acceptance's or stands in `faultsOf`, which R230's table covers. -/
theorem faultsByPhase : Obligations.FaultsByPhase := fun i _ _ h he ht =>
  (exec_new_error h he ht).imp_right (faultsOf_table i _)

/-! ## In FAULT (R240) -/

theorem illegalWord_fault {s : State} (w : Word) (hr : s.runState = .fault) : illegalWord w s = .done s := by
  rw [illegalWord, hr]

/-- In FAULT a write of CMD has no effect, unless the word is CLEAR's (R215, R240). -/
theorem step_hwrite_cmd_fault {s : State} {w : Word} {rest : List HostAction} (hr : s.runState = .fault)
    (hw : w ≠ encodeCommand .clear) (hh : s.host = .hwrite 0 w :: rest) : step s = .next { s with host := rest } := by
  have hb : s.runState ≠ .busy := by simp [hr]
  cases hd : decodeCommand w with
  | ok i =>
    obtain ⟨hc, hi⟩ := eq_encode_of_decode hd
    have hn : i ≠ .clear := fun h => hw (h ▸ hi)
    rw [step_command hb hh hd, exec_in_fault (s := { s with host := rest }) hc hn hr]
  | error r => rw [step_illegalWord hb hh hd, illegalWord_fault (s := { s with host := rest }) w hr, outcome_done]

/-- The run adds one word to the answers, draws free words at most, and changes nothing else. -/
def AnswersAWord (s : State) (r : Run) : Prop :=
  ∃ v d, r = .done { s with replies := s.replies ++ [.word v], draws := d }

theorem answer_answersAWord (v : Word) (s : State) : AnswersAWord s (answer (.word v) s) := ⟨v, s.draws, rfl⟩

theorem answerFree_answersAWord (mask : Word) (s : State) : AnswersAWord s (answerFree mask s) :=
  ⟨Config.freeWord s.draws &&& mask, s.draws + 1, rfl⟩

/-- A read of a mapped readable cell answers a word, where the table holds no entry a free one (R62, R63, R37). -/
theorem hostRead_answersAWord {idx : WinIdx} (s : State) (hcmd : windowCell idx ≠ .cmd)
    (hmap : windowCell idx ≠ .unmapped) : AnswersAWord s (hostRead idx s) := by
  rw [hostRead]
  cases hc : windowCell idx with
  | cmd => exact absurd hc hcmd
  | unmapped => exact absurd hc hmap
  | status | root | ncnt | cur | freq => exact answer_answersAWord _ s
  | nodeFields | nodeWeight | codeHead | codeWord =>
    dsimp only
    split
    · exact answer_answersAWord _ s
    · exact answerFree_answersAWord _ s

/-- Settles O10: in FAULT acceptance and FREQ writes drop what comes, reads are answered as between commands, and CLEAR
and reset both lead to `clearCore`. -/
theorem faultIsLeftByClearOrReset : Obligations.FaultIsLeftByClearOrReset := by
  intro s rest hr
  have hb : s.runState ≠ .busy := by simp [hr]
  refine ⟨fun w hw hh => step_hwrite_cmd_fault hr hw hh, fun idx w hlo hhi hh => ?freq,
    fun idx hcmd hmap hh => ?read, fun hh => ?leave⟩
  case freq =>
    have hidx : idx.toNat = 0x0100 + (idx.toNat - 0x0100) := by omega
    rw [step_hwrite_freq hb (by omega) hidx hh, hostWriteFreq_fault (s := { s with host := rest }) _ w hr, outcome_done]
  case read =>
    obtain ⟨v, d, hread⟩ := hostRead_answersAWord { s with host := rest } hcmd hmap
    exact ⟨v, d, by rw [step_hread hb hh, hread, outcome_done]⟩
  case leave =>
    have hclear : step s = .next (clearCore { s with host := rest }) := by
      rcases hh with hh | hh
      · rw [step_command hb hh (decodeCommand_encodeCommand (i := .clear) rfl)]
        exact exec_clear hb
      · exact step_reset hh
    exact ⟨_, hclear, clearCore_runState _, clearCore_err _⟩

/-! ## Attaching and collecting (R250, R38, R69) -/

theorem hostCollect_closed {s : State} {k : Snk} (hk : s.snk = some k) (hc : k.closed = true) :
    hostCollect s = answer (.bytes (bytesOf k.bits)) s := by
  rw [hostCollect, hk]
  exact if_pos hc

/-- Settles O21: each is the host port's alone, and the bytes collected are `bytesOf` the sink's bits. -/
theorem hostAttachesAndCollects : Obligations.HostAttachesAndCollects := by
  intro s rest hb
  refine ⟨fun d hh => step_host hb hh, fun hh => step_host hb hh, fun k hk hc hh => ?collect⟩
  case collect =>
    refine ⟨bytesOf k.bits, ?_, bytesOf_length k.bits, bytesOf_getElem k.bits⟩
    rw [step_host hb hh, hostEvent, Event.outcome, hostCollect_closed (s := { s with host := rest }) hk hc]
    rfl

end Sys2Proof.Machine
end

section
/-! Proofs of the family 70_reset_and_hazards.md: a reset at any time, and that no step stops with a fault of the model
(70_reset_and_hazards.md R260, R261, R270, R271). -/

namespace Sys2Proof.Machine

/-! ## A command along its primitives -/

/-- What stands accepted with its ports attached is granted (R216). -/
theorem Grants.of_accepted {q : Prereq} {s : State} (hi : s.runState = .idle) (hb : prereqBroken q s = false)
    (hp : prereqPortAbsent q s = none) : Grants q s := by
  obtain ⟨htree, hcodes, hsink, hsource⟩ : (q.treeValid = true → s.tv = true) ∧ (q.codesValid = true → s.cv = true) ∧
      (q.sinkOpen = true → mirrorSnkc s = false) ∧ (q.notRewound = true → mirrorRwd s = false) := by
    simpa [prereqBroken, and_assoc] using hb
  have hports : (q.sinkOpen = true → s.snk ≠ none) ∧ (q.notRewound = true → s.src ≠ none) := by
    simpa [prereqPortAbsent, ite_eq_iff] using hp
  refine ⟨hi, htree, hcodes, fun hq => ?_, fun hq => ?_⟩
  · obtain ⟨k, hk⟩ := Option.ne_none_iff_exists'.1 (hports.1 hq)
    exact ⟨k, hk, by simpa [mirrorSnkc, hk] using hsink hq⟩
  · obtain ⟨p, hp⟩ := Option.ne_none_iff_exists'.1 (hports.2 hq)
    exact ⟨p, hp, by simpa [mirrorRwd, hp] using hsource hq⟩

/-- A command but CLEAR is made of primitives, each granted its prerequisites where it is reached. -/
theorem primitivesOf_accepted {i : Instr} (hc : i.isCommand = true) (hn : i ≠ .clear) :
    (∀ j ∈ primitivesOf i, j ∈ primitives) ∧ accepts (prereqOf i) (primitivesOf i) = true := by
  cases i with
  | clear => exact absurd rfl hn
  | hdrInternal | hdrLeaf sym => cases hc
  | _ => decide

/-- The body of a command but CLEAR is the bodies of its primitives (R218, R221). -/
theorem bodyOf_eq_runBodies {i : Instr} (hc : i.isCommand = true) (hn : i ≠ .clear) (s : State) :
    bodyOf i s = runBodies (primitivesOf i) s := by
  cases i with
  | clear => exact absurd rfl hn
  | compress => exact runCompress_eq s
  | decompress => exact runDecompress_eq s
  | hdrInternal | hdrLeaf sym => cases hc
  | _ => exact (andThen_done_right _).symm

/-- Everything a command but CLEAR can do: no effect outside IDLE, an IllegalCommand, a refusal, or the bodies of
its primitives with its prerequisites granted (R215, R216). -/
theorem exec_primitives_cases {i : Instr} (hc : i.isCommand = true) (hn : i ≠ .clear) (s : State) :
    (s.runState ≠ .idle ∧ exec i s = .next s) ∨
    (s.runState = .idle ∧ prereqBroken (prereqOf i) s = true ∧
      exec i s = (takeFault .illegalCommand (opcodeOf i) s).outcome) ∨
    (∃ r, exec i s = .refused r) ∨
    (Grants (prereqOf i) s ∧ exec i s = (runBodies (primitivesOf i) s).outcome) := by
  rw [exec_command hc hn, ← bodyOf_eq_runBodies hc hn]
  by_cases hi : s.runState = .idle
  · cases hb : prereqBroken (prereqOf i) s with
    | true => exact .inr (.inl ⟨hi, rfl, by rw [accept_illegal hi hb]⟩)
    | false =>
      cases hp : prereqPortAbsent (prereqOf i) s with
      | some r => exact .inr (.inr (.inl ⟨r, by simp [accept, hi, hb, hp]⟩))
      | none => exact .inr (.inr (.inr ⟨.of_accepted hi hb hp, by rw [accept_runs hi hb hp]⟩))
  · exact .inl ⟨hi, by rw [accept_not_idle hi, outcome_done]⟩

/-! ## No fault of the model (log entry 8) -/

/-- A primitive stops only where it asks for a tree and NT holds none under ROOT (R30, R160). -/
theorem no_tree_of_stopped {j : Instr} (hj : j ∈ primitives) {s : State} {f : Fault} (h : bodyOf j s = .stopped f) :
    (prereqOf j).treeValid = true ∧ rootTree s = none := by
  have hf : (bodyOf j s).outcome = .fault f := by rw [h, outcome_stopped]
  simp only [primitives, List.mem_cons, List.not_mem_nil, or_false] at hj
  rcases hj with rfl | rfl | rfl | rfl | rfl | rfl | rfl | rfl | rfl | rfl | rfl
  · exact ((runCount_ends s).fault hf).elim
  · exact ((runBuild_ends s).fault hf).elim
  · exact ⟨rfl, (runGencodes_ends s).fault hf⟩
  · exact ((runWrmagic_ends s).fault hf).elim
  · exact ⟨rfl, (runWrhdr_ends s).fault hf⟩
  · exact ((runRewind_ends s).fault hf).elim
  · exact ((runEncode_ends s).fault hf).elim
  · exact ((runClose_ends s).fault hf).elim
  · exact ((runRdmagic_ends s).fault hf).elim
  · exact ((runRdhdr_ends s).fault hf).elim
  · exact ⟨rfl, (runDecode_ends s).fault hf⟩

/-- An owned tree is a tree (R30). -/
theorem TreeOwned.rootTree_ne_none {s : State} (h : TreeOwned s) (htv : s.tv = true) : rootTree s ≠ none := by
  obtain ⟨idx, hidx, _⟩ := h htv
  obtain ⟨t, ht, _⟩ := treeAt_of_nodesAt hidx
  simp [rootTree, ht]

/-- While the tree is owned, primitives that are granted their prerequisites do not stop (R270, R271). -/
theorem runBodies_ne_stopped {l : List Instr} (hl : ∀ j ∈ l, j ∈ primitives) (f : Fault) : ∀ {q : Prereq} {s : State},
    Grants q s → accepts q l = true → TreeOwned s → runBodies l s ≠ .stopped f := by
  induction l with
  | nil => intro q s _ _ _; exact nofun
  | cons j rest ih =>
    intro q s hq h hs hstop
    obtain ⟨hj, hrest⟩ := List.forall_mem_cons.1 hl
    obtain ⟨hcovers, haccepts⟩ := Bool.and_eq_true_iff.1 h
    rcases andThen_stopped_iff.1 hstop with hbody | ⟨u, hbody, hlater⟩
    · obtain ⟨htree, hnone⟩ := no_tree_of_stopped hj hbody
      exact hs.rootTree_ne_none ((hq.of_covers hcovers).tree htree) hnone
    · exact ih hrest (hq.after hj hbody) haccepts ((treeOwned_body j hj s hs).of_eq_done hbody) hlater

theorem takeFault_outcome_ne_fault (c : FaultCode) (op : Opcode) (s : State) (f : Fault) :
    (takeFault c op s).outcome ≠ .fault f :=
  fun h => takeFault_ne_stopped c op s f (outcome_fault_iff.1 h)

/-- While the tree is owned no command stops with a fault of the model. -/
theorem exec_ne_fault {i : Instr} (hc : i.isCommand = true) {s : State} (hb : s.runState ≠ .busy) (hs : TreeOwned s)
    (f : Fault) : exec i s ≠ .fault f := by
  by_cases hn : i = .clear
  · rw [hn, exec_clear hb]; exact nofun
  · rcases exec_primitives_cases hc hn s with ⟨_, he⟩ | ⟨_, _, he⟩ | ⟨r, he⟩ | ⟨hg, he⟩ <;> rw [he]
    · exact nofun
    · exact takeFault_outcome_ne_fault _ _ s f
    · exact nofun
    · obtain ⟨hl, haccepts⟩ := primitivesOf_accepted hc hn
      exact fun h => runBodies_ne_stopped hl f hg haccepts hs (outcome_fault_iff.1 h)

theorem abandonCommand_ne_fault {i : Instr} {s : State} {f : Fault} (n : Nat) (h : exec i s ≠ .fault f) :
    abandonCommand i n s ≠ .fault f := by
  rcases abandonCommand_cases i n s with ⟨_, he⟩ | ⟨g, hg, he⟩ | ⟨r, _, he⟩ <;> rw [he]
  · exact nofun
  · rw [← hg]; exact h
  · exact nofun

theorem illegalWord_ne_stopped (w : Word) (s : State) (f : Fault) : illegalWord w s ≠ .stopped f := by
  rw [illegalWord]
  cases s.runState with
  | idle => exact takeFault_ne_stopped _ _ s f
  | busy | fault => exact nofun

theorem abandonIllegal_ne_stopped (w : Word) (n : Nat) (s : State) (f : Fault) : abandonIllegal w n s ≠ .stopped f := by
  rw [abandonIllegal]
  cases h : illegalWord w s with
  | stopped g => exact absurd h (illegalWord_ne_stopped w s g)
  | done t | faulted t | refused r => exact nofun

theorem hostRead_ne_stopped (idx : WinIdx) (s : State) (f : Fault) : hostRead idx s ≠ .stopped f := by
  by_cases hno : windowCell idx = .cmd ∨ windowCell idx = .unmapped
  · rw [hostRead_refused s hno]; exact nofun
  · obtain ⟨hcmd, hmap⟩ := not_or.1 hno
    obtain ⟨v, d, h⟩ := hostRead_answersAWord s hcmd hmap
    rw [h]; exact nofun

theorem hostWriteFreq_ne_stopped (sym : Nat) (w : Word) (s : State) (f : Fault) :
    hostWriteFreq sym w s ≠ .stopped f := by
  rw [hostWriteFreq]
  cases s.runState <;> exact nofun

theorem hostCollect_ne_stopped (s : State) (f : Fault) : hostCollect s ≠ .stopped f := by
  rw [hostCollect]
  cases s.snk with
  | none => exact nofun
  | some k => cases hc : k.closed <;> simp [hc, answer]

/-- A write of the window stops only where the command it issues does (R61, R65). -/
theorem hostWrite_ne_fault {s : State} {f : Fault} (hexec : ∀ i, i.isCommand = true → exec i s ≠ .fault f)
    (idx : WinIdx) (w : Word) : (hostWrite idx w s).outcome ≠ .fault f := by
  rw [hostWrite]
  cases windowCell idx with
  | cmd =>
    cases hd : decodeCommand w with
    | ok i => exact hexec i (eq_encode_of_decode hd).1
    | error r => exact fun h => illegalWord_ne_stopped w s f (outcome_fault_iff.1 h)
  | freq sym => exact fun h => hostWriteFreq_ne_stopped sym w s f (outcome_fault_iff.1 h)
  | _ => exact nofun

/-- A write of CMD that a reset cuts short stops only where its command does (R260). -/
theorem hostCmdReset_ne_fault {s : State} {f : Fault} (hexec : ∀ i, i.isCommand = true → exec i s ≠ .fault f) (w : Word)
    (n : Nat) : (hostCmdReset w n s).outcome ≠ .fault f := by
  rw [hostCmdReset]
  cases hd : decodeCommand w with
  | ok i => exact abandonCommand_ne_fault n (hexec i (eq_encode_of_decode hd).1)
  | error r => exact fun h => abandonIllegal_ne_stopped w n s f (outcome_fault_iff.1 h)

/-- Settles O59: the commands are made of primitives that stop only without a tree, the host port never stops itself. -/
theorem noModelFault : Obligations.NoModelFault := by
  intro s hbetween hs f
  have hb := not_busy_of_between hbetween
  cases hh : s.host with
  | nil => rw [step_wait hb hh]; exact nofun
  | cons a rest =>
    have hexec : ∀ i, i.isCommand = true → exec i { s with host := rest } ≠ .fault f := fun i hc =>
      exec_ne_fault (s := { s with host := rest }) hc hb hs f
    rw [step_host hb hh]
    cases a with
    | reset | attachSrc d | attachSnk => exact nofun
    | hwrite idx w => exact hostWrite_ne_fault hexec idx w
    | hread idx => exact fun h => hostRead_ne_stopped idx _ f (outcome_fault_iff.1 h)
    | collect => exact fun h => hostCollect_ne_stopped _ f (outcome_fault_iff.1 h)
    | cmdReset w n => exact hostCmdReset_ne_fault hexec w n

/-! ## The port calls of a command (R261) -/

/-- The calls lead the ports of `s` to those of `t`. -/
structure CallsLead (cs : List PortCall) (s t : State) : Prop where
  src : (playCalls cs s).src = t.src
  snk : (playCalls cs s).snk = t.snk

theorem CallsLead.append {a b : List PortCall} {s t u : State} (h : CallsLead a s t) (h' : CallsLead b t u) :
    CallsLead (a ++ b) s u := by
  obtain ⟨hsrc, hsnk⟩ := playCalls_congr b h.src h.snk
  have happend := playCalls_append a b s
  exact ⟨(congrArg State.src happend).trans (hsrc.trans h'.src), (congrArg State.snk happend).trans (hsnk.trans h'.snk)⟩

/-- Calls that lead to a state lead to every state with its ports. -/
theorem CallsLead.of_eq {cs : List PortCall} {s t u : State} (h : playCalls cs s = u) (hsrc : u.src = t.src)
    (hsnk : u.snk = t.snk) : CallsLead cs s t :=
  ⟨h ▸ hsrc, h ▸ hsnk⟩

/-- Fault entry's close leads to the ports fault entry leaves (R236). -/
theorem snkClose_leads_to_faulted {s : State} {k : Snk} (hk : s.snk = some k) (c : FaultCode) (op : Opcode) :
    CallsLead [.snkClose] s (faultedState c op k s) :=
  ⟨rfl, by simp [playCall, hk, faultedState, closeIfOpen]⟩

/-- A body's calls lead to the ports of its end, or to those where its fault is raised. -/
def CallsFollow (cs : List PortCall) (s : State) (r : Run) : Prop :=
  Ends (CallsLead cs s) (fun _ _ u => CallsLead cs s u) (fun _ => True) r

theorem state_eq_withSource {s : State} {p : Src} (h : s.src = some p) : { s with src := some p } = s := by
  rw [← h]

theorem state_eq_withSink {s : State} {k : Snk} (h : s.snk = some k) : { s with snk := some k } = s := by
  rw [← h]

theorem withPorts_eq {s : State} {p : Src} {k : Snk} (hp : s.src = some p) (hk : s.snk = some k) :
    withPorts s p k = s := by
  rw [withPorts, ← hp, ← hk]

theorem countCalls_follow (s : State) : CallsFollow (bodyCalls .count s) s (runCount s) := by
  unfold runCount
  rcases withSource_cases s _ with ⟨_, h⟩ | ⟨p, hp, h⟩ <;> rw [h]
  · exact .refused
  · have hcalls : ∀ p' f, _ → playCalls (bodyCalls .count s) s = { s with src := some p' } := fun p' f hl => by
      have hplay := countCalls_play (Config.countLimit s.params) s (p.data.length + 1) p p' [] f hl
      simpa only [bodyCalls, hp, state_eq_withSource hp] using hplay
    cases hl : countLoop (Config.countLimit s.params) (p.data.length + 1) p [] with
    | exhausted p' f => exact .done (.of_eq (hcalls p' f (.inl hl)) rfl rfl)
    | full p' f => exact .raised (.of_eq (hcalls p' f (.inr hl)) rfl rfl)
    | bound => exact .stopped trivial

theorem wrmagicCalls_follow (s : State) : CallsFollow (bodyCalls .wrmagic s) s (runWrmagic s) := by
  unfold runWrmagic
  rcases withSink_cases s _ with ⟨r, h⟩ | ⟨k, hk, hc, h⟩ <;> rw [h]
  · exact .refused
  · exact .done ⟨rfl, by simp [bodyCalls, playCall, hk, hc]⟩

theorem wrhdrCalls_follow (s : State) : CallsFollow (bodyCalls .wrhdr s) s (runWrhdr s) := by
  unfold runWrhdr
  rcases withSink_cases s _ with ⟨r, h⟩ | ⟨k, hk, hc, h⟩ <;> rw [h]
  · exact .refused
  · cases he : emitHeader s.nt Config.maxLevels s.root k with
    | ok k' =>
      obtain ⟨hplay, _⟩ := emitCalls_play s.nt s Config.maxLevels s.root k k' hc he
      rw [state_eq_withSink hk] at hplay
      exact .done (.of_eq hplay rfl rfl)
    | error f => exact .stopped trivial

/-- REWIND's one call rewinds, the source not being rewound (R75, R216). -/
theorem rewindCalls_follow {s : State} (hr : mirrorRwd s = false) :
    CallsFollow (bodyCalls .rewind s) s (runRewind s) := by
  unfold runRewind
  rcases withSource_cases s _ with ⟨_, h⟩ | ⟨p, hp, h⟩ <;> rw [h]
  · exact .refused
  · have hrew : p.rew = false := by simpa [mirrorRwd, hp] using hr
    exact .done ⟨by simp [bodyCalls, playCall, hp, hrew], rfl⟩

theorem closeCalls_follow (s : State) : CallsFollow (bodyCalls .close s) s (runClose s) := by
  unfold runClose
  rcases withSink_cases s _ with ⟨r, h⟩ | ⟨k, hk, hc, h⟩ <;> rw [h]
  · exact .refused
  · exact .done ⟨rfl, by simp [bodyCalls, playCall, hk, hc]⟩

theorem rdmagicCalls_follow (s : State) : CallsFollow (bodyCalls .rdmagic s) s (runRdmagic s) := by
  unfold runRdmagic
  rcases withSource_cases s _ with ⟨_, h⟩ | ⟨p, hp, h⟩ <;> rw [h]
  · exact .refused
  · have hplay : playCalls (bodyCalls .rdmagic s) s = { s with src := some (srcRead 32 p).2 } := by
      simp [bodyCalls, playCall, hp]
    rcases hread : srcRead 32 p with ⟨v, p'⟩
    rw [hread] at hplay
    cases v with
    | none => exact .raised (.of_eq hplay rfl rfl)
    | some v =>
      dsimp only
      split
      · exact .done (.of_eq hplay rfl rfl)
      · exact .raised (.of_eq hplay rfl rfl)

theorem encodeCalls_follow (s : State) : CallsFollow (bodyCalls .encode s) s (runEncode s) := by
  unfold runEncode
  rcases withSink_cases s _ with ⟨r, h⟩ | ⟨k, hk, hc, h⟩ <;> rw [h]
  · exact .refused
  · rcases withSource_cases s _ with ⟨_, h⟩ | ⟨p, hp, h⟩ <;> rw [h]
    · exact .refused
    · have hplay := fun p' k' => encodeCalls_play s.ct s (p.data.length + 1) p p' k k' hc
      rw [withPorts_eq hp hk] at hplay
      have hcalls : bodyCalls .encode s = encodeCalls s.ct (p.data.length + 1) p := by simp only [bodyCalls, hp]
      rw [hcalls]
      cases hl : encodeLoop s.ct (p.data.length + 1) p k with
      | missing p' k' => exact .raised (.of_eq ((hplay p' k').1 hl) rfl rfl)
      | bound => exact .stopped trivial
      | exhausted p' k' =>
        have hend := (hplay p' k').2 hl
        cases heos : tableGet s.ct Config.eos with
        | none =>
          rw [heos] at hend
          exact .raised (.of_eq hend rfl rfl)
        | some c =>
          rw [heos] at hend
          exact .done (.of_eq hend rfl rfl)

theorem decodeCalls_follow (s : State) : CallsFollow (bodyCalls .decode s) s (runDecode s) := by
  unfold runDecode
  rcases withSink_cases s _ with ⟨r, h⟩ | ⟨k, hk, hc, h⟩ <;> rw [h]
  · exact .refused
  · rcases withSource_cases s _ with ⟨_, h⟩ | ⟨p, hp, h⟩ <;> rw [h]
    · exact .refused
    · have hplay := fun p' k' c =>
        decodeCalls_play s.nt s.root s (8 * p.data.length + 1) p p' k k' s.root c hc
      rw [withPorts_eq hp hk] at hplay
      have hcalls : bodyCalls .decode s = decodeCalls s.nt s.root (8 * p.data.length + 1) p s.root := by
        simp only [bodyCalls, hp]
      rw [hcalls]
      cases hl : decodeLoop s.nt s.root (8 * p.data.length + 1) p k s.root with
      | eof p' k' c => exact .done (.of_eq (hplay p' k' c (.inl hl)) rfl rfl)
      | badInput p' k' c => exact .raised (.of_eq (hplay p' k' c (.inr (.inl hl))) rfl rfl)
      | corrupt p' k' c d => exact .raised (.of_eq (hplay p' k' c (.inr (.inr ⟨d, hl⟩))) rfl rfl)
      | stopped f => exact .stopped trivial

theorem rdhdrCalls_follow (s : State) : CallsFollow (bodyCalls .rdhdr s) s (runRdhdr s) := by
  have hplay : ∀ t, runRdhdr s = .done t ∨ runRdhdr s = .faulted t →
      playCalls (bodyCalls .rdhdr s) s = { s with src := t.src } := fun t h =>
    headerCalls_play (Config.nodeCap + 1) (openHeader s) s t rfl h
  rcases frame_rdhdr s with ⟨t, he, hf, _⟩ | ⟨c, op, u, he, hf⟩ | ⟨f, he, _⟩ | ⟨r, he⟩
  · exact .inl ⟨t, he, .of_eq (hplay t (.inl he)) rfl (hf.snk.resolve_left nofun).symm⟩
  · rcases takeFault_cases c op u with ⟨_, hu⟩ | ⟨k, _, hu⟩
    · rw [he, hu]; exact .refused
    · exact .inr (.inl ⟨c, op, u, he, .of_eq (hplay _ (.inr (he.trans hu))) rfl (hf.snk.resolve_left nofun).symm⟩)
  · rw [he]; exact .stopped trivial
  · rw [he]; exact .refused

/-- A primitive that writes neither port calls neither. -/
theorem noCalls_follow {j : Instr} (hj : j ∈ primitives) {s : State} (hcalls : bodyCalls j s = [])
    (hsrc : (writesOf j).src = false) (hsnk : (writesOf j).snk = false) :
    CallsFollow (bodyCalls j s) s (bodyOf j s) := by
  rw [hcalls]
  exact keeps_of_frame hj fun t ht =>
    ⟨(ht.src.resolve_left (by simp [hsrc])).symm, (ht.snk.resolve_left (by simp [hsnk])).symm⟩

/-- The calls of every primitive that is granted its prerequisites lead where its body leads the ports (R76, R261). -/
theorem bodyCalls_follow {j : Instr} (hj : j ∈ primitives) {s : State} (h : Grants (prereqOf j) s) :
    CallsFollow (bodyCalls j s) s (bodyOf j s) := by
  have hj' := hj
  simp only [primitives, List.mem_cons, List.not_mem_nil, or_false] at hj'
  rcases hj' with rfl | rfl | rfl | rfl | rfl | rfl | rfl | rfl | rfl | rfl | rfl
  · exact countCalls_follow s
  · exact noCalls_follow hj rfl rfl rfl
  · exact noCalls_follow hj rfl rfl rfl
  · exact wrmagicCalls_follow s
  · exact wrhdrCalls_follow s
  · exact rewindCalls_follow (prepared_of_accepted h.prereqBroken_eq)
  · exact encodeCalls_follow s
  · exact closeCalls_follow s
  · exact rdmagicCalls_follow s
  · exact rdhdrCalls_follow s
  · exact decodeCalls_follow s

theorem callsInOrder_next {j : Instr} {s t : State} (rest : List Instr) (h : exec j s = .next t)
    (ht : t.runState ≠ .fault) : callsInOrder (j :: rest) s = bodyCalls j s ++ callsInOrder rest t := by
  rw [callsInOrder, h]
  exact congrArg _ (if_neg ht)

theorem callsInOrder_faulted {j : Instr} {s t : State} (rest : List Instr) (h : exec j s = .next t)
    (ht : t.runState = .fault) : callsInOrder (j :: rest) s = bodyCalls j s ++ [.snkClose] := by
  rw [callsInOrder, h]
  exact congrArg _ (if_pos ht)

/-- A run that faulted is the fault entry of a fault it raised (R236). -/
theorem Ends.of_faulted {P : State → Prop} {Q : FaultCode → Opcode → State → Prop} {R : Fault → Prop} {t : State}
    (h : Ends P Q R (.faulted t)) : ∃ c op u k, Q c op u ∧ u.snk = some k ∧ t = faultedState c op k u := by
  rcases h with ⟨u, he, _⟩ | ⟨c, op, u, he, hq⟩ | ⟨f, he, _⟩ | ⟨x, he⟩
  · cases he
  · obtain ⟨k, hk, ht⟩ := takeFault_faulted he.symm
    exact ⟨c, op, u, k, hq, hk, ht⟩
  · cases he
  · cases he

/-- Primitive after primitive, each granted its prerequisites, the calls lead where the bodies lead the ports (R78,
R236). -/
theorem callsInOrder_lead {l : List Instr} (hl : ∀ j ∈ l, j ∈ primitives) {t : State} : ∀ {q : Prereq} {s : State},
    Grants q s → accepts q l = true → (runBodies l s).outcome = .next t → CallsLead (callsInOrder l s) s t := by
  induction l with
  | nil =>
    intro q s _ _ h
    injection h with h
    exact h ▸ ⟨rfl, rfl⟩
  | cons j rest ih =>
    intro q s hq h ht
    obtain ⟨hj, hrest⟩ := List.forall_mem_cons.1 hl
    obtain ⟨hcovers, haccepts⟩ := Bool.and_eq_true_iff.1 h
    have hgrants := hq.of_covers hcovers
    have hfollow := bodyCalls_follow hj hgrants
    have hexec := hgrants.exec_eq hj
    rw [runBodies] at ht
    cases hbody : bodyOf j s with
    | done u =>
      rw [hbody] at hexec ht
      have hafter := hq.after hj hbody
      rw [callsInOrder_next rest hexec (by rw [hafter.idle]; decide)]
      exact (hfollow.of_eq_done hbody).append (ih hrest hafter haccepts ht)
    | faulted u =>
      rw [hbody] at hexec ht
      obtain rfl : u = t := Host.Outcome.next.inj ht
      obtain ⟨c, op, v, k, hlead, hk, rfl⟩ := Ends.of_faulted (hbody ▸ hfollow)
      rw [callsInOrder_faulted rest hexec rfl]
      exact hlead.append (snkClose_leads_to_faulted hk c op)
    | stopped f => rw [hbody] at ht; cases ht
    | refused r => rw [hbody] at ht; cases ht

theorem portCalls_not_idle (i : Instr) {s : State} (hi : s.runState ≠ .idle) : portCalls i s = [] := by
  rw [portCalls]
  cases hr : s.runState with
  | idle => exact absurd hr hi
  | busy | fault => rfl

theorem portCalls_illegal {i : Instr} {s : State} (hi : s.runState = .idle)
    (hb : prereqBroken (prereqOf i) s = true) : portCalls i s = [.snkClose] := by
  rw [portCalls, hi]
  exact if_pos hb

theorem portCalls_accepted {i : Instr} {s : State} (hi : s.runState = .idle)
    (hb : prereqBroken (prereqOf i) s = false) : portCalls i s = callsInOrder (primitivesOf i) s := by
  rw [portCalls, hi]
  exact if_neg (by simp [hb])

/-- CLEAR calls no port (R225). -/
theorem portCalls_clear (s : State) : portCalls .clear s = [] := by
  by_cases hi : s.runState = .idle
  · have hexec : exec .clear s = .next (clearCore s) := exec_clear (by simp [hi])
    rw [portCalls_accepted hi rfl, primitivesOf, callsInOrder_next [] hexec (by simp)]
    rfl
  · exact portCalls_not_idle .clear hi

/-- All of a command's calls lead the ports to where the whole command leaves them (R260, R261). -/
theorem portCalls_lead {i : Instr} (hc : i.isCommand = true) {s t : State} (h : exec i s = .next t) :
    CallsLead (portCalls i s) s t := by
  by_cases hn : i = .clear
  · subst hn
    rw [portCalls_clear]
    rcases exec_clear_cases h with rfl | rfl <;> exact ⟨rfl, rfl⟩
  · rcases exec_primitives_cases hc hn s with ⟨hi, he⟩ | ⟨hi, hb, he⟩ | ⟨r, he⟩ | ⟨hg, he⟩ <;> rw [he] at h
    · obtain rfl : s = t := Host.Outcome.next.inj h
      rw [portCalls_not_idle i hi]
      exact ⟨rfl, rfl⟩
    · rw [portCalls_illegal hi hb]
      obtain ⟨k, hk, rfl⟩ := takeFault_faulted ((outcome_next_iff.1 h).resolve_left (takeFault_ne_done _ _ s t))
      exact snkClose_leads_to_faulted hk _ _
    · cases h
    · obtain ⟨hl, haccepts⟩ := primitivesOf_accepted hc hn
      rw [portCalls_accepted hg.idle hg.prereqBroken_eq]
      exact callsInOrder_lead hl hg haccepts h

/-! ## Reset at any time (R260, R250) -/

/-- A reset after some port calls leaves the ports those calls left and all else at its reset value (R261). -/
theorem clearCore_playCalls (cs : List PortCall) (s : State) :
    clearCore (playCalls cs s) = { clearCore s with src := (playCalls cs s).src, snk := (playCalls cs s).snk } := by
  obtain ⟨p, k, h⟩ := playCalls_ports cs s
  rw [h]
  rfl

/-- A word that is no command, cut short by a reset: the one call there can be is fault entry's close (R102, R236). -/
theorem abandonIllegal_idle {s : State} {k : Snk} (w : Word) (n : Nat) (hi : s.runState = .idle) (hk : s.snk = some k) :
    abandonIllegal w n s = .done { clearCore s with snk := some (if n = 0 then k else closeIfOpen k) } := by
  have hraise : illegalWord w s = .faulted (faultedState .illegalCommand (opField w) k s) := by
    rw [illegalWord, hi]
    exact takeFault_eq_faultedState hk _ _
  rw [abandonIllegal, hraise]
  dsimp only
  rw [clearCore_playCalls]
  cases n with
  | zero => rw [if_pos rfl, ← hk]; rfl
  | succ n =>
    obtain ⟨hsrc, hsnk⟩ := snkClose_leads_to_faulted hk .illegalCommand (opField w)
    rw [List.take_succ_cons, List.take_nil, hsrc, hsnk, if_neg n.succ_ne_zero]
    rfl

/-- Settles O13: every reset is `clearCore`, after the calls a command had made; all of them lead where it leads. -/
theorem resetAtAnyTime : Obligations.ResetAtAnyTime := by
  refine ⟨fun s rest hh => step_reset hh, fun s u i w n rest hb hh hd hnext hu => ?command,
    fun i s t hc h => ?all, fun s k w r n rest hi hk hh hd => ?illegal, fun s hb hh => step_wait hb hh⟩
  case command =>
    obtain ⟨t, ht⟩ := hnext
    rw [step_cmdReset_command hb hh hd, abandonCommand, ht]
    exact congrArg Host.Outcome.next (hu ▸ clearCore_playCalls _ { s with host := rest })
  case all =>
    have hlead := portCalls_lead hc h
    exact ⟨hlead.src, hlead.snk⟩
  case illegal =>
    have hstep : step s = (abandonIllegal w n { s with host := rest }).outcome := by
      rw [step_host (by simp [hi]) hh, hostEvent, hostCmdReset, hd]
      rfl
    rw [hstep, abandonIllegal_idle (s := { s with host := rest }) w n hi hk]
    rfl

end Sys2Proof.Machine
end
